-- ==== Sys2Proof/Word.lean ====
section
/-! DEFINITION. The value types of the block: bytes, 32-bit datapath words (`00_scope.md` R10, W = 32)
and frame times (`44_jitter.md` R261, TIME_W = 64). -/

namespace Sys2Proof

/-- A byte of the payload, of the PCM buffer or of a queue entry. -/
abbrev Byte := BitVec 8

/-- A decoder datapath value: 32-bit two's complement, every `+`, `-`, `*` wraps (R10, W = 32). -/
abbrev Word := BitVec 32

/-- A frame time: 64-bit two's complement (R261, TIME_W = 64). -/
abbrev Time := BitVec 64

end Sys2Proof
end

