-- ==== Sys2Proof/Config.lean ====
section
/-! DEFINITION. The parameters of `00_scope.md` R7 and the free values of the model.
The two profiles differ in three parameters, which are functions of the profile. The four OPEN
parameters are carried by `Params`; the machine state holds one `Params`, so a statement about
every state is a statement about every choice of them. -/

namespace Sys2Proof.Config

/-- The two profiles of R7. DOC is the normative one. -/
inductive Profile
  | doc
  | ref
deriving DecidableEq, Repr

/-- What the 0xFFFF clamp of the Rice history tests (R7, R159). -/
inductive HistClamp
  | onHistory
  | onDecoded
deriving DecidableEq, Repr

/-- RICE_UNREAD_MAX: largest extra-bits field that hands a bit back (R7, R154; U1). -/
def Profile.riceUnreadMax : Profile → Nat
  | .doc => 0
  | .ref => 1

/-- HIST_CLAMP (R7, R159; U2). -/
def Profile.histClamp : Profile → HistClamp
  | .doc => .onHistory
  | .ref => .onDecoded

/-- COEF_W: width in bits of a coefficient register (R7, R27; U3). -/
def Profile.coefW : Profile → Nat
  | .doc => 16
  | .ref => 32

/-- PAD_BYTES (R7, R60): bytes of padding after a payload. -/
def padBytes : Nat := 3

/-- RICE_THRESHOLD (R7, R150): T, the escape threshold of the unary prefix. -/
def riceThreshold : Nat := 8

/-- MONO_MIX_RSVD (R7, R219): a mono compressed frame carries 16 ignored bits. -/
def monoMixRsvd : Bool := true

/-- CF_UNCOMPRESSED_VALUE (R7, R95): the value of header bit CF that selects the uncompressed path. -/
def cfUncompressedValue : BitVec 1 := 1

/-- LINE_START (R7, R34): reset value of JB_WRITTEN. -/
def lineStart : Time := 0

/-- The parameters that vary between instances of the block: the profile and the four OPEN
parameters of R7, each any number (D7: "any finite size works"; log 2). -/
structure Params where
  /-- The profile, DOC or REF. -/
  profile : Profile
  /-- BUF_SAMPLES: samples per channel the sample buffers hold. -/
  bufSamples : Nat
  /-- PAYLOAD_MAX: largest payload length in bytes. -/
  payloadMax : Nat
  /-- JB_CAPACITY: entries the jitter buffer holds. -/
  jbCapacity : Nat
  /-- JB_HORIZON: the max buffering horizon, in frames. -/
  jbHorizon : Nat
deriving DecidableEq, Repr

/-- BUF_SAMPLES of the instance that `State.reset` describes: OPEN, no value known (R7, D7). -/
opaque openBufSamples : Nat

/-- PAYLOAD_MAX of the instance that `State.reset` describes: OPEN, no value known (R7, D7). -/
opaque openPayloadMax : Nat

/-- JB_CAPACITY of the instance that `State.reset` describes: OPEN, no value known (R7, D22). -/
opaque openJbCapacity : Nat

/-- JB_HORIZON of the instance that `State.reset` describes: OPEN, no value known (R7, D32). -/
opaque openJbHorizon : Nat

/-- FREE VALUE (log 7). The 64-bit value that stands for a time whose exact value lies outside the
signed 64-bit range: R261 assumes that no such value arises and states none (U15). The first
argument is the machine's tick, the second the exact value. -/
opaque timeOutside : Nat → Int → Time

/-- FREE VALUE (log 35). What a 32-bit register holds when a rule gives it a number of 2^32 or more: ERR_INFO
of a `Truncated` (R131, R22), PCM_LEN (R38, R228), BC_LEN (R23, R130). The first argument is the machine's
tick, the second the number. -/
opaque wordOutside : Nat → Nat → Word

/-- FREE VALUE (log 36). `sext_N(v)` for an N outside 1..32, of which R10 says nothing. -/
opaque sextOutside : Nat → Word → Word

/-- FREE VALUE (log 36). `asr(v, n)` for an n above 31, of which R10 says nothing. -/
opaque asrOutside : Word → Nat → Word

/-- The parameters of the instance that `State.reset` describes: profile DOC, OPEN values unknown. -/
def resetParams : Params :=
  { profile := .doc
    bufSamples := openBufSamples
    payloadMax := openPayloadMax
    jbCapacity := openJbCapacity
    jbHorizon := openJbHorizon }

end Sys2Proof.Config
end

