-- ==== Sys2Proof/Syntax.lean ====
section
/-! DEFINITION. The operations of the block, one constructor per row of `opcode_table.json`
(`30_encoding.md` R112), with the operands the rule of each gives it, and the contexts in which an
operation is selected (the table's "format" and "selected_by"). -/

namespace Sys2Proof

/-- A channel of a frame: A is the only channel of a mono frame and the first of a stereo frame (R26). -/
inductive Chan
  | a
  | b
deriving DecidableEq, Repr

/-- What the frame decoder hands the Rice decoder for one channel (R150, R221). -/
structure RiceOperands where
  /-- N, the number of residuals of the channel. -/
  count : Nat
  /-- n, the raw width of an escaped sample. -/
  width : Nat
  /-- inithist, the history the stream starts from. -/
  initHist : Word
  /-- kmod. -/
  kmod : Nat
  /-- hm, the history multiplier. -/
  hm : Word
  /-- runmask, the mask of a run word. -/
  runMask : Word
deriving DecidableEq, Repr

/-- The 43 operations of R112, in the order of the opcode table. -/
inductive Instr
  /-- BC.INIT (R130). -/
  | bcInit (len : Word)
  /-- BC.READ (R131). -/
  | bcRead (n : Nat)
  /-- BC.UNREAD (R133). -/
  | bcUnread (n : Nat)
  /-- BC.CLZ (R134). -/
  | bcClz (v : Word)
  /-- RD.VALUE.ESC (R153): raw width n, Rice parameter k, mask. -/
  | rdValueEsc (n : Nat) (k : Int) (mask : Word)
  /-- RD.VALUE.UNARY (R152). -/
  | rdValueUnary (n : Nat) (k : Int) (mask : Word)
  /-- RD.VALUE.SHORT (R154). -/
  | rdValueShort (n : Nat) (k : Int) (mask : Word)
  /-- RD.VALUE.LONG (R162). -/
  | rdValueLong (n : Nat) (k : Int) (mask : Word)
  /-- RD.STREAM (R161): a whole channel's residuals. -/
  | rdStream (c : Chan) (o : RiceOperands)
  /-- RD.SAMPLE (R156 to R159): the sample word of index i. -/
  | rdSample (c : Chan) (i : Nat) (o : RiceOperands)
  /-- RD.RUN (R160): the run word after sample i. -/
  | rdRun (c : Chan) (i : Nat) (o : RiceOperands)
  /-- LP.COPY (R182). -/
  | lpCopy (c : Chan)
  /-- LP.DIFF (R183). -/
  | lpDiff (c : Chan)
  /-- LP.FIR (R189), with its ORDER field. -/
  | lpFir (c : Chan) (order : BitVec 5)
  /-- FD.HEADER (R211 to R216). -/
  | fdHeader
  /-- FD.MONO.C (R231). -/
  | fdMonoC
  /-- FD.MONO.U (R232). -/
  | fdMonoU
  /-- FD.STEREO.C (R233). -/
  | fdStereoC
  /-- FD.STEREO.U (R234). -/
  | fdStereoU
  /-- FD.CHHDR (R218) of channel c. -/
  | fdChhdr (c : Chan)
  /-- FD.RAWLOW (R220). -/
  | fdRawlow
  /-- FD.VERBATIM (R223). -/
  | fdVerbatim
  /-- FD.MIX.WEIGHTED (R224), with its SHIFT and LEFTWEIGHT fields. -/
  | fdMixWeighted (shift weight : BitVec 8)
  /-- FD.MIX.DIRECT (R225), with its unused SHIFT field. -/
  | fdMixDirect (shift : BitVec 8)
  /-- FD.PACK16 (R226). -/
  | fdPack16
  /-- FD.PACK24 (R227). -/
  | fdPack24
  /-- JB.SYNC (R262). -/
  | jbSync (remote loc : Time)
  /-- JB.TOREMOTE (R263). -/
  | jbToRemote (loc : Time)
  /-- JB.FROMREMOTE (R263). -/
  | jbFromRemote (remote : Time)
  /-- JB.ENQ (R264). -/
  | jbEnq (key : Time) (bytes : List Byte)
  /-- JB.DRAIN.IDLE (R271). -/
  | jbDrainIdle
  /-- JB.DRAIN.GAP (R272). -/
  | jbDrainGap
  /-- JB.DRAIN.EMIT (R273). -/
  | jbDrainEmit
  /-- JB.DRAIN.TRUNC (R274). -/
  | jbDrainTrunc
  /-- JB.DRAIN.SKIP (R276). -/
  | jbDrainSkip
  /-- JB.CLOSE (R278). -/
  | jbClose
  /-- H.RESET (R307). -/
  | hReset
  /-- H.CONFIGURE (R301), the seven values of R30. -/
  | hConfigure (maxSamples : BitVec 32) (sampleSize historyMult initHistory kModifier channels : BitVec 8)
      (sampleRate : BitVec 32)
  /-- H.DECODE (R302): key and payload; LEN is the payload's length. -/
  | hDecode (key : Time) (payload : List Byte)
  /-- H.ENQUEUE (R303). -/
  | hEnqueue (key : Time) (bytes : List Byte)
  /-- H.SYNC (R304). -/
  | hSync (remote loc : Time)
  /-- H.CLOSE (R305). -/
  | hClose
  /-- H.STATUS (R306). -/
  | hStatus
deriving DecidableEq, Repr

/-- Where an operation comes from: which bits, read in which context, select it (the table's
"format" and "selected_by"; R104, R105: which kind of word comes next is decided by the decoder's
state and not by any bit). -/
inductive Source
  /-- A command word at the command port (host-command). -/
  | host
  /-- The 23-bit header at payload bit 0, as the name of a frame kind (frame-header). -/
  | frame
  /-- The same 23 bits, as the header alone (frame-header). -/
  | header
  /-- The 16 bits at POS, as the channel header of channel c (channel-header). -/
  | chhdr (c : Chan)
  /-- The bits at POS, as a Rice code word with raw width n, parameter k and mask (rice-word). -/
  | rice (n : Nat) (k : Int) (mask : Word)
  /-- The 5-bit ORDER field of channel c (order-field). -/
  | order (c : Chan)
  /-- The 16 bits of the mix fields (mix-field). -/
  | mix
  /-- An operation with no bits of its own, named by its caller (internal, body-field). -/
  | call (i : Instr)
deriving DecidableEq, Repr

/-- The context in which an operation's bits are read. -/
def Instr.source : Instr → Source
  | .hReset => .host
  | .hConfigure .. => .host
  | .hDecode .. => .host
  | .hEnqueue .. => .host
  | .hSync .. => .host
  | .hClose => .host
  | .hStatus => .host
  | .fdMonoC => .frame
  | .fdMonoU => .frame
  | .fdStereoC => .frame
  | .fdStereoU => .frame
  | .fdHeader => .header
  | .fdChhdr c => .chhdr c
  | .rdValueEsc n k mask => .rice n k mask
  | .rdValueUnary n k mask => .rice n k mask
  | .rdValueShort n k mask => .rice n k mask
  | .rdValueLong n k mask => .rice n k mask
  | .lpCopy c => .order c
  | .lpDiff c => .order c
  | .lpFir c _ => .order c
  | .fdMixWeighted .. => .mix
  | .fdMixDirect _ => .mix
  | .bcInit len => .call (.bcInit len)
  | .bcRead n => .call (.bcRead n)
  | .bcUnread n => .call (.bcUnread n)
  | .bcClz v => .call (.bcClz v)
  | .rdStream c o => .call (.rdStream c o)
  | .rdSample c i o => .call (.rdSample c i o)
  | .rdRun c i o => .call (.rdRun c i o)
  | .fdRawlow => .call .fdRawlow
  | .fdVerbatim => .call .fdVerbatim
  | .fdPack16 => .call .fdPack16
  | .fdPack24 => .call .fdPack24
  | .jbSync remote loc => .call (.jbSync remote loc)
  | .jbToRemote loc => .call (.jbToRemote loc)
  | .jbFromRemote remote => .call (.jbFromRemote remote)
  | .jbEnq key bytes => .call (.jbEnq key bytes)
  | .jbDrainIdle => .call .jbDrainIdle
  | .jbDrainGap => .call .jbDrainGap
  | .jbDrainEmit => .call .jbDrainEmit
  | .jbDrainTrunc => .call .jbDrainTrunc
  | .jbDrainSkip => .call .jbDrainSkip
  | .jbClose => .call .jbClose

end Sys2Proof
end

