-- ==== Sys2Proof/WellFormed.lean ====
section
/-! DEFINITION. Which operand values the rules give an operation: the ranges of the rules cited in
each line. An operation with other operands is no operation of the spec. -/

namespace Sys2Proof

/-- R150, R151: the raw width of an escape is a width `readBits` takes. -/
def riceWidthOk (n : Nat) : Bool := 1 ≤ n && n ≤ 32

/-- R150: the operands of a Rice stream; the count fits FH_N, the width is a read width, kmod
is an 8-bit value (R30). -/
def RiceOperands.wf (o : RiceOperands) : Bool :=
  o.count < 2 ^ 32 && riceWidthOk o.width && o.kmod < 2 ^ 8

/-- The operand ranges of the rules. -/
def Instr.wf : Instr → Bool
  | .bcInit _ => true
  | .bcRead n => 1 ≤ n && n ≤ 32                       -- R131
  | .bcUnread n => 1 ≤ n                               -- R133
  | .bcClz _ => true
  | .rdValueEsc n k _ => riceWidthOk n && 1 ≤ k && k ≤ 31     -- R103, R151
  | .rdValueUnary n k _ => riceWidthOk n && k = 1             -- R103 form 2a
  | .rdValueShort n k _ => riceWidthOk n && 2 ≤ k && k ≤ 31   -- R103 form 2b
  | .rdValueLong n k _ => riceWidthOk n && 2 ≤ k && k ≤ 31    -- R103 form 2c
  | .rdStream _ o => o.wf
  | .rdSample _ i o => o.wf && i < o.count             -- R161: while i < N
  | .rdRun _ i o => o.wf && i + 1 < o.count            -- R160
  | .lpCopy _ => true
  | .lpDiff _ => true
  | .lpFir _ order => order ≠ 0 && order ≠ 31          -- R180
  | .fdHeader => true
  | .fdMonoC => true
  | .fdMonoU => true
  | .fdStereoC => true
  | .fdStereoU => true
  | .fdChhdr _ => true
  | .fdRawlow => true
  | .fdVerbatim => true
  | .fdMixWeighted shift weight => shift ≤ 31 && weight ≠ 0   -- R224
  | .fdMixDirect _ => true
  | .fdPack16 => true
  | .fdPack24 => true
  | .jbSync _ _ => true
  | .jbToRemote _ => true
  | .jbFromRemote _ => true
  | .jbEnq _ _ => true
  | .jbDrainIdle => true
  | .jbDrainGap => true
  | .jbDrainEmit => true
  | .jbDrainTrunc => true
  | .jbDrainSkip => true
  | .jbClose => true
  | .hReset => true
  | .hConfigure .. => true                             -- illegal values are refused, R301
  | .hDecode _ payload => payload.length < 2 ^ 32      -- LEN is a 32-bit number, R23
  | .hEnqueue _ bytes => bytes.length < 2 ^ 32
  | .hSync _ _ => true
  | .hClose => true
  | .hStatus => true

end Sys2Proof
end

