-- ==== Sys2Proof/Decode.lean ====
section
/-! DEFINITION. From bits to operations and back (`30_encoding.md`). Bit strings are lists of Bool in
payload order, most significant bit of a field first (`00_scope.md` R9). The decoder is total: what
selects no operation is rejected by name. -/

namespace Sys2Proof

/-! ## Bits and numbers -/

/-- The n low bits of v, most significant first (R9). -/
def bitsOfNat : Nat → Nat → List Bool
  | 0, _ => []
  | n + 1, v => v.testBit n :: bitsOfNat n v

/-- The number whose bits, most significant first, are the list (R61). -/
def natOfBits (bits : List Bool) : Nat :=
  bits.foldl (fun acc b => 2 * acc + b.toNat) 0

/-- The first n bits as a number, and what follows them. -/
def takeNat (n : Nat) (bits : List Bool) : Option (Nat × List Bool) :=
  if n ≤ bits.length then some (natOfBits (bits.take n), bits.drop n) else none

/-- The bytes as bits, each from its most significant bit down (R9). -/
def bitsOfBytes : List Byte → List Bool
  | [] => []
  | b :: rest => bitsOfNat 8 b.toNat ++ bitsOfBytes rest

/-- n bytes from a bit string, and what follows them. -/
def takeBytes : Nat → List Bool → Option (List Byte × List Bool)
  | 0, bits => some ([], bits)
  | n + 1, bits =>
    (takeNat 8 bits).bind fun hd =>
      (takeBytes n hd.2).map fun tl => (BitVec.ofNat 8 hd.1 :: tl.1, tl.2)

/-! ## The decoder -/

/-- Why bits select no operation. -/
inductive DecodeError
  /-- A command code 7..15 (R108, R300: answered with `BadCommand`). -/
  | reservedCode (code : Nat)
  /-- The bits end inside the field or command word. -/
  | shortWord
  /-- The bits end inside the word or the field is illegal: the operation named reads them and
  raises the DecodeError that R322 to R324 and R151 give. -/
  | raises (i : Instr)
  /-- An operation that has bits of its own was named by a caller. -/
  | notInternal
deriving DecidableEq, Repr

/-- H.CONFIGURE's operands, in R301's order. -/
def decodeConfigure (bits : List Bool) : Option (Instr × List Bool) :=
  (takeNat 32 bits).bind fun maxSamples =>
  (takeNat 8 maxSamples.2).bind fun sampleSize =>
  (takeNat 8 sampleSize.2).bind fun historyMult =>
  (takeNat 8 historyMult.2).bind fun initHistory =>
  (takeNat 8 initHistory.2).bind fun kModifier =>
  (takeNat 8 kModifier.2).bind fun channels =>
  (takeNat 32 channels.2).map fun rate =>
    (.hConfigure (BitVec.ofNat 32 maxSamples.1) (BitVec.ofNat 8 sampleSize.1) (BitVec.ofNat 8 historyMult.1)
      (BitVec.ofNat 8 initHistory.1) (BitVec.ofNat 8 kModifier.1) (BitVec.ofNat 8 channels.1)
      (BitVec.ofNat 32 rate.1), rate.2)

/-- A key, a 32-bit length and that many bytes: the operands of H.DECODE and H.ENQUEUE. -/
def decodeKeyBytes (bits : List Bool) : Option ((Time × List Byte) × List Bool) :=
  (takeNat 64 bits).bind fun key =>
  (takeNat 32 key.2).bind fun len =>
  (takeBytes len.1 len.2).map fun bytes => ((BitVec.ofNat 64 key.1, bytes.1), bytes.2)

/-- The two times of H.SYNC. -/
def decodeSync (bits : List Bool) : Option (Instr × List Bool) :=
  (takeNat 64 bits).bind fun remote =>
  (takeNat 64 remote.2).map fun loc =>
    (.hSync (BitVec.ofNat 64 remote.1) (BitVec.ofNat 64 loc.1), loc.2)

/-- A missing operand bit makes the whole word short. -/
def orShort {α : Type} : Option α → Except DecodeError α
  | some x => .ok x
  | none => .error .shortWord

/-- The 4-bit command code (R108) and its operands (layout: log 5). -/
def decodeCommand (bits : List Bool) : Except DecodeError (Instr × List Bool) :=
  match takeNat 4 bits with
  | none => .error .shortWord
  | some (code, rest) =>
    match code with
    | 0 => .ok (.hReset, rest)
    | 1 => orShort (decodeConfigure rest)
    | 2 => orShort ((decodeKeyBytes rest).map fun r => (.hDecode r.1.1 r.1.2, r.2))
    | 3 => orShort ((decodeKeyBytes rest).map fun r => (.hEnqueue r.1.1 r.1.2, r.2))
    | 4 => orShort (decodeSync rest)
    | 5 => .ok (.hClose, rest)
    | 6 => .ok (.hStatus, rest)
    | _ => .error (.reservedCode code)

/-- The frame kind that CHAN and CF of a header's 23 bits name (R91, R92, R95). -/
def frameOfHeader (w : Nat) : Option Instr :=
  let uncompressed := w % 2 = Config.cfUncompressedValue.toNat
  match w / 2 ^ 20 with
  | 0 => if uncompressed then some .fdMonoU else some .fdMonoC
  | 1 => if uncompressed then some .fdStereoU else some .fdStereoC
  | _ => none

/-- The 23 header bits as the name of a frame kind; CHAN in 2..7 and a header the payload does not
hold are for FD.HEADER to raise (R212, R213, R322). -/
def decodeFrame (bits : List Bool) : Except DecodeError (Instr × List Bool) :=
  match takeNat 23 bits with
  | none => .error (.raises .fdHeader)
  | some (w, rest) =>
    match frameOfHeader w with
    | some i => .ok (i, rest)
    | none => .error (.raises .fdHeader)

/-- The 23 header bits as the header alone. -/
def decodeHeader (bits : List Bool) : Except DecodeError (Instr × List Bool) :=
  match takeNat 23 bits with
  | none => .error (.raises .fdHeader)
  | some (_, rest) => .ok (.fdHeader, rest)

/-- The 16 bits of a channel header (R98): a prediction type other than 0 is for FD.CHHDR to raise. -/
def decodeChhdr (c : Chan) (bits : List Bool) : Except DecodeError (Instr × List Bool) :=
  match takeNat 16 bits with
  | none => .error (.raises (.fdChhdr c))
  | some (w, rest) => if w / 2 ^ 12 = 0 then .ok (.fdChhdr c, rest) else .error (.raises (.fdChhdr c))

/-- The unary prefix (R104, R152): at most `room` bits are looked at; the count of one-bits, and
what follows the terminator (or the last one-bit, when `room` ones were found). -/
def prefixOfBits : Nat → Nat → List Bool → Option (Nat × List Bool)
  | 0, x, bits => some (x, bits)
  | _ + 1, _, [] => none
  | _ + 1, x, false :: rest => some (x, rest)
  | room + 1, x, true :: rest => prefixOfBits room (x + 1) rest

/-- Which of the four forms of R103 the bits at the cursor hold (R104), and what follows the word.
In the short form the last of the k bits is the first of what follows. -/
def decodeRice (unreadMax n : Nat) (k : Int) (mask : Word) (bits : List Bool) :
    Except DecodeError (Instr × List Bool) :=
  if k < 1 ∨ 31 < k then .error (.raises (.rdValueUnary n k mask))
  else
    match prefixOfBits (Config.riceThreshold + 1) 0 bits with
    | none => .error (.raises (.rdValueUnary n k mask))
    | some (x, rest) =>
      if Config.riceThreshold < x then
        match takeNat n rest with
        | none => .error (.raises (.rdValueEsc n k mask))
        | some (_, after) => .ok (.rdValueEsc n k mask, after)
      else if k = 1 then .ok (.rdValueUnary n k mask, rest)
      else
        match takeNat k.toNat rest with
        | none => .error (.raises (.rdValueShort n k mask))
        | some (extra, after) =>
          if unreadMax < extra then .ok (.rdValueLong n k mask, after)
          else .ok (.rdValueShort n k mask, rest.drop (k.toNat - 1))

/-- The predictor mode that a 5-bit ORDER selects (R180). -/
def predictorOf (c : Chan) (order : BitVec 5) : Instr :=
  if order = 0 then .lpCopy c else if order = 31 then .lpDiff c else .lpFir c order

/-- The ORDER field (R98, R180). -/
def decodeOrder (c : Chan) (bits : List Bool) : Except DecodeError (Instr × List Bool) :=
  match takeNat 5 bits with
  | none => .error .shortWord
  | some (order, rest) => .ok (predictorOf c (BitVec.ofNat 5 order), rest)

/-- The mix that LEFTWEIGHT selects (R224, R225). -/
def mixOf (shift weight : BitVec 8) : Instr :=
  if weight = 0 then .fdMixDirect shift else .fdMixWeighted shift weight

/-- The mix fields, SHIFT before LEFTWEIGHT (R97). -/
def decodeMix (bits : List Bool) : Except DecodeError (Instr × List Bool) :=
  match takeNat 8 bits with
  | none => .error .shortWord
  | some (shift, rest) =>
    match takeNat 8 rest with
    | none => .error .shortWord
    | some (weight, after) => .ok (mixOf (BitVec.ofNat 8 shift) (BitVec.ofNat 8 weight), after)

/-- The operation that the bits select in a context, and the bits that follow it. `unreadMax` is
RICE_UNREAD_MAX of the profile (R7). -/
def decode (unreadMax : Nat) (src : Source) (bits : List Bool) : Except DecodeError (Instr × List Bool) :=
  match src with
  | .host => decodeCommand bits
  | .frame => decodeFrame bits
  | .header => decodeHeader bits
  | .chhdr c => decodeChhdr c bits
  | .rice n k mask => decodeRice unreadMax n k mask bits
  | .order c => decodeOrder c bits
  | .mix => decodeMix bits
  | .call i => if i.source = .call i then .ok (i, bits) else .error .notInternal

/-! ## The encoder -/

/-- The 23 header bits with CHAN and CF, every free bit 0 (R92). -/
def headerBits (chan cf : Nat) : List Bool :=
  bitsOfNat 3 chan ++ bitsOfNat 16 0 ++ bitsOfNat 1 0 ++ bitsOfNat 2 0 ++ bitsOfNat 1 cf

/-- A key, a length and bytes (log 5). -/
def encodeKeyBytes (key : Time) (bytes : List Byte) : List Bool :=
  bitsOfNat 64 key.toNat ++ bitsOfNat 32 bytes.length ++ bitsOfBytes bytes

/-- The bits of an operation in its own context (`Instr.source`). Where the operation reads its
field values from the payload itself (a frame header's reserved bits, a code word's extra bits),
the word written here has one choice of them. -/
def encode : Instr → List Bool
  | .hReset => bitsOfNat 4 0
  | .hConfigure maxSamples sampleSize historyMult initHistory kModifier channels rate =>
    bitsOfNat 4 1 ++ (bitsOfNat 32 maxSamples.toNat ++ (bitsOfNat 8 sampleSize.toNat ++
      (bitsOfNat 8 historyMult.toNat ++ (bitsOfNat 8 initHistory.toNat ++ (bitsOfNat 8 kModifier.toNat ++
        (bitsOfNat 8 channels.toNat ++ bitsOfNat 32 rate.toNat))))))
  | .hDecode key payload => bitsOfNat 4 2 ++ encodeKeyBytes key payload
  | .hEnqueue key bytes => bitsOfNat 4 3 ++ encodeKeyBytes key bytes
  | .hSync remote loc => bitsOfNat 4 4 ++ (bitsOfNat 64 remote.toNat ++ bitsOfNat 64 loc.toNat)
  | .hClose => bitsOfNat 4 5
  | .hStatus => bitsOfNat 4 6
  | .fdMonoC => headerBits 0 (1 - Config.cfUncompressedValue.toNat)
  | .fdMonoU => headerBits 0 Config.cfUncompressedValue.toNat
  | .fdStereoC => headerBits 1 (1 - Config.cfUncompressedValue.toNat)
  | .fdStereoU => headerBits 1 Config.cfUncompressedValue.toNat
  | .fdHeader => headerBits 0 0
  | .fdChhdr _ => bitsOfNat 16 0
  | .rdValueEsc n _ _ => List.replicate (Config.riceThreshold + 1) true ++ bitsOfNat n 0
  | .rdValueUnary _ _ _ => [false]
  | .rdValueShort _ k _ => false :: bitsOfNat k.toNat 0
  | .rdValueLong _ k _ => false :: bitsOfNat k.toNat (2 ^ k.toNat - 1)
  | .lpCopy _ => bitsOfNat 5 0
  | .lpDiff _ => bitsOfNat 5 31
  | .lpFir _ order => bitsOfNat 5 order.toNat
  | .fdMixWeighted shift weight => bitsOfNat 8 shift.toNat ++ bitsOfNat 8 weight.toNat
  | .fdMixDirect shift => bitsOfNat 8 shift.toNat ++ bitsOfNat 8 0
  | .bcInit _ => []
  | .bcRead _ => []
  | .bcUnread _ => []
  | .bcClz _ => []
  | .rdStream _ _ => []
  | .rdSample _ _ _ => []
  | .rdRun _ _ _ => []
  | .fdRawlow => []
  | .fdVerbatim => []
  | .fdPack16 => []
  | .fdPack24 => []
  | .jbSync _ _ => []
  | .jbToRemote _ => []
  | .jbFromRemote _ => []
  | .jbEnq _ _ => []
  | .jbDrainIdle => []
  | .jbDrainGap => []
  | .jbDrainEmit => []
  | .jbDrainTrunc => []
  | .jbDrainSkip => []
  | .jbClose => []

/-- The fields of a frame header (R90). -/
structure HeaderFields where
  /-- CHAN. -/
  chan : BitVec 3
  /-- RSVD. -/
  rsvd : BitVec 16
  /-- HASSIZE. -/
  hasSize : BitVec 1
  /-- UB. -/
  ub : BitVec 2
  /-- CF. -/
  cf : BitVec 1
  /-- NSAMPLES, present when HASSIZE = 1. -/
  nsamples : BitVec 32
deriving DecidableEq, Repr

/-- The bits of a frame header, with every field at its value (R90). -/
def encodeHeader (h : HeaderFields) : List Bool :=
  bitsOfNat 3 h.chan.toNat ++ (bitsOfNat 16 h.rsvd.toNat ++ (bitsOfNat 1 h.hasSize.toNat ++
    (bitsOfNat 2 h.ub.toNat ++ (bitsOfNat 1 h.cf.toNat ++
      (if h.hasSize = 1 then bitsOfNat 32 h.nsamples.toNat else [])))))

/-- The bits of a channel header (R98) and its coefficient table (R106 (b)). -/
def encodeChhdr (ptype quant : BitVec 4) (riceMod : BitVec 3) (order : BitVec 5) (coefs : List (BitVec 16)) :
    List Bool :=
  bitsOfNat 4 ptype.toNat ++ (bitsOfNat 4 quant.toNat ++ (bitsOfNat 3 riceMod.toNat ++
    (bitsOfNat 5 order.toNat ++ coefs.flatMap fun v => bitsOfNat 16 v.toNat)))

/-! ## The table's words -/

/-- Zero bits above the table's, up to the longest instruction: a channel header with its 31
coefficients has 512 bits. -/
def tableZeros : List Bool := List.replicate 512 false

/-- Which context the host's table word is a word of (log 23). The table numbers a row's bits as
one number, most significant bit first in the payload, and rounds a row's width up to whole bytes,
which leaves a 4-bit command code and a 5-bit ORDER, and the three 16-bit rows, to be told apart
here. -/
def tableSource (nbits w : Nat) : Option (Source × List Bool) :=
  match nbits with
  | 4 => some (.host, bitsOfNat 4 w)
  | 5 => some (.order .a, bitsOfNat 5 w)
  | 8 => if w < 7 then some (.host, bitsOfNat 4 w) else if w < 32 then some (.order .a, bitsOfNat 5 w) else none
  | 9 => some (.rice 16 1 0xFFFFFFFF, bitsOfNat 9 w)
  | 16 =>
    if w = 511 then some (.rice 16 1 0xFFFFFFFF, bitsOfNat 9 w)
    else if w < 2 ^ 12 then some (.chhdr .a, bitsOfNat 16 w)
    else some (.mix, bitsOfNat 16 w)
  | 23 => some (.frame, bitsOfNat 23 w)
  | 24 => if w < 2 ^ 23 then some (.frame, bitsOfNat 23 w) else none
  | _ => none

/-- The operation the decoder reads from a word of the opcode table. A header whose CHAN is 2..7 names
no frame kind: the operation that reads it is FD.HEADER, which raises (R212). -/
def decodeTableWord (nbits w : Nat) : Option Instr :=
  match tableSource nbits w with
  | none => none
  | some (src, bits) =>
    match decode (Config.Profile.doc).riceUnreadMax src (bits ++ tableZeros) with
    | .ok (i, _) => some i
    | .error (.raises i) => some i
    | .error _ => none

end Sys2Proof
end

