-- ==== Sys2Proof/Machine/State.lean ====
section
/-! DEFINITION. The state of the block (`10_state.md`), the reasons a step can stop, and the state
after reset (R44). State is plain data. -/

namespace Sys2Proof.Machine

/-- MODE, the lifecycle register (R21). -/
inductive Mode
  | unconfigured
  | ready
  | faulted
  | closed
deriving DecidableEq, Repr

/-- The causes of a DecodeError (R321). -/
inductive Cause
  | truncated
  | unsupportedChannelConfig
  | unsupportedPredictionType
  | unsupportedSampleSize
  | malformed
deriving DecidableEq, Repr

/-- One record of the log stream (R340). -/
inductive LogRecord
  | fault (code : BitVec 8)
  | dropLate (key : Time)
  | dropEarly (key : Time)
  | dropFull (key : Time)
  | replaced (key : Time)
  | gap (key : Time)
  | truncated (key : Time)
  | skipped (key : Time)
deriving DecidableEq, Repr

/-- The status of a command (R300), in the order of its codes 0 to 6. -/
inductive Status
  | ok
  | badCommand
  | badMode
  | configError
  | badArgument
  | dropped
  | fault
deriving DecidableEq, Repr

/-- What H.STATUS returns (R306, R108). -/
structure StatusReport where
  /-- MODE. -/
  mode : Mode
  /-- ERR_CODE. -/
  errCode : BitVec 8
  /-- ERR_INFO. -/
  errInfo : BitVec 32
  /-- JB_OFFSET_VALID. -/
  offsetValid : Bool
  /-- JB_CLOSING. -/
  closing : Bool
  /-- JB_WRITTEN. -/
  written : Time
  /-- The number of entries in JB_QUEUE. -/
  queueSize : Nat
deriving DecidableEq, Repr

/-- What the last command or enqueue returned to its caller (R300, R264, R306). -/
inductive Response
  /-- Nothing yet: since reset, or since an H.DECODE whose enqueue is still to come. -/
  | none
  | status (st : Status)
  /-- What H.STATUS returns: its status and its seven values (R300, R306). -/
  | report (st : Status) (r : StatusReport)
deriving DecidableEq, Repr

/-- One turn of one agent (R20): who moves next, and the input that move takes (R39, R73). -/
inductive Turn
  /-- HOST: a command word at the command port. -/
  | host (word : List Bool)
  /-- DEC: the enqueue that ends an H.DECODE, a transition of its own (R228, R302). -/
  | dec
  /-- DRAIN: one step, if it is awake and enabled (R270). -/
  | drain
  /-- DRAIN: falls asleep (R353). -/
  | sleep
  /-- ENV: drives SINK_READY (R43). -/
  | sink (ready : Bool)
  /-- One operation of the table on its own, selected in the context named (log 12). -/
  | unit (src : Source)
deriving DecidableEq, Repr

/-- A space of cells, by address. -/
abbrev Cells (α : Type) := List (Nat × α)

/-- Bytes by address; an address that is not listed holds no byte (log 17). -/
abbrev Memory := List Host.Cell

/-- A file of whole values by index; an index that is not listed holds 0 (log 1). -/
abbrev File (w : Nat) := Cells (BitVec w)

/-- The registers of one channel (R26, R27, R28). -/
structure ChanRegs where
  /-- CH_PTYPE_c. -/
  ptype : BitVec 4
  /-- CH_QUANT_c. -/
  quant : BitVec 4
  /-- CH_RICEMOD_c. -/
  riceMod : BitVec 3
  /-- CH_ORDER_c. -/
  order : BitVec 5
  /-- COEF_c[0..30], each sign-extended from COEF_W to 32 bits (R27, R185). -/
  coef : Vector Word 31
  /-- RESID_c. -/
  resid : File 32
  /-- OUT_c. -/
  out : File 32
  /-- RAW_c. -/
  raw : File 24
deriving DecidableEq, Repr

/-- One entry of JB_QUEUE: key and bytes (R33). -/
abbrev QueueEntry := Time × List Byte

/-- The state of the block. The registers stand in the order of `10_state.md`; the fields after
`sinkReady` that no rule names are the model's own (INVENTORY.md, State). -/
structure State where
  /-- The parameters of the instance (R7); no operation writes them. -/
  prm : Config.Params
  /-- MODE (R21). -/
  mode : Mode
  /-- ERR_CODE (R22). -/
  errCode : BitVec 8
  /-- ERR_INFO (R22). -/
  errInfo : BitVec 32
  /-- CFG_MAXSAMPLES (R30). -/
  cfgMaxSamples : BitVec 32
  /-- CFG_SAMPLE_SIZE (R30). -/
  cfgSampleSize : BitVec 8
  /-- CFG_RICE_HISTORYMULT (R30). -/
  cfgHistoryMult : BitVec 8
  /-- CFG_RICE_INITHISTORY (R30). -/
  cfgInitHistory : BitVec 8
  /-- CFG_RICE_KMODIFIER (R30). -/
  cfgKModifier : BitVec 8
  /-- CFG_CHANNELS (R30). -/
  cfgChannels : BitVec 8
  /-- CFG_SAMPLE_RATE (R30, R31): stored, read by no rule. -/
  cfgSampleRate : BitVec 32
  /-- BC_LEN (R23). -/
  bcLen : BitVec 32
  /-- BC_IDX (R23). -/
  bcIdx : BitVec 32
  /-- BC_ACC (R23). -/
  bcAcc : BitVec 3
  /-- FH_CHAN (R25). -/
  fhChan : BitVec 3
  /-- FH_HASSIZE (R25). -/
  fhHasSize : BitVec 1
  /-- FH_UB (R25). -/
  fhUb : BitVec 2
  /-- FH_CF (R25). -/
  fhCf : BitVec 1
  /-- FH_N (R25). -/
  fhN : BitVec 32
  /-- FH_RSS (R25). -/
  fhRss : BitVec 6
  /-- FH_SHIFT (R25). -/
  fhShift : BitVec 8
  /-- FH_LEFTWEIGHT (R25). -/
  fhLeftWeight : BitVec 8
  /-- The registers of channel A. -/
  chA : ChanRegs
  /-- The registers of channel B. -/
  chB : ChanRegs
  /-- RS_HISTORY (R29). -/
  rsHistory : BitVec 32
  /-- RS_SIGNMOD (R29). -/
  rsSignMod : BitVec 1
  /-- Space PAYLOAD (R60). -/
  payload : Memory
  /-- Space PCM (R38, R64). -/
  pcm : Memory
  /-- PCM_LEN (R38). -/
  pcmLen : BitVec 32
  /-- JB_OFFSET (R32). -/
  jbOffset : Time
  /-- JB_OFFSET_VALID (R32). -/
  jbOffsetValid : Bool
  /-- JB_QUEUE (R33), in increasing key order. -/
  jbQueue : List QueueEntry
  /-- JB_WRITTEN (R34). -/
  jbWritten : Time
  /-- JB_CLOSING (R35). -/
  jbClosing : Bool
  /-- The stream lock (R37): true is held (log 15). -/
  lock : Bool
  /-- DRAIN is awake (R37, R353; log 16). -/
  drainAwake : Bool
  /-- LOG (R37, R340), oldest record first. -/
  log : List LogRecord
  /-- SINK (R260), oldest byte first. -/
  sink : List Byte
  /-- SINK_READY (R43), an input. -/
  sinkReady : Bool
  /-- MIX_L: the left samples between deinterlacing and packing (log 19). -/
  mixL : File 32
  /-- MIX_R: the right samples between deinterlacing and packing (log 19). -/
  mixR : File 32
  /-- The key K of the H.DECODE in progress (R228, R302; log 8). -/
  decKey : Time
  /-- A frame is complete and its enqueue is still to come (R228, R302; log 8). -/
  decPend : Bool
  /-- The number of bytes that enqueue hands over, FH_N * BPF, exactly (R228; log 8, log 35). -/
  decLen : Nat
  /-- What the last command returned (log 14). -/
  resp : Response
  /-- The 32-bit value that the last value-returning operation gave (log 14). -/
  result : Word
  /-- The time that the last translation gave (log 14). -/
  timeResult : Time
  /-- The turns to come, next first (log 4). -/
  agenda : List Turn
  /-- The step counter, argument of the free values of log 7 and log 35. -/
  tick : Nat
deriving DecidableEq, Repr

/-- Why the machine stops although its operations were all decoded. Every one of these is safe: the
rules make no such access, and the machine stops where they say nothing. -/
inductive Fault
  /-- `readBits` of a width outside 1..32: raised by BC.READ and by whatever reads bits. R131: "n
  outside 1..32 is never requested by any rule of this spec ... and has no meaning" (U11). Safe. -/
  | readWidth
  /-- The cursor would go below bit 0: raised by BC.UNREAD. R133: "A model should nevertheless treat
  POS - n < 0 as a fault of the model". Safe. -/
  | cursorBelowZero
  /-- A byte of PAYLOAD or PCM that the buffer does not have or that nothing has written: raised by
  every payload read, by the packs and by the enqueue that ends a DECODE. R40: "A model should make such a read a
  fault of the model". Safe. -/
  | noSuchByte
  /-- A sample index at or beyond BUF_SAMPLES (R28): raised by the operations over sample buffers.
  Safe. -/
  | noSuchEntry
  /-- The operation in a state whose bits or registers select another operation of the table, or
  none: raised by the frame kinds (R91), the code words (R103), the run (R160), the verbatim reader
  (R223), the mixes in a mono frame (R230), the packs (R226, R227) and the drain steps (R270). Safe. -/
  | notSelected
  /-- JB_OFFSET read while JB_OFFSET_VALID = 0: raised by JB.TOREMOTE and JB.FROMREMOTE (R40, R263).
  Safe. -/
  | offsetInvalid
  /-- A DecodeError outside mode READY: raised by `raise`. A raise takes MODE from 1 to 2 (R21) and
  happens only in a DECODE, which only READY admits (R333). Safe. -/
  | raiseOutsideReady
deriving DecidableEq, Repr

/-- Why the machine gives a command or operation no meaning. Both are safe. -/
inductive Refusal
  /-- An instruction that has no meaning in the model yet: answered by `exec`'s arm. Safe. -/
  | notModelled (mnemonic : String)
  /-- A DECODE while a DECODE of the stream has not returned: answered by H.DECODE and the frame
  operations (R372, U10: the result is unspecified), and, as the model's choice (log 38), after a frame on its
  own whose enqueue is still to come. Safe. -/
  | overlappingDecode
  /-- A RESET while a DECODE of the stream has not returned: answered by H.RESET (R373, U10: the
  result is unspecified), and, as the model's choice (log 38), after a frame on its own whose enqueue is still
  to come. Safe. -/
  | resetDuringDecode
  /-- Bits at the command port that are no command of the model's layout, or a turn that names no
  operation: answered by the fetch (log 6). Safe. -/
  | malformedCommand
deriving DecidableEq, Repr

/-- The registers of a channel after reset: R44 leaves them unspecified, log 1 names 0. -/
def ChanRegs.reset : ChanRegs :=
  { ptype := 0, quant := 0, riceMod := 0, order := 0
    coef := Vector.replicate 31 0, resid := [], out := [], raw := [] }

/-- The machine right after RESET or power-on (R44, R360, R361). Registers that R44 leaves
unspecified hold the value log 1 names. -/
def State.reset : State :=
  { prm := Config.resetParams
    mode := .unconfigured
    errCode := 0, errInfo := 0
    cfgMaxSamples := 0, cfgSampleSize := 0, cfgHistoryMult := 0, cfgInitHistory := 0
    cfgKModifier := 0, cfgChannels := 0, cfgSampleRate := 0
    bcLen := 0, bcIdx := 0, bcAcc := 0
    fhChan := 0, fhHasSize := 0, fhUb := 0, fhCf := 0, fhN := 0, fhRss := 0
    fhShift := 0, fhLeftWeight := 0
    chA := ChanRegs.reset, chB := ChanRegs.reset
    rsHistory := 0, rsSignMod := 0
    payload := [], pcm := [], pcmLen := 0
    jbOffset := 0, jbOffsetValid := false, jbQueue := [], jbWritten := Config.lineStart
    jbClosing := false
    lock := false, drainAwake := false
    log := [], sink := []
    sinkReady := false
    mixL := [], mixR := []
    decKey := 0, decPend := false, decLen := 0
    resp := .none, result := 0, timeResult := 0
    agenda := [], tick := 0 }

end Sys2Proof.Machine
end

