-- ==== Sys2Proof/Machine/Mem.lean ====
section
/-! DEFINITION. Cells by address, the payload's bits, and the queue as a sorted map
(`20_memory.md`). Every operation keeps the canonical form that `Memory.wf`, `File.wf` and
`Queue.wf` state, so that equal contents are equal data. -/

namespace Sys2Proof.Machine

/-! ## Cells -/

/-- The value listed at an address. -/
def Cells.get {α : Type} : Cells α → Nat → Option α
  | [], _ => none
  | (a, v) :: rest, x => if a = x then some v else Cells.get rest x

/-- Put a value at an address, keeping addresses rising. -/
def Cells.put {α : Type} : Cells α → Nat → α → Cells α
  | [], x, v => [(x, v)]
  | (a, w) :: rest, x, v =>
    if x < a then (x, v) :: (a, w) :: rest
    else if x = a then (x, v) :: rest
    else (a, w) :: Cells.put rest x v

/-- Remove what an address lists. -/
def Cells.erase {α : Type} : Cells α → Nat → Cells α
  | [], _ => []
  | (a, w) :: rest, x => if a = x then Cells.erase rest x else (a, w) :: Cells.erase rest x

/-- The addresses rise strictly. -/
def Cells.rising {α : Type} : Cells α → Bool
  | [] => true
  | [_] => true
  | (a, _) :: (b, w) :: rest => decide (a < b) && Cells.rising ((b, w) :: rest)

/-- The byte at an address of PAYLOAD or PCM: none where nothing has written (R40, log 17). -/
def Memory.read (m : Memory) (a : Nat) : Option Byte := Cells.get m a

/-- Write one byte (R60, R66). -/
def Memory.write (m : Memory) (a : Nat) (b : Byte) : Memory := Cells.put m a b

/-- The canonical form of a byte space: addresses strictly rising. An unlisted address has no
value, so no entry can equal what it reads as. -/
def Memory.wf (m : Memory) : Bool := Cells.rising m

/-- Write bytes at consecutive addresses. -/
def Memory.writeBytes : Memory → Nat → List Byte → Memory
  | m, _, [] => m
  | m, a, b :: rest => Memory.writeBytes (m.write a b) (a + 1) rest

/-- Read n bytes at consecutive addresses. -/
def Memory.readBytes (m : Memory) : Nat → Nat → Option (List Byte)
  | _, 0 => some []
  | a, n + 1 => (m.read a).bind fun b => (Memory.readBytes m (a + 1) n).map fun rest => b :: rest

/-- The value at an index of a sample buffer: 0 where nothing is listed (log 1). -/
def File.read {w : Nat} (f : File w) (i : Nat) : BitVec w := (Cells.get f i).getD 0

/-- Write a value at an index of a sample buffer; 0 is written by listing nothing. -/
def File.write {w : Nat} (f : File w) (i : Nat) (v : BitVec w) : File w :=
  if v = 0 then Cells.erase f i else Cells.put f i v

/-- The canonical form of a file: indices strictly rising, no entry 0. -/
def File.wf {w : Nat} (f : File w) : Bool := Cells.rising f && f.all fun c => c.2 != 0

/-! ## The payload's bits (R9, R61) -/

/-- Payload bit p: bit 7 - (p mod 8) of byte p div 8 (R9). -/
def payloadBit (m : Memory) (p : Nat) : Option Bool :=
  (m.read (p / 8)).map fun b => b.toNat.testBit (7 - p % 8)

/-- The n payload bits from p on, in payload order. -/
def payloadBits (m : Memory) : Nat → Nat → Option (List Bool)
  | _, 0 => some []
  | p, n + 1 => (payloadBit m p).bind fun b => (payloadBits m (p + 1) n).map fun rest => b :: rest

/-- `MemRead(PAYLOAD, p, n)` (R61). -/
def memRead (m : Memory) (p n : Nat) : Option Word :=
  (payloadBits m p n).map fun bits => BitVec.ofNat 32 (natOfBits bits)

/-- Bits cut into bytes, the last completed with zero bits (R110). -/
def bytesOfBits : Nat → List Bool → List Byte
  | 0, _ => []
  | n + 1, bits => BitVec.ofNat 8 (natOfBits ((bits ++ List.replicate 8 false).take 8)) :: bytesOfBits n (bits.drop 8)

/-! ## The queue (R33) -/

/-- The bytes under a key. -/
def Queue.find : List QueueEntry → Time → Option (List Byte)
  | [], _ => none
  | (k, bytes) :: rest, key => if k = key then some bytes else Queue.find rest key

/-- Put bytes under a key, replacing what is there, in increasing key order as signed integers. -/
def Queue.put : List QueueEntry → Time → List Byte → List QueueEntry
  | [], key, bytes => [(key, bytes)]
  | (k, old) :: rest, key, bytes =>
    if key.toInt < k.toInt then (key, bytes) :: (k, old) :: rest
    else if key = k then (key, bytes) :: rest
    else (k, old) :: Queue.put rest key bytes

/-- The canonical form of the queue: keys strictly rising as signed integers (R33). -/
def Queue.wf : List QueueEntry → Bool
  | [] => true
  | [_] => true
  | (k, _) :: (k', bytes) :: rest => decide (k.toInt < k'.toInt) && Queue.wf ((k', bytes) :: rest)

end Sys2Proof.Machine
end

