-- ==== Sys2Proof/Machine/Operands.lean ====
section
/-! DEFINITION. The arithmetic of `00_scope.md` R10 and the operands that the rules derive: bytes
per frame, the Rice parameters, the history multiplier, the times of unit JB. -/

namespace Sys2Proof.Machine

/-! ## R10's primitives -/

/-- `sext_N(v)`: the low N bits of v as an N-bit two's complement number, 1 <= N <= 32 (R10). For any
other N the value is free (DESIGN CHOICE, log 36). -/
def sext (n : Nat) (v : Word) : Word :=
  if 1 ≤ n ∧ n ≤ 32 then (v.setWidth n).signExtend 32 else Config.sextOutside n v

/-- `zext_N(v)` (R10). -/
def zext (n : Nat) (v : Word) : Word := (v.setWidth n).setWidth 32

/-- `asr(v, n)`: floor(v / 2^n) of the signed v, 0 <= n <= 31 (R10). For a larger n the value is free
(DESIGN CHOICE, log 36). -/
def asr (v : Word) (n : Nat) : Word := if n ≤ 31 then v.sshiftRight n else Config.asrOutside v n

/-- `lsl(v, n)` (R10). -/
def lsl (v : Word) (n : Nat) : Word := v <<< n

/-- `clz32(v)`, in 0..32 (R10, R134). -/
def clz32 (v : Word) : Nat := if v = 0 then 32 else 31 - v.toNat.log2

/-- `sign(v)` (R10). -/
def sign (v : Word) : Word := if v.toInt < 0 then -1 else if v = 0 then 0 else 1

/-- `tdiv(a, b)`: quotient rounded toward zero (R10). -/
def tdiv (a b : Word) : Word := a.sdiv b

/-! ## Frames and bytes -/

/-- BPS = CFG_SAMPLE_SIZE / 8 (R64). -/
def bytesPerSample (s : State) : Nat := s.cfgSampleSize.toNat / 8

/-- BPF = CFG_CHANNELS * CFG_SAMPLE_SIZE / 8 (R33, R64). -/
def bytesPerFrame (s : State) : Nat := s.cfgChannels.toNat * s.cfgSampleSize.toNat / 8

/-- BPF has a value: the configured size is 16 or 24 (R270, R301, D34). -/
def sampleSizeOk (s : State) : Bool := s.cfgSampleSize == 16 || s.cfgSampleSize == 24

/-- JB_QUANTUM = CFG_MAXSAMPLES (R7, D24). -/
def quantum (s : State) : Nat := s.cfgMaxSamples.toNat

/-- n, the number of frames in a byte string (R264). -/
def framesOf (s : State) (bytes : List Byte) : Nat := bytes.length / bytesPerFrame s

/-! ## The bit cursor's position -/

/-- POS = 8 * BC_IDX + BC_ACC (R24). -/
def State.pos (s : State) : Nat := 8 * s.bcIdx.toNat + s.bcAcc.toNat

/-- `POS <- p` (R11, R131). -/
def State.setPos (s : State) (p : Nat) : State :=
  { s with bcIdx := BitVec.ofNat 32 (p / 8), bcAcc := BitVec.ofNat 3 (p % 8) }

/-- What a 32-bit register holds when a rule gives it the number n: n where it fits, a free value where
it does not (DESIGN CHOICE, log 35). -/
def State.word32 (s : State) (n : Nat) : Word :=
  if n < 2 ^ 32 then BitVec.ofNat 32 n else Config.wordOutside s.tick n

/-! ## Channels -/

/-- The registers of channel c. -/
def State.chan (s : State) : Chan → ChanRegs
  | .a => s.chA
  | .b => s.chB

/-- Replace the registers of channel c. -/
def State.setChan (s : State) (c : Chan) (r : ChanRegs) : State :=
  match c with
  | .a => { s with chA := r }
  | .b => { s with chB := r }

/-- Entry j of a coefficient file, sign-extended to 32 bits (R27, R185). -/
def coefGet (coef : Vector Word 31) (j : Nat) : Word := (coef[j]?).getD 0

/-- Write entry j of a coefficient file. -/
def coefSet (coef : Vector Word 31) (j : Nat) (v : Word) : Vector Word 31 := coef.setIfInBounds j v

/-- The channels of a frame: [A] when FH_CHAN = 0, [A, B] when FH_CHAN = 1 (R210). R210 says nothing of
FH_CHAN 2 to 7, which an unsupported channel field leaves behind (R212): an operation that then runs on
its own takes them as 1 (DESIGN CHOICE, log 33). -/
def channels (s : State) : List Chan := if s.fhChan = 0 then [.a] else [.a, .b]

/-! ## Rice parameters -/

/-- k of a sample word, from the history (R156). -/
def sampleK (h : Word) (kmod : Nat) : Int :=
  let t : Int := 31 - (kmod : Int) - (clz32 (asr h 9 + 3) : Int)
  if t < 0 then t + kmod else kmod

/-- k2 of a run word, from the history (R160). -/
def runK (h : Word) : Int := (clz32 h : Int) + (tdiv (h + 16) 64).toInt - 24

/-- m = (2^k - 1) & mask (R103). -/
def riceM (k : Int) (mask : Word) : Word := ((1 <<< k.toNat : Word) - 1) &&& mask

/-- The sign fold of R157: `asr(d + 1, 1)`, negated when d is odd. -/
def fold (d : Word) : Word :=
  let f := asr (d + 1) 1
  if d.getLsbD 0 then -f else f

/-- hm_c = CH_RICEMOD_c * tdiv(CFG_RICE_HISTORYMULT, 4) (R106 (g), R221). -/
def historyMultiplier (s : State) (c : Chan) : Word :=
  BitVec.ofNat 32 ((s.chan c).riceMod.toNat * (s.cfgHistoryMult.toNat / 4))

/-- What R221 hands the Rice decoder for channel c. -/
def riceOperands (s : State) (c : Chan) : RiceOperands :=
  { count := s.fhN.toNat
    width := s.fhRss.toNat
    initHist := s.cfgInitHistory.setWidth 32
    kmod := s.cfgKModifier.toNat
    hm := historyMultiplier s c
    runMask := (1 <<< s.cfgKModifier.toNat : Word) - 1 }

/-! ## Times (R261) -/

/-- The 64-bit value of a time: the exact value where it is in range, a free value where it is not
(U15, log 7). -/
def State.time (s : State) (x : Int) : Time :=
  if -(2 ^ 63) ≤ x ∧ x < 2 ^ 63 then BitVec.ofInt 64 x else Config.timeOutside s.tick x

/-- `toRemote(l)` = l + JB_OFFSET (R263). -/
def toRemote (s : State) (l : Time) : Time := s.time (l.toInt + s.jbOffset.toInt)

/-- `fromRemote(r)` = r - JB_OFFSET (R263). -/
def fromRemote (s : State) (r : Time) : Time := s.time (r.toInt - s.jbOffset.toInt)

/-- L + n for an entry of n frames with key K: the local time at which it ends (R266). -/
def entryEnd (s : State) (key : Time) (n : Nat) : Time := s.time ((fromRemote s key).toInt + n)

/-- L + n - JB_WRITTEN: how far ahead of the line an entry ends (R266). -/
def entryLead (s : State) (key : Time) (n : Nat) : Time := s.time ((entryEnd s key n).toInt - s.jbWritten.toInt)

/-- gap = L - JB_WRITTEN (R270). -/
def drainGap (s : State) (key : Time) : Time := s.time ((fromRemote s key).toInt - s.jbWritten.toInt)

end Sys2Proof.Machine
end

