-- ==== Sys2Proof/Machine/Flags.lean ====
section
/-! DEFINITION. The conditions that rules test. The block has no arithmetic condition codes (R36):
every comparison is on values made and consumed inside a rule. What is tested here is the lifecycle
(R300), the clamp and the run test of the Rice history (R159, R160), the kind of the frame (R91), the
drain's enable (R270) and which operations take the stream lock (R72). -/

namespace Sys2Proof.Machine

/-- The code of a mode in the 2-bit register MODE (R21). -/
def Mode.code : Mode → BitVec 2
  | .unconfigured => 0
  | .ready => 1
  | .faulted => 2
  | .closed => 3

/-- ERR_CODE of a cause (R321). -/
def Cause.code : Cause → BitVec 8
  | .truncated => 1
  | .unsupportedChannelConfig => 2
  | .unsupportedPredictionType => 3
  | .unsupportedSampleSize => 4
  | .malformed => 5

/-- The sub-codes of `Malformed` (R321). -/
inductive Malformation
  | nsamples
  | ub
  | badK
  | runOverflow
  | mixShift
deriving DecidableEq, Repr

/-- ERR_INFO of a `Malformed` (R321). -/
def Malformation.code : Malformation → Word
  | .nsamples => 1
  | .ub => 2
  | .badK => 3
  | .runOverflow => 4
  | .mixShift => 5

/-- The code of a status (R300). -/
def Status.code : Status → BitVec 3
  | .ok => 0
  | .badCommand => 1
  | .badMode => 2
  | .configError => 3
  | .badArgument => 4
  | .dropped => 5
  | .fault => 6

/-- The history after the clamp of R159: `h` is the updated history, `d` the decoded value after the
carry was added. -/
def clampHistory (clamp : Config.HistClamp) (d h : Word) : Word :=
  match clamp with
  | .onHistory => if 0xFFFF < h.toInt then 0xFFFF else h
  | .onDecoded => if 0xFFFF < d.toInt then 0xFFFF else h

/-- A zero run follows sample i (R160): history below 128 and samples remain. -/
def runFollows (h : Word) (i count : Nat) : Bool := decide (h.toInt < 128) && decide (i + 1 < count)

/-- The four frame kinds (R91). -/
inductive FrameKind
  | monoC
  | monoU
  | stereoC
  | stereoU
deriving DecidableEq, Repr

/-- The kind that FH_CHAN and FH_CF name (R91, R95). -/
def frameKind (s : State) : FrameKind :=
  if s.fhCf = Config.cfUncompressedValue then
    if s.fhChan = 0 then .monoU else .stereoU
  else
    if s.fhChan = 0 then .monoC else .stereoC

/-- When DRAIN is enabled (R270). -/
def drainEnabled (s : State) : Bool :=
  s.jbOffsetValid && !s.jbClosing && s.sinkReady && sampleSizeOk s

/-- The step an enabled DRAIN takes, chosen by the state alone (R270 to R274, R276). -/
def drainStep (s : State) : Instr :=
  match s.jbQueue with
  | [] => .jbDrainIdle
  | (key, bytes) :: _ =>
    let gap := (drainGap s key).toInt
    if 0 < gap then .jbDrainGap
    else if gap = 0 then .jbDrainEmit
    else if -(framesOf s bytes : Int) < gap then .jbDrainTrunc
    else .jbDrainSkip

/-- The operations that take the stream lock for their whole duration: every access to the state
R73 lists (R37, R72, R263, R301, R306, R360). The decoding part of H.DECODE does not. -/
def takesLock : Instr → Bool
  | .jbSync .. => true
  | .jbToRemote _ => true
  | .jbFromRemote _ => true
  | .jbEnq .. => true
  | .jbDrainIdle => true
  | .jbDrainGap => true
  | .jbDrainEmit => true
  | .jbDrainTrunc => true
  | .jbDrainSkip => true
  | .jbClose => true
  | .hReset => true
  | .hConfigure .. => true
  | .hEnqueue .. => true
  | .hSync .. => true
  | .hClose => true
  | .hStatus => true
  | .hDecode .. => false
  | .bcInit _ => false
  | .bcRead _ => false
  | .bcUnread _ => false
  | .bcClz _ => false
  | .rdValueEsc .. => false
  | .rdValueUnary .. => false
  | .rdValueShort .. => false
  | .rdValueLong .. => false
  | .rdStream .. => false
  | .rdSample .. => false
  | .rdRun .. => false
  | .lpCopy _ => false
  | .lpDiff _ => false
  | .lpFir .. => false
  | .fdHeader => false
  | .fdMonoC => false
  | .fdMonoU => false
  | .fdStereoC => false
  | .fdStereoU => false
  | .fdChhdr _ => false
  | .fdRawlow => false
  | .fdVerbatim => false
  | .fdMixWeighted .. => false
  | .fdMixDirect _ => false
  | .fdPack16 => false
  | .fdPack24 => false

end Sys2Proof.Machine
end

