-- ==== Sys2Proof/Machine/Ops.lean ====
section
/-! DEFINITION. The shared operations: how steps inside an operation chain (`Res`), taking a
DecodeError (R330) and the way back from one (R332, R360), the bit cursor (R131, R133), the log and
the sink (R340, R275), the queue's admission (R264), and the loops of R11. -/

namespace Sys2Proof.Machine

abbrev Outcome := Host.Outcome State Fault Refusal

/-! ## Steps inside an operation -/

/-- What a step inside an operation comes to: a value and the state after it; a DecodeError, with
the state after fault entry (nothing after it runs, R11); or a stop of the model. -/
inductive Res (α : Type)
  | ok (v : α) (s : State)
  | raised (s : State)
  | stuck (f : Fault)
deriving DecidableEq, Repr

/-- Run the next step after a successful one. -/
def Res.bind {α β : Type} : Res α → (α → State → Res β) → Res β
  | .ok v s, k => k v s
  | .raised s, _ => .raised s
  | .stuck f, _ => .stuck f

/-- The outcome of an operation from its last step: a DecodeError is a next state (R330). -/
def Res.outcome {α : Type} (r : Res α) (done : α → State → State) : Outcome :=
  match r with
  | .ok v s => .next (done v s)
  | .raised s => .next s
  | .stuck f => .fault f

/-- `for i in 0..n-1` (R11), with steps that may raise. -/
def forRes : Nat → (Nat → State → Res Unit) → State → Res Unit
  | 0, _, s => .ok () s
  | n + 1, body, s => (forRes n body s).bind fun _ s' => body n s'

/-- `for c in channels` (R210), with steps that may raise. -/
def eachChan : List Chan → (Chan → State → Res Unit) → State → Res Unit
  | [], _, s => .ok () s
  | c :: cs, body, s => (body c s).bind fun _ s' => eachChan cs body s'

/-- `for i in 0..n-1` (R11), over pure data. -/
def forN {σ : Type} : Nat → (Nat → σ → σ) → σ → σ
  | 0, _, x => x
  | n + 1, body, x => body n (forN n body x)

/-! ## Taking a DecodeError, and the way back -/

/-- Append one record to LOG (R340). -/
def logEvent (r : LogRecord) (s : State) : State := { s with log := s.log ++ [r] }

/-- Fault entry (R330): the error record, written once, when ERR_CODE = 0 (R22); the mode; one log
record. Nothing else is written: no saved position, no handler. -/
def faultEntry (e : Cause) (info : Word) (s : State) : State :=
  logEvent (.fault e.code)
    { s with
      errCode := if s.errCode = 0 then e.code else s.errCode
      errInfo := if s.errCode = 0 then info else s.errInfo
      mode := .faulted }

/-- `raise E(info)` (R11, R330). A raise takes MODE from READY to FAULTED (R21, R341) and cannot
happen in another mode (R333). -/
def raise {α : Type} (e : Cause) (info : Word) (s : State) : Res α :=
  if s.mode = .ready then .raised (faultEntry e info s) else .stuck .raiseOutsideReady

/-- `raise Malformed(sub)` (R321). -/
def raiseMalformed {α : Type} (m : Malformation) (s : State) : Res α := raise .malformed m.code s

/-- The way back from a fault: no operation returns from one (R332); RESET brings the block to the
state of R44 (R360). The parameters, the inputs and the turns to come are not the block's registers
and stay. -/
def resetState (s : State) : State :=
  { State.reset with prm := s.prm, sinkReady := s.sinkReady, agenda := s.agenda, tick := s.tick }

/-! ## The bit cursor -/

/-- BC.INIT (R130). -/
def initCursor (len : Word) (s : State) : State := { s with bcLen := len, bcIdx := 0, bcAcc := 0 }

/-- `readBits(n)` (R131): the bound check comes before anything is read and before POS moves. A POS beyond
32 bits does not fit ERR_INFO (log 35). -/
def readBits (n : Nat) (s : State) : Res Word :=
  if n < 1 ∨ 32 < n then .stuck .readWidth
  else if 8 * s.bcLen.toNat < s.pos + n then raise .truncated (s.word32 s.pos) s
  else
    match memRead s.payload s.pos n with
    | some v => .ok v (s.setPos (s.pos + n))
    | none => .stuck .noSuchByte

/-- `unreadBits(n)` (R133): never raises and never re-validates. -/
def unreadBits (n : Nat) (s : State) : Res Unit :=
  if s.pos < n then .stuck .cursorBelowZero else .ok () (s.setPos (s.pos - n))

/-! ## The sink -/

/-- `emit(X)` (R275): append the bytes to SINK, JB_WRITTEN grows by their number of frames. -/
def emit (bytes : List Byte) (s : State) : State :=
  { s with
    sink := s.sink ++ bytes
    jbWritten := s.time (s.jbWritten.toInt + framesOf s bytes) }

/-- `emitSilence(f)` (R275): f frames of zero bytes (R109). -/
def emitSilence (frames : Nat) (s : State) : State :=
  emit (List.replicate (frames * bytesPerFrame s) 0) s

/-! ## The queue -/

/-- The status an enqueue or a command returns. -/
def respond (st : Status) (s : State) : State := { s with resp := .status st }

/-- The check of an enqueue's bytes (R264, R303): BPF has a value, the bytes are a positive whole number of
frames, at most JB_QUANTUM. -/
def enqueueBytesOk (s : State) (bytes : List Byte) : Bool :=
  sampleSizeOk s && bytes.length != 0 && bytesPerFrame s != 0 && bytes.length % bytesPerFrame s == 0 &&
    decide (framesOf s bytes ≤ quantum s)

/-- Insertion of an entry (R267 to R269): replace, drop when full, or insert and wake DRAIN. -/
def admitEntry (key : Time) (bytes : List Byte) (s : State) : State :=
  match Queue.find s.jbQueue key with
  | some _ => respond .ok (logEvent (.replaced key) { s with jbQueue := Queue.put s.jbQueue key bytes })
  | none =>
    if s.jbQueue.length = s.prm.jbCapacity then respond .dropped (logEvent (.dropFull key) s)
    else respond .ok { s with jbQueue := Queue.put s.jbQueue key bytes, drainAwake := true }

/-- `enqueue(K, B)` (R264): refused while closing (R265), the late and early tests once the offset is
valid (R266), then the insertion. -/
def enqueue (key : Time) (bytes : List Byte) (s : State) : State :=
  if s.jbClosing then respond .badMode s
  else if s.jbOffsetValid && decide ((entryEnd s key (framesOf s bytes)).toInt ≤ s.jbWritten.toInt) then
    respond .dropped (logEvent (.dropLate key) s)
  else if s.jbOffsetValid && decide ((s.prm.jbHorizon : Int) < (entryLead s key (framesOf s bytes)).toInt) then
    respond .dropped (logEvent (.dropEarly key) s)
  else admitEntry key bytes s

/-- An enqueue with the check of its bytes, `BadArgument` where they fail it (R303, R300). JB_CLOSING comes
first, as R264's first line has it (R35, R265). -/
def checkedEnqueue (key : Time) (bytes : List Byte) (s : State) : State :=
  if s.jbClosing || enqueueBytesOk s bytes then enqueue key bytes s else respond .badArgument s

/-- JB.SYNC's transition (R262). -/
def syncClock (remote loc : Time) (s : State) : State :=
  { s with
    jbOffset := s.time (remote.toInt - loc.toInt)
    jbOffsetValid := true
    drainAwake := true }

/-- JB.CLOSE's transition (R278). -/
def closeStream (s : State) : State :=
  { s with jbClosing := true, jbQueue := [], drainAwake := true, mode := .closed }

/-- A transition that takes the stream lock waits while another agent holds it (R72, R335). -/
def underLock (s : State) (go : Outcome) : Outcome := if s.lock then .next s else go

end Sys2Proof.Machine
end

