-- ==== Sys2Proof/Machine/BitCursor.lean ====
section
/-! DEFINITION. Unit BC, the bit cursor (`40_bitcursor.md`). -/

namespace Sys2Proof.Machine

/-- BC.INIT (R130): every LEN is accepted. -/
def execBcInit (len : Word) (s : State) : Outcome := .next (initCursor len s)

/-- BC.READ (R131). -/
def execBcRead (n : Nat) (s : State) : Outcome :=
  (readBits n s).outcome fun v s' => { s' with result := v }

/-- BC.UNREAD (R133). R133 says "n, a positive integer"; for n = 0 its pseudocode moves POS by nothing
(DESIGN CHOICE, log 36). -/
def execBcUnread (n : Nat) (s : State) : Outcome := (unreadBits n s).outcome fun _ s' => s'

/-- BC.CLZ (R134): pure. -/
def execBcClz (v : Word) (s : State) : Outcome :=
  .next { s with result := BitVec.ofNat 32 (clz32 v) }

end Sys2Proof.Machine
end

