-- ==== Sys2Proof/Machine/Predictor.lean ====
section
/-! DEFINITION. Unit LP, the adaptive linear predictor (`42_predictor.md`). It reads no bits and moves
no cursor; its functions are over one channel's registers. -/

namespace Sys2Proof.Machine

/-- OUT_c[0] <- RESID_c[0], not sign-extended (R181). -/
def firstSample (r : ChanRegs) : File 32 := File.write r.out 0 (File.read r.resid 0)

/-- OUT_c[i+1] <- sext_RSS(OUT_c[i] + RESID_c[i+1]) (R183, R184). -/
def accumulate (rss : Nat) (resid : File 32) (i : Nat) (out : File 32) : File 32 :=
  File.write out (i + 1) (sext rss (File.read out i + File.read resid (i + 1)))

/-- LP.COPY's loop (R182). -/
def predictCopy (n : Nat) (r : ChanRegs) : ChanRegs :=
  { r with out := forN n (fun i out => File.write out i (File.read r.resid i)) r.out }

/-- LP.DIFF's loop (R183). -/
def predictDiff (n rss : Nat) (r : ChanRegs) : ChanRegs :=
  if n = 0 then r
  else { r with out := forN (n - 1) (accumulate rss r.resid) (firstSample r) }

/-- The sum of R185 over the taps; b is the index of the base sample. -/
def firSum (out : File 32) (coef : Vector Word 31) (order b : Nat) : Word :=
  forN order (fun j sum => sum + (File.read out (b + order - j) - File.read out b) * coefGet coef j) 0

/-- The prediction of R185. -/
def firPred (out : File 32) (coef : Vector Word 31) (order quant b : Nat) : Word :=
  let rnd : Word := if 0 < quant then 1 <<< (quant - 1) else 0
  asr (rnd + firSum out coef order b) quant + File.read out b

/-- The walk of R187 over the taps p-1 .. 0, for a positive error (`neg = false`) or a negative one;
`e` is the error budget that is left. -/
def adaptTaps (coefW : Nat) (out : File 32) (order quant b : Nat) (neg : Bool) :
    Nat → Word → Vector Word 31 → Vector Word 31
  | 0, _, coef => coef
  | p + 1, e, coef =>
    if (if neg then e.toInt < 0 else 0 < e.toInt) then
      let v := File.read out b - File.read out (b + order - p)
      let sg := if neg then -(sign v) else sign v
      adaptTaps coefW out order quant b neg p
        (e - asr (v * sg) quant * BitVec.ofNat 32 (order - p))
        (coefSet coef p (sext coefW (coefGet coef p - sg)))
    else coef

/-- Coefficient adaptation (R187); an error of zero adapts nothing (R188). -/
def adapt (coefW : Nat) (out : File 32) (order quant b : Nat) (e : Word) (coef : Vector Word 31) :
    Vector Word 31 :=
  if 0 < e.toInt then adaptTaps coefW out order quant b false order e coef
  else if e.toInt < 0 then adaptTaps coefW out order quant b true order e coef
  else coef

/-- Steps 2 to 4 of LP.FIR for sample i (R185 to R188): the sample is written before the
coefficients adapt. -/
def firStep (coefW rss : Nat) (resid : File 32) (order quant i : Nat) (oc : File 32 × Vector Word 31) :
    File 32 × Vector Word 31 :=
  let b := i - order - 1
  let e := File.read resid i
  let out := File.write oc.1 i (sext rss (firPred oc.1 oc.2 order quant b + e))
  (out, adapt coefW out order quant b e oc.2)

/-- The warm-up of LP.FIR (R184): bounded by the frame's samples. -/
def warmUp (n rss order : Nat) (r : ChanRegs) : File 32 :=
  forN order (fun i out => if i + 1 < n then accumulate rss r.resid i out else out) (firstSample r)

/-- LP.FIR's loop (R189). -/
def predictFir (coefW n rss order quant : Nat) (r : ChanRegs) : ChanRegs :=
  if n = 0 then r
  else
    let oc := forN (n - (order + 1)) (fun j => firStep coefW rss r.resid order quant (order + 1 + j))
      (warmUp n rss order r, r.coef)
    { r with out := oc.1, coef := oc.2 }

/-- The sample buffers hold FH_N entries (R28). -/
def withinBuffers (s : State) (go : Res Unit) : Res Unit :=
  if s.prm.bufSamples < s.fhN.toNat then .stuck .noSuchEntry else go

/-- LP.COPY (R182). -/
def lpCopy (c : Chan) (s : State) : Res Unit :=
  withinBuffers s (.ok () (s.setChan c (predictCopy s.fhN.toNat (s.chan c))))

/-- LP.DIFF (R183). -/
def lpDiff (c : Chan) (s : State) : Res Unit :=
  withinBuffers s (.ok () (s.setChan c (predictDiff s.fhN.toNat s.fhRss.toNat (s.chan c))))

/-- LP.FIR (R189). R189's pseudocode says what its two special orders do: 0 is R182, 31 is R183. -/
def lpFir (c : Chan) (order : BitVec 5) (s : State) : Res Unit :=
  if order = 0 then lpCopy c s
  else if order = 31 then lpDiff c s
  else
    withinBuffers s (.ok ()
      (s.setChan c (predictFir s.prm.profile.coefW s.fhN.toNat s.fhRss.toNat order.toNat
        (s.chan c).quant.toNat (s.chan c))))

/-- `predict` for channel c: ORDER alone selects the mode (R180, R189, R222). -/
def predict (c : Chan) (s : State) : Res Unit := lpFir c (s.chan c).order s

/-- LP.COPY (R182). -/
def execLpCopy (c : Chan) (s : State) : Outcome := (lpCopy c s).outcome fun _ s' => s'

/-- LP.DIFF (R183). -/
def execLpDiff (c : Chan) (s : State) : Outcome := (lpDiff c s).outcome fun _ s' => s'

/-- LP.FIR (R189). -/
def execLpFir (c : Chan) (order : BitVec 5) (s : State) : Outcome := (lpFir c order s).outcome fun _ s' => s'

end Sys2Proof.Machine
end

