-- ==== Sys2Proof/Machine/Rice.lean ====
section
/-! DEFINITION. Unit RD, the adaptive Rice/Golomb decoder (`41_rice.md`). -/

namespace Sys2Proof.Machine

/-! ## One code word (R151) -/

/-- The four forms of a code word (R103). -/
inductive RiceForm
  | esc
  | unary
  | short
  | long
deriving DecidableEq, Repr

/-- The unary prefix (R152): `room` more bits may be read; the count of one-bits. -/
def ricePrefix : Nat → Nat → State → Res Nat
  | 0, x, s => .ok x s
  | room + 1, x, s =>
    (readBits 1 s).bind fun b s' => if b = 1 then ricePrefix room (x + 1) s' else .ok x s'

/-- The k extra bits of a word whose prefix counted x one-bits (R154, R162). -/
def riceExtra (k : Int) (mask : Word) (x : Nat) (s : State) : Res (RiceForm × Word) :=
  (readBits k.toNat s).bind fun extra s' =>
    let y : Word := BitVec.ofNat 32 x * riceM k mask
    if s'.prm.profile.riceUnreadMax < extra.toNat then .ok (.long, y + extra - 1) s'
    else (unreadBits 1 s').bind fun _ s'' => .ok (.short, y) s''

/-- `decodeValue(n, k, mask)` (R151), with the form of the word it read. -/
def riceWord (n : Nat) (k : Int) (mask : Word) (s : State) : Res (RiceForm × Word) :=
  if k < 1 ∨ 31 < k then raiseMalformed .badK s
  else
    (ricePrefix (Config.riceThreshold + 1) 0 s).bind fun x s' =>
      if Config.riceThreshold < x then (readBits n s').bind fun v s'' => .ok (.esc, v) s''
      else if k = 1 then .ok (.unary, BitVec.ofNat 32 x) s'
      else riceExtra k mask x s'

/-- `decodeValue(n, k, mask)` (R151). -/
def decodeValue (n : Nat) (k : Int) (mask : Word) (s : State) : Res Word :=
  (riceWord n k mask s).bind fun fv s' => .ok fv.2 s'

/-- A code word read as one form: a word of another form is not this operation's (R103). -/
def riceWordAs (form : RiceForm) (n : Nat) (k : Int) (mask : Word) (s : State) : Res Word :=
  (riceWord n k mask s).bind fun fv s' => if fv.1 = form then .ok fv.2 s' else .stuck .notSelected

/-- RD.VALUE.ESC (R153). -/
def execRdValueEsc (n : Nat) (k : Int) (mask : Word) (s : State) : Outcome :=
  (riceWordAs .esc n k mask s).outcome fun v s' => { s' with result := v }

/-- RD.VALUE.UNARY (R152). -/
def execRdValueUnary (n : Nat) (k : Int) (mask : Word) (s : State) : Outcome :=
  (riceWordAs .unary n k mask s).outcome fun v s' => { s' with result := v }

/-- RD.VALUE.SHORT (R154). -/
def execRdValueShort (n : Nat) (k : Int) (mask : Word) (s : State) : Outcome :=
  (riceWordAs .short n k mask s).outcome fun v s' => { s' with result := v }

/-- RD.VALUE.LONG (R162). -/
def execRdValueLong (n : Nat) (k : Int) (mask : Word) (s : State) : Outcome :=
  (riceWordAs .long n k mask s).outcome fun v s' => { s' with result := v }

/-! ## The adaptive loop (R155 to R161) -/

/-- RESID_c[i] <- v. -/
def setResid (c : Chan) (i : Nat) (v : Word) (s : State) : State :=
  s.setChan c { s.chan c with resid := File.write (s.chan c).resid i v }

/-- RESID_c[i .. i+n-1] <- 0 (R160). -/
def zeroResid (c : Chan) (i n : Nat) (s : State) : State :=
  s.setChan c { s.chan c with resid := forN n (fun j f => File.write f (i + j) 0) (s.chan c).resid }

/-- What a decoded value does to the history (R158, R159). -/
def nextHistory (p : Config.Profile) (h d hm : Word) : Word :=
  clampHistory p.histClamp d (h + d * hm - asr (h * hm) 9)

/-- Steps 2 to 4 of RD.SAMPLE (R157 to R159), from the value d with the carry added. -/
def storeSample (c : Chan) (i : Nat) (hm d : Word) (s : State) : State :=
  { setResid c i (fold d) s with
    rsSignMod := 0
    rsHistory := nextHistory s.prm.profile s.rsHistory d hm }

/-- RD.SAMPLE (R156 to R159). -/
def riceSample (c : Chan) (i : Nat) (o : RiceOperands) (s : State) : Res Unit :=
  if s.prm.bufSamples ≤ i then .stuck .noSuchEntry
  else
    (decodeValue o.width (sampleK s.rsHistory o.kmod) 0xFFFFFFFF s).bind fun v s' =>
      .ok () (storeSample c i o.hm (v + s'.rsSignMod.setWidth 32) s')

/-- The end of RD.RUN (R160), from the run value b: the zeros, the carry, the history. -/
def storeRun (c : Chan) (i : Nat) (b : Word) (s : State) : State :=
  let zeroed := if 0 < b.toInt then zeroResid c (i + 1) b.toNat s else s
  { zeroed with
    rsSignMod := if 0xFFFF < b.toInt then 0 else zeroed.rsSignMod
    rsHistory := 0 }

/-- RD.RUN (R160): the run value b. -/
def riceRun (c : Chan) (i : Nat) (o : RiceOperands) (s : State) : Res Word :=
  if s.rsHistory.toInt < 0 then raiseMalformed .badK s
  else
    (decodeValue 16 (runK s.rsHistory) o.runMask { s with rsSignMod := 1 }).bind fun b s' =>
      if 0 < b.toInt ∧ o.count < i + 1 + b.toNat then raiseMalformed .runOverflow s'
      else if 0 < b.toInt ∧ s'.prm.bufSamples < i + 1 + b.toNat then .stuck .noSuchEntry
      else .ok b (storeRun c i b s')

/-- The `while i < N` loop of R161; `fuel` bounds the turns, and N turns are enough. -/
def riceLoop (c : Chan) (o : RiceOperands) : Nat → Nat → State → Res Unit
  | 0, _, s => .ok () s
  | fuel + 1, i, s =>
    if o.count ≤ i then .ok () s
    else
      (riceSample c i o s).bind fun _ s' =>
        if runFollows s'.rsHistory i o.count then
          (riceRun c i o s').bind fun b s'' =>
            riceLoop c o fuel (i + 1 + (if 0 < b.toInt then b.toNat else 0)) s''
        else riceLoop c o fuel (i + 1) s'

/-- RD.STREAM, `riceDecode` (R155, R161). -/
def riceStream (c : Chan) (o : RiceOperands) (s : State) : Res Unit :=
  riceLoop c o o.count 0 { s with rsHistory := o.initHist, rsSignMod := 0 }

/-- RD.STREAM (R161). -/
def execRdStream (c : Chan) (o : RiceOperands) (s : State) : Outcome :=
  (riceStream c o s).outcome fun _ s' => s'

/-- RD.SAMPLE (R156 to R159), for any entry i that the buffers have: its four steps do not read N (for an i
beyond the samples, which R161 never asks for, DESIGN CHOICE, log 36). -/
def execRdSample (c : Chan) (i : Nat) (o : RiceOperands) (s : State) : Outcome :=
  (riceSample c i o s).outcome fun _ s' => s'

/-- RD.RUN (R160): selected when the history is below 128 and samples remain after sample i. -/
def execRdRun (c : Chan) (i : Nat) (o : RiceOperands) (s : State) : Outcome :=
  if runFollows s.rsHistory i o.count then (riceRun c i o s).outcome fun b s' => { s' with result := b }
  else .fault .notSelected

end Sys2Proof.Machine
end

