-- ==== Sys2Proof/Machine/Frame.lean ====
section
/-! DEFINITION. Unit FD, the frame decoder (`43_frame.md`), in the order of R210. -/

namespace Sys2Proof.Machine

/-! ## The header (R211 to R216) -/

/-- CHAN and its two tests (R212). -/
def readChan (s : State) : Res Unit :=
  (readBits 3 s).bind fun v s' =>
    let s1 := { s' with fhChan := v.setWidth 3 }
    if 1 < v.toNat then raise .unsupportedChannelConfig v s1
    else if v.toNat + 1 ≠ s1.cfgChannels.toNat then raise .unsupportedChannelConfig v s1
    else .ok () s1

/-- RSVD, HASSIZE, UB and CF (R213, R214). -/
def readFlags (s : State) : Res Unit :=
  (readBits 16 s).bind fun _ s1 =>
  (readBits 1 s1).bind fun hasSize s2 =>
  (readBits 2 { s2 with fhHasSize := hasSize.setWidth 1 }).bind fun ub s3 =>
  (readBits 1 { s3 with fhUb := ub.setWidth 2 }).bind fun cf s4 =>
    .ok () { s4 with fhCf := cf.setWidth 1 }

/-- The bound of the sample count (R216). -/
def checkCount (n : Word) (s : State) : Res Unit :=
  let s1 := { s with fhN := n }
  if s1.cfgMaxSamples.toNat < n.toNat then raiseMalformed .nsamples s1 else .ok () s1

/-- The sample count (R215, R216). -/
def readCount (s : State) : Res Unit :=
  if s.fhHasSize = 1 then (readBits 32 s).bind fun n s' => checkCount n s'
  else checkCount s.cfgMaxSamples s

/-- FD.HEADER (R211 to R216), with the cursor's start (R130) where R210 has it. -/
def frameHeader (len : Word) (s : State) : Res Unit :=
  if sampleSizeOk s then
    (readChan (initCursor len s)).bind fun _ s1 =>
    (readFlags s1).bind fun _ s2 => readCount s2
  else raise .unsupportedSampleSize (s.cfgSampleSize.setWidth 32) s

/-! ## The compressed path (R217 to R222) -/

/-- UB's legality and the read sample size (R217). -/
def checkUb (s : State) : Res Unit :=
  if s.fhUb ≠ 0 ∧ ¬ (s.cfgSampleSize = 24 ∧ s.fhUb.toNat ≤ 2) then raiseMalformed .ub s
  else
    .ok () { s with fhRss := BitVec.ofNat 6 (s.cfgSampleSize.toNat - 8 * s.fhUb.toNat + s.fhChan.toNat) }

/-- The mix fields (R219). -/
def readMix (s : State) : Res Unit :=
  if s.fhChan = 0 then
    (if Config.monoMixRsvd then readBits 16 s else .ok 0 s).bind fun _ s' =>
      .ok () { s' with fhShift := 0, fhLeftWeight := 0 }
  else
    (readBits 8 s).bind fun shift s1 =>
    (readBits 8 { s1 with fhShift := shift.setWidth 8 }).bind fun weight s2 =>
      let s3 := { s2 with fhLeftWeight := weight.setWidth 8 }
      if weight ≠ 0 ∧ 31 < shift.toNat then raiseMalformed .mixShift s3 else .ok () s3

/-- COEF_c[j] <- sext_16(readBits(16)) (R218). -/
def readCoef (c : Chan) (j : Nat) (s : State) : Res Unit :=
  (readBits 16 s).bind fun v s' =>
    .ok () (s'.setChan c { s'.chan c with coef := coefSet (s'.chan c).coef j (sext 16 v) })

/-- QUANT, RICEMOD, ORDER and the coefficient table (R218). -/
def readTable (c : Chan) (s : State) : Res Unit :=
  (readBits 4 s).bind fun quant s1 =>
  (readBits 3 (s1.setChan c { s1.chan c with quant := quant.setWidth 4 })).bind fun riceMod s2 =>
  (readBits 5 (s2.setChan c { s2.chan c with riceMod := riceMod.setWidth 3 })).bind fun order s3 =>
    forRes order.toNat (readCoef c) (s3.setChan c { s3.chan c with order := order.setWidth 5 })

/-- FD.CHHDR for channel c (R218): the type is tested as soon as it is read. -/
def channelHeader (c : Chan) (s : State) : Res Unit :=
  (readBits 4 s).bind fun ptype s' =>
    let s1 := s'.setChan c { s'.chan c with ptype := ptype.setWidth 4 }
    if ptype ≠ 0 then raise .unsupportedPredictionType ptype s1 else readTable c s1

/-- RAW_c[i] <- readBits(8 * UB) (R220). -/
def readRaw (ub i : Nat) (c : Chan) (s : State) : Res Unit :=
  (readBits (8 * ub) s).bind fun v s' =>
    .ok () (s'.setChan c { s'.chan c with raw := File.write (s'.chan c).raw i (v.setWidth 24) })

/-- FD.RAWLOW (R220). -/
def rawLow (s : State) : Res Unit :=
  if s.fhUb = 0 then .ok () s
  else
    withinBuffers s
      (forRes s.fhN.toNat (fun i => eachChan (channels s) (readRaw s.fhUb.toNat i)) s)

/-- The Rice stream and the predictor of channel c (R221, R222). -/
def decodeChannel (c : Chan) (s : State) : Res Unit :=
  (riceStream c (riceOperands s c) s).bind fun _ s' => predict c s'

/-- The body of a compressed frame (R210, R217 to R222). -/
def compressedBody (s : State) : Res Unit :=
  (checkUb s).bind fun _ s1 =>
  (readMix s1).bind fun _ s2 =>
  (eachChan (channels s2) channelHeader s2).bind fun _ s3 =>
  (rawLow s3).bind fun _ s4 =>
    eachChan (channels s4) decodeChannel s4

/-! ## The uncompressed path (R223) -/

/-- OUT_c[i] <- v. -/
def setOut (c : Chan) (i : Nat) (v : Word) (s : State) : State :=
  s.setChan c { s.chan c with out := File.write (s.chan c).out i v }

/-- One verbatim sample (R223, R106 (d)). -/
def readVerbatim (size : BitVec 8) (i : Nat) (c : Chan) (s : State) : Res Unit :=
  if size = 16 then
    (readBits 16 s).bind fun v s' => .ok () (setOut c i (sext 16 v) s')
  else
    (readBits 16 s).bind fun hi s1 =>
    (readBits 8 s1).bind fun lo s2 => .ok () (setOut c i (sext 24 (lsl hi 8 ||| lo)) s2)

/-- FD.VERBATIM (R223). -/
def verbatim (s : State) : Res Unit :=
  withinBuffers s
    (forRes s.fhN.toNat (fun i => eachChan (channels s) (readVerbatim s.cfgSampleSize i)) s)

/-- The body of an uncompressed frame (R210, R223). -/
def verbatimBody (s : State) : Res Unit :=
  verbatim { s with fhUb := 0, fhShift := 0, fhLeftWeight := 0, fhRss := s.cfgSampleSize.setWidth 6 }

/-! ## Deinterlacing (R224, R225, R230) -/

/-- R of R224. -/
def mixRight (mid diff : Word) (shift weight : BitVec 8) : Word :=
  mid - asr (diff * weight.setWidth 32) shift.toNat

/-- The right sample of index i under FD.MIX.WEIGHTED (R224). -/
def weightedRight (s : State) (shift weight : BitVec 8) (i : Nat) : Word :=
  mixRight (File.read s.chA.out i) (File.read s.chB.out i) shift weight

/-- FD.MIX.WEIGHTED (R224): stereo frames only, and FH_CHAN 2 to 7 taken as stereo (log 33). R224 names
SHIFT in 0..31 and LEFTWEIGHT in 1..255; outside them its pseudocode is followed, with `asr` a free value
for a SHIFT above 31 (DESIGN CHOICE, log 36). -/
def mixWeighted (shift weight : BitVec 8) (s : State) : Res Unit :=
  if s.fhChan = 0 then .stuck .notSelected
  else
    withinBuffers s (.ok ()
      { s with
        mixL := forN s.fhN.toNat
          (fun i f => File.write f i (weightedRight s shift weight i + File.read s.chB.out i)) s.mixL
        mixR := forN s.fhN.toNat (fun i f => File.write f i (weightedRight s shift weight i)) s.mixR })

/-- FD.MIX.DIRECT (R225): stereo frames only, and FH_CHAN 2 to 7 taken as stereo (log 33); the shift is
ignored. -/
def mixDirect (_shift : BitVec 8) (s : State) : Res Unit :=
  if s.fhChan = 0 then .stuck .notSelected
  else
    withinBuffers s (.ok ()
      { s with
        mixL := forN s.fhN.toNat (fun i f => File.write f i (File.read s.chA.out i)) s.mixL
        mixR := forN s.fhN.toNat (fun i f => File.write f i (File.read s.chB.out i)) s.mixR })

/-- Deinterlacing: nothing in a mono frame (R230), by LEFTWEIGHT in a stereo frame (R224, R225). -/
def deinterlace (s : State) : Res Unit :=
  if s.fhChan = 0 then .ok () s
  else if s.fhLeftWeight = 0 then mixDirect s.fhShift s
  else mixWeighted s.fhShift s.fhLeftWeight s

/-! ## Packing (R226, R227) -/

/-- The output channels of frame i, each with its raw entry: S of a mono frame (R230), L then R of a
stereo frame, as which FH_CHAN 2 to 7 are taken (R210 does not name them: DESIGN CHOICE, log 33). -/
def outputs (s : State) (i : Nat) : List (Word × BitVec 24) :=
  if s.fhChan = 0 then [(File.read s.chA.out i, File.read s.chA.raw i)]
  else [(File.read s.mixL i, File.read s.chA.raw i), (File.read s.mixR i, File.read s.chB.raw i)]

/-- The n low bytes of a value, least significant first (R64, R69). -/
def sampleBytes (n : Nat) (v : Word) : List Byte :=
  (List.range n).map fun j => (v >>> (8 * j)).setWidth 8

/-- The raw low bytes join below the shifted sample (R227). -/
def mergeRaw (ub : BitVec 2) (v : Word) (raw : BitVec 24) : Word :=
  if ub = 0 then v else lsl v (8 * ub.toNat) ||| raw.setWidth 32

/-- The PCM bytes of frame i of a 16-bit stream (R226). -/
def frameBytes16 (s : State) (i : Nat) : List Byte :=
  (outputs s i).flatMap fun x => sampleBytes 2 x.1

/-- The PCM bytes of frame i of a 24-bit stream (R227). -/
def frameBytes24 (s : State) (i : Nat) : List Byte :=
  (outputs s i).flatMap fun x => sampleBytes 3 (mergeRaw s.fhUb x.1 x.2)

/-- Write every frame's bytes, frame i at i * BPF (R64, R66). -/
def packWith (frameBytes : Nat → List Byte) (s : State) : State :=
  { s with
    pcm := forN s.fhN.toNat (fun i m => m.writeBytes (i * bytesPerFrame s) (frameBytes i)) s.pcm }

/-- The frames lie inside PCM (R38, R64): a stream has at most two channels (R301), so BPF is at most 6. -/
def packReady (s : State) (go : State) : Res Unit :=
  if 2 < s.cfgChannels.toNat then .stuck .noSuchByte else withinBuffers s (.ok () go)

/-- FD.PACK16 (R226): selected when CFG_SAMPLE_SIZE = 16. -/
def pack16 (s : State) : Res Unit :=
  if s.cfgSampleSize = 16 then packReady s (packWith (frameBytes16 s) s) else .stuck .notSelected

/-- FD.PACK24 (R227): selected when CFG_SAMPLE_SIZE = 24. -/
def pack24 (s : State) : Res Unit :=
  if s.cfgSampleSize = 24 then packReady s (packWith (frameBytes24 s) s) else .stuck .notSelected

/-- Packing by the configured size. -/
def pack (s : State) : Res Unit := if s.cfgSampleSize = 16 then pack16 s else pack24 s

/-- Completion (R228): PCM_LEN, and the hand-over to JB.ENQ when there is anything to hand over. The key of
the hand-over is the DECODE's, which H.DECODE leaves in `decKey`. A frame kind that runs on its own has no
DECODE and no key: the hand-over then carries whatever `decKey` holds, 0 after reset (DESIGN CHOICE,
log 34). -/
def completeFrame (s : State) : State :=
  { s with
    pcmLen := s.word32 (s.fhN.toNat * bytesPerFrame s)
    decLen := s.fhN.toNat * bytesPerFrame s
    decPend := s.fhN != 0 }

/-! ## The four frame kinds (R231 to R234) -/

/-- The body of a kind of frame. -/
def kindBody : FrameKind → State → Res Unit
  | .monoC => compressedBody
  | .stereoC => compressedBody
  | .monoU => verbatimBody
  | .stereoU => verbatimBody

/-- What follows the header in a frame of a kind (R210). -/
def frameBody (kind : FrameKind) (s : State) : Res Unit :=
  (kindBody kind s).bind fun _ s1 =>
  (deinterlace s1).bind fun _ s2 =>
  (pack s2).bind fun _ s3 => .ok () (completeFrame s3)

/-- `decodeFrame(LEN)` (R210). -/
def decodeOneFrame (len : Word) (s : State) : Res Unit :=
  (frameHeader len s).bind fun _ s' => frameBody (frameKind s') s'

/-- A frame of one kind, from payload bit 0; a frame of another kind is not this operation's (R91). -/
def frameOfKind (kind : FrameKind) (s : State) : Res Unit :=
  (frameHeader s.bcLen s).bind fun _ s' =>
    if frameKind s' = kind then frameBody kind s' else .stuck .notSelected

/-- The admission of a frame, by an H.DECODE or by a frame kind on its own. A frame is decoded in READY only
and the answer elsewhere is `BadMode`: no later frame is decoded after a fault, and no operation retries one
(R300, R302, R331, R332; of a frame kind on its own: DEDUCED, log 39). It is not decoded over one whose enqueue
is still to come (R372, U10; log 9), be that one a DECODE's or that of a frame kind on its own (DESIGN CHOICE,
log 38). -/
def admitFrame (s : State) (go : Outcome) : Outcome :=
  if s.mode ≠ .ready then .next (respond .badMode s)
  else if s.decPend then .refused .overlappingDecode
  else go

/-- FD.HEADER (R211 to R216). -/
def execFdHeader (s : State) : Outcome := (frameHeader s.bcLen s).outcome fun _ s' => s'

/-- FD.MONO.C (R231). -/
def execFdMonoC (s : State) : Outcome :=
  admitFrame s ((frameOfKind .monoC s).outcome fun _ s' => s')

/-- FD.MONO.U (R232). -/
def execFdMonoU (s : State) : Outcome :=
  admitFrame s ((frameOfKind .monoU s).outcome fun _ s' => s')

/-- FD.STEREO.C (R233). -/
def execFdStereoC (s : State) : Outcome :=
  admitFrame s ((frameOfKind .stereoC s).outcome fun _ s' => s')

/-- FD.STEREO.U (R234). -/
def execFdStereoU (s : State) : Outcome :=
  admitFrame s ((frameOfKind .stereoU s).outcome fun _ s' => s')

/-- FD.CHHDR (R218). -/
def execFdChhdr (c : Chan) (s : State) : Outcome := (channelHeader c s).outcome fun _ s' => s'

/-- FD.RAWLOW (R220). -/
def execFdRawlow (s : State) : Outcome := (rawLow s).outcome fun _ s' => s'

/-- FD.VERBATIM (R223). -/
def execFdVerbatim (s : State) : Outcome :=
  if sampleSizeOk s then (verbatim s).outcome fun _ s' => s' else .fault .notSelected

/-- FD.MIX.WEIGHTED (R224). -/
def execFdMixWeighted (shift weight : BitVec 8) (s : State) : Outcome :=
  (mixWeighted shift weight s).outcome fun _ s' => s'

/-- FD.MIX.DIRECT (R225). -/
def execFdMixDirect (shift : BitVec 8) (s : State) : Outcome :=
  (mixDirect shift s).outcome fun _ s' => s'

/-- FD.PACK16 (R226). -/
def execFdPack16 (s : State) : Outcome := (pack16 s).outcome fun _ s' => s'

/-- FD.PACK24 (R227). -/
def execFdPack24 (s : State) : Outcome := (pack24 s).outcome fun _ s' => s'

end Sys2Proof.Machine
end

