-- ==== Sys2Proof/Machine/HostCmd.lean ====
section
/-! DEFINITION. The host commands (`45_host.md`). A command that is not admitted, or whose arguments
are refused, changes nothing but the status it returns (R300, R327). -/

namespace Sys2Proof.Machine

/-- H.RESET (R307, R360), admitted in every mode. During a DECODE its result is unspecified (R373, U10; log 9).
A frame kind that ran on its own counts as a DECODE until its enqueue is done (DESIGN CHOICE, log 38). -/
def execHReset (s : State) : Outcome :=
  underLock s (if s.decPend then .refused .resetDuringDecode else .next (respond .ok (resetState s)))

/-- The three range checks of H.CONFIGURE (R301). -/
def configOk (s : State) (maxSamples : BitVec 32) (kModifier channels : BitVec 8) : Bool :=
  1 ≤ maxSamples.toNat && maxSamples.toNat ≤ s.prm.bufSamples &&
    (channels == 1 || channels == 2) && 1 ≤ kModifier.toNat && kModifier.toNat ≤ 31

/-- What an admitted H.CONFIGURE writes (R301). -/
def configure (maxSamples : BitVec 32) (sampleSize historyMult initHistory kModifier channels : BitVec 8)
    (sampleRate : BitVec 32) (s : State) : State :=
  { s with
    cfgMaxSamples := maxSamples
    cfgSampleSize := sampleSize
    cfgHistoryMult := historyMult
    cfgInitHistory := initHistory
    cfgKModifier := kModifier
    cfgChannels := channels
    cfgSampleRate := sampleRate
    jbQueue := []
    jbOffsetValid := false
    jbWritten := Config.lineStart
    mode := .ready }

/-- H.CONFIGURE (R301). -/
def execHConfigure (maxSamples : BitVec 32) (sampleSize historyMult initHistory kModifier channels : BitVec 8)
    (sampleRate : BitVec 32) (s : State) : Outcome :=
  underLock s
    (if s.mode ≠ .unconfigured then .next (respond .badMode s)
     else if configOk s maxSamples kModifier channels then
       .next (respond .ok
         (configure maxSamples sampleSize historyMult initHistory kModifier channels sampleRate s))
     else .next (respond .configError s))

/-- PAYLOAD[0 .. LEN-1] <- the payload (R60, R302), and the key of the DECODE. -/
def loadPayload (key : Time) (payload : List Byte) (s : State) : State :=
  { s with payload := Memory.writeBytes s.payload 0 payload, decKey := key }

/-- What H.DECODE has returned when its frame is decoded: `Ok` for a frame of no samples; otherwise
nothing yet, since the enqueue that gives the status is a transition of its own (R302). -/
def decodeAnswer (s : State) : State := { s with resp := if s.decPend then .none else .status .ok }

/-- The decoding part of H.DECODE (R302): the frame, or a DecodeError and status `Fault` (R330). A LEN of 2^32
or more does not fit BC_LEN (log 35). -/
def decodePayload (key : Time) (payload : List Byte) (s : State) : Outcome :=
  match decodeOneFrame (s.word32 payload.length) (loadPayload key payload s) with
  | .ok _ s' => .next (decodeAnswer s')
  | .raised s' => .next (respond .fault s')
  | .stuck f => .fault f

/-- H.DECODE (R302), admitted in READY only. A second DECODE before the first has returned is
unspecified (R372, U10; log 9). A frame kind that ran on its own counts as a DECODE until its enqueue is done
(DESIGN CHOICE, log 38). -/
def execHDecode (key : Time) (payload : List Byte) (s : State) : Outcome :=
  admitFrame s
    (if s.prm.payloadMax < payload.length then .next (respond .badArgument s)
     else decodePayload key payload s)

/-- H.ENQUEUE (R303). -/
def execHEnqueue (key : Time) (bytes : List Byte) (s : State) : Outcome :=
  underLock s
    (if s.mode ≠ .ready then .next (respond .badMode s)
     else if enqueueBytesOk s bytes then .next (enqueue key bytes s)
     else .next (respond .badArgument s))

/-- H.SYNC (R304), admitted in READY and FAULTED. -/
def execHSync (remote loc : Time) (s : State) : Outcome :=
  underLock s
    (if s.mode = .ready ∨ s.mode = .faulted then .next (respond .ok (syncClock remote loc s))
     else .next (respond .badMode s))

/-- H.CLOSE (R305), admitted in every mode. -/
def execHClose (s : State) : Outcome := underLock s (.next (respond .ok (closeStream s)))

/-- What H.STATUS reads, together, under the lock (R306). -/
def statusReport (s : State) : StatusReport :=
  { mode := s.mode
    errCode := s.errCode
    errInfo := s.errInfo
    offsetValid := s.jbOffsetValid
    closing := s.jbClosing
    written := s.jbWritten
    queueSize := s.jbQueue.length }

/-- H.STATUS (R306): status `Ok`, as every command that is performed returns one (R300), and the report. -/
def execHStatus (s : State) : Outcome := underLock s (.next { s with resp := .report .ok (statusReport s) })

end Sys2Proof.Machine
end

