-- ==== Sys2Proof/Machine/Jitter.lean ====
section
/-! DEFINITION. Unit JB, clock sync and the jitter buffer (`44_jitter.md`). Each operation is one
transition under the stream lock (R72). -/

namespace Sys2Proof.Machine

/-! ## The clock -/

/-- JB.SYNC (R262). -/
def execJbSync (remote loc : Time) (s : State) : Outcome := underLock s (.next (syncClock remote loc s))

/-- JB.TOREMOTE (R263): defined while JB_OFFSET_VALID = 1. -/
def execJbToRemote (loc : Time) (s : State) : Outcome :=
  underLock s
    (if s.jbOffsetValid then .next { s with timeResult := toRemote s loc } else .fault .offsetInvalid)

/-- JB.FROMREMOTE (R263): defined while JB_OFFSET_VALID = 1. -/
def execJbFromRemote (remote : Time) (s : State) : Outcome :=
  underLock s
    (if s.jbOffsetValid then .next { s with timeResult := fromRemote s remote } else .fault .offsetInvalid)

/-! ## Enqueue -/

/-- JB.ENQ (R264 to R269). R264 leaves the check of the bytes to the callers, whose bytes then pass it. Run on
its own it has no caller and answers what R303 answers for such bytes (DEDUCED, log 18). -/
def execJbEnq (key : Time) (bytes : List Byte) (s : State) : Outcome :=
  underLock s (.next (checkedEnqueue key bytes s))

/-! ## The drain's five steps (R270) -/

/-- A drain step: taken when DRAIN is enabled and the state selects that very step (R270). -/
def drainAs (op : Instr) (s : State) (go : State) : Outcome :=
  underLock s (if drainEnabled s && drainStep s == op then .next go else .fault .notSelected)

/-- The entry with the smallest key, if there is one. -/
def withHead (s : State) (go : QueueEntry → State → State) : State :=
  match s.jbQueue with
  | [] => s
  | head :: rest => go head { s with jbQueue := rest }

/-- JB.DRAIN.IDLE (R271): one quantum of silence. -/
def drainIdle (s : State) : State := emitSilence (quantum s) s

/-- JB.DRAIN.GAP (R272): silence up to the entry, at most one quantum; the entry stays. -/
def drainGapStep (s : State) : State :=
  match s.jbQueue with
  | [] => s
  | (key, _) :: _ => logEvent (.gap key) (emitSilence (min (drainGap s key).toInt.toNat (quantum s)) s)

/-- JB.DRAIN.EMIT (R273): the whole entry. -/
def drainEmit (s : State) : State := withHead s fun head s' => emit head.2 s'

/-- JB.DRAIN.TRUNC (R274): the last n - d frames of the entry, d the frames behind the line. -/
def drainTrunc (s : State) : State :=
  withHead s fun head s' =>
    let d := (-(drainGap s head.1).toInt).toNat
    logEvent (.truncated head.1)
      (emit ((head.2.take (framesOf s head.2 * bytesPerFrame s)).drop (d * bytesPerFrame s)) s')

/-- JB.DRAIN.SKIP (R276): the entry is removed, nothing is emitted. -/
def drainSkip (s : State) : State := withHead s fun head s' => logEvent (.skipped head.1) s'

/-- JB.DRAIN.IDLE (R271). -/
def execJbDrainIdle (s : State) : Outcome := drainAs .jbDrainIdle s (drainIdle s)

/-- JB.DRAIN.GAP (R272). -/
def execJbDrainGap (s : State) : Outcome := drainAs .jbDrainGap s (drainGapStep s)

/-- JB.DRAIN.EMIT (R273). -/
def execJbDrainEmit (s : State) : Outcome := drainAs .jbDrainEmit s (drainEmit s)

/-- JB.DRAIN.TRUNC (R274). -/
def execJbDrainTrunc (s : State) : Outcome := drainAs .jbDrainTrunc s (drainTrunc s)

/-- JB.DRAIN.SKIP (R276). -/
def execJbDrainSkip (s : State) : Outcome := drainAs .jbDrainSkip s (drainSkip s)

/-! ## Teardown -/

/-- JB.CLOSE (R278): accepted in every mode. -/
def execJbClose (s : State) : Outcome := underLock s (.next (closeStream s))

end Sys2Proof.Machine
end

