-- ==== Sys2Proof/Machine/Dispatch.lean ====
section
/-! DEFINITION. One arm per operation of the opcode table (R112). -/

namespace Sys2Proof.Machine

/-- The meaning of an operation in a state. -/
def exec (i : Instr) (s : State) : Host.Outcome State Fault Refusal :=
  match i with
  | .bcInit len => Sys2Proof.Machine.execBcInit len s
  | .bcRead n => Sys2Proof.Machine.execBcRead n s
  | .bcUnread n => Sys2Proof.Machine.execBcUnread n s
  | .bcClz v => Sys2Proof.Machine.execBcClz v s
  | .rdValueEsc n k mask => Sys2Proof.Machine.execRdValueEsc n k mask s
  | .rdValueUnary n k mask => Sys2Proof.Machine.execRdValueUnary n k mask s
  | .rdValueShort n k mask => Sys2Proof.Machine.execRdValueShort n k mask s
  | .rdValueLong n k mask => Sys2Proof.Machine.execRdValueLong n k mask s
  | .rdStream c o => Sys2Proof.Machine.execRdStream c o s
  | .rdSample c idx o => Sys2Proof.Machine.execRdSample c idx o s
  | .rdRun c idx o => Sys2Proof.Machine.execRdRun c idx o s
  | .lpCopy c => Sys2Proof.Machine.execLpCopy c s
  | .lpDiff c => Sys2Proof.Machine.execLpDiff c s
  | .lpFir c order => Sys2Proof.Machine.execLpFir c order s
  | .fdHeader => Sys2Proof.Machine.execFdHeader s
  | .fdMonoC => Sys2Proof.Machine.execFdMonoC s
  | .fdMonoU => Sys2Proof.Machine.execFdMonoU s
  | .fdStereoC => Sys2Proof.Machine.execFdStereoC s
  | .fdStereoU => Sys2Proof.Machine.execFdStereoU s
  | .fdChhdr c => Sys2Proof.Machine.execFdChhdr c s
  | .fdRawlow => Sys2Proof.Machine.execFdRawlow s
  | .fdVerbatim => Sys2Proof.Machine.execFdVerbatim s
  | .fdMixWeighted shift weight => Sys2Proof.Machine.execFdMixWeighted shift weight s
  | .fdMixDirect shift => Sys2Proof.Machine.execFdMixDirect shift s
  | .fdPack16 => Sys2Proof.Machine.execFdPack16 s
  | .fdPack24 => Sys2Proof.Machine.execFdPack24 s
  | .jbSync remote loc => Sys2Proof.Machine.execJbSync remote loc s
  | .jbToRemote loc => Sys2Proof.Machine.execJbToRemote loc s
  | .jbFromRemote remote => Sys2Proof.Machine.execJbFromRemote remote s
  | .jbEnq key bytes => Sys2Proof.Machine.execJbEnq key bytes s
  | .jbDrainIdle => Sys2Proof.Machine.execJbDrainIdle s
  | .jbDrainGap => Sys2Proof.Machine.execJbDrainGap s
  | .jbDrainEmit => Sys2Proof.Machine.execJbDrainEmit s
  | .jbDrainTrunc => Sys2Proof.Machine.execJbDrainTrunc s
  | .jbDrainSkip => Sys2Proof.Machine.execJbDrainSkip s
  | .jbClose => Sys2Proof.Machine.execJbClose s
  | .hReset => Sys2Proof.Machine.execHReset s
  | .hConfigure maxSamples sampleSize historyMult initHistory kModifier channels sampleRate => Sys2Proof.Machine.execHConfigure maxSamples sampleSize historyMult initHistory kModifier channels sampleRate s
  | .hDecode key payload => Sys2Proof.Machine.execHDecode key payload s
  | .hEnqueue key bytes => Sys2Proof.Machine.execHEnqueue key bytes s
  | .hSync remote loc => Sys2Proof.Machine.execHSync remote loc s
  | .hClose => Sys2Proof.Machine.execHClose s
  | .hStatus => Sys2Proof.Machine.execHStatus s

end Sys2Proof.Machine
end

