-- ==== Sys2Proof/Machine/Fetch.lean ====
section
/-! DEFINITION. What the machine does next. The block fetches no stored program (R2): HOST places
commands, ENV drives SINK_READY, DEC and DRAIN move by themselves, in any order (R20, R39, R73). The
agenda says in which order; one step takes one turn (log 4). -/

namespace Sys2Proof.Machine

/-- What a turn comes to: an operation to run in a state, or an outcome that runs none. -/
inductive Fetched
  | run (i : Instr) (s : State)
  | done (o : Outcome)

/-- Up to n payload bits from p on, as far as bytes are there and BC_LEN reaches (R131). -/
def peekBits (s : State) : Nat → Nat → List Bool
  | _, 0 => []
  | p, n + 1 =>
    if 8 * s.bcLen.toNat ≤ p then []
    else
      match payloadBit s.payload p with
      | some b => b :: peekBits s (p + 1) n
      | none => []

/-- The longest code word of R103 with its parameters in range: 9 + 32 bits. -/
def riceWordMax : Nat := 41

/-- The bits that select an operation in a context (the table's "format"): the header's 23 bits from
payload bit 0, a channel header's 16 and a code word's at POS, the 5 bits of CH_ORDER_c, the 16 of the
mix fields. -/
def unitBits (s : State) : Source → List Bool
  | .host => []
  | .frame => peekBits s 0 23
  | .header => peekBits s 0 23
  | .chhdr _ => peekBits s s.pos 16
  | .rice _ _ _ => peekBits s s.pos riceWordMax
  | .order c => bitsOfNat 5 (s.chan c).order.toNat
  | .mix => bitsOfNat 8 s.fhShift.toNat ++ bitsOfNat 8 s.fhLeftWeight.toNat
  | .call _ => []

/-- One operation on its own, selected by the bits of its context (log 12). Between the decoding of a DECODE and
its enqueue an operation other than the frame kinds runs as at any time, so that it may rewrite the PCM that is
handed over, or raise before the DECODE has returned (R335 names no such event; DESIGN CHOICE, log 40). -/
def fetchUnit (src : Source) (s : State) : Fetched :=
  match decode s.prm.profile.riceUnreadMax src (unitBits s src) with
  | .ok (i, _) => .run i s
  | .error (.raises i) => .run i s
  | .error (.reservedCode _) => .done (.refused .malformedCommand)
  | .error .shortWord => .done (.refused .malformedCommand)
  | .error .notInternal => .done (.refused .malformedCommand)

/-- A command word (R308): a reserved code answers `BadCommand` and changes nothing else. -/
def fetchHost (word : List Bool) (s : State) : Fetched :=
  match decodeCommand word with
  | .ok (i, _) => .run i s
  | .error (.reservedCode _) => .done (.next (respond .badCommand s))
  | .error .shortWord => .done (.refused .malformedCommand)
  | .error (.raises _) => .done (.refused .malformedCommand)
  | .error .notInternal => .done (.refused .malformedCommand)

/-- The enqueue that ends a DECODE (R228, R302): JB.ENQ with the DECODE's key and the frame's PCM. After a
frame kind that ran on its own there is no DECODE, and the key is whatever `decKey` holds (DESIGN CHOICE,
log 34). -/
def fetchDec (s : State) : Fetched :=
  if s.decPend then
    match Memory.readBytes s.pcm 0 s.decLen with
    | some bytes => .run (.jbEnq s.decKey bytes) { s with decPend := false }
    | none => .done (.fault .noSuchByte)
  else .done (.next s)

/-- A step of DRAIN: the one the state selects, if it is awake and enabled (R270, R353). -/
def fetchDrain (s : State) : Fetched :=
  if s.drainAwake && drainEnabled s then .run (drainStep s) s else .done (.next s)

/-- ENV drives SINK_READY (R43); its becoming 1 is the expiry of DRAIN's sleep (R353). -/
def driveSink (ready : Bool) (s : State) : State :=
  { s with
    sinkReady := ready
    drainAwake := if ready && !s.sinkReady then true else s.drainAwake }

/-- What one turn asks for. -/
def fetchTurn (s : State) : Turn → Fetched
  | .host word => fetchHost word s
  | .dec => fetchDec s
  | .drain => fetchDrain s
  | .sleep => .done (.next { s with drainAwake := false })
  | .sink ready => .done (.next (driveSink ready s))
  | .unit src => fetchUnit src s

/-- Take the next turn: it leaves the agenda, and the step counter advances. With no turn to come the
machine stays as it is. -/
def fetch (s : State) : Fetched :=
  match s.agenda with
  | [] => .done (.next s)
  | t :: rest => fetchTurn { s with agenda := rest, tick := s.tick + 1 } t

/-! ## Placing one operation (log 24) -/

/-- Put a turn before the others. -/
def placeTurn (t : Turn) (s : State) : State := { s with agenda := t :: s.agenda }

/-- A payload of 64 bytes that begins with the bits and goes on with zeros, the cursor at bit 0. -/
def placePayload (bits : List Bool) (s : State) : State :=
  { s with
    payload := Memory.writeBytes s.payload 0 (bytesOfBits 64 (bits ++ tableZeros))
    bcLen := 64, bcIdx := 0, bcAcc := 0 }

/-- A frame's stream: configured for 16-bit samples and the channel count that the header's CHAN asks
for, ready to decode. -/
def placeStream (bits : List Bool) (s : State) : State :=
  { s with
    mode := .ready
    cfgSampleSize := 16
    cfgChannels := BitVec.ofNat 8 (natOfBits (bits.take 3) + 1) }

/-- Put an operation's bits where its context reads them, and its turn next. -/
def placeWord (src : Source) (bits : List Bool) (s : State) : State :=
  match src with
  | .host => placeTurn (.host (bits ++ tableZeros)) s
  | .frame => placeTurn (.unit .frame) (placePayload bits (placeStream bits s))
  | .header => placeTurn (.unit .header) (placePayload bits (placeStream bits s))
  | .chhdr c => placeTurn (.unit (.chhdr c)) (placePayload bits { s with mode := .ready })
  | .rice n k mask => placeTurn (.unit (.rice n k mask)) (placePayload bits { s with mode := .ready })
  | .order c =>
    placeTurn (.unit (.order c)) (s.setChan c { s.chan c with order := BitVec.ofNat 5 (natOfBits bits) })
  | .mix =>
    placeTurn (.unit .mix)
      { s with
        fhChan := 1
        fhShift := BitVec.ofNat 8 (natOfBits (bits.take 8))
        fhLeftWeight := BitVec.ofNat 8 (natOfBits (bits.drop 8)) }
  | .call i => placeTurn (.unit (.call i)) s

end Sys2Proof.Machine
end

