-- ==== Sys2Proof/Machine/Step.lean ====
section
/-! DEFINITION. One step: take the next turn and run the operation it selects. -/

namespace Sys2Proof.Machine

/-- Run a fetched operation. One that takes the stream lock while it is held waits: its turn stays
(R72, R74). -/
def runFetched (s : State) : Fetched → Outcome
  | .run i s' => if takesLock i && s'.lock then .next s else exec i s'
  | .done o => o

/-- One step of the machine: one turn of the agenda. -/
def step (s : State) : Host.Outcome State Fault Refusal := runFetched s (fetch s)

/-- The state in which the next step runs the operation whose bits are `w`, numbered as the opcode
table numbers them (log 23, log 24). -/
def State.withFetchWord (s : State) (nbits w : Nat) : State :=
  match tableSource nbits w with
  | some (src, bits) => placeWord src bits s
  | none => s

end Sys2Proof.Machine
end

