-- ==== Sys2Proof/Safety.lean ====
section
/-! DEFINITION. What counts as a good state, and the terms in which the statements speak of the block:
what the payload holds, what a DecodeError leaves, the states that the rules of a frame describe. -/

namespace Sys2Proof.Machine

/-! ## The invariant -/

/-- CFG_* hold values that H.CONFIGURE admits (R30, R301). -/
def configLegal (s : State) : Bool := configOk s s.cfgMaxSamples s.cfgKModifier s.cfgChannels

/-- The buffers of a channel in canonical form, every coefficient a `coefW`-bit number (R27). -/
def ChanRegs.wf (coefW : Nat) (r : ChanRegs) : Bool :=
  File.wf r.resid && File.wf r.out && File.wf r.raw && r.coef.toList.all fun v => sext coefW v == v

/-- What every step keeps. -/
structure Inv (s : State) : Prop where
  /-- Canonical buffers and COEF_W-bit coefficients of channel A (R27). -/
  chanA : s.chA.wf s.prm.profile.coefW = true
  /-- The same of channel B. -/
  chanB : s.chB.wf s.prm.profile.coefW = true
  /-- The mixed samples are in canonical form. -/
  mixL : File.wf s.mixL = true
  mixR : File.wf s.mixR = true
  /-- PAYLOAD and PCM are in canonical form. -/
  payload : Memory.wf s.payload = true
  pcm : Memory.wf s.pcm = true
  /-- JB_QUEUE is ordered by key, without repeats (R33). -/
  queue : Queue.wf s.jbQueue = true
  /-- At most JB_CAPACITY entries (R33). -/
  capacity : s.jbQueue.length ≤ s.prm.jbCapacity
  /-- Every entry is a positive whole number of frames, at most JB_QUANTUM (R33, R264). -/
  entries : ∀ e ∈ s.jbQueue, enqueueBytesOk s e.2 = true
  /-- A live stream has a legal configuration (R30). -/
  config : s.mode = .ready ∨ s.mode = .faulted → configLegal s = true
  /-- So has one whose bytes per frame have a value (R33, R270). -/
  sized : sampleSizeOk s = true → configLegal s = true
  /-- JB_CLOSING is set exactly in mode CLOSED (R35, R278). -/
  closing : s.jbClosing = true ↔ s.mode = .closed
  /-- An error is on record only after a fault (R22, R330). -/
  errorMode : s.errCode ≠ 0 → s.mode = .faulted ∨ s.mode = .closed
  /-- A faulted stream has its error on record (R22, R330). -/
  faultedError : s.mode = .faulted → s.errCode ≠ 0
  /-- No transition leaves the stream lock held (R72). -/
  unlocked : s.lock = false

/-- SINK holds exactly JB_WRITTEN - LINE_START frames (R260, R281 (a)). -/
def SinkCounts (s : State) : Prop :=
  (s.sink.length : Int) = (s.jbWritten.toInt - Config.lineStart.toInt) * bytesPerFrame s

/-! ## What the payload holds -/

/-- From bit p on, inside the true payload, the payload is this bit string (R9, R131). -/
def holdsBitsAt (s : State) (p : Nat) (bits : List Bool) : Bool :=
  decide (p + bits.length ≤ 8 * s.bcLen.toNat) && payloadBits s.payload p bits.length == some bits

/-- From POS on, inside the true payload, the payload is this bit string. -/
def holdsBits (s : State) (bits : List Bool) : Bool := holdsBitsAt s s.pos bits

/-- `count` fields of `width` bits lie between POS and the end of the true payload. -/
def holdsFields (s : State) (count width : Nat) : Bool :=
  decide (s.pos + count * width ≤ 8 * s.bcLen.toNat) &&
    (payloadBits s.payload s.pos (count * width)).isSome

/-- Field j of the `width`-bit fields from POS on (R61). -/
def fieldAt (s : State) (width j : Nat) : Option Word := memRead s.payload (s.pos + j * width) width

/-! ## What a DecodeError leaves (R330) -/

/-- The state after a fault that is the first since RESET: the record, the mode, one log record. -/
def afterFault (code : BitVec 8) (info : Word) (s : State) : State :=
  { s with errCode := code, errInfo := info, mode := .faulted, log := s.log ++ [.fault code] }

/-- A DecodeError can be raised: a DECODE runs in READY, with no error on record (R21, R22). -/
def faultReady (s : State) : Bool := s.mode == .ready && s.errCode == 0

/-! ## Code words and streams -/

/-- A code word of R103, by its form and what it carries. -/
inductive CodeWord
  /-- Form 1: the raw value. -/
  | esc (raw : Nat)
  /-- Form 2a: the number of one-bits. -/
  | unary (ones : Nat)
  /-- Form 2b: the number of one-bits and the extra field, whose last bit is handed back. -/
  | short (ones extra : Nat)
  /-- Form 2c: the number of one-bits and the extra field. -/
  | long (ones extra : Nat)
deriving DecidableEq, Repr

/-- The word is one of its form, for raw width n and parameter k (R152 to R154, R162). -/
def CodeWord.legal (unreadMax n k : Nat) : CodeWord → Bool
  | .esc raw => decide (raw < 2 ^ n)
  | .unary ones => decide (ones ≤ 8 ∧ k = 1)
  | .short ones extra => decide (ones ≤ 8 ∧ 2 ≤ k ∧ extra ≤ unreadMax)
  | .long ones extra => decide (ones ≤ 8 ∧ 2 ≤ k ∧ unreadMax < extra ∧ extra < 2 ^ k)

/-- The bits that are read for the word (R103). -/
def CodeWord.bits (n k : Nat) : CodeWord → List Bool
  | .esc raw => List.replicate 9 true ++ bitsOfNat n raw
  | .unary ones => List.replicate ones true ++ [false]
  | .short ones extra => List.replicate ones true ++ false :: bitsOfNat k extra
  | .long ones extra => List.replicate ones true ++ false :: bitsOfNat k extra

/-- The bits that the word consumes: a short word hands one back (R154). -/
def CodeWord.size (n k : Nat) : CodeWord → Nat
  | .esc _ => 9 + n
  | .unary ones => ones + 1
  | .short ones _ => ones + k
  | .long ones _ => ones + 1 + k

/-- The word's value (R152 to R154, R162). -/
def CodeWord.value (k : Nat) (mask : Word) : CodeWord → Word
  | .esc raw => BitVec.ofNat 32 raw
  | .unary ones => BitVec.ofNat 32 ones
  | .short ones _ => BitVec.ofNat 32 ones * (BitVec.ofNat 32 (2 ^ k - 1) &&& mask)
  | .long ones extra => BitVec.ofNat 32 ones * (BitVec.ofNat 32 (2 ^ k - 1) &&& mask) + BitVec.ofNat 32 extra - 1

/-- The payload holds this word at bit p, for a parameter that R151 admits. -/
def holdsWord (s : State) (p n : Nat) (k : Int) (word : CodeWord) : Bool :=
  decide (1 ≤ k ∧ k ≤ 31) && word.legal s.prm.profile.riceUnreadMax n k.toNat &&
    holdsBitsAt s p (word.bits n k.toNat)

/-- The residual of a decoded value d, the carry added (R157). -/
def residual (d : Word) : Word := if d.getLsbD 0 then -(d + 1).sshiftRight 1 else (d + 1).sshiftRight 1

/-- The history after a sample word of value d, the carry added (R158, R159). -/
def historyAfter (p : Config.Profile) (hm h d : Word) : Word :=
  let u := h + d * hm - (h * hm).sshiftRight 9
  match p with
  | .doc => if 0xFFFF < u.toInt then 0xFFFF else u
  | .ref => if 0xFFFF < d.toInt then 0xFFFF else u

/-- k of a sample word (R156): min(31 - clz32((h >> 9) + 3), kmod). -/
def sampleParameter (h : Word) (kmod : Nat) : Int := min (31 - (clz32 (h.sshiftRight 9 + 3) : Int)) kmod

/-- k2 of a run word (R160). -/
def runParameter (h : Word) : Int := (clz32 h : Int) + (tdiv (h + 16) 64).toInt - 24

/-- A sample word and, where one follows, its run word. -/
abbrev StreamItem := CodeWord × Option CodeWord

/-- What a Rice stream leaves: its residuals in order, the history, the carry, the position. -/
structure StreamEnd where
  resid : List Word
  history : Word
  carry : BitVec 1
  pos : Nat
deriving DecidableEq, Repr

/-- A Rice stream read word by word from sample i on, at bit p, with the history h and the carry (R161). It
has a value when the payload holds exactly these items: a run word stands after a sample word just when
R160 asks for one, and no run is longer than the samples left. -/
def streamFrom (s : State) (o : RiceOperands) : List StreamItem → Nat → Word → BitVec 1 → Nat → Option StreamEnd
  | [], i, h, carry, p => if i = o.count then some ⟨[], h, carry, p⟩ else none
  | (word, run) :: rest, i, h, carry, p =>
    let k := sampleParameter h o.kmod
    let d := word.value k.toNat 0xFFFFFFFF + carry.setWidth 32
    let h' := historyAfter s.prm.profile o.hm h d
    let p' := p + word.size o.width k.toNat
    if i < o.count ∧ holdsWord s p o.width k word then
      match run with
      | none =>
        if h'.toInt < 128 ∧ i + 1 < o.count then none
        else
          (streamFrom s o rest (i + 1) h' 0 p').map fun r => { r with resid := residual d :: r.resid }
      | some runWord =>
        let k2 := runParameter h'
        let b := (runWord.value k2.toNat o.runMask).toNat
        if 0 ≤ h'.toInt ∧ h'.toInt < 128 ∧ i + 1 + b ≤ o.count ∧ i + 1 < o.count ∧
            holdsWord s p' 16 k2 runWord then
          (streamFrom s o rest (i + 1 + b) 0 1 (p' + runWord.size 16 k2.toNat)).map fun r =>
            { r with resid := residual d :: (List.replicate b 0 ++ r.resid) }
        else none
    else none

/-! ## Frames -/

/-- The sample count that a header gives (R215). -/
def headerCount (h : HeaderFields) (s : State) : Word := if h.hasSize = 1 then h.nsamples else s.cfgMaxSamples

/-- Where the body of a frame starts (R91). -/
def bodyStart (h : HeaderFields) : Nat := if h.hasSize = 1 then 55 else 23

/-- The state after a header is read (R212 to R216). -/
def headerState (h : HeaderFields) (s : State) : State :=
  { s.setPos (bodyStart h) with
    fhChan := h.chan
    fhHasSize := h.hasSize
    fhUb := h.ub
    fhCf := h.cf
    fhN := headerCount h s }

/-- A header that the stream takes: mono or stereo as configured, a count within the stream's (R212,
R216), a supported sample size (R211). -/
def headerLegal (h : HeaderFields) (s : State) : Bool :=
  sampleSizeOk s && decide (h.chan.toNat ≤ 1) && decide (h.chan.toNat + 1 = s.cfgChannels.toNat) &&
    decide ((headerCount h s).toNat ≤ s.cfgMaxSamples.toNat)

/-- The block can decode a frame of this header now, and its buffers hold the samples (R28, R302). -/
def frameReady (h : HeaderFields) (s : State) : Bool :=
  faultReady s && !s.decPend && headerLegal h s && decide (s.cfgMaxSamples.toNat ≤ s.prm.bufSamples)

/-- UB is legal in a compressed frame (R217). -/
def ubLegal (h : HeaderFields) (s : State) : Bool := h.ub == 0 || (s.cfgSampleSize == 24 && decide (h.ub.toNat ≤ 2))

/-- RSS of a compressed frame (R217). -/
def readSize (h : HeaderFields) (s : State) : Nat := s.cfgSampleSize.toNat - 8 * h.ub.toNat + h.chan.toNat

/-- The state after the mix fields of a compressed frame (R217, R219). -/
def mixState (h : HeaderFields) (shift weight : BitVec 8) (s : State) : State :=
  { (headerState h s).setPos (bodyStart h + 16) with
    fhRss := BitVec.ofNat 6 (readSize h s)
    fhShift := shift
    fhLeftWeight := weight }

/-- What R221 hands the Rice decoder of a channel whose header has this rice modifier. -/
def streamOperands (h : HeaderFields) (riceMod : BitVec 3) (s : State) : RiceOperands :=
  { count := (headerCount h s).toNat
    width := readSize h s
    initHist := BitVec.ofNat 32 s.cfgInitHistory.toNat
    kmod := s.cfgKModifier.toNat
    hm := BitVec.ofNat 32 (riceMod.toNat * (s.cfgHistoryMult.toNat / 4))
    runMask := BitVec.ofNat 32 (2 ^ s.cfgKModifier.toNat - 1) }

/-- The predictor operation that ORDER selects (R180, R222). -/
def predictorOp (c : Chan) (order : BitVec 5) : Instr :=
  if order = 0 then .lpCopy c else if order = 31 then .lpDiff c else .lpFir c order

/-- The mix operation that LEFTWEIGHT selects in a stereo frame (R224, R225). -/
def mixOp (shift weight : BitVec 8) : Instr :=
  if weight = 0 then .fdMixDirect shift else .fdMixWeighted shift weight

/-- The pack operation that the sample size selects (R226, R227). -/
def packOp (s : State) : Instr := if s.cfgSampleSize = 16 then .fdPack16 else .fdPack24

/-- Entry e of the raw low bytes of a frame, 8 * UB bits each (R220). -/
def rawField (raw : List Bool) (ub : BitVec 2) (e : Nat) : Word :=
  BitVec.ofNat 32 (natOfBits ((raw.drop (e * (8 * ub.toNat))).take (8 * ub.toNat)))

/-- A decoded sample with its raw low bytes below it (R227). -/
def withRaw (raw : List Bool) (ub : BitVec 2) (e : Nat) (v : Word) : Word :=
  if ub = 0 then v else (v <<< (8 * ub.toNat)) ||| rawField raw ub e

/-- The state after a frame is complete (R228), from the state after its pack: PCM_LEN is the number of PCM
bytes where 32 bits hold it (log 35). -/
def frameDone (h : HeaderFields) (s packed : State) (pcmLen : Word) : State :=
  { packed with
    pcmLen := pcmLen
    decLen := (headerCount h s).toNat * bytesPerFrame s
    decPend := headerCount h s != 0 }

/-- The bits of a verbatim sample of the configured size (R101). -/
def verbatimBits (s : State) (x : Word) : List Bool := bitsOfNat s.cfgSampleSize.toNat x.toNat

/-- The PCM bytes of one output sample of the configured size (R226, R227), where no raw bytes join. -/
def pcmSample (s : State) (x : Word) : List Byte :=
  (List.range (s.cfgSampleSize.toNat / 8)).map fun j => (x >>> (8 * j)).setWidth 8

/-- What a frame decode leaves alone: everything that is not decoder-private (R20), and the payload. -/
def sharedSame (s t : State) : Prop :=
  t.prm = s.prm ∧ t.jbOffset = s.jbOffset ∧ t.jbOffsetValid = s.jbOffsetValid ∧ t.jbQueue = s.jbQueue ∧
    t.jbWritten = s.jbWritten ∧ t.jbClosing = s.jbClosing ∧ t.lock = s.lock ∧ t.drainAwake = s.drainAwake ∧
    t.sink = s.sink ∧ t.sinkReady = s.sinkReady ∧ t.agenda = s.agenda ∧ t.tick = s.tick

/-- The configuration registers are the same (R30). -/
def configSame (s t : State) : Prop :=
  t.cfgMaxSamples = s.cfgMaxSamples ∧ t.cfgSampleSize = s.cfgSampleSize ∧
    t.cfgHistoryMult = s.cfgHistoryMult ∧ t.cfgInitHistory = s.cfgInitHistory ∧
    t.cfgKModifier = s.cfgKModifier ∧ t.cfgChannels = s.cfgChannels ∧ t.cfgSampleRate = s.cfgSampleRate

/-- Nothing of the decoder changed (R20): what unit JB and the host commands other than DECODE leave
alone. -/
def decoderSame (s t : State) : Prop :=
  t.bcLen = s.bcLen ∧ t.bcIdx = s.bcIdx ∧ t.bcAcc = s.bcAcc ∧ t.fhChan = s.fhChan ∧
    t.fhHasSize = s.fhHasSize ∧ t.fhUb = s.fhUb ∧ t.fhCf = s.fhCf ∧ t.fhN = s.fhN ∧ t.fhRss = s.fhRss ∧
    t.fhShift = s.fhShift ∧ t.fhLeftWeight = s.fhLeftWeight ∧ t.chA = s.chA ∧ t.chB = s.chB ∧
    t.rsHistory = s.rsHistory ∧ t.rsSignMod = s.rsSignMod ∧ t.payload = s.payload ∧ t.pcm = s.pcm ∧
    t.pcmLen = s.pcmLen ∧ t.mixL = s.mixL ∧ t.mixR = s.mixR ∧ t.decKey = s.decKey ∧ t.decPend = s.decPend ∧
    t.decLen = s.decLen

/-! ## Times -/

/-- An exact time that 64 bits hold (R261). -/
abbrev timeFits (x : Int) : Prop := -(2 ^ 63) ≤ x ∧ x < 2 ^ 63

/-- L = K - JB_OFFSET, exactly (R266, R270). -/
def lineTime (s : State) (key : Time) : Int := key.toInt - s.jbOffset.toInt

/-- The times that R266 and R270 form for an entry of n frames with this key all fit (R261). -/
abbrev timesFit (s : State) (key : Time) (n : Nat) : Prop :=
  timeFits (lineTime s key) ∧ timeFits (lineTime s key + n) ∧
    timeFits (lineTime s key + n - s.jbWritten.toInt) ∧ timeFits (lineTime s key - s.jbWritten.toInt) ∧
    timeFits (s.jbWritten.toInt + n)

end Sys2Proof.Machine
end

