-- ==== Sys2Proof/Certificates/Slice0/Obligations.lean ====
section
/-! DEFINITION. The statements for the provers. Each docstring names the rules of spec/ it formalises,
and, where a clause is the model's own choice, the log entry. -/

open Sys2Proof Sys2Proof.Machine

/-! ## Unit BC -/

/-- R130: BC.INIT sets the three cursor registers and nothing else, whatever LEN is. -/
def Obligations.BcInitRule : Prop :=
  ∀ (len : Word) (s : State),
    exec (.bcInit len) s = .next { s with bcLen := len, bcIdx := 0, bcAcc := 0 }

/-- R131: BC.READ gives the n bits at POS as an unsigned number, first bit most significant, and moves POS
by n; when a bit of the n lies at or beyond the payload's end it raises Truncated(POS) and moves nothing.
The value is in the model's result register (log 14). Of a POS that the 32 bits of ERR_INFO do not hold,
nothing is said of ERR_INFO; that the fault entry completes with a free one is the model's choice (DESIGN
CHOICE, log 35). -/
def Obligations.BcReadRule : Prop :=
  ∀ (n : Nat) (s : State), 1 ≤ n → n ≤ 32 →
    (s.pos + n ≤ 8 * s.bcLen.toNat → (∀ i < n, payloadBit s.payload (s.pos + i) ≠ none) →
      ∃ v : Word, v.toNat < 2 ^ n ∧
        (∀ i < n, payloadBit s.payload (s.pos + i) = some (v.getLsbD (n - 1 - i))) ∧
        exec (.bcRead n) s = .next { s.setPos (s.pos + n) with result := v } ∧
        (s.setPos (s.pos + n)).pos = s.pos + n) ∧
    (8 * s.bcLen.toNat < s.pos + n → faultReady s = true →
      ∃ info : Word, (s.pos < 2 ^ 32 → info.toNat = s.pos) ∧
        exec (.bcRead n) s = .next (afterFault 1 info s))

/-- R133: BC.UNREAD moves POS back by n and nothing else; a position below 0 is a fault of the model. -/
def Obligations.BcUnreadRule : Prop :=
  ∀ (n : Nat) (s : State), 1 ≤ n →
    (n ≤ s.pos →
      exec (.bcUnread n) s = .next (s.setPos (s.pos - n)) ∧ (s.setPos (s.pos - n)).pos = s.pos - n) ∧
    (s.pos < n → exec (.bcUnread n) s = .fault .cursorBelowZero)

/-- R134: BC.CLZ gives 32 for 0 and otherwise the number of zero bits above the highest set bit; it
writes the result and touches nothing else. -/
def Obligations.BcClzRule : Prop :=
  ∀ (v : Word) (s : State),
    ∃ c : Nat, exec (.bcClz v) s = .next { s with result := BitVec.ofNat 32 c } ∧
      c ≤ 32 ∧ (v = 0 ↔ c = 32) ∧
      (v ≠ 0 → 2 ^ (31 - c) ≤ v.toNat ∧ v.toNat < 2 ^ (32 - c))

/-! ## Unit RD -/

/-- R153, R103 form 1: nine one-bits, then n raw bits, unsigned; 9 + n bits consumed. -/
def Obligations.RdValueEscape : Prop :=
  ∀ (n k v : Nat) (mask : Word) (s : State),
    1 ≤ n → n ≤ 32 → 1 ≤ k → k ≤ 31 → v < 2 ^ n →
    holdsBits s (List.replicate 9 true ++ bitsOfNat n v) = true →
    exec (.rdValueEsc n k mask) s = .next { s.setPos (s.pos + (9 + n)) with result := BitVec.ofNat 32 v }

/-- R152, R103 form 2a: with k = 1, q one-bits and a zero-bit have the value q; q + 1 bits consumed. -/
def Obligations.RdValueUnary : Prop :=
  ∀ (n q : Nat) (mask : Word) (s : State),
    q ≤ 8 → holdsBits s (List.replicate q true ++ [false]) = true →
    exec (.rdValueUnary n 1 mask) s = .next { s.setPos (s.pos + (q + 1)) with result := BitVec.ofNat 32 q }

/-- R154, R103 form 2b: an extra field of at most RICE_UNREAD_MAX hands its last bit back; the value is
q * m and q + k bits are consumed. -/
def Obligations.RdValueShort : Prop :=
  ∀ (n q k extra : Nat) (mask : Word) (s : State),
    q ≤ 8 → 2 ≤ k → k ≤ 31 → extra ≤ s.prm.profile.riceUnreadMax →
    holdsBits s (List.replicate q true ++ false :: bitsOfNat k extra) = true →
    exec (.rdValueShort n k mask) s =
      .next { s.setPos (s.pos + (q + k)) with
        result := BitVec.ofNat 32 q * (((1 <<< k : Word) - 1) &&& mask) }

/-- R162, R103 form 2c: a larger extra field; the value is q * m + extra - 1 and q + 1 + k bits are
consumed. -/
def Obligations.RdValueLong : Prop :=
  ∀ (n q k extra : Nat) (mask : Word) (s : State),
    q ≤ 8 → 2 ≤ k → k ≤ 31 → s.prm.profile.riceUnreadMax < extra → extra < 2 ^ k →
    holdsBits s (List.replicate q true ++ false :: bitsOfNat k extra) = true →
    exec (.rdValueLong n k mask) s =
      .next { s.setPos (s.pos + (q + 1 + k)) with
        result := BitVec.ofNat 32 q * (((1 <<< k : Word) - 1) &&& mask) + BitVec.ofNat 32 extra - 1 }

/-- R151, R152, R322, R368: a parameter outside 1..31 raises Malformed(BAD_K) before anything is read. A
payload that ends inside the prefix raises Truncated at its end, the one-bits before it consumed; one that
ends inside the raw bits of an escape, or inside the extra bits (the bit that a short word would hand back
among them), raises it where these bits start. (ERR_INFO beyond 32 bits: log 35.) -/
def Obligations.RdValueTraps : Prop :=
  ∀ (n : Nat) (k : Int) (mask : Word) (s : State) (op : Instr),
    op = .rdValueEsc n k mask ∨ op = .rdValueUnary n k mask ∨ op = .rdValueShort n k mask ∨
      op = .rdValueLong n k mask →
    faultReady s = true →
    let truncatedAt := fun p : Nat => ∃ info : Word, (p < 2 ^ 32 → info.toNat = p) ∧
      exec op s = .next (afterFault 1 info (s.setPos p))
    (k < 1 ∨ 31 < k → exec op s = .next (afterFault 5 3 s)) ∧
    (∀ q : Nat, 1 ≤ k → k ≤ 31 → q ≤ 8 → 8 * s.bcLen.toNat = s.pos + q →
      holdsBits s (List.replicate q true) = true → truncatedAt (s.pos + q)) ∧
    (1 ≤ k → k ≤ 31 → 1 ≤ n → n ≤ 32 → holdsBits s (List.replicate 9 true) = true →
      8 * s.bcLen.toNat < s.pos + 9 + n → truncatedAt (s.pos + 9)) ∧
    (∀ q : Nat, 2 ≤ k → k ≤ 31 → q ≤ 8 → holdsBits s (List.replicate q true ++ [false]) = true →
      8 * s.bcLen.toNat < s.pos + (q + 1) + k.toNat → truncatedAt (s.pos + (q + 1)))

/-- R156 to R159: RD.SAMPLE decodes one word with the parameter that the history gives and mask 0xFFFFFFFF,
adds the carry, folds the sign into RESID_c[i], clears the carry and updates the history. (At an index beyond
the stream's samples, which R161 never asks for, that the model does the same is its choice: DESIGN CHOICE,
log 36. A kmod outside 1..31 follows the same formulas as the model's reading (log 29).) -/
def Obligations.RdSampleRule : Prop :=
  ∀ (c : Chan) (i : Nat) (o : RiceOperands) (s s' : State) (v : Word),
    i < s.prm.bufSamples →
    decodeValue o.width (sampleParameter s.rsHistory o.kmod) 0xFFFFFFFF s = .ok v s' →
    let d := v + s.rsSignMod.setWidth 32
    ∃ resid : File 32,
      exec (.rdSample c i o) s =
        .next { (s.setPos s'.pos).setChan c { s.chan c with resid := resid } with
          rsSignMod := 0
          rsHistory := historyAfter s.prm.profile o.hm s.rsHistory d } ∧
      File.read resid i =
        (if d.getLsbD 0 then -(d + 1).sshiftRight 1 else (d + 1).sshiftRight 1) ∧
      ∀ j, j ≠ i → File.read resid j = File.read (s.chan c).resid j

/-- R160: RD.RUN reads a run word with the run's own parameter, width 16 and run mask, writes that many zeros
after sample i, sets the carry (unless the run is longer than 0xFFFF) and clears the history. A negative
history raises Malformed(BAD_K) before the run word; a run longer than the samples that remain raises
Malformed(RUN_OVERFLOW) after it. The run's length is in the model's result register (log 14). -/
def Obligations.RdRunRule : Prop :=
  ∀ (c : Chan) (i : Nat) (o : RiceOperands) (s : State), i + 1 < o.count →
    (∀ (b : Word) (s' : State), 0 ≤ s.rsHistory.toInt → s.rsHistory.toInt < 128 →
      decodeValue 16 (runParameter s.rsHistory) o.runMask
        { s with rsSignMod := 1 } = .ok b s' →
      (o.count ≤ s.prm.bufSamples → (0 < b.toInt → i + 1 + b.toNat ≤ o.count) →
        ∃ resid : File 32,
          exec (.rdRun c i o) s =
            .next { (s.setPos s'.pos).setChan c { s.chan c with resid := resid } with
              rsSignMod := if 0xFFFF < b.toInt then 0 else 1
              rsHistory := 0
              result := b } ∧
          ∀ j, File.read resid j =
            if 0 < b.toInt ∧ i < j ∧ j ≤ i + b.toNat then 0 else File.read (s.chan c).resid j) ∧
      (faultReady s = true → 0 < b.toInt → o.count < i + 1 + b.toNat →
        exec (.rdRun c i o) s = .next (afterFault 5 4 { s.setPos s'.pos with rsSignMod := 1 }))) ∧
    (s.rsHistory.toInt < 0 → faultReady s = true → exec (.rdRun c i o) s = .next (afterFault 5 3 s))

/-- R161 with R155 to R160: a whole Rice stream, of sample words and run words of any form, in the order in
which the rules ask for them (`streamFrom`, from sample 0, the initial history and carry 0, at POS). The
residuals of the sample words and the zeros of the runs stand in their places, i going on by b after a run of
b; the history, the carry and the cursor are what the last word leaves; the rest of the block is as before. A
kmod outside 1..31 follows the same formulas as the model's reading (log 29). -/
def Obligations.RdStreamRule : Prop :=
  ∀ (c : Chan) (o : RiceOperands) (items : List StreamItem) (r : StreamEnd) (s : State),
    o.count ≤ s.prm.bufSamples → 1 ≤ o.width → o.width ≤ 32 →
    streamFrom s o items 0 o.initHist 0 s.pos = some r →
    ∃ resid : File 32,
      exec (.rdStream c o) s =
        .next { (s.setPos r.pos).setChan c { s.chan c with resid := resid } with
          rsSignMod := r.carry
          rsHistory := r.history } ∧
      r.resid.length = o.count ∧
      (∀ (i : Nat) (h : i < r.resid.length), File.read resid i = r.resid[i]) ∧
      ∀ i, o.count ≤ i → File.read resid i = File.read (s.chan c).resid i

/-- R156, R160: the parameters that the histories give. The sample parameter is min(31 - clz32((h >> 9) + 3),
kmod), whatever the history is; for a history that is not negative it is in 1..kmod, and the run parameter of
one below 128 is in 2..8. A kmod outside 1..31 follows the same formulas as the model's reading (log 29). -/
def Obligations.RiceParameterRange : Prop :=
  (∀ (h : Word) (kmod : Nat), sampleK h kmod = min (31 - (clz32 (h.sshiftRight 9 + 3) : Int)) kmod ∧
    (0 ≤ h.toInt → 1 ≤ kmod → kmod ≤ 31 → 1 ≤ sampleK h kmod ∧ sampleK h kmod ≤ kmod)) ∧
  (∀ h : Word, runK h = runParameter h ∧ (0 ≤ h.toInt → h.toInt < 128 → 2 ≤ runK h ∧ runK h ≤ 8))

/-! ## Unit LP -/

/-- R182: LP.COPY copies the N residuals, unextended, and changes nothing else. -/
def Obligations.LpCopyRule : Prop :=
  ∀ (c : Chan) (s : State), s.fhN.toNat ≤ s.prm.bufSamples →
    ∃ out : File 32,
      exec (.lpCopy c) s = .next (s.setChan c { s.chan c with out := out }) ∧
      (∀ i < s.fhN.toNat, File.read out i = File.read (s.chan c).resid i) ∧
      ∀ i, s.fhN.toNat ≤ i → File.read out i = File.read (s.chan c).out i

/-- R183, R181: LP.DIFF starts from the first residual, unextended, and every later sample is the sign
extension from RSS bits of the one before it plus its residual. Coefficients are not touched. (That
it completes with an RSS outside 1..32 too, each `sext` then a free value, is the model's choice: DESIGN
CHOICE, log 36.) -/
def Obligations.LpDiffRule : Prop :=
  ∀ (c : Chan) (s : State), s.fhN.toNat ≤ s.prm.bufSamples →
    ∃ out : File 32,
      exec (.lpDiff c) s = .next (s.setChan c { s.chan c with out := out }) ∧
      (0 < s.fhN.toNat → File.read out 0 = File.read (s.chan c).resid 0) ∧
      (∀ i, i + 1 < s.fhN.toNat → File.read out (i + 1) =
        sext s.fhRss.toNat (File.read out i + File.read (s.chan c).resid (i + 1))) ∧
      ∀ i, s.fhN.toNat ≤ i → File.read out i = File.read (s.chan c).out i

/-- R189 with R181, R184 to R188: LP.FIR. The first sample, ORDER warm-up samples, then each sample is the
prediction from the samples before it plus its residual, sign-extended from RSS bits, with the
coefficients `coefs b` that the adaptations up to then have left; the last of them is what stays in the
register file. (That it completes with an RSS outside 1..32 too, each `sext` then a free
value, is the model's choice: DESIGN CHOICE, log 36.) -/
def Obligations.LpFirRule : Prop :=
  ∀ (c : Chan) (order : BitVec 5) (s : State),
    order ≠ 0 → order ≠ 31 → s.fhN.toNat ≤ s.prm.bufSamples →
    let n := s.fhN.toNat
    let r := s.chan c
    ∃ (out : File 32) (coefs : Nat → Vector Word 31),
      exec (.lpFir c order) s =
        .next (s.setChan c { r with out := out, coef := coefs (n - (order.toNat + 1)) }) ∧
      coefs 0 = r.coef ∧
      (0 < n → File.read out 0 = File.read r.resid 0) ∧
      (∀ i < order.toNat, i + 1 < n →
        File.read out (i + 1) = sext s.fhRss.toNat (File.read out i + File.read r.resid (i + 1))) ∧
      (∀ b, b + order.toNat + 1 < n →
        let i := b + order.toNat + 1
        File.read out i = sext s.fhRss.toNat
          (firPred out (coefs b) order.toNat r.quant.toNat b + File.read r.resid i) ∧
        coefs (b + 1) = adapt s.prm.profile.coefW out order.toNat r.quant.toNat b
          (File.read r.resid i) (coefs b)) ∧
      ∀ i, n ≤ i → File.read out i = File.read r.out i

/-- R185, as its pseudocode writes it: the sum pairs COEF_c[j] with OUT_c[b + ORDER - j], less the base
OUT_c[b]; half of 2^QUANT is added before the shift, nothing when QUANT = 0 (R190 (a)). -/
def Obligations.FirPredictionFormula : Prop :=
  ∀ (out : File 32) (coef : Vector Word 31) (order quant b : Nat),
    firPred out coef order quant b =
      asr ((if quant = 0 then 0 else BitVec.ofNat 32 (2 ^ (quant - 1))) +
        ((List.range order).map fun j =>
          (File.read out (b + order - j) - File.read out b) * coefGet coef j).sum) quant + File.read out b

/-- R187, R188: one adaptation. No error, no change. Otherwise the taps are walked from ORDER - 1 down with
an error budget that starts as the error: `left (p + 1)` is what the taps above p have left of it, and tap p
takes its step just when that still has the error's sign. A step goes against the sign of the tap's
difference (reversed for a negative error), wraps to COEF_W bits, and takes
(difference * its sign) >> QUANT, times ORDER - p, from the budget. The other taps, and the entries at or
above ORDER, stay. -/
def Obligations.FirAdaptationRule : Prop :=
  ∀ (coefW : Nat) (out : File 32) (order quant b : Nat) (e : Word) (coef : Vector Word 31),
    1 ≤ order → order ≤ 30 →
    let v := fun p : Nat => File.read out b - File.read out (b + order - p)
    let sg := fun p : Nat => if 0 < e.toInt then sign (v p) else -(sign (v p))
    let new := adapt coefW out order quant b e coef
    (e = 0 → new = coef) ∧
    (∀ p, order ≤ p → coefGet new p = coefGet coef p) ∧
    (e ≠ 0 → ∃ left : Nat → Word, left order = e ∧
      ∀ p < order,
        if (if 0 < e.toInt then 0 < (left (p + 1)).toInt else (left (p + 1)).toInt < 0) then
          coefGet new p = sext coefW (coefGet coef p - sg p) ∧
            left p = left (p + 1) - asr (v p * sg p) quant * BitVec.ofNat 32 (order - p)
        else coefGet new p = coefGet coef p ∧ left p = left (p + 1))

/-! ## Unit FD: the header and the channel headers -/

/-- R211 to R216, R90: a header that the stream takes is read field by field from payload bit 0; the 16
reserved bits are ignored, the count is the explicit one or the stream's, and POS stands at the body. -/
def Obligations.FdHeaderRule : Prop :=
  ∀ (h : HeaderFields) (s : State),
    headerLegal h s = true → holdsBitsAt s 0 (encodeHeader h) = true →
    exec .fdHeader s = .next (headerState h s) ∧ (headerState h s).pos = bodyStart h

/-- R211, R212, R213, R215, R216, R329: the faults of the header, in the order in which they are met: the
sample size before any bit; Truncated at CHAN; the channel count after three bits; Truncated in RSVD and in
NSAMPLES; the explicit count. (A payload of whole bytes cannot end inside the flags, bits 19 to 22.) -/
def Obligations.FdHeaderTraps : Prop :=
  ∀ (h : HeaderFields) (s : State), faultReady s = true →
    (sampleSizeOk s = false →
      exec .fdHeader s = .next (afterFault 4 (s.cfgSampleSize.setWidth 32) s)) ∧
    (sampleSizeOk s = true → s.bcLen = 0 → exec .fdHeader s = .next (afterFault 1 0 (s.setPos 0))) ∧
    (sampleSizeOk s = true → holdsBitsAt s 0 (bitsOfNat 3 h.chan.toNat) = true →
      (1 < h.chan.toNat ∨ h.chan.toNat + 1 ≠ s.cfgChannels.toNat) →
      exec .fdHeader s =
        .next (afterFault 2 (h.chan.setWidth 32) { s.setPos 3 with fhChan := h.chan })) ∧
    (sampleSizeOk s = true → holdsBitsAt s 0 (bitsOfNat 3 h.chan.toNat) = true →
      h.chan.toNat ≤ 1 → h.chan.toNat + 1 = s.cfgChannels.toNat → s.bcLen.toNat ≤ 2 →
      exec .fdHeader s = .next (afterFault 1 3 { s.setPos 3 with fhChan := h.chan })) ∧
    (sampleSizeOk s = true → holdsBitsAt s 0 ((encodeHeader h).take 23) = true →
      h.chan.toNat ≤ 1 → h.chan.toNat + 1 = s.cfgChannels.toNat → h.hasSize = 1 → s.bcLen.toNat ≤ 6 →
      exec .fdHeader s =
        .next (afterFault 1 23 { s.setPos 23 with
          fhChan := h.chan, fhHasSize := h.hasSize, fhUb := h.ub, fhCf := h.cf })) ∧
    (sampleSizeOk s = true → holdsBitsAt s 0 (encodeHeader h) = true →
      h.chan.toNat ≤ 1 → h.chan.toNat + 1 = s.cfgChannels.toNat → h.hasSize = 1 →
      s.cfgMaxSamples.toNat < h.nsamples.toNat →
      exec .fdHeader s = .next (afterFault 5 1 (headerState h s)))

/-- R218, R98, R106 (b): a channel header of type 0 and its coefficient table are read into the channel's
registers, each coefficient sign-extended from 16 bits; entries at or above ORDER stay. Any other type
raises as soon as its four bits are read (R324); a payload that ends before the four bits are read raises
Truncated (R329; ERR_INFO beyond 32 bits: log 35). -/
def Obligations.FdChhdrRule : Prop :=
  ∀ (c : Chan) (s : State),
    (∀ (quant : BitVec 4) (riceMod : BitVec 3) (order : BitVec 5) (coefs : List (BitVec 16)),
      coefs.length = order.toNat → holdsBits s (encodeChhdr 0 quant riceMod order coefs) = true →
      ∃ coef : Vector Word 31,
        exec (.fdChhdr c) s =
          .next ((s.setPos (s.pos + (16 + 16 * order.toNat))).setChan c
            { s.chan c with ptype := 0, quant := quant, riceMod := riceMod, order := order, coef := coef }) ∧
        (∀ (j : Nat) (h : j < coefs.length), coefGet coef j = coefs[j].signExtend 32) ∧
        ∀ j, coefs.length ≤ j → coefGet coef j = coefGet (s.chan c).coef j) ∧
    (∀ ptype : BitVec 4, faultReady s = true → ptype ≠ 0 → holdsBits s (bitsOfNat 4 ptype.toNat) = true →
      exec (.fdChhdr c) s =
        .next (afterFault 3 (ptype.setWidth 32)
          ((s.setPos (s.pos + 4)).setChan c { s.chan c with ptype := ptype }))) ∧
    (faultReady s = true → 8 * s.bcLen.toNat < s.pos + 4 →
      ∃ info : Word, (s.pos < 2 ^ 32 → info.toNat = s.pos) ∧
        exec (.fdChhdr c) s = .next (afterFault 1 info s))

/-! ## Unit FD: samples, mixing, packing -/

/-- R220: FD.RAWLOW reads nothing when UB = 0; otherwise RAW_c[i] is the unsigned number of 8 * UB bits in
its place, channels alternating sample by sample. For FH_CHAN 0 and 1 the channels are those of R210; that
FH_CHAN 2 to 7 reads two channels as 1 does is the model's choice (DESIGN CHOICE, log 33). -/
def Obligations.FdRawlowRule : Prop :=
  ∀ s : State,
    (s.fhUb = 0 → exec .fdRawlow s = .next s) ∧
    (s.fhUb ≠ 0 → s.fhN.toNat ≤ s.prm.bufSamples →
      let w := 8 * s.fhUb.toNat
      let nch := (channels s).length
      holdsFields s (s.fhN.toNat * nch) w = true →
      ∃ rawA rawB : File 24,
        exec .fdRawlow s =
          .next { s.setPos (s.pos + s.fhN.toNat * nch * w) with
            chA := { s.chA with raw := rawA }, chB := { s.chB with raw := rawB } } ∧
        (∀ i < s.fhN.toNat,
          some (File.read rawA i) = (fieldAt s w (i * nch)).map (·.setWidth 24)) ∧
        (s.fhChan = 0 → rawB = s.chB.raw) ∧
        (s.fhChan ≠ 0 → ∀ i < s.fhN.toNat,
          some (File.read rawB i) = (fieldAt s w (i * nch + 1)).map (·.setWidth 24)) ∧
        ∀ i, s.fhN.toNat ≤ i →
          File.read rawA i = File.read s.chA.raw i ∧ File.read rawB i = File.read s.chB.raw i)

/-- R223, R106 (d), R68: FD.VERBATIM reads each sample as one two's complement field of the configured
size (the two reads of a 24-bit sample are one 24-bit field), channels alternating sample by sample. For
FH_CHAN 0 and 1 the channels are those of R210; that FH_CHAN 2 to 7 reads two channels as 1 does is the model's
choice (DESIGN CHOICE, log 33). -/
def Obligations.FdVerbatimRule : Prop :=
  ∀ s : State, sampleSizeOk s = true → s.fhN.toNat ≤ s.prm.bufSamples →
    let w := s.cfgSampleSize.toNat
    let nch := (channels s).length
    holdsFields s (s.fhN.toNat * nch) w = true →
    ∃ outA outB : File 32,
      exec .fdVerbatim s =
        .next { s.setPos (s.pos + s.fhN.toNat * nch * w) with
          chA := { s.chA with out := outA }, chB := { s.chB with out := outB } } ∧
      (∀ i < s.fhN.toNat, some (File.read outA i) = (fieldAt s w (i * nch)).map (sext w)) ∧
      (s.fhChan = 0 → outB = s.chB.out) ∧
      (s.fhChan ≠ 0 → ∀ i < s.fhN.toNat,
        some (File.read outB i) = (fieldAt s w (i * nch + 1)).map (sext w)) ∧
      ∀ i, s.fhN.toNat ≤ i →
        File.read outA i = File.read s.chA.out i ∧ File.read outB i = File.read s.chB.out i

/-- R224, R225: FD.MIX.WEIGHTED gives R = mid - ((diff * weight) >> shift) and L = R + diff for every
sample; FD.MIX.DIRECT gives left channel A and right channel B, whatever the shift is. The model keeps L
and R in MIX_L and MIX_R (log 19). -/
def Obligations.FdMixRule : Prop :=
  ∀ (shift weight : BitVec 8) (s : State), s.fhChan = 1 → s.fhN.toNat ≤ s.prm.bufSamples →
    let kept := fun l r : File 32 => ∀ i, s.fhN.toNat ≤ i →
      File.read l i = File.read s.mixL i ∧ File.read r i = File.read s.mixR i
    (shift.toNat ≤ 31 → weight ≠ 0 →
      ∃ l r : File 32,
        exec (.fdMixWeighted shift weight) s = .next { s with mixL := l, mixR := r } ∧
        (∀ i < s.fhN.toNat,
          let mid := File.read s.chA.out i
          let diff := File.read s.chB.out i
          File.read r i = mid - (diff * weight.setWidth 32).sshiftRight shift.toNat ∧
            File.read l i = File.read r i + diff) ∧ kept l r) ∧
    (∃ l r : File 32,
      exec (.fdMixDirect shift) s = .next { s with mixL := l, mixR := r } ∧
      (∀ i < s.fhN.toNat,
        File.read l i = File.read s.chA.out i ∧ File.read r i = File.read s.chB.out i) ∧ kept l r)

/-- R226, R64, R66: FD.PACK16 writes the two low bytes of every output sample, low byte first, left before
right, frame i at i * BPF, and no other byte of PCM. (Frames whose channel count is not the stream's:
UnstatedOperandsRun.) -/
def Obligations.FdPack16Rule : Prop :=
  ∀ s : State, s.cfgSampleSize = 16 → s.fhChan.toNat ≤ 1 → s.fhChan.toNat + 1 = s.cfgChannels.toNat →
    s.fhN.toNat ≤ s.prm.bufSamples →
    let bpf := 2 * s.cfgChannels.toNat
    ∃ pcm : Memory,
      exec .fdPack16 s = .next { s with pcm := pcm } ∧
      (∀ i < s.fhN.toNat, ∀ x < s.cfgChannels.toNat, ∀ j < 2,
        let v := if s.fhChan = 0 then File.read s.chA.out i
          else if x = 0 then File.read s.mixL i else File.read s.mixR i
        Memory.read pcm (i * bpf + 2 * x + j) = some ((v >>> (8 * j)).setWidth 8)) ∧
      ∀ a, s.fhN.toNat * bpf ≤ a → Memory.read pcm a = Memory.read s.pcm a

/-- R227, R64, R66: FD.PACK24 joins the raw low bytes below the shifted sample when UB is not 0, A's raw
bytes to the first output channel and B's to the second, and writes three bytes, low byte first. (Frames
whose channel count is not the stream's: UnstatedOperandsRun.) -/
def Obligations.FdPack24Rule : Prop :=
  ∀ s : State, s.cfgSampleSize = 24 → s.fhChan.toNat ≤ 1 → s.fhChan.toNat + 1 = s.cfgChannels.toNat →
    s.fhN.toNat ≤ s.prm.bufSamples →
    let bpf := 3 * s.cfgChannels.toNat
    ∃ pcm : Memory,
      exec .fdPack24 s = .next { s with pcm := pcm } ∧
      (∀ i < s.fhN.toNat, ∀ x < s.cfgChannels.toNat, ∀ j < 3,
        let v := if s.fhChan = 0 then File.read s.chA.out i
          else if x = 0 then File.read s.mixL i else File.read s.mixR i
        let r := if x = 0 then File.read s.chA.raw i else File.read s.chB.raw i
        let m := if s.fhUb = 0 then v else (v <<< (8 * s.fhUb.toNat)) ||| r.setWidth 32
        Memory.read pcm (i * bpf + 3 * x + j) = some ((m >>> (8 * j)).setWidth 8)) ∧
      ∀ a, s.fhN.toNat * bpf ≤ a → Memory.read pcm a = Memory.read s.pcm a

/-! ## Unit FD: the frame kinds -/

/-- R232, R234: FD.MONO.U and FD.STEREO.U. Any list of samples, written verbatim after an uncompressed
header with any UB and any reserved bits, comes out as its PCM: every sample's low bytes, low byte first,
in the order of the bit string; the cursor stands after the last sample. PCM_LEN is the number of bytes
where 32 bits hold it (log 35). The hand-over carries the key that stands in `decKey` (log 34). -/
def Obligations.UncompressedFrames : Prop :=
  ∀ (h : HeaderFields) (xs : List Word) (s : State),
    frameReady h s = true → h.cf = 1 →
    xs.length = (headerCount h s).toNat * (h.chan.toNat + 1) →
    holdsBitsAt s 0 (encodeHeader h ++ xs.flatMap (verbatimBits s)) = true →
    ∃ t : State,
      exec (if h.chan = 0 then .fdMonoU else .fdStereoU) s = .next t ∧
      t.decLen = (headerCount h s).toNat * bytesPerFrame s ∧
      (t.decLen < 2 ^ 32 → t.pcmLen.toNat = t.decLen) ∧
      Memory.readBytes t.pcm 0 t.decLen = some (xs.flatMap (pcmSample s)) ∧
      t.pos = bodyStart h + xs.length * s.cfgSampleSize.toNat ∧
      t.fhUb = 0 ∧ t.fhShift = 0 ∧ t.fhLeftWeight = 0 ∧
      t.decPend = (headerCount h s != 0) ∧ t.decKey = s.decKey ∧
      t.mode = s.mode ∧ t.errCode = s.errCode ∧ t.errInfo = s.errInfo ∧ t.log = s.log ∧
      t.payload = s.payload ∧ t.resp = s.resp ∧ configSame s t ∧ sharedSame s t

/-- R231: FD.MONO.C. Any mono compressed frame with any legal UB, any 16 ignored bits, any channel header with
its coefficients, any raw low bytes and any Rice stream after it. The frame is its operations, one after the
other, each from the state that the one before leaves: the header; the channel header from the state after the
mix fields (RSS by R217); the raw bytes; RD.STREAM with the operands of R221 (`streamOperands`: hm = RICEMOD *
(HISTORYMULT / 4), runmask = 2^KMODIFIER - 1); the predictor that ORDER selects (R180, R222); the pack that
the sample size selects; then PCM_LEN and the hand-over (R228). Every byte of the PCM is that of its sample of
OUT_A, the raw bytes below it; for ORDER 0 the sample is the residual. PCM_LEN is the number of bytes where 32
bits hold it, and free where they do not (DESIGN CHOICE, log 35). The hand-over carries the key that stands in
`decKey` (log 34). -/
def Obligations.MonoCompressedFrames : Prop :=
  ∀ (h : HeaderFields) (ignored : BitVec 16) (quant : BitVec 4) (riceMod : BitVec 3) (order : BitVec 5)
    (coefs : List (BitVec 16)) (raw : List Bool) (items : List StreamItem) (r : StreamEnd) (s : State),
    frameReady h s = true → h.cf = 0 → h.chan = 0 → ubLegal h s = true → coefs.length = order.toNat →
    let n := (headerCount h s).toNat
    let o := streamOperands h riceMod s
    let before := encodeHeader h ++ (bitsOfNat 16 ignored.toNat ++ encodeChhdr 0 quant riceMod order coefs)
    raw.length = n * (8 * h.ub.toNat) → holdsBitsAt s 0 (before ++ raw) = true →
    streamFrom s o items 0 o.initHist 0 (before ++ raw).length = some r →
    ∃ (s3 s4 s5 s6 packed : State) (len : Word),
      exec .fdHeader s = .next (headerState h s) ∧
      exec (.fdChhdr .a) (mixState h 0 0 s) = .next s3 ∧ exec .fdRawlow s3 = .next s4 ∧
      exec (.rdStream .a o) s4 = .next s5 ∧ exec (predictorOp .a order) s5 = .next s6 ∧
      exec (packOp s) s6 = .next packed ∧
      exec .fdMonoC s = .next (frameDone h s packed len) ∧
      (n * bytesPerFrame s < 2 ^ 32 → len.toNat = n * bytesPerFrame s) ∧
      packed.pos = r.pos ∧
      (∀ i < n, some (File.read s6.chA.resid i) = r.resid[i]? ∧
        (order = 0 → File.read s6.chA.out i = File.read s6.chA.resid i)) ∧
      (∀ i < n, ∀ j < bytesPerSample s, Memory.read packed.pcm (i * bytesPerFrame s + j) =
        some ((withRaw raw h.ub i (File.read s6.chA.out i) >>> (8 * j)).setWidth 8)) ∧
      packed.chB = s.chB ∧ packed.decKey = s.decKey ∧ packed.mode = s.mode ∧
      packed.errCode = s.errCode ∧ packed.errInfo = s.errInfo ∧ packed.log = s.log ∧
      packed.payload = s.payload ∧ packed.resp = s.resp ∧ configSame s packed ∧ sharedSame s packed

/-- R233: FD.STEREO.C. The same for a stereo frame: SHIFT and LEFTWEIGHT before the two channel headers, the
raw bytes of A and B alternating, RSS one bit wider, the stream and the predictor of A before those of B, then
the mix that LEFTWEIGHT selects (R224, R225), then the pack. The SHIFT is any with LEFTWEIGHT 0, at most 31
otherwise (R219). Every byte of the PCM is that of its left or right sample, A's raw bytes below the left one,
B's below the right one. Of PCM_LEN and the key, see there (log 34, log 35). -/
def Obligations.StereoCompressedFrames : Prop :=
  ∀ (h : HeaderFields) (shift weight : BitVec 8) (quantA quantB : BitVec 4) (riceModA riceModB : BitVec 3)
    (orderA orderB : BitVec 5) (coefsA coefsB : List (BitVec 16)) (raw : List Bool)
    (itemsA itemsB : List StreamItem) (ra rb : StreamEnd) (s : State),
    frameReady h s = true → h.cf = 0 → h.chan = 1 → ubLegal h s = true →
    (weight ≠ 0 → shift.toNat ≤ 31) → coefsA.length = orderA.toNat → coefsB.length = orderB.toNat →
    let n := (headerCount h s).toNat
    let oa := streamOperands h riceModA s
    let ob := streamOperands h riceModB s
    let before := encodeHeader h ++ (bitsOfNat 8 shift.toNat ++ (bitsOfNat 8 weight.toNat ++
      (encodeChhdr 0 quantA riceModA orderA coefsA ++ encodeChhdr 0 quantB riceModB orderB coefsB)))
    raw.length = n * 2 * (8 * h.ub.toNat) → holdsBitsAt s 0 (before ++ raw) = true →
    streamFrom s oa itemsA 0 oa.initHist 0 (before ++ raw).length = some ra →
    streamFrom s ob itemsB 0 ob.initHist 0 ra.pos = some rb →
    ∃ (s3 s4 s5 s6 s7 s8 s9 s10 packed : State) (len : Word),
      exec .fdHeader s = .next (headerState h s) ∧
      exec (.fdChhdr .a) (mixState h shift weight s) = .next s3 ∧ exec (.fdChhdr .b) s3 = .next s4 ∧
      exec .fdRawlow s4 = .next s5 ∧
      exec (.rdStream .a oa) s5 = .next s6 ∧ exec (predictorOp .a orderA) s6 = .next s7 ∧
      exec (.rdStream .b ob) s7 = .next s8 ∧ exec (predictorOp .b orderB) s8 = .next s9 ∧
      exec (mixOp shift weight) s9 = .next s10 ∧ exec (packOp s) s10 = .next packed ∧
      exec .fdStereoC s = .next (frameDone h s packed len) ∧
      (n * bytesPerFrame s < 2 ^ 32 → len.toNat = n * bytesPerFrame s) ∧
      packed.pos = rb.pos ∧
      (∀ i < n, some (File.read s9.chA.resid i) = ra.resid[i]? ∧
        some (File.read s9.chB.resid i) = rb.resid[i]? ∧
        (orderA = 0 → File.read s9.chA.out i = File.read s9.chA.resid i) ∧
        (orderB = 0 → File.read s9.chB.out i = File.read s9.chB.resid i)) ∧
      (∀ i < n, ∀ x < 2, ∀ j < bytesPerSample s,
        let mid := File.read s9.chA.out i
        let diff := File.read s9.chB.out i
        let right := if weight = 0 then diff
          else mid - (diff * weight.setWidth 32).sshiftRight shift.toNat
        let left := if weight = 0 then mid else right + diff
        Memory.read packed.pcm (i * bytesPerFrame s + x * bytesPerSample s + j) =
          some ((withRaw raw h.ub (2 * i + x) (if x = 0 then left else right) >>> (8 * j)).setWidth 8)) ∧
      packed.decKey = s.decKey ∧ packed.mode = s.mode ∧
      packed.errCode = s.errCode ∧ packed.errInfo = s.errInfo ∧ packed.log = s.log ∧
      packed.payload = s.payload ∧ packed.resp = s.resp ∧ configSame s packed ∧ sharedSame s packed

/-- R217, R219, R329: the faults of a compressed frame between its header and its channel headers: an
illegal UB right after the header; with a legal one, a payload that ends inside the mix fields, where the
field starts; a mix shift above 31 with a weight, right after the mix fields. -/
def Obligations.CompressedFrameTraps : Prop :=
  ∀ (h : HeaderFields) (s : State), frameReady h s = true → h.cf = 0 →
    let read := { headerState h s with fhRss := BitVec.ofNat 6 (readSize h s) }
    (ubLegal h s = false → holdsBitsAt s 0 (encodeHeader h) = true →
      exec (if h.chan = 0 then .fdMonoC else .fdStereoC) s = .next (afterFault 5 2 (headerState h s))) ∧
    (ubLegal h s = true → holdsBitsAt s 0 (encodeHeader h) = true →
      h.chan = 0 → 8 * s.bcLen.toNat < bodyStart h + 16 →
      exec .fdMonoC s = .next (afterFault 1 (BitVec.ofNat 32 (bodyStart h)) read)) ∧
    (ubLegal h s = true → holdsBitsAt s 0 (encodeHeader h) = true →
      h.chan = 1 → 8 * s.bcLen.toNat < bodyStart h + 8 →
      exec .fdStereoC s = .next (afterFault 1 (BitVec.ofNat 32 (bodyStart h)) read)) ∧
    (∀ shift : BitVec 8, ubLegal h s = true →
      holdsBitsAt s 0 (encodeHeader h ++ bitsOfNat 8 shift.toNat) = true →
      h.chan = 1 → 8 * s.bcLen.toNat < bodyStart h + 16 →
      exec .fdStereoC s =
        .next (afterFault 1 (BitVec.ofNat 32 (bodyStart h + 8))
          { read.setPos (bodyStart h + 8) with fhShift := shift })) ∧
    (∀ shift weight : BitVec 8, ubLegal h s = true → h.chan = 1 → 31 < shift.toNat → weight ≠ 0 →
      holdsBitsAt s 0 (encodeHeader h ++ (bitsOfNat 8 shift.toNat ++ bitsOfNat 8 weight.toNat)) = true →
      exec .fdStereoC s = .next (afterFault 5 5 (mixState h shift weight s)))

/-! ## Unit JB -/

/-- R262, R304: SYNC sets the offset to remote - local (where 64 bits hold it; outside, which R261 and U15
assume away, it completes with a free offset as the model's choice: DESIGN CHOICE, log 7), makes it valid and
wakes DRAIN; H.SYNC does so in READY and FAULTED and answers Ok, and answers BadMode in the other modes. -/
def Obligations.SyncRule : Prop :=
  ∀ (remote loc : Time) (s : State), s.lock = false →
    ∃ offset : Time,
      (timeFits (remote.toInt - loc.toInt) → offset.toInt = remote.toInt - loc.toInt) ∧
      exec (.jbSync remote loc) s =
        .next { s with jbOffset := offset, jbOffsetValid := true, drainAwake := true } ∧
      (s.mode = .ready ∨ s.mode = .faulted → exec (.hSync remote loc) s =
        .next { s with
          jbOffset := offset, jbOffsetValid := true, drainAwake := true, resp := .status .ok }) ∧
      (s.mode = .unconfigured ∨ s.mode = .closed → exec (.hSync remote loc) s =
        .next { s with resp := .status .badMode })

/-- R263: the translations add and subtract the offset while it is valid, and each undoes the other; while
it is not valid they stop (R40; log 25). The value is in the model's time register (log 14). Where 64 bits do
not hold it, which R261 and U15 assume away, that the translation completes with a free value is the model's
choice (DESIGN CHOICE, log 7). -/
def Obligations.TranslationRule : Prop :=
  ∀ (x : Time) (s : State), s.lock = false →
    (s.jbOffsetValid = true →
      ∃ l r : Time,
        exec (.jbToRemote x) s = .next { s with timeResult := r } ∧
        exec (.jbFromRemote x) s = .next { s with timeResult := l } ∧
        (timeFits (x.toInt + s.jbOffset.toInt) → r.toInt = x.toInt + s.jbOffset.toInt ∧
          exec (.jbFromRemote r) s = .next { s with timeResult := x }) ∧
        (timeFits (x.toInt - s.jbOffset.toInt) → l.toInt = x.toInt - s.jbOffset.toInt ∧
          exec (.jbToRemote l) s = .next { s with timeResult := x })) ∧
    (s.jbOffsetValid = false →
      exec (.jbToRemote x) s = .fault .offsetInvalid ∧ exec (.jbFromRemote x) s = .fault .offsetInvalid)

/-- R264 to R269: JB.ENQ. Refused while closing, whatever the bytes and the queue are; then, on bytes that its
caller has checked (of others: UnstatedOperandsRun), dropped late or early once the offset is valid; a queued
key's bytes are replaced; a full queue drops a new key; otherwise the entry is inserted in key order and DRAIN
is woken. Nothing else changes. -/
def Obligations.EnqueueRule : Prop :=
  ∀ (key : Time) (bytes : List Byte) (s : State),
    s.lock = false →
    (s.jbClosing = true → exec (.jbEnq key bytes) s = .next { s with resp := .status .badMode }) ∧
    (enqueueBytesOk s bytes = true → Queue.wf s.jbQueue = true →
    (s.jbOffsetValid = true → timesFit s key (framesOf s bytes)) →
    let ends : Int := lineTime s key + framesOf s bytes
    let late := s.jbOffsetValid = true ∧ ends ≤ s.jbWritten.toInt
    let early := s.jbOffsetValid = true ∧ (s.prm.jbHorizon : Int) < ends - s.jbWritten.toInt
    let held := (Queue.find s.jbQueue key).isSome = true
    let full := s.jbQueue.length = s.prm.jbCapacity
    (s.jbClosing = false → late → exec (.jbEnq key bytes) s =
      .next { s with resp := .status .dropped, log := s.log ++ [.dropLate key] }) ∧
    (s.jbClosing = false → ¬ late → early → exec (.jbEnq key bytes) s =
      .next { s with resp := .status .dropped, log := s.log ++ [.dropEarly key] }) ∧
    (s.jbClosing = false → ¬ late → ¬ early → ¬ held → full → exec (.jbEnq key bytes) s =
      .next { s with resp := .status .dropped, log := s.log ++ [.dropFull key] }) ∧
    (s.jbClosing = false → ¬ late → ¬ early → (held ∨ ¬ full) →
      ∃ queue : List QueueEntry,
        exec (.jbEnq key bytes) s =
          .next { s with
            resp := .status .ok
            jbQueue := queue
            log := if held then s.log ++ [.replaced key] else s.log
            drainAwake := if held then s.drainAwake else true } ∧
        Queue.wf queue = true ∧
        queue.length = (if held then s.jbQueue.length else s.jbQueue.length + 1) ∧
        ∀ k, Queue.find queue k = if k = key then some bytes else Queue.find s.jbQueue k))

/-- R271, R272: the two silent steps of an enabled DRAIN. An empty queue gives one quantum of zero frames;
an entry that is not due yet gives zero frames up to it, at most one quantum, and one GAP record, and
stays queued. -/
def Obligations.DrainSilence : Prop :=
  ∀ s : State,
    s.lock = false → drainEnabled s = true → 0 < bytesPerFrame s →
    (s.jbQueue = [] → timeFits (s.jbWritten.toInt + quantum s) →
      exec .jbDrainIdle s =
        .next { s with
          sink := s.sink ++ List.replicate (quantum s * bytesPerFrame s) 0
          jbWritten := s.jbWritten + BitVec.ofNat 64 (quantum s) }) ∧
    (∀ (key : Time) (bytes : List Byte) (rest : List QueueEntry),
      s.jbQueue = (key, bytes) :: rest → timesFit s key (framesOf s bytes) →
      let gap := lineTime s key - s.jbWritten.toInt
      let silent := min gap.toNat (quantum s)
      0 < gap →
      exec .jbDrainGap s =
        .next { s with
          sink := s.sink ++ List.replicate (silent * bytesPerFrame s) 0
          jbWritten := s.jbWritten + BitVec.ofNat 64 silent
          log := s.log ++ [.gap key] })

/-- R273, R274, R276: the three steps of an enabled DRAIN that take the first entry: due now, it is emitted
whole; begun before the line, its last frames are emitted and logged; behind the line, it is dropped and
logged and the line does not move. -/
def Obligations.DrainEntry : Prop :=
  ∀ (key : Time) (bytes : List Byte) (rest : List QueueEntry) (s : State),
    s.lock = false → drainEnabled s = true → s.jbQueue = (key, bytes) :: rest →
    enqueueBytesOk s bytes = true → timesFit s key (framesOf s bytes) →
    let n := framesOf s bytes
    let gap := lineTime s key - s.jbWritten.toInt
    (gap = 0 → exec .jbDrainEmit s =
      .next { s with
        jbQueue := rest
        sink := s.sink ++ bytes
        jbWritten := s.jbWritten + BitVec.ofNat 64 n }) ∧
    (-(n : Int) < gap → gap < 0 → exec .jbDrainTrunc s =
      .next { s with
        jbQueue := rest
        sink := s.sink ++ bytes.drop (gap.natAbs * bytesPerFrame s)
        jbWritten := s.jbWritten + BitVec.ofNat 64 (n - gap.natAbs)
        log := s.log ++ [.truncated key] }) ∧
    (gap ≤ -(n : Int) → exec .jbDrainSkip s =
      .next { s with jbQueue := rest, log := s.log ++ [.skipped key] })

/-- R270 to R274, R276: the five conditions are exclusive and exhaustive. DRAIN is enabled when the offset is
valid, the stream is not closing, the sink is ready and the sample size is 16 or 24. Then exactly one of the
five steps runs and the four others stop by name (the model's stop, log 13): with an empty queue the idle
step; with a first entry of n frames and gap = L - JB_WRITTEN (times that 64 bits hold, R261), the gap step
for gap > 0, the emitting one for gap = 0, the truncating one for -n < gap < 0, the skipping one for
gap <= -n. Not enabled, all five stop. Where 64 bits do not hold L, gap or the line's next position, which R261
and U15 assume away, that a step completes all the same, chosen by a free value, is the model's choice (DESIGN
CHOICE, log 7). -/
def Obligations.DrainExclusive : Prop :=
  ∀ s : State, s.lock = false →
    let enabled := s.jbOffsetValid = true ∧ s.jbClosing = false ∧ s.sinkReady = true ∧
      (s.cfgSampleSize = 16 ∨ s.cfgSampleSize = 24)
    let steps : List Instr := [.jbDrainIdle, .jbDrainGap, .jbDrainEmit, .jbDrainTrunc, .jbDrainSkip]
    let only := fun op : Instr => (∃ t, exec op s = .next t) ∧
      ∀ other ∈ steps, other ≠ op → exec other s = .fault .notSelected
    (¬ enabled → ∀ op ∈ steps, exec op s = .fault .notSelected) ∧
    (enabled → ∃ op ∈ steps, only op) ∧
    (enabled → s.jbQueue = [] → only .jbDrainIdle) ∧
    (∀ (key : Time) (bytes : List Byte) (rest : List QueueEntry),
      enabled → s.jbQueue = (key, bytes) :: rest → 0 < framesOf s bytes →
      timeFits (lineTime s key) → timeFits (lineTime s key - s.jbWritten.toInt) →
      let n : Int := framesOf s bytes
      let gap := lineTime s key - s.jbWritten.toInt
      (0 < gap → only .jbDrainGap) ∧
      (gap = 0 → only .jbDrainEmit) ∧
      (-n < gap → gap < 0 → only .jbDrainTrunc) ∧
      (gap ≤ -n → only .jbDrainSkip))

/-- R278, R305: CLOSE, in every mode, sets the closing bit, empties the queue, wakes DRAIN and enters
CLOSED; the error record is kept; H.CLOSE answers Ok. DRAIN is never enabled after it. -/
def Obligations.CloseRule : Prop :=
  ∀ s : State, s.lock = false →
    let t := { s with jbClosing := true, jbQueue := [], drainAwake := true, mode := .closed }
    exec .jbClose s = .next t ∧ exec .hClose s = .next { t with resp := .status .ok } ∧
      drainEnabled t = false

/-! ## Host commands -/

/-- R307, R360, R44: H.RESET, in every mode and with no DECODE running, gives every register of R44's
table that has a reset value that value, answers Ok, and leaves the inputs and the parameters. -/
def Obligations.ResetRule : Prop :=
  ∀ s : State, s.lock = false → s.decPend = false →
    ∃ t : State, exec .hReset s = .next t ∧
      t.mode = .unconfigured ∧ t.errCode = 0 ∧ t.errInfo = 0 ∧
      t.jbOffsetValid = false ∧ t.jbQueue = [] ∧ t.jbWritten = 0 ∧ t.jbClosing = false ∧
      t.lock = false ∧ t.drainAwake = false ∧ t.log = [] ∧ t.sink = [] ∧ t.resp = .status .ok ∧
      t.prm = s.prm ∧ t.sinkReady = s.sinkReady ∧ t.agenda = s.agenda

/-- R301: H.CONFIGURE. BadMode outside UNCONFIGURED; ConfigError for a maximum outside 1..BUF_SAMPLES, a
channel count other than 1 and 2, or a kmodifier outside 1..31; otherwise the seven registers are written,
the queue emptied, the offset made invalid, the line set back, the mode READY. -/
def Obligations.ConfigureRule : Prop :=
  ∀ (maxSamples rate : BitVec 32) (size mult init kmod channels : BitVec 8) (s : State),
    s.lock = false →
    let cmd := Instr.hConfigure maxSamples size mult init kmod channels rate
    let legal := 1 ≤ maxSamples.toNat ∧ maxSamples.toNat ≤ s.prm.bufSamples ∧
      (channels = 1 ∨ channels = 2) ∧ 1 ≤ kmod.toNat ∧ kmod.toNat ≤ 31
    (s.mode ≠ .unconfigured → exec cmd s = .next { s with resp := .status .badMode }) ∧
    (s.mode = .unconfigured → ¬ legal → exec cmd s = .next { s with resp := .status .configError }) ∧
    (s.mode = .unconfigured → legal → exec cmd s =
      .next { s with
        cfgMaxSamples := maxSamples, cfgSampleSize := size, cfgHistoryMult := mult
        cfgInitHistory := init, cfgKModifier := kmod, cfgChannels := channels, cfgSampleRate := rate
        jbQueue := [], jbOffsetValid := false, jbWritten := 0
        mode := .ready
        resp := .status .ok })

/-- R302, R322 to R326: no payload ends a run. In READY, with a legal configuration and no DECODE running,
H.DECODE of any payload that fits answers a next state: the frame is decoded, or a DecodeError is taken. That
it does so with a free BC_LEN for a payload of 2^32 bytes or more is the model's choice (DESIGN CHOICE, log
35). -/
def Obligations.DecodeAlwaysAnswers : Prop :=
  ∀ (key : Time) (payload : List Byte) (s : State),
    s.mode = .ready → s.decPend = false → configLegal s = true →
    payload.length ≤ s.prm.payloadMax →
    ∃ t : State, exec (.hDecode key payload) s = .next t ∧
      (t.mode = .ready ∧ (t.resp = .status .ok ∧ t.decPend = false ∨ t.resp = .none ∧ t.decPend = true) ∨
        t.mode = .faulted ∧ t.resp = .status .fault ∧ t.decPend = false)

/-- R330, R331: a DECODE that faults writes the error record, the mode and one log record, answers Fault,
and hands nothing over: the queue, the clock, the line and the sink are as they were. -/
def Obligations.DecodeFaultPrecise : Prop :=
  ∀ (key : Time) (payload : List Byte) (s t : State),
    s.mode = .ready → s.errCode = 0 → exec (.hDecode key payload) s = .next t → t.mode ≠ .ready →
    t.mode = .faulted ∧ t.resp = .status .fault ∧ 1 ≤ t.errCode.toNat ∧ t.errCode.toNat ≤ 5 ∧
      t.log = s.log ++ [.fault t.errCode] ∧ t.decPend = s.decPend ∧ configSame s t ∧ sharedSame s t

/-- R302, R228, R232, R234: a DECODE of an uncompressed frame and the enqueue that ends it, two
transitions. Before the first SYNC, with room in the queue, the frame's PCM stands in the queue under the
DECODE's key, and the status is Ok. -/
def Obligations.DecodeThenEnqueue : Prop :=
  ∀ (h : HeaderFields) (xs : List Word) (key : Time) (payload : List Byte) (rest : List Turn) (s : State),
    frameReady h s = true → configLegal s = true → h.cf = 1 → headerCount h s ≠ 0 →
    xs.length = (headerCount h s).toNat * (h.chan.toNat + 1) →
    payload.length ≤ s.prm.payloadMax → payload.length < 2 ^ 32 →
    (encodeHeader h ++ xs.flatMap (verbatimBits s)) <+: bitsOfBytes payload →
    s.lock = false → s.jbClosing = false → s.jbOffsetValid = false → Queue.find s.jbQueue key = none →
    s.jbQueue.length < s.prm.jbCapacity → s.agenda = .dec :: rest →
    ∃ s1 s2 : State,
      exec (.hDecode key payload) s = .next s1 ∧ s1.resp = .none ∧ s1.mode = .ready ∧
      s1.jbQueue = s.jbQueue ∧ step s1 = .next s2 ∧ s2.resp = .status .ok ∧ s2.mode = .ready ∧
      s2.decPend = false ∧ s2.drainAwake = true ∧ s2.agenda = rest ∧ s2.log = s.log ∧ s2.sink = s.sink ∧
      s2.jbQueue.length = s.jbQueue.length + 1 ∧
      ∀ k, Queue.find s2.jbQueue k =
        if k = key then some (xs.flatMap (pcmSample s)) else Queue.find s.jbQueue k

/-- R303: H.ENQUEUE. BadMode outside READY; BadArgument while the sample size is unsupported, for an empty
string, a length that is no whole number of frames, or more than JB_QUANTUM frames; otherwise what the
enqueue of R264 answers. Where 64 bits do not hold L, L + n or L + n - JB_WRITTEN, which R261 and U15 assume
away, that both complete, by comparisons with a free value, is the model's choice (DESIGN CHOICE, log 7). -/
def Obligations.HostEnqueueRule : Prop :=
  ∀ (key : Time) (bytes : List Byte) (s : State), s.lock = false →
    let bad := (s.cfgSampleSize ≠ 16 ∧ s.cfgSampleSize ≠ 24) ∨ bytes.length = 0 ∨
      bytes.length % bytesPerFrame s ≠ 0 ∨ s.cfgMaxSamples.toNat < bytes.length / bytesPerFrame s
    (s.mode ≠ .ready → exec (.hEnqueue key bytes) s = .next { s with resp := .status .badMode }) ∧
    (s.mode = .ready → bad → exec (.hEnqueue key bytes) s = .next { s with resp := .status .badArgument }) ∧
    (s.mode = .ready → ¬ bad →
      ∃ t : State, exec (.hEnqueue key bytes) s = .next t ∧ exec (.jbEnq key bytes) s = .next t)

/-- R306, R300: H.STATUS answers Ok and the seven values, read together, and changes nothing else. -/
def Obligations.StatusRule : Prop :=
  ∀ s : State, s.lock = false →
    exec .hStatus s =
      .next { s with
        resp := .report .ok ⟨s.mode, s.errCode, s.errInfo, s.jbOffsetValid, s.jbClosing, s.jbWritten,
          s.jbQueue.length⟩ }

/-- R300's table: which commands answer BadMode, by mode, for streams that are not being decoded. A frame kind on
its own is held to DECODE's row (R331, R332; DEDUCED, log 39). -/
def Obligations.AdmissionTable : Prop :=
  ∀ (key loc : Time) (bytes : List Byte) (m rate : BitVec 32) (a b c d e : BitVec 8) (s : State),
    s.lock = false → s.decPend = false →
    let refused := fun i : Instr => exec i s = .next { s with resp := .status .badMode }
    (s.mode = .unconfigured → refused (.hDecode key bytes) ∧ refused (.hEnqueue key bytes) ∧
      refused (.hSync key loc)) ∧
    (s.mode = .ready → refused (.hConfigure m a b c d e rate)) ∧
    (s.mode = .faulted → refused (.hConfigure m a b c d e rate) ∧ refused (.hDecode key bytes) ∧
      refused (.hEnqueue key bytes)) ∧
    (s.mode = .closed → refused (.hConfigure m a b c d e rate) ∧ refused (.hDecode key bytes) ∧
      refused (.hEnqueue key bytes) ∧ refused (.hSync key loc)) ∧
    (s.mode ≠ .ready → refused .fdMonoC ∧ refused .fdMonoU ∧ refused .fdStereoC ∧ refused .fdStereoU) ∧
    (s.mode = .ready → s.prm.payloadMax < bytes.length →
      exec (.hDecode key bytes) s = .next { s with resp := .status .badArgument }) ∧
    (∃ t u v, exec .hReset s = .next t ∧ exec .hClose s = .next u ∧ exec .hStatus s = .next v)

/-- R300, R327: a command refused with status 1 to 4 changes nothing but the status it returns. -/
def Obligations.RefusedCommandsChangeNothing : Prop :=
  ∀ (i : Instr) (st : Status) (s t : State),
    i.source = .host → exec i s = .next t → t.resp = .status st →
    1 ≤ st.code.toNat → st.code.toNat ≤ 4 → t = { s with resp := .status st }

/-! ## Fetch and decode -/

/-- A step runs the decoded instruction. A turn leaves the agenda and the step counter advances (log 4),
and exec runs in the state so reached: a command word at the command port, or an operation that the bits of
its own context select; while the lock is held, an operation that takes it waits. -/
def Obligations.StepRunsDecoded : Prop :=
  ∀ (word : List Bool) (src : Source) (i : Instr) (after : List Bool) (rest : List Turn) (s : State),
    let s1 := { s with agenda := rest, tick := s.tick + 1 }
    (s.agenda = .host word :: rest → decode s.prm.profile.riceUnreadMax .host word = .ok (i, after) →
      step s = if takesLock i && s.lock then .next s else exec i s1) ∧
    (s.agenda = .unit src :: rest →
      decode s.prm.profile.riceUnreadMax src (unitBits s src) = .ok (i, after) →
      step s = if takesLock i && s.lock then .next s else exec i s1)

/-- R270, R353, R43, R302: the agents that move by themselves. An awake and enabled DRAIN runs the step its
state selects; asleep or not enabled it does nothing; SINK_READY becoming 1 wakes it; the enqueue that ends
a DECODE carries the key and the PCM (of a frame kind that ran on its own, the key that stands there:
log 34). -/
def Obligations.StepAgentTurns : Prop :=
  ∀ (rest : List Turn) (s : State), s.lock = false →
    let s1 := { s with agenda := rest, tick := s.tick + 1 }
    (s.agenda = .drain :: rest → s.drainAwake = true → drainEnabled s = true →
      step s = exec (drainStep s1) s1) ∧
    (s.agenda = .drain :: rest → s.drainAwake = false ∨ drainEnabled s = false → step s = .next s1) ∧
    (s.agenda = .sleep :: rest → step s = .next { s1 with drainAwake := false }) ∧
    (∀ ready : Bool, s.agenda = .sink ready :: rest →
      step s = .next { s1 with
        sinkReady := ready
        drainAwake := s.drainAwake || (ready && !s.sinkReady) }) ∧
    (∀ bytes : List Byte, s.agenda = .dec :: rest → s.decPend = true →
      Memory.readBytes s.pcm 0 s.decLen = some bytes →
      step s = exec (.jbEnq s.decKey bytes) { s1 with decPend := false }) ∧
    (s.agenda = .dec :: rest → s.decPend = false → step s = .next s1) ∧
    (s.agenda = [] → step s = .next s)

/-- R300, R308, R108: a command word with a code of 7 to 15 answers BadCommand and changes no state. -/
def Obligations.ReservedCommandCodes : Prop :=
  ∀ (code : Nat) (operands : List Bool) (rest : List Turn) (s : State),
    7 ≤ code → code ≤ 15 → s.agenda = .host (bitsOfNat 4 code ++ operands) :: rest →
    step s = .next { s with agenda := rest, tick := s.tick + 1, resp := .status .badCommand }

/-- Decode undoes encode: for every well-formed instruction, in its own context, with any bits after it,
under either profile. A short code word gives its last bit back (R154), and so do the bits after it. -/
def Obligations.DecodeEncode : Prop :=
  ∀ (profile : Config.Profile) (i : Instr) (after : List Bool), i.wf = true →
    ∃ rest : List Bool,
      decode profile.riceUnreadMax i.source (encode i ++ after) = .ok (i, rest) ∧
      (rest = after ∨ ∃ n k mask, i = .rdValueShort n k mask ∧ rest = false :: after)

/-- R91, R92, R98, R103, R108, R180, R224: words written out from the encodings, one or more of each
encoded format, and the operations they stand for. -/
def Obligations.DecodeWords : Prop :=
  decodeTableWord 4 0b0101 = some .hClose ∧
  decodeTableWord 23 0b00010101010101010100001 = some .fdMonoU ∧
  decodeTableWord 23 0b00111111111111111111110 = some .fdStereoC ∧
  decodeTableWord 16 0b0000010010000010 = some (.fdChhdr .a) ∧
  decodeTableWord 16 0b0001111100000011 = some (.fdMixWeighted 31 3) ∧
  decodeTableWord 16 0b1111111100000000 = some (.fdMixDirect 255) ∧
  decodeTableWord 5 0b11111 = some (.lpDiff .a) ∧
  decodeTableWord 5 0b11110 = some (.lpFir .a 30) ∧
  decode 0 (.rice 16 3 0xFFFFFFFF) [true, false, false, false, false, true] =
    .ok (.rdValueShort 16 3 0xFFFFFFFF, [false, true]) ∧
  decode 1 (.rice 16 3 0xFFFFFFFF) [true, false, false, false, true, true] =
    .ok (.rdValueShort 16 3 0xFFFFFFFF, [true, true]) ∧
  decode 0 (.rice 16 3 0xFFFFFFFF) [true, false, false, false, true, true] =
    .ok (.rdValueLong 16 3 0xFFFFFFFF, [true])

/-! ## The whole machine -/

/-- Every step keeps the invariant, from every state that has it: canonical memories, a queue in key order
within its capacity and of whole frames, COEF_W-bit coefficients, a legal configuration of a live stream,
the closing bit set exactly in CLOSED, an error on record exactly after a fault, the lock free. -/
def Obligations.StepKeepsInvariant : Prop :=
  ∀ s t : State, Inv s → step s = .next t → Inv t

/-- The machine after reset has the invariant (R44; and the model's values for what R44 leaves open,
log 1). -/
def Obligations.ResetHasInvariant : Prop := Inv State.reset

/-- R341, R21, R22, R281 (f): MODE changes only so: RESET to UNCONFIGURED, CONFIGURE from there to READY, a
fault from READY to FAULTED, CLOSE to CLOSED; and the error record changes only by RESET and by a fault.
R331, R332: outside READY, after a fault for one, no operation, be it a command or on its own, decodes a frame to
be enqueued; the only hand-over there is one that was pending before. -/
def Obligations.ModeTransitions : Prop :=
  ∀ (i : Instr) (s t : State), exec i s = .next t →
    (t.mode = s.mode ∨ i = .hReset ∧ t.mode = .unconfigured ∨
      (∃ m a b c d e r, i = .hConfigure m a b c d e r) ∧ s.mode = .unconfigured ∧ t.mode = .ready ∨
      takesLock i = false ∧ s.mode = .ready ∧ t.mode = .faulted ∨
      (i = .jbClose ∨ i = .hClose) ∧ t.mode = .closed) ∧
    (t.errCode = s.errCode ∧ t.errInfo = s.errInfo ∨ i = .hReset ∧ t.errCode = 0 ∧ t.errInfo = 0 ∨
      takesLock i = false ∧ s.mode = .ready ∧ t.mode = .faulted ∧ s.errCode = 0) ∧
    (s.mode ≠ .ready → t.decPend = true →
      s.decPend = true ∧ t.decKey = s.decKey ∧ t.decLen = s.decLen)

/-- R260, R275, R281 (a): SINK holds exactly JB_WRITTEN - LINE_START frames. Every operation keeps it, while
the line is far from the end of the 64-bit range (R261); CONFIGURE, which sets the line back, when nothing
has been emitted yet. Bytes are only ever appended, but by RESET. -/
def Obligations.SinkCountsFrames : Prop :=
  ∀ (i : Instr) (s t : State), Inv s → exec i s = .next t →
    (i = .hReset ∨ s.sink <+: t.sink) ∧
    (SinkCounts s → s.jbWritten.toInt + 2 ^ 32 < 2 ^ 63 →
      ((∃ m a b c d e r, i = .hConfigure m a b c d e r) → s.sink = []) → SinkCounts t)

/-- R365, R30: the configuration is immutable. Outside UNCONFIGURED no operation but RESET changes a
configuration register, and CONFIGURE is refused. -/
def Obligations.ConfigurationImmutable : Prop :=
  ∀ (i : Instr) (s t : State), exec i s = .next t → i ≠ .hReset → s.mode ≠ .unconfigured →
    configSame s t ∧
      ((∃ m a b c d e r, i = .hConfigure m a b c d e r) → s.lock = false →
        t = { s with resp := .status .badMode })

/-- R20, R60, R72, R76: who touches what. The decoder's operations, a whole DECODE among them, change
nothing that is shared with the drain; the payload is written by DECODE and RESET alone; the operations of
unit JB and the host commands other than DECODE and RESET change nothing of the decoder. -/
def Obligations.UnitsKeepApart : Prop :=
  ∀ (i : Instr) (s t : State), exec i s = .next t →
    (takesLock i = false → configSame s t ∧ sharedSame s t) ∧
    ((∀ key payload, i ≠ .hDecode key payload) → i ≠ .hReset → t.payload = s.payload) ∧
    (takesLock i = true → i ≠ .hReset → decoderSame s t)

/-- The operations that stop by name (the model's stops): a read of a width that R131 gives no meaning (U11),
of a byte that nothing has written (R40, log 17) and a raise outside READY (log 10); and the operations whose
bits, registers or state select another operation or none (log 13): R223, R226 and R227's sizes, R230's mono
frames, R160's condition, a code word read as another of R103's forms, a frame of another kind than its
operation (R91). More samples, or a later sample, than the buffers hold (R28; FH_CHAN 2 to 7 taken as stereo,
log 33); more channels than PCM is for (R38). -/
def Obligations.StopsByName : Prop :=
  ∀ (c : Chan) (i : Nat) (o : RiceOperands) (order : BitVec 5) (shift weight : BitVec 8) (n : Nat) (k : Int)
    (mask : Word) (s : State),
    (n < 1 ∨ 32 < n → exec (.bcRead n) s = .fault .readWidth) ∧
    (1 ≤ n → n ≤ 32 → s.pos + n ≤ 8 * s.bcLen.toNat →
      (∃ i < n, payloadBit s.payload (s.pos + i) = none) →
      exec (.bcRead n) s = .fault .noSuchByte) ∧
    (1 ≤ n → n ≤ 32 → 8 * s.bcLen.toNat < s.pos + n → s.mode ≠ .ready →
      exec (.bcRead n) s = .fault .raiseOutsideReady) ∧
    (s.cfgSampleSize ≠ 16 → exec .fdPack16 s = .fault .notSelected) ∧
    (s.cfgSampleSize ≠ 24 → exec .fdPack24 s = .fault .notSelected) ∧
    (s.cfgSampleSize ≠ 16 → s.cfgSampleSize ≠ 24 → exec .fdVerbatim s = .fault .notSelected) ∧
    (s.fhChan = 0 → exec (.fdMixWeighted shift weight) s = .fault .notSelected ∧
      exec (.fdMixDirect shift) s = .fault .notSelected) ∧
    (o.count ≤ i + 1 ∨ 128 ≤ s.rsHistory.toInt → exec (.rdRun c i o) s = .fault .notSelected) ∧
    (s.prm.bufSamples ≤ i → exec (.rdSample c i o) s = .fault .noSuchEntry) ∧
    (s.prm.bufSamples < s.fhN.toNat →
      exec (.lpCopy c) s = .fault .noSuchEntry ∧ exec (.lpDiff c) s = .fault .noSuchEntry ∧
      exec (.lpFir c order) s = .fault .noSuchEntry ∧
      (s.fhUb ≠ 0 → exec .fdRawlow s = .fault .noSuchEntry) ∧
      (sampleSizeOk s = true → exec .fdVerbatim s = .fault .noSuchEntry) ∧
      (s.fhChan ≠ 0 → exec (.fdMixWeighted shift weight) s = .fault .noSuchEntry ∧
        exec (.fdMixDirect shift) s = .fault .noSuchEntry) ∧
      (s.cfgChannels.toNat ≤ 2 → sampleSizeOk s = true → exec (packOp s) s = .fault .noSuchEntry)) ∧
    (2 < s.cfgChannels.toNat → sampleSizeOk s = true → exec (packOp s) s = .fault .noSuchByte) ∧
    (∀ (form : RiceForm) (v : Word) (s' : State), riceWord n k mask s = .ok (form, v) s' →
      (form ≠ .esc → exec (.rdValueEsc n k mask) s = .fault .notSelected) ∧
      (form ≠ .unary → exec (.rdValueUnary n k mask) s = .fault .notSelected) ∧
      (form ≠ .short → exec (.rdValueShort n k mask) s = .fault .notSelected) ∧
      (form ≠ .long → exec (.rdValueLong n k mask) s = .fault .notSelected)) ∧
    (∀ h : HeaderFields, frameReady h s = true → holdsBitsAt s 0 (encodeHeader h) = true →
      (h.chan ≠ 0 ∨ h.cf ≠ 0 → exec .fdMonoC s = .fault .notSelected) ∧
      (h.chan ≠ 0 ∨ h.cf ≠ 1 → exec .fdMonoU s = .fault .notSelected) ∧
      (h.chan ≠ 1 ∨ h.cf ≠ 0 → exec .fdStereoC s = .fault .notSelected) ∧
      (h.chan ≠ 1 ∨ h.cf ≠ 1 → exec .fdStereoU s = .fault .notSelected))

/-- Operations on operands and registers outside the ranges that their rules name run (the model's choices,
log 18, log 33 and log 36). BC.UNREAD of no bits moves nothing. FD.MIX.WEIGHTED outside R224's ranges follows R224's
pseudocode; the shift by more than 31 places is a free value, some `shifted` of the product, and everything
else is as always. With FH_CHAN 2 to 7 every operation that asks for the frame's channels does what it does
with FH_CHAN 1. A pack of frames whose channel count is not the stream's writes them at R226's and R227's
addresses, one after the other, so that a later frame may write over an earlier one. LP.FIR with one of the
two special orders is the operation that R189's pseudocode names for it. JB.ENQ on its own, of bytes that
R264 leaves to the check of its caller, answers as R303 does: BadArgument, and nothing else changes. -/
def Obligations.UnstatedOperandsRun : Prop :=
  ∀ (c : Chan) (shift weight : BitVec 8) (key : Time) (bytes : List Byte) (s : State),
    exec (.bcUnread 0) s = .next s ∧
    exec (.lpFir c 0) s = exec (.lpCopy c) s ∧ exec (.lpFir c 31) s = exec (.lpDiff c) s ∧
    (s.lock = false → s.jbClosing = false →
      s.cfgSampleSize ≠ 16 ∧ s.cfgSampleSize ≠ 24 ∨ bytes.length = 0 ∨
        bytes.length % bytesPerFrame s ≠ 0 ∨ s.cfgMaxSamples.toNat < bytes.length / bytesPerFrame s →
      exec (.jbEnq key bytes) s = .next { s with resp := .status .badArgument }) ∧
    (s.fhChan ≠ 0 → s.fhN.toNat ≤ s.prm.bufSamples →
      ∃ (shifted : Word → Word) (l r : File 32),
        exec (.fdMixWeighted shift weight) s = .next { s with mixL := l, mixR := r } ∧
        (shift.toNat ≤ 31 → ∀ v, shifted v = v.sshiftRight shift.toNat) ∧
        (∀ i < s.fhN.toNat,
          let mid := File.read s.chA.out i
          let diff := File.read s.chB.out i
          File.read r i = mid - shifted (diff * weight.setWidth 32) ∧
            File.read l i = File.read r i + diff) ∧
        ∀ i, s.fhN.toNat ≤ i → File.read l i = File.read s.mixL i ∧ File.read r i = File.read s.mixR i) ∧
    (∀ (op : Instr) (t : State),
      op = .fdRawlow ∨ op = .fdVerbatim ∨ op = .fdMixWeighted shift weight ∨ op = .fdMixDirect shift ∨
        op = .fdPack16 ∨ op = .fdPack24 →
      s.fhChan ≠ 0 → exec op { s with fhChan := 1 } = .next t → exec op s = .next { t with fhChan := s.fhChan }) ∧
    (sampleSizeOk s = true → s.cfgChannels.toNat ≤ 2 → s.fhN.toNat ≤ s.prm.bufSamples →
      let outs := if s.fhChan = 0 then 1 else 2
      ∃ pcm : Memory,
        exec (packOp s) s = .next { s with pcm := pcm } ∧
        (∀ i < s.fhN.toNat, ∀ x < outs, ∀ j < bytesPerSample s,
          let v := if s.fhChan = 0 then File.read s.chA.out i
            else if x = 0 then File.read s.mixL i else File.read s.mixR i
          let r := if x = 0 then File.read s.chA.raw i else File.read s.chB.raw i
          let m := if s.fhUb = 0 ∨ s.cfgSampleSize = 16 then v else (v <<< (8 * s.fhUb.toNat)) ||| r.setWidth 32
          x < s.cfgChannels.toNat ∨ i + 1 = s.fhN.toNat →
          Memory.read pcm (i * bytesPerFrame s + x * bytesPerSample s + j) =
            some ((m >>> (8 * j)).setWidth 8)) ∧
        ∀ a, (∀ i < s.fhN.toNat, ∀ x < outs, ∀ j < bytesPerSample s,
            a ≠ i * bytesPerFrame s + x * bytesPerSample s + j) →
          Memory.read pcm a = Memory.read s.pcm a)

/-- R372, R373 (U10: the result is unspecified): with a DECODE's enqueue still to come, a second DECODE, a
frame on its own and a RESET are refused by name (log 9). After a frame on its own, which is no DECODE, the
same is the model's choice (DESIGN CHOICE, log 38). Outside READY a DECODE and a frame on its own answer BadMode
all the same (R300, R332; log 39). -/
def Obligations.OverlapRefused : Prop :=
  ∀ (key : Time) (payload : List Byte) (s : State), s.decPend = true →
    (s.mode = .ready → exec (.hDecode key payload) s = .refused .overlappingDecode) ∧
    (s.lock = false → exec .hReset s = .refused .resetDuringDecode) ∧
    (s.mode = .ready →
      exec .fdMonoC s = .refused .overlappingDecode ∧ exec .fdMonoU s = .refused .overlappingDecode ∧
      exec .fdStereoC s = .refused .overlappingDecode ∧ exec .fdStereoU s = .refused .overlappingDecode) ∧
    (s.mode ≠ .ready →
      let badMode := { s with resp := .status .badMode }
      exec (.hDecode key payload) s = .next badMode ∧
      exec .fdMonoC s = .next badMode ∧ exec .fdMonoU s = .next badMode ∧
      exec .fdStereoC s = .next badMode ∧ exec .fdStereoU s = .next badMode)
end

