-- ==== Sys2Proof/Laws/Bits.lean ====
section
/-! SUPPORT. Bit strings: fields as numbers, and the payload read in pieces. -/

namespace Sys2Proof

@[simp] theorem length_bitsOfNat (n v : Nat) : (bitsOfNat n v).length = n := by
  induction n with
  | zero => rfl
  | succ n ih => simp [bitsOfNat, ih]

theorem foldl_bits (bits : List Bool) (acc : Nat) :
    bits.foldl (fun acc b => 2 * acc + b.toNat) acc = acc * 2 ^ bits.length + natOfBits bits := by
  induction bits generalizing acc with
  | nil => simp [natOfBits]
  | cons b rest ih =>
    simp only [natOfBits, List.foldl_cons, List.length_cons, ih (2 * acc + b.toNat), ih (2 * 0 + b.toNat), pow_succ]
    ring

@[simp] theorem natOfBits_nil : natOfBits [] = 0 := rfl

theorem natOfBits_cons (b : Bool) (bits : List Bool) :
    natOfBits (b :: bits) = b.toNat * 2 ^ bits.length + natOfBits bits := by
  have := foldl_bits bits (2 * 0 + b.toNat)
  simpa [natOfBits] using this

theorem natOfBits_append (a b : List Bool) : natOfBits (a ++ b) = natOfBits a * 2 ^ b.length + natOfBits b := by
  simp only [natOfBits, List.foldl_append]
  exact foldl_bits b _

theorem natOfBits_lt (bits : List Bool) : natOfBits bits < 2 ^ bits.length := by
  induction bits with
  | nil => simp
  | cons b rest ih =>
    rw [natOfBits_cons, List.length_cons, pow_succ]
    cases b <;> simp <;> omega

/-- A field of n bits holds the number it was written with, reduced to n bits (R9). -/
theorem natOfBits_bitsOfNat (n v : Nat) : natOfBits (bitsOfNat n v) = v % 2 ^ n := by
  induction n with
  | zero => simp [bitsOfNat, Nat.mod_one]
  | succ n ih =>
    rw [bitsOfNat, natOfBits_cons, length_bitsOfNat, ih, Nat.mod_pow_succ, Nat.testBit_eq_decide_div_mod_eq]
    rcases Nat.mod_two_eq_zero_or_one (v / 2 ^ n) with h | h <;> simp [h, Nat.add_comm]

/-- A field is taken whole, whatever follows it. -/
theorem takeNat_append (bits rest : List Bool) : takeNat bits.length (bits ++ rest) = some (natOfBits bits, rest) := by
  simp [takeNat]

theorem takeNat_bitsOfNat (n v : Nat) (rest : List Bool) :
    takeNat n (bitsOfNat n v ++ rest) = some (v % 2 ^ n, rest) := by
  have := takeNat_append (bitsOfNat n v) rest
  rwa [length_bitsOfNat, natOfBits_bitsOfNat] at this

namespace Machine

theorem payloadBits_length {m : Memory} {p n : Nat} {bits : List Bool} (h : payloadBits m p n = some bits) :
    bits.length = n := by
  induction n generalizing p bits with
  | zero => simp only [payloadBits, Option.some.injEq] at h; simp [← h]
  | succ n ih =>
    simp only [payloadBits, Option.bind_eq_some_iff, Option.map_eq_some_iff] at h
    obtain ⟨b, -, rest, hr, rfl⟩ := h
    simp [ih hr]

/-- The payload read in two pieces. -/
theorem payloadBits_add (m : Memory) (p a b : Nat) :
    payloadBits m p (a + b) =
      (payloadBits m p a).bind fun x => (payloadBits m (p + a) b).map fun y => x ++ y := by
  induction a generalizing p with
  | zero => simp [payloadBits]
  | succ a ih =>
    rw [show a + 1 + b = (a + b) + 1 by omega]
    simp only [payloadBits, ih]
    rw [show p + 1 + a = p + (a + 1) by omega]
    cases payloadBit m p <;> simp
    cases payloadBits m (p + 1) a <;> simp
    cases payloadBits m (p + (a + 1)) b <;> simp

/-- The payload holds a bit string in two parts exactly when it holds each part in its place. -/
theorem payloadBits_append (m : Memory) (p : Nat) (x y : List Bool) :
    payloadBits m p (x ++ y).length = some (x ++ y) ↔
      payloadBits m p x.length = some x ∧ payloadBits m (p + x.length) y.length = some y := by
  rw [List.length_append, payloadBits_add]
  constructor
  · intro h
    simp only [Option.bind_eq_some_iff, Option.map_eq_some_iff] at h
    obtain ⟨x', hx, y', hy, he⟩ := h
    obtain ⟨rfl, rfl⟩ := List.append_inj he (payloadBits_length hx)
    exact ⟨hx, hy⟩
  · rintro ⟨hx, hy⟩
    simp [hx, hy]

/-- Bit by bit. -/
theorem payloadBits_eq_some_iff (m : Memory) (p : Nat) (bits : List Bool) :
    payloadBits m p bits.length = some bits ↔
      ∀ (i : Nat) (h : i < bits.length), payloadBit m (p + i) = some bits[i] := by
  induction bits generalizing p with
  | nil => simp [payloadBits]
  | cons b rest ih =>
    simp only [List.length_cons, payloadBits, Option.bind_eq_some_iff, Option.map_eq_some_iff, List.cons.injEq]
    constructor
    · rintro ⟨b', hb, r, hr, rfl, rfl⟩ i hi
      cases i with
      | zero => simpa using hb
      | succ i =>
        have := (ih (p + 1)).mp hr i (by omega)
        simpa [Nat.add_assoc, Nat.add_comm 1 i] using this
    · intro h
      refine ⟨b, by simpa using h 0 (by omega), rest, (ih (p + 1)).mpr fun i hi => ?_, rfl, rfl⟩
      have := h (i + 1) (by omega)
      simpa [Nat.add_assoc, Nat.add_comm 1 i] using this

end Machine

end Sys2Proof
end

