-- ==== Sys2Proof/Laws/Mem.lean ====
section
/-! SUPPORT. The laws of the cells, the two byte spaces, the sample buffers and the queue: a read after a
write, and that every operation keeps the canonical form. -/

namespace Sys2Proof.Machine

/-! ## Cells -/

section
variable {α : Type}

@[simp] theorem Cells.get_put_same (m : Cells α) (x : Nat) (v : α) : (Cells.put m x v).get x = some v := by
  induction m with
  | nil => simp [Cells.put, Cells.get]
  | cons e rest ih =>
    obtain ⟨a, w⟩ := e
    simp only [Cells.put]
    split
    · simp [Cells.get]
    · split
      · simp [Cells.get]
      · rename_i h1 h2
        simp only [Cells.get, if_neg (fun h : a = x => h2 h.symm), ih]

theorem Cells.get_put_other (m : Cells α) (x y : Nat) (v : α) (h : y ≠ x) :
    (Cells.put m x v).get y = Cells.get m y := by
  induction m with
  | nil => simp [Cells.put, Cells.get, Ne.symm h]
  | cons e rest ih =>
    obtain ⟨a, w⟩ := e
    simp only [Cells.put]
    split
    · simp [Cells.get, Ne.symm h]
    · split
      · rename_i h1 h2
        subst h2
        simp [Cells.get, Ne.symm h]
      · simp only [Cells.get, ih]

@[simp] theorem Cells.get_erase_same (m : Cells α) (x : Nat) : (Cells.erase m x).get x = none := by
  induction m with
  | nil => rfl
  | cons e rest ih =>
    obtain ⟨a, w⟩ := e
    simp only [Cells.erase]
    split
    · exact ih
    · rename_i h
      simp only [Cells.get, if_neg h, ih]

theorem Cells.get_erase_other (m : Cells α) (x y : Nat) (h : y ≠ x) :
    (Cells.erase m x).get y = Cells.get m y := by
  induction m with
  | nil => rfl
  | cons e rest ih =>
    obtain ⟨a, w⟩ := e
    simp only [Cells.erase]
    split
    · rename_i hax
      subst hax
      simp only [Cells.get, if_neg (Ne.symm h), ih]
    · simp only [Cells.get, ih]

/-- Rising addresses, said of every pair: the form that inductions use. -/
theorem Cells.rising_iff (m : Cells α) : Cells.rising m = true ↔ m.Pairwise (fun e f => e.1 < f.1) := by
  induction m with
  | nil => simp [Cells.rising]
  | cons e rest ih =>
    obtain ⟨a, v⟩ := e
    cases rest with
    | nil => simp [Cells.rising]
    | cons f rest =>
      obtain ⟨b, w⟩ := f
      simp only [Cells.rising, Bool.and_eq_true, decide_eq_true_eq, ih, List.pairwise_cons]
      constructor
      · rintro ⟨hab, hb, hr⟩
        refine ⟨?_, hb, hr⟩
        rintro g hg
        rcases List.mem_cons.mp hg with rfl | hg
        · exact hab
        · exact lt_trans hab (hb g hg)
      · rintro ⟨ha, hb, hr⟩
        exact ⟨ha (b, w) (List.mem_cons_self ..), hb, hr⟩

theorem Cells.mem_put {m : Cells α} {x : Nat} {v : α} {e : Nat × α} (h : e ∈ Cells.put m x v) :
    e = (x, v) ∨ e ∈ m := by
  induction m with
  | nil => simpa [Cells.put] using h
  | cons f rest ih =>
    obtain ⟨a, w⟩ := f
    simp only [Cells.put] at h
    split at h
    · simpa using h
    · split at h
      · rcases List.mem_cons.mp h with h | h
        · exact .inl h
        · exact .inr (List.mem_cons_of_mem _ h)
      · rcases List.mem_cons.mp h with rfl | h
        · exact .inr (List.mem_cons_self ..)
        · exact (ih h).imp id (List.mem_cons_of_mem _)

theorem Cells.mem_erase {m : Cells α} {x : Nat} {e : Nat × α} (h : e ∈ Cells.erase m x) : e ∈ m := by
  induction m with
  | nil => simp [Cells.erase] at h
  | cons f rest ih =>
    obtain ⟨a, w⟩ := f
    simp only [Cells.erase] at h
    split at h
    · exact List.mem_cons_of_mem _ (ih h)
    · rcases List.mem_cons.mp h with rfl | h
      · exact List.mem_cons_self ..
      · exact List.mem_cons_of_mem _ (ih h)

theorem Cells.rising_put {m : Cells α} (h : Cells.rising m = true) (x : Nat) (v : α) :
    Cells.rising (Cells.put m x v) = true := by
  rw [Cells.rising_iff] at h ⊢
  induction m with
  | nil => simp [Cells.put]
  | cons e rest ih =>
    obtain ⟨a, w⟩ := e
    rw [List.pairwise_cons] at h
    simp only [Cells.put]
    split
    · rename_i hxa
      refine List.pairwise_cons.mpr ⟨?_, List.pairwise_cons.mpr h⟩
      rintro f hf
      rcases List.mem_cons.mp hf with rfl | hf
      · exact hxa
      · exact lt_trans hxa (h.1 f hf)
    · split
      · rename_i hxa
        subst hxa
        exact List.pairwise_cons.mpr h
      · refine List.pairwise_cons.mpr ⟨?_, ih h.2⟩
        intro f hf
        rcases Cells.mem_put hf with rfl | hf
        · simp only
          omega
        · exact h.1 f hf

theorem Cells.rising_erase {m : Cells α} (h : Cells.rising m = true) (x : Nat) :
    Cells.rising (Cells.erase m x) = true := by
  rw [Cells.rising_iff] at h ⊢
  induction m with
  | nil => simp [Cells.erase]
  | cons e rest ih =>
    obtain ⟨a, w⟩ := e
    rw [List.pairwise_cons] at h
    simp only [Cells.erase]
    split
    · exact ih h.2
    · exact List.pairwise_cons.mpr ⟨fun f hf => h.1 f (Cells.mem_erase hf), ih h.2⟩

end

/-! ## PAYLOAD and PCM -/

@[simp] theorem Memory.read_write_same (m : Memory) (a : Nat) (b : Byte) : (m.write a b).read a = some b :=
  Cells.get_put_same m a b

theorem Memory.read_write_other (m : Memory) (a x : Nat) (b : Byte) (h : x ≠ a) :
    (m.write a b).read x = m.read x :=
  Cells.get_put_other m a x b h

theorem Memory.wf_write {m : Memory} (h : m.wf = true) (a : Nat) (b : Byte) : (m.write a b).wf = true :=
  Cells.rising_put h a b

theorem Memory.wf_writeBytes {m : Memory} (h : m.wf = true) (a : Nat) (bs : List Byte) :
    (Memory.writeBytes m a bs).wf = true := by
  induction bs generalizing m a with
  | nil => exact h
  | cons b rest ih => exact ih (Memory.wf_write h a b) (a + 1)

/-- A run of bytes written reads back, and every other address reads as before. -/
theorem Memory.read_writeBytes (m : Memory) (a : Nat) (bs : List Byte) (x : Nat) :
    (Memory.writeBytes m a bs).read x =
      if h : a ≤ x ∧ x < a + bs.length then some (bs[x - a]'(by omega)) else m.read x := by
  induction bs generalizing m a with
  | nil =>
    have : ¬ (a ≤ x ∧ x < a + ([] : List Byte).length) := by simp
    rw [dif_neg this]
    rfl
  | cons b rest ih =>
    simp only [Memory.writeBytes, ih]
    by_cases hx : x = a
    · subst hx
      simp
    · by_cases hr : a + 1 ≤ x ∧ x < a + 1 + rest.length
      · have h2 : a ≤ x ∧ x < a + (b :: rest).length := by simp only [List.length_cons]; omega
        rw [dif_pos hr, dif_pos h2]
        have e : x - a = (x - (a + 1)) + 1 := by omega
        simp only [e, List.getElem_cons_succ]
      · have h2 : ¬ (a ≤ x ∧ x < a + (b :: rest).length) := by simp only [List.length_cons]; omega
        rw [dif_neg hr, dif_neg h2, Memory.read_write_other m a x b hx]

/-- Bytes read one by one. -/
theorem Memory.readBytes_eq (m : Memory) (bs : List Byte) (a : Nat)
    (h : ∀ (i : Nat) (hi : i < bs.length), m.read (a + i) = some bs[i]) :
    Memory.readBytes m a bs.length = some bs := by
  induction bs generalizing a with
  | nil => rfl
  | cons b rest ih =>
    have h0 := h 0 (by simp)
    have hr := ih (a + 1) (fun i hi => by
      have := h (i + 1) (by simpa using hi)
      simpa [Nat.add_assoc, Nat.add_comm 1 i] using this)
    simp only [Nat.add_zero, List.getElem_cons_zero] at h0
    simp only [List.length_cons, Memory.readBytes, h0, hr, Option.bind_some, Option.map_some]

/-! ## Sample buffers -/

section
variable {w : Nat}

@[simp] theorem File.read_write_same (f : File w) (i : Nat) (v : BitVec w) : File.read (File.write f i v) i = v := by
  unfold File.read File.write
  split
  · rename_i h
    rw [Cells.get_erase_same, h]
    rfl
  · rw [Cells.get_put_same]
    rfl

theorem File.read_write_other (f : File w) (i j : Nat) (v : BitVec w) (h : j ≠ i) :
    File.read (File.write f i v) j = File.read f j := by
  unfold File.read File.write
  split
  · rw [Cells.get_erase_other f i j h]
  · rw [Cells.get_put_other f i j v h]

theorem File.read_write (f : File w) (i j : Nat) (v : BitVec w) :
    File.read (File.write f i v) j = if j = i then v else File.read f j := by
  by_cases h : j = i
  · subst h
    simp
  · rw [if_neg h, File.read_write_other f i j v h]

theorem File.wf_write {f : File w} (h : File.wf f = true) (i : Nat) (v : BitVec w) :
    File.wf (File.write f i v) = true := by
  simp only [File.wf, Bool.and_eq_true, List.all_eq_true] at h ⊢
  by_cases hv : v = 0
  · simp only [File.write, if_pos hv]
    exact ⟨Cells.rising_erase h.1 i, fun e he => h.2 e (Cells.mem_erase he)⟩
  · simp only [File.write, if_neg hv]
    refine ⟨Cells.rising_put h.1 i v, fun e he => ?_⟩
    rcases Cells.mem_put he with rfl | he
    · simpa using hv
    · exact h.2 e he

end

/-! ## The queue -/

@[simp] theorem Queue.find_put_same (q : List QueueEntry) (k : Time) (b : List Byte) :
    Queue.find (Queue.put q k b) k = some b := by
  induction q with
  | nil => simp [Queue.put, Queue.find]
  | cons e rest ih =>
    obtain ⟨k', old⟩ := e
    simp only [Queue.put]
    split
    · simp [Queue.find]
    · split
      · simp [Queue.find]
      · rename_i h1 h2
        simp only [Queue.find, if_neg (fun h : k' = k => h2 h.symm), ih]

theorem Queue.find_put_other (q : List QueueEntry) (k k' : Time) (b : List Byte) (h : k' ≠ k) :
    Queue.find (Queue.put q k b) k' = Queue.find q k' := by
  induction q with
  | nil => simp [Queue.put, Queue.find, Ne.symm h]
  | cons e rest ih =>
    obtain ⟨k'', old⟩ := e
    simp only [Queue.put]
    split
    · simp [Queue.find, Ne.symm h]
    · split
      · rename_i h1 h2
        subst h2
        simp [Queue.find, Ne.symm h]
      · simp only [Queue.find, ih]

/-- Rising keys, said of every pair. -/
theorem Queue.wf_iff (q : List QueueEntry) :
    Queue.wf q = true ↔ q.Pairwise (fun e f => e.1.toInt < f.1.toInt) := by
  induction q with
  | nil => simp [Queue.wf]
  | cons e rest ih =>
    obtain ⟨a, v⟩ := e
    cases rest with
    | nil => simp [Queue.wf]
    | cons f rest =>
      obtain ⟨b, w⟩ := f
      simp only [Queue.wf, Bool.and_eq_true, decide_eq_true_eq, ih, List.pairwise_cons]
      constructor
      · rintro ⟨hab, hb, hr⟩
        refine ⟨?_, hb, hr⟩
        rintro g hg
        rcases List.mem_cons.mp hg with rfl | hg
        · exact hab
        · exact lt_trans hab (hb g hg)
      · rintro ⟨ha, hb, hr⟩
        exact ⟨ha (b, w) (List.mem_cons_self ..), hb, hr⟩

theorem Queue.mem_put {q : List QueueEntry} {k : Time} {b : List Byte} {e : QueueEntry}
    (h : e ∈ Queue.put q k b) : e = (k, b) ∨ e ∈ q := by
  induction q with
  | nil => simpa [Queue.put] using h
  | cons f rest ih =>
    obtain ⟨a, w⟩ := f
    simp only [Queue.put] at h
    split at h
    · simpa using h
    · split at h
      · rcases List.mem_cons.mp h with h | h
        · exact .inl h
        · exact .inr (List.mem_cons_of_mem _ h)
      · rcases List.mem_cons.mp h with rfl | h
        · exact .inr (List.mem_cons_self ..)
        · exact (ih h).imp id (List.mem_cons_of_mem _)

theorem Queue.wf_put {q : List QueueEntry} (h : Queue.wf q = true) (k : Time) (b : List Byte) :
    Queue.wf (Queue.put q k b) = true := by
  rw [Queue.wf_iff] at h ⊢
  induction q with
  | nil => simp [Queue.put]
  | cons e rest ih =>
    obtain ⟨a, w⟩ := e
    rw [List.pairwise_cons] at h
    simp only [Queue.put]
    split
    · rename_i hka
      refine List.pairwise_cons.mpr ⟨?_, List.pairwise_cons.mpr h⟩
      rintro f hf
      rcases List.mem_cons.mp hf with rfl | hf
      · exact hka
      · exact lt_trans hka (h.1 f hf)
    · split
      · rename_i hka
        subst hka
        exact List.pairwise_cons.mpr h
      · rename_i h1 h2
        refine List.pairwise_cons.mpr ⟨?_, ih h.2⟩
        intro f hf
        rcases Queue.mem_put hf with rfl | hf
        · have : a.toInt ≠ k.toInt := fun he => h2 (BitVec.eq_of_toInt_eq he.symm)
          simp only
          omega
        · exact h.1 f hf

theorem Queue.length_put_le (q : List QueueEntry) (k : Time) (b : List Byte) :
    (Queue.put q k b).length ≤ q.length + 1 := by
  induction q with
  | nil => simp [Queue.put]
  | cons e rest ih =>
    obtain ⟨a, w⟩ := e
    simp only [Queue.put]
    split
    · simp
    · split
      · simp
      · simpa using ih

/-- A new key adds an entry. -/
theorem Queue.length_put_new (q : List QueueEntry) (k : Time) (b : List Byte) (h : Queue.find q k = none) :
    (Queue.put q k b).length = q.length + 1 := by
  induction q with
  | nil => simp [Queue.put]
  | cons e rest ih =>
    obtain ⟨a, w⟩ := e
    simp only [Queue.find] at h
    split at h
    · simp at h
    · rename_i hne
      simp only [Queue.put]
      split
      · simp
      · rw [if_neg (Ne.symm hne)]
        simp [ih h]

/-- A queued key is replaced: the size stays (R267). -/
theorem Queue.length_put_held {q : List QueueEntry} (hw : Queue.wf q = true) (k : Time) (b : List Byte)
    (h : (Queue.find q k).isSome = true) : (Queue.put q k b).length = q.length := by
  rw [Queue.wf_iff] at hw
  induction q with
  | nil => simp [Queue.find] at h
  | cons e rest ih =>
    obtain ⟨a, w⟩ := e
    rw [List.pairwise_cons] at hw
    simp only [Queue.put]
    by_cases hak : a = k
    · subst hak
      simp
    · have hr : (Queue.find rest k).isSome = true := by simpa [Queue.find, hak] using h
      have hlt : ¬ k.toInt < a.toInt := by
        have hm : ∃ c, (k, c) ∈ rest := by
          clear ih h hw
          induction rest with
          | nil => simp [Queue.find] at hr
          | cons f rest ih =>
            obtain ⟨x, y⟩ := f
            by_cases hx : x = k
            · exact ⟨y, by simp [hx]⟩
            · obtain ⟨c, hc⟩ := ih (by simpa [Queue.find, hx] using hr)
              exact ⟨c, List.mem_cons_of_mem _ hc⟩
        obtain ⟨c, hc⟩ := hm
        have := hw.1 _ hc
        simp only at this
        omega
      rw [if_neg hlt, if_neg (Ne.symm hak)]
      simp [ih hw.2 hr]

/-! ## After reset -/

theorem reset_payload_wf : Memory.wf State.reset.payload = true := rfl

theorem reset_pcm_wf : Memory.wf State.reset.pcm = true := rfl

theorem reset_queue_wf : Queue.wf State.reset.jbQueue = true := rfl

end Sys2Proof.Machine
end

