-- ==== Sys2Proof/Laws/State.lean ====
section
/-! SUPPORT. What each update of the state does to each field: true by definition, tagged for simp, so
that no later proof unfolds a record update. -/

namespace Sys2Proof.Machine

/-! ## `State.setPos` -/

@[simp] theorem State.setPos_prm (s : State) (p : Nat) : (s.setPos p).prm = s.prm := rfl
@[simp] theorem State.setPos_mode (s : State) (p : Nat) : (s.setPos p).mode = s.mode := rfl
@[simp] theorem State.setPos_errCode (s : State) (p : Nat) : (s.setPos p).errCode = s.errCode := rfl
@[simp] theorem State.setPos_errInfo (s : State) (p : Nat) : (s.setPos p).errInfo = s.errInfo := rfl
@[simp] theorem State.setPos_cfgMaxSamples (s : State) (p : Nat) : (s.setPos p).cfgMaxSamples = s.cfgMaxSamples := rfl
@[simp] theorem State.setPos_cfgSampleSize (s : State) (p : Nat) : (s.setPos p).cfgSampleSize = s.cfgSampleSize := rfl
@[simp] theorem State.setPos_cfgHistoryMult (s : State) (p : Nat) : (s.setPos p).cfgHistoryMult = s.cfgHistoryMult := rfl
@[simp] theorem State.setPos_cfgInitHistory (s : State) (p : Nat) : (s.setPos p).cfgInitHistory = s.cfgInitHistory := rfl
@[simp] theorem State.setPos_cfgKModifier (s : State) (p : Nat) : (s.setPos p).cfgKModifier = s.cfgKModifier := rfl
@[simp] theorem State.setPos_cfgChannels (s : State) (p : Nat) : (s.setPos p).cfgChannels = s.cfgChannels := rfl
@[simp] theorem State.setPos_cfgSampleRate (s : State) (p : Nat) : (s.setPos p).cfgSampleRate = s.cfgSampleRate := rfl
@[simp] theorem State.setPos_bcLen (s : State) (p : Nat) : (s.setPos p).bcLen = s.bcLen := rfl
@[simp] theorem State.setPos_bcIdx (s : State) (p : Nat) : (s.setPos p).bcIdx = BitVec.ofNat 32 (p / 8) := rfl
@[simp] theorem State.setPos_bcAcc (s : State) (p : Nat) : (s.setPos p).bcAcc = BitVec.ofNat 3 (p % 8) := rfl
@[simp] theorem State.setPos_fhChan (s : State) (p : Nat) : (s.setPos p).fhChan = s.fhChan := rfl
@[simp] theorem State.setPos_fhHasSize (s : State) (p : Nat) : (s.setPos p).fhHasSize = s.fhHasSize := rfl
@[simp] theorem State.setPos_fhUb (s : State) (p : Nat) : (s.setPos p).fhUb = s.fhUb := rfl
@[simp] theorem State.setPos_fhCf (s : State) (p : Nat) : (s.setPos p).fhCf = s.fhCf := rfl
@[simp] theorem State.setPos_fhN (s : State) (p : Nat) : (s.setPos p).fhN = s.fhN := rfl
@[simp] theorem State.setPos_fhRss (s : State) (p : Nat) : (s.setPos p).fhRss = s.fhRss := rfl
@[simp] theorem State.setPos_fhShift (s : State) (p : Nat) : (s.setPos p).fhShift = s.fhShift := rfl
@[simp] theorem State.setPos_fhLeftWeight (s : State) (p : Nat) : (s.setPos p).fhLeftWeight = s.fhLeftWeight := rfl
@[simp] theorem State.setPos_chA (s : State) (p : Nat) : (s.setPos p).chA = s.chA := rfl
@[simp] theorem State.setPos_chB (s : State) (p : Nat) : (s.setPos p).chB = s.chB := rfl
@[simp] theorem State.setPos_rsHistory (s : State) (p : Nat) : (s.setPos p).rsHistory = s.rsHistory := rfl
@[simp] theorem State.setPos_rsSignMod (s : State) (p : Nat) : (s.setPos p).rsSignMod = s.rsSignMod := rfl
@[simp] theorem State.setPos_payload (s : State) (p : Nat) : (s.setPos p).payload = s.payload := rfl
@[simp] theorem State.setPos_pcm (s : State) (p : Nat) : (s.setPos p).pcm = s.pcm := rfl
@[simp] theorem State.setPos_pcmLen (s : State) (p : Nat) : (s.setPos p).pcmLen = s.pcmLen := rfl
@[simp] theorem State.setPos_jbOffset (s : State) (p : Nat) : (s.setPos p).jbOffset = s.jbOffset := rfl
@[simp] theorem State.setPos_jbOffsetValid (s : State) (p : Nat) : (s.setPos p).jbOffsetValid = s.jbOffsetValid := rfl
@[simp] theorem State.setPos_jbQueue (s : State) (p : Nat) : (s.setPos p).jbQueue = s.jbQueue := rfl
@[simp] theorem State.setPos_jbWritten (s : State) (p : Nat) : (s.setPos p).jbWritten = s.jbWritten := rfl
@[simp] theorem State.setPos_jbClosing (s : State) (p : Nat) : (s.setPos p).jbClosing = s.jbClosing := rfl
@[simp] theorem State.setPos_lock (s : State) (p : Nat) : (s.setPos p).lock = s.lock := rfl
@[simp] theorem State.setPos_drainAwake (s : State) (p : Nat) : (s.setPos p).drainAwake = s.drainAwake := rfl
@[simp] theorem State.setPos_log (s : State) (p : Nat) : (s.setPos p).log = s.log := rfl
@[simp] theorem State.setPos_sink (s : State) (p : Nat) : (s.setPos p).sink = s.sink := rfl
@[simp] theorem State.setPos_sinkReady (s : State) (p : Nat) : (s.setPos p).sinkReady = s.sinkReady := rfl
@[simp] theorem State.setPos_mixL (s : State) (p : Nat) : (s.setPos p).mixL = s.mixL := rfl
@[simp] theorem State.setPos_mixR (s : State) (p : Nat) : (s.setPos p).mixR = s.mixR := rfl
@[simp] theorem State.setPos_decKey (s : State) (p : Nat) : (s.setPos p).decKey = s.decKey := rfl
@[simp] theorem State.setPos_decPend (s : State) (p : Nat) : (s.setPos p).decPend = s.decPend := rfl
@[simp] theorem State.setPos_decLen (s : State) (p : Nat) : (s.setPos p).decLen = s.decLen := rfl
@[simp] theorem State.setPos_resp (s : State) (p : Nat) : (s.setPos p).resp = s.resp := rfl
@[simp] theorem State.setPos_result (s : State) (p : Nat) : (s.setPos p).result = s.result := rfl
@[simp] theorem State.setPos_timeResult (s : State) (p : Nat) : (s.setPos p).timeResult = s.timeResult := rfl
@[simp] theorem State.setPos_agenda (s : State) (p : Nat) : (s.setPos p).agenda = s.agenda := rfl
@[simp] theorem State.setPos_tick (s : State) (p : Nat) : (s.setPos p).tick = s.tick := rfl

/-! ## `initCursor` -/

@[simp] theorem initCursor_prm (len : Word) (s : State) : (initCursor len s).prm = s.prm := rfl
@[simp] theorem initCursor_mode (len : Word) (s : State) : (initCursor len s).mode = s.mode := rfl
@[simp] theorem initCursor_errCode (len : Word) (s : State) : (initCursor len s).errCode = s.errCode := rfl
@[simp] theorem initCursor_errInfo (len : Word) (s : State) : (initCursor len s).errInfo = s.errInfo := rfl
@[simp] theorem initCursor_cfgMaxSamples (len : Word) (s : State) : (initCursor len s).cfgMaxSamples = s.cfgMaxSamples := rfl
@[simp] theorem initCursor_cfgSampleSize (len : Word) (s : State) : (initCursor len s).cfgSampleSize = s.cfgSampleSize := rfl
@[simp] theorem initCursor_cfgHistoryMult (len : Word) (s : State) : (initCursor len s).cfgHistoryMult = s.cfgHistoryMult := rfl
@[simp] theorem initCursor_cfgInitHistory (len : Word) (s : State) : (initCursor len s).cfgInitHistory = s.cfgInitHistory := rfl
@[simp] theorem initCursor_cfgKModifier (len : Word) (s : State) : (initCursor len s).cfgKModifier = s.cfgKModifier := rfl
@[simp] theorem initCursor_cfgChannels (len : Word) (s : State) : (initCursor len s).cfgChannels = s.cfgChannels := rfl
@[simp] theorem initCursor_cfgSampleRate (len : Word) (s : State) : (initCursor len s).cfgSampleRate = s.cfgSampleRate := rfl
@[simp] theorem initCursor_bcLen (len : Word) (s : State) : (initCursor len s).bcLen = len := rfl
@[simp] theorem initCursor_bcIdx (len : Word) (s : State) : (initCursor len s).bcIdx = 0 := rfl
@[simp] theorem initCursor_bcAcc (len : Word) (s : State) : (initCursor len s).bcAcc = 0 := rfl
@[simp] theorem initCursor_fhChan (len : Word) (s : State) : (initCursor len s).fhChan = s.fhChan := rfl
@[simp] theorem initCursor_fhHasSize (len : Word) (s : State) : (initCursor len s).fhHasSize = s.fhHasSize := rfl
@[simp] theorem initCursor_fhUb (len : Word) (s : State) : (initCursor len s).fhUb = s.fhUb := rfl
@[simp] theorem initCursor_fhCf (len : Word) (s : State) : (initCursor len s).fhCf = s.fhCf := rfl
@[simp] theorem initCursor_fhN (len : Word) (s : State) : (initCursor len s).fhN = s.fhN := rfl
@[simp] theorem initCursor_fhRss (len : Word) (s : State) : (initCursor len s).fhRss = s.fhRss := rfl
@[simp] theorem initCursor_fhShift (len : Word) (s : State) : (initCursor len s).fhShift = s.fhShift := rfl
@[simp] theorem initCursor_fhLeftWeight (len : Word) (s : State) : (initCursor len s).fhLeftWeight = s.fhLeftWeight := rfl
@[simp] theorem initCursor_chA (len : Word) (s : State) : (initCursor len s).chA = s.chA := rfl
@[simp] theorem initCursor_chB (len : Word) (s : State) : (initCursor len s).chB = s.chB := rfl
@[simp] theorem initCursor_rsHistory (len : Word) (s : State) : (initCursor len s).rsHistory = s.rsHistory := rfl
@[simp] theorem initCursor_rsSignMod (len : Word) (s : State) : (initCursor len s).rsSignMod = s.rsSignMod := rfl
@[simp] theorem initCursor_payload (len : Word) (s : State) : (initCursor len s).payload = s.payload := rfl
@[simp] theorem initCursor_pcm (len : Word) (s : State) : (initCursor len s).pcm = s.pcm := rfl
@[simp] theorem initCursor_pcmLen (len : Word) (s : State) : (initCursor len s).pcmLen = s.pcmLen := rfl
@[simp] theorem initCursor_jbOffset (len : Word) (s : State) : (initCursor len s).jbOffset = s.jbOffset := rfl
@[simp] theorem initCursor_jbOffsetValid (len : Word) (s : State) : (initCursor len s).jbOffsetValid = s.jbOffsetValid := rfl
@[simp] theorem initCursor_jbQueue (len : Word) (s : State) : (initCursor len s).jbQueue = s.jbQueue := rfl
@[simp] theorem initCursor_jbWritten (len : Word) (s : State) : (initCursor len s).jbWritten = s.jbWritten := rfl
@[simp] theorem initCursor_jbClosing (len : Word) (s : State) : (initCursor len s).jbClosing = s.jbClosing := rfl
@[simp] theorem initCursor_lock (len : Word) (s : State) : (initCursor len s).lock = s.lock := rfl
@[simp] theorem initCursor_drainAwake (len : Word) (s : State) : (initCursor len s).drainAwake = s.drainAwake := rfl
@[simp] theorem initCursor_log (len : Word) (s : State) : (initCursor len s).log = s.log := rfl
@[simp] theorem initCursor_sink (len : Word) (s : State) : (initCursor len s).sink = s.sink := rfl
@[simp] theorem initCursor_sinkReady (len : Word) (s : State) : (initCursor len s).sinkReady = s.sinkReady := rfl
@[simp] theorem initCursor_mixL (len : Word) (s : State) : (initCursor len s).mixL = s.mixL := rfl
@[simp] theorem initCursor_mixR (len : Word) (s : State) : (initCursor len s).mixR = s.mixR := rfl
@[simp] theorem initCursor_decKey (len : Word) (s : State) : (initCursor len s).decKey = s.decKey := rfl
@[simp] theorem initCursor_decPend (len : Word) (s : State) : (initCursor len s).decPend = s.decPend := rfl
@[simp] theorem initCursor_decLen (len : Word) (s : State) : (initCursor len s).decLen = s.decLen := rfl
@[simp] theorem initCursor_resp (len : Word) (s : State) : (initCursor len s).resp = s.resp := rfl
@[simp] theorem initCursor_result (len : Word) (s : State) : (initCursor len s).result = s.result := rfl
@[simp] theorem initCursor_timeResult (len : Word) (s : State) : (initCursor len s).timeResult = s.timeResult := rfl
@[simp] theorem initCursor_agenda (len : Word) (s : State) : (initCursor len s).agenda = s.agenda := rfl
@[simp] theorem initCursor_tick (len : Word) (s : State) : (initCursor len s).tick = s.tick := rfl

/-! ## `logEvent` -/

@[simp] theorem logEvent_prm (r : LogRecord) (s : State) : (logEvent r s).prm = s.prm := rfl
@[simp] theorem logEvent_mode (r : LogRecord) (s : State) : (logEvent r s).mode = s.mode := rfl
@[simp] theorem logEvent_errCode (r : LogRecord) (s : State) : (logEvent r s).errCode = s.errCode := rfl
@[simp] theorem logEvent_errInfo (r : LogRecord) (s : State) : (logEvent r s).errInfo = s.errInfo := rfl
@[simp] theorem logEvent_cfgMaxSamples (r : LogRecord) (s : State) : (logEvent r s).cfgMaxSamples = s.cfgMaxSamples := rfl
@[simp] theorem logEvent_cfgSampleSize (r : LogRecord) (s : State) : (logEvent r s).cfgSampleSize = s.cfgSampleSize := rfl
@[simp] theorem logEvent_cfgHistoryMult (r : LogRecord) (s : State) : (logEvent r s).cfgHistoryMult = s.cfgHistoryMult := rfl
@[simp] theorem logEvent_cfgInitHistory (r : LogRecord) (s : State) : (logEvent r s).cfgInitHistory = s.cfgInitHistory := rfl
@[simp] theorem logEvent_cfgKModifier (r : LogRecord) (s : State) : (logEvent r s).cfgKModifier = s.cfgKModifier := rfl
@[simp] theorem logEvent_cfgChannels (r : LogRecord) (s : State) : (logEvent r s).cfgChannels = s.cfgChannels := rfl
@[simp] theorem logEvent_cfgSampleRate (r : LogRecord) (s : State) : (logEvent r s).cfgSampleRate = s.cfgSampleRate := rfl
@[simp] theorem logEvent_bcLen (r : LogRecord) (s : State) : (logEvent r s).bcLen = s.bcLen := rfl
@[simp] theorem logEvent_bcIdx (r : LogRecord) (s : State) : (logEvent r s).bcIdx = s.bcIdx := rfl
@[simp] theorem logEvent_bcAcc (r : LogRecord) (s : State) : (logEvent r s).bcAcc = s.bcAcc := rfl
@[simp] theorem logEvent_fhChan (r : LogRecord) (s : State) : (logEvent r s).fhChan = s.fhChan := rfl
@[simp] theorem logEvent_fhHasSize (r : LogRecord) (s : State) : (logEvent r s).fhHasSize = s.fhHasSize := rfl
@[simp] theorem logEvent_fhUb (r : LogRecord) (s : State) : (logEvent r s).fhUb = s.fhUb := rfl
@[simp] theorem logEvent_fhCf (r : LogRecord) (s : State) : (logEvent r s).fhCf = s.fhCf := rfl
@[simp] theorem logEvent_fhN (r : LogRecord) (s : State) : (logEvent r s).fhN = s.fhN := rfl
@[simp] theorem logEvent_fhRss (r : LogRecord) (s : State) : (logEvent r s).fhRss = s.fhRss := rfl
@[simp] theorem logEvent_fhShift (r : LogRecord) (s : State) : (logEvent r s).fhShift = s.fhShift := rfl
@[simp] theorem logEvent_fhLeftWeight (r : LogRecord) (s : State) : (logEvent r s).fhLeftWeight = s.fhLeftWeight := rfl
@[simp] theorem logEvent_chA (r : LogRecord) (s : State) : (logEvent r s).chA = s.chA := rfl
@[simp] theorem logEvent_chB (r : LogRecord) (s : State) : (logEvent r s).chB = s.chB := rfl
@[simp] theorem logEvent_rsHistory (r : LogRecord) (s : State) : (logEvent r s).rsHistory = s.rsHistory := rfl
@[simp] theorem logEvent_rsSignMod (r : LogRecord) (s : State) : (logEvent r s).rsSignMod = s.rsSignMod := rfl
@[simp] theorem logEvent_payload (r : LogRecord) (s : State) : (logEvent r s).payload = s.payload := rfl
@[simp] theorem logEvent_pcm (r : LogRecord) (s : State) : (logEvent r s).pcm = s.pcm := rfl
@[simp] theorem logEvent_pcmLen (r : LogRecord) (s : State) : (logEvent r s).pcmLen = s.pcmLen := rfl
@[simp] theorem logEvent_jbOffset (r : LogRecord) (s : State) : (logEvent r s).jbOffset = s.jbOffset := rfl
@[simp] theorem logEvent_jbOffsetValid (r : LogRecord) (s : State) : (logEvent r s).jbOffsetValid = s.jbOffsetValid := rfl
@[simp] theorem logEvent_jbQueue (r : LogRecord) (s : State) : (logEvent r s).jbQueue = s.jbQueue := rfl
@[simp] theorem logEvent_jbWritten (r : LogRecord) (s : State) : (logEvent r s).jbWritten = s.jbWritten := rfl
@[simp] theorem logEvent_jbClosing (r : LogRecord) (s : State) : (logEvent r s).jbClosing = s.jbClosing := rfl
@[simp] theorem logEvent_lock (r : LogRecord) (s : State) : (logEvent r s).lock = s.lock := rfl
@[simp] theorem logEvent_drainAwake (r : LogRecord) (s : State) : (logEvent r s).drainAwake = s.drainAwake := rfl
@[simp] theorem logEvent_log (r : LogRecord) (s : State) : (logEvent r s).log = s.log ++ [r] := rfl
@[simp] theorem logEvent_sink (r : LogRecord) (s : State) : (logEvent r s).sink = s.sink := rfl
@[simp] theorem logEvent_sinkReady (r : LogRecord) (s : State) : (logEvent r s).sinkReady = s.sinkReady := rfl
@[simp] theorem logEvent_mixL (r : LogRecord) (s : State) : (logEvent r s).mixL = s.mixL := rfl
@[simp] theorem logEvent_mixR (r : LogRecord) (s : State) : (logEvent r s).mixR = s.mixR := rfl
@[simp] theorem logEvent_decKey (r : LogRecord) (s : State) : (logEvent r s).decKey = s.decKey := rfl
@[simp] theorem logEvent_decPend (r : LogRecord) (s : State) : (logEvent r s).decPend = s.decPend := rfl
@[simp] theorem logEvent_decLen (r : LogRecord) (s : State) : (logEvent r s).decLen = s.decLen := rfl
@[simp] theorem logEvent_resp (r : LogRecord) (s : State) : (logEvent r s).resp = s.resp := rfl
@[simp] theorem logEvent_result (r : LogRecord) (s : State) : (logEvent r s).result = s.result := rfl
@[simp] theorem logEvent_timeResult (r : LogRecord) (s : State) : (logEvent r s).timeResult = s.timeResult := rfl
@[simp] theorem logEvent_agenda (r : LogRecord) (s : State) : (logEvent r s).agenda = s.agenda := rfl
@[simp] theorem logEvent_tick (r : LogRecord) (s : State) : (logEvent r s).tick = s.tick := rfl

/-! ## `faultEntry` -/

@[simp] theorem faultEntry_prm (e : Cause) (w : Word) (s : State) : (faultEntry e w s).prm = s.prm := rfl
@[simp] theorem faultEntry_mode (e : Cause) (w : Word) (s : State) : (faultEntry e w s).mode = .faulted := rfl
@[simp] theorem faultEntry_errCode (e : Cause) (w : Word) (s : State) : (faultEntry e w s).errCode = if s.errCode = 0 then e.code else s.errCode := rfl
@[simp] theorem faultEntry_errInfo (e : Cause) (w : Word) (s : State) : (faultEntry e w s).errInfo = if s.errCode = 0 then w else s.errInfo := rfl
@[simp] theorem faultEntry_cfgMaxSamples (e : Cause) (w : Word) (s : State) : (faultEntry e w s).cfgMaxSamples = s.cfgMaxSamples := rfl
@[simp] theorem faultEntry_cfgSampleSize (e : Cause) (w : Word) (s : State) : (faultEntry e w s).cfgSampleSize = s.cfgSampleSize := rfl
@[simp] theorem faultEntry_cfgHistoryMult (e : Cause) (w : Word) (s : State) : (faultEntry e w s).cfgHistoryMult = s.cfgHistoryMult := rfl
@[simp] theorem faultEntry_cfgInitHistory (e : Cause) (w : Word) (s : State) : (faultEntry e w s).cfgInitHistory = s.cfgInitHistory := rfl
@[simp] theorem faultEntry_cfgKModifier (e : Cause) (w : Word) (s : State) : (faultEntry e w s).cfgKModifier = s.cfgKModifier := rfl
@[simp] theorem faultEntry_cfgChannels (e : Cause) (w : Word) (s : State) : (faultEntry e w s).cfgChannels = s.cfgChannels := rfl
@[simp] theorem faultEntry_cfgSampleRate (e : Cause) (w : Word) (s : State) : (faultEntry e w s).cfgSampleRate = s.cfgSampleRate := rfl
@[simp] theorem faultEntry_bcLen (e : Cause) (w : Word) (s : State) : (faultEntry e w s).bcLen = s.bcLen := rfl
@[simp] theorem faultEntry_bcIdx (e : Cause) (w : Word) (s : State) : (faultEntry e w s).bcIdx = s.bcIdx := rfl
@[simp] theorem faultEntry_bcAcc (e : Cause) (w : Word) (s : State) : (faultEntry e w s).bcAcc = s.bcAcc := rfl
@[simp] theorem faultEntry_fhChan (e : Cause) (w : Word) (s : State) : (faultEntry e w s).fhChan = s.fhChan := rfl
@[simp] theorem faultEntry_fhHasSize (e : Cause) (w : Word) (s : State) : (faultEntry e w s).fhHasSize = s.fhHasSize := rfl
@[simp] theorem faultEntry_fhUb (e : Cause) (w : Word) (s : State) : (faultEntry e w s).fhUb = s.fhUb := rfl
@[simp] theorem faultEntry_fhCf (e : Cause) (w : Word) (s : State) : (faultEntry e w s).fhCf = s.fhCf := rfl
@[simp] theorem faultEntry_fhN (e : Cause) (w : Word) (s : State) : (faultEntry e w s).fhN = s.fhN := rfl
@[simp] theorem faultEntry_fhRss (e : Cause) (w : Word) (s : State) : (faultEntry e w s).fhRss = s.fhRss := rfl
@[simp] theorem faultEntry_fhShift (e : Cause) (w : Word) (s : State) : (faultEntry e w s).fhShift = s.fhShift := rfl
@[simp] theorem faultEntry_fhLeftWeight (e : Cause) (w : Word) (s : State) : (faultEntry e w s).fhLeftWeight = s.fhLeftWeight := rfl
@[simp] theorem faultEntry_chA (e : Cause) (w : Word) (s : State) : (faultEntry e w s).chA = s.chA := rfl
@[simp] theorem faultEntry_chB (e : Cause) (w : Word) (s : State) : (faultEntry e w s).chB = s.chB := rfl
@[simp] theorem faultEntry_rsHistory (e : Cause) (w : Word) (s : State) : (faultEntry e w s).rsHistory = s.rsHistory := rfl
@[simp] theorem faultEntry_rsSignMod (e : Cause) (w : Word) (s : State) : (faultEntry e w s).rsSignMod = s.rsSignMod := rfl
@[simp] theorem faultEntry_payload (e : Cause) (w : Word) (s : State) : (faultEntry e w s).payload = s.payload := rfl
@[simp] theorem faultEntry_pcm (e : Cause) (w : Word) (s : State) : (faultEntry e w s).pcm = s.pcm := rfl
@[simp] theorem faultEntry_pcmLen (e : Cause) (w : Word) (s : State) : (faultEntry e w s).pcmLen = s.pcmLen := rfl
@[simp] theorem faultEntry_jbOffset (e : Cause) (w : Word) (s : State) : (faultEntry e w s).jbOffset = s.jbOffset := rfl
@[simp] theorem faultEntry_jbOffsetValid (e : Cause) (w : Word) (s : State) : (faultEntry e w s).jbOffsetValid = s.jbOffsetValid := rfl
@[simp] theorem faultEntry_jbQueue (e : Cause) (w : Word) (s : State) : (faultEntry e w s).jbQueue = s.jbQueue := rfl
@[simp] theorem faultEntry_jbWritten (e : Cause) (w : Word) (s : State) : (faultEntry e w s).jbWritten = s.jbWritten := rfl
@[simp] theorem faultEntry_jbClosing (e : Cause) (w : Word) (s : State) : (faultEntry e w s).jbClosing = s.jbClosing := rfl
@[simp] theorem faultEntry_lock (e : Cause) (w : Word) (s : State) : (faultEntry e w s).lock = s.lock := rfl
@[simp] theorem faultEntry_drainAwake (e : Cause) (w : Word) (s : State) : (faultEntry e w s).drainAwake = s.drainAwake := rfl
@[simp] theorem faultEntry_log (e : Cause) (w : Word) (s : State) : (faultEntry e w s).log = s.log ++ [.fault e.code] := rfl
@[simp] theorem faultEntry_sink (e : Cause) (w : Word) (s : State) : (faultEntry e w s).sink = s.sink := rfl
@[simp] theorem faultEntry_sinkReady (e : Cause) (w : Word) (s : State) : (faultEntry e w s).sinkReady = s.sinkReady := rfl
@[simp] theorem faultEntry_mixL (e : Cause) (w : Word) (s : State) : (faultEntry e w s).mixL = s.mixL := rfl
@[simp] theorem faultEntry_mixR (e : Cause) (w : Word) (s : State) : (faultEntry e w s).mixR = s.mixR := rfl
@[simp] theorem faultEntry_decKey (e : Cause) (w : Word) (s : State) : (faultEntry e w s).decKey = s.decKey := rfl
@[simp] theorem faultEntry_decPend (e : Cause) (w : Word) (s : State) : (faultEntry e w s).decPend = s.decPend := rfl
@[simp] theorem faultEntry_decLen (e : Cause) (w : Word) (s : State) : (faultEntry e w s).decLen = s.decLen := rfl
@[simp] theorem faultEntry_resp (e : Cause) (w : Word) (s : State) : (faultEntry e w s).resp = s.resp := rfl
@[simp] theorem faultEntry_result (e : Cause) (w : Word) (s : State) : (faultEntry e w s).result = s.result := rfl
@[simp] theorem faultEntry_timeResult (e : Cause) (w : Word) (s : State) : (faultEntry e w s).timeResult = s.timeResult := rfl
@[simp] theorem faultEntry_agenda (e : Cause) (w : Word) (s : State) : (faultEntry e w s).agenda = s.agenda := rfl
@[simp] theorem faultEntry_tick (e : Cause) (w : Word) (s : State) : (faultEntry e w s).tick = s.tick := rfl

/-! ## `respond` -/

@[simp] theorem respond_prm (st : Status) (s : State) : (respond st s).prm = s.prm := rfl
@[simp] theorem respond_mode (st : Status) (s : State) : (respond st s).mode = s.mode := rfl
@[simp] theorem respond_errCode (st : Status) (s : State) : (respond st s).errCode = s.errCode := rfl
@[simp] theorem respond_errInfo (st : Status) (s : State) : (respond st s).errInfo = s.errInfo := rfl
@[simp] theorem respond_cfgMaxSamples (st : Status) (s : State) : (respond st s).cfgMaxSamples = s.cfgMaxSamples := rfl
@[simp] theorem respond_cfgSampleSize (st : Status) (s : State) : (respond st s).cfgSampleSize = s.cfgSampleSize := rfl
@[simp] theorem respond_cfgHistoryMult (st : Status) (s : State) : (respond st s).cfgHistoryMult = s.cfgHistoryMult := rfl
@[simp] theorem respond_cfgInitHistory (st : Status) (s : State) : (respond st s).cfgInitHistory = s.cfgInitHistory := rfl
@[simp] theorem respond_cfgKModifier (st : Status) (s : State) : (respond st s).cfgKModifier = s.cfgKModifier := rfl
@[simp] theorem respond_cfgChannels (st : Status) (s : State) : (respond st s).cfgChannels = s.cfgChannels := rfl
@[simp] theorem respond_cfgSampleRate (st : Status) (s : State) : (respond st s).cfgSampleRate = s.cfgSampleRate := rfl
@[simp] theorem respond_bcLen (st : Status) (s : State) : (respond st s).bcLen = s.bcLen := rfl
@[simp] theorem respond_bcIdx (st : Status) (s : State) : (respond st s).bcIdx = s.bcIdx := rfl
@[simp] theorem respond_bcAcc (st : Status) (s : State) : (respond st s).bcAcc = s.bcAcc := rfl
@[simp] theorem respond_fhChan (st : Status) (s : State) : (respond st s).fhChan = s.fhChan := rfl
@[simp] theorem respond_fhHasSize (st : Status) (s : State) : (respond st s).fhHasSize = s.fhHasSize := rfl
@[simp] theorem respond_fhUb (st : Status) (s : State) : (respond st s).fhUb = s.fhUb := rfl
@[simp] theorem respond_fhCf (st : Status) (s : State) : (respond st s).fhCf = s.fhCf := rfl
@[simp] theorem respond_fhN (st : Status) (s : State) : (respond st s).fhN = s.fhN := rfl
@[simp] theorem respond_fhRss (st : Status) (s : State) : (respond st s).fhRss = s.fhRss := rfl
@[simp] theorem respond_fhShift (st : Status) (s : State) : (respond st s).fhShift = s.fhShift := rfl
@[simp] theorem respond_fhLeftWeight (st : Status) (s : State) : (respond st s).fhLeftWeight = s.fhLeftWeight := rfl
@[simp] theorem respond_chA (st : Status) (s : State) : (respond st s).chA = s.chA := rfl
@[simp] theorem respond_chB (st : Status) (s : State) : (respond st s).chB = s.chB := rfl
@[simp] theorem respond_rsHistory (st : Status) (s : State) : (respond st s).rsHistory = s.rsHistory := rfl
@[simp] theorem respond_rsSignMod (st : Status) (s : State) : (respond st s).rsSignMod = s.rsSignMod := rfl
@[simp] theorem respond_payload (st : Status) (s : State) : (respond st s).payload = s.payload := rfl
@[simp] theorem respond_pcm (st : Status) (s : State) : (respond st s).pcm = s.pcm := rfl
@[simp] theorem respond_pcmLen (st : Status) (s : State) : (respond st s).pcmLen = s.pcmLen := rfl
@[simp] theorem respond_jbOffset (st : Status) (s : State) : (respond st s).jbOffset = s.jbOffset := rfl
@[simp] theorem respond_jbOffsetValid (st : Status) (s : State) : (respond st s).jbOffsetValid = s.jbOffsetValid := rfl
@[simp] theorem respond_jbQueue (st : Status) (s : State) : (respond st s).jbQueue = s.jbQueue := rfl
@[simp] theorem respond_jbWritten (st : Status) (s : State) : (respond st s).jbWritten = s.jbWritten := rfl
@[simp] theorem respond_jbClosing (st : Status) (s : State) : (respond st s).jbClosing = s.jbClosing := rfl
@[simp] theorem respond_lock (st : Status) (s : State) : (respond st s).lock = s.lock := rfl
@[simp] theorem respond_drainAwake (st : Status) (s : State) : (respond st s).drainAwake = s.drainAwake := rfl
@[simp] theorem respond_log (st : Status) (s : State) : (respond st s).log = s.log := rfl
@[simp] theorem respond_sink (st : Status) (s : State) : (respond st s).sink = s.sink := rfl
@[simp] theorem respond_sinkReady (st : Status) (s : State) : (respond st s).sinkReady = s.sinkReady := rfl
@[simp] theorem respond_mixL (st : Status) (s : State) : (respond st s).mixL = s.mixL := rfl
@[simp] theorem respond_mixR (st : Status) (s : State) : (respond st s).mixR = s.mixR := rfl
@[simp] theorem respond_decKey (st : Status) (s : State) : (respond st s).decKey = s.decKey := rfl
@[simp] theorem respond_decPend (st : Status) (s : State) : (respond st s).decPend = s.decPend := rfl
@[simp] theorem respond_decLen (st : Status) (s : State) : (respond st s).decLen = s.decLen := rfl
@[simp] theorem respond_resp (st : Status) (s : State) : (respond st s).resp = .status st := rfl
@[simp] theorem respond_result (st : Status) (s : State) : (respond st s).result = s.result := rfl
@[simp] theorem respond_timeResult (st : Status) (s : State) : (respond st s).timeResult = s.timeResult := rfl
@[simp] theorem respond_agenda (st : Status) (s : State) : (respond st s).agenda = s.agenda := rfl
@[simp] theorem respond_tick (st : Status) (s : State) : (respond st s).tick = s.tick := rfl

/-! ## `emit` -/

@[simp] theorem emit_prm (bytes : List Byte) (s : State) : (emit bytes s).prm = s.prm := rfl
@[simp] theorem emit_mode (bytes : List Byte) (s : State) : (emit bytes s).mode = s.mode := rfl
@[simp] theorem emit_errCode (bytes : List Byte) (s : State) : (emit bytes s).errCode = s.errCode := rfl
@[simp] theorem emit_errInfo (bytes : List Byte) (s : State) : (emit bytes s).errInfo = s.errInfo := rfl
@[simp] theorem emit_cfgMaxSamples (bytes : List Byte) (s : State) : (emit bytes s).cfgMaxSamples = s.cfgMaxSamples := rfl
@[simp] theorem emit_cfgSampleSize (bytes : List Byte) (s : State) : (emit bytes s).cfgSampleSize = s.cfgSampleSize := rfl
@[simp] theorem emit_cfgHistoryMult (bytes : List Byte) (s : State) : (emit bytes s).cfgHistoryMult = s.cfgHistoryMult := rfl
@[simp] theorem emit_cfgInitHistory (bytes : List Byte) (s : State) : (emit bytes s).cfgInitHistory = s.cfgInitHistory := rfl
@[simp] theorem emit_cfgKModifier (bytes : List Byte) (s : State) : (emit bytes s).cfgKModifier = s.cfgKModifier := rfl
@[simp] theorem emit_cfgChannels (bytes : List Byte) (s : State) : (emit bytes s).cfgChannels = s.cfgChannels := rfl
@[simp] theorem emit_cfgSampleRate (bytes : List Byte) (s : State) : (emit bytes s).cfgSampleRate = s.cfgSampleRate := rfl
@[simp] theorem emit_bcLen (bytes : List Byte) (s : State) : (emit bytes s).bcLen = s.bcLen := rfl
@[simp] theorem emit_bcIdx (bytes : List Byte) (s : State) : (emit bytes s).bcIdx = s.bcIdx := rfl
@[simp] theorem emit_bcAcc (bytes : List Byte) (s : State) : (emit bytes s).bcAcc = s.bcAcc := rfl
@[simp] theorem emit_fhChan (bytes : List Byte) (s : State) : (emit bytes s).fhChan = s.fhChan := rfl
@[simp] theorem emit_fhHasSize (bytes : List Byte) (s : State) : (emit bytes s).fhHasSize = s.fhHasSize := rfl
@[simp] theorem emit_fhUb (bytes : List Byte) (s : State) : (emit bytes s).fhUb = s.fhUb := rfl
@[simp] theorem emit_fhCf (bytes : List Byte) (s : State) : (emit bytes s).fhCf = s.fhCf := rfl
@[simp] theorem emit_fhN (bytes : List Byte) (s : State) : (emit bytes s).fhN = s.fhN := rfl
@[simp] theorem emit_fhRss (bytes : List Byte) (s : State) : (emit bytes s).fhRss = s.fhRss := rfl
@[simp] theorem emit_fhShift (bytes : List Byte) (s : State) : (emit bytes s).fhShift = s.fhShift := rfl
@[simp] theorem emit_fhLeftWeight (bytes : List Byte) (s : State) : (emit bytes s).fhLeftWeight = s.fhLeftWeight := rfl
@[simp] theorem emit_chA (bytes : List Byte) (s : State) : (emit bytes s).chA = s.chA := rfl
@[simp] theorem emit_chB (bytes : List Byte) (s : State) : (emit bytes s).chB = s.chB := rfl
@[simp] theorem emit_rsHistory (bytes : List Byte) (s : State) : (emit bytes s).rsHistory = s.rsHistory := rfl
@[simp] theorem emit_rsSignMod (bytes : List Byte) (s : State) : (emit bytes s).rsSignMod = s.rsSignMod := rfl
@[simp] theorem emit_payload (bytes : List Byte) (s : State) : (emit bytes s).payload = s.payload := rfl
@[simp] theorem emit_pcm (bytes : List Byte) (s : State) : (emit bytes s).pcm = s.pcm := rfl
@[simp] theorem emit_pcmLen (bytes : List Byte) (s : State) : (emit bytes s).pcmLen = s.pcmLen := rfl
@[simp] theorem emit_jbOffset (bytes : List Byte) (s : State) : (emit bytes s).jbOffset = s.jbOffset := rfl
@[simp] theorem emit_jbOffsetValid (bytes : List Byte) (s : State) : (emit bytes s).jbOffsetValid = s.jbOffsetValid := rfl
@[simp] theorem emit_jbQueue (bytes : List Byte) (s : State) : (emit bytes s).jbQueue = s.jbQueue := rfl
@[simp] theorem emit_jbWritten (bytes : List Byte) (s : State) : (emit bytes s).jbWritten = s.time (s.jbWritten.toInt + framesOf s bytes) := rfl
@[simp] theorem emit_jbClosing (bytes : List Byte) (s : State) : (emit bytes s).jbClosing = s.jbClosing := rfl
@[simp] theorem emit_lock (bytes : List Byte) (s : State) : (emit bytes s).lock = s.lock := rfl
@[simp] theorem emit_drainAwake (bytes : List Byte) (s : State) : (emit bytes s).drainAwake = s.drainAwake := rfl
@[simp] theorem emit_log (bytes : List Byte) (s : State) : (emit bytes s).log = s.log := rfl
@[simp] theorem emit_sink (bytes : List Byte) (s : State) : (emit bytes s).sink = s.sink ++ bytes := rfl
@[simp] theorem emit_sinkReady (bytes : List Byte) (s : State) : (emit bytes s).sinkReady = s.sinkReady := rfl
@[simp] theorem emit_mixL (bytes : List Byte) (s : State) : (emit bytes s).mixL = s.mixL := rfl
@[simp] theorem emit_mixR (bytes : List Byte) (s : State) : (emit bytes s).mixR = s.mixR := rfl
@[simp] theorem emit_decKey (bytes : List Byte) (s : State) : (emit bytes s).decKey = s.decKey := rfl
@[simp] theorem emit_decPend (bytes : List Byte) (s : State) : (emit bytes s).decPend = s.decPend := rfl
@[simp] theorem emit_decLen (bytes : List Byte) (s : State) : (emit bytes s).decLen = s.decLen := rfl
@[simp] theorem emit_resp (bytes : List Byte) (s : State) : (emit bytes s).resp = s.resp := rfl
@[simp] theorem emit_result (bytes : List Byte) (s : State) : (emit bytes s).result = s.result := rfl
@[simp] theorem emit_timeResult (bytes : List Byte) (s : State) : (emit bytes s).timeResult = s.timeResult := rfl
@[simp] theorem emit_agenda (bytes : List Byte) (s : State) : (emit bytes s).agenda = s.agenda := rfl
@[simp] theorem emit_tick (bytes : List Byte) (s : State) : (emit bytes s).tick = s.tick := rfl

/-! ## `syncClock` -/

@[simp] theorem syncClock_prm (r l : Time) (s : State) : (syncClock r l s).prm = s.prm := rfl
@[simp] theorem syncClock_mode (r l : Time) (s : State) : (syncClock r l s).mode = s.mode := rfl
@[simp] theorem syncClock_errCode (r l : Time) (s : State) : (syncClock r l s).errCode = s.errCode := rfl
@[simp] theorem syncClock_errInfo (r l : Time) (s : State) : (syncClock r l s).errInfo = s.errInfo := rfl
@[simp] theorem syncClock_cfgMaxSamples (r l : Time) (s : State) : (syncClock r l s).cfgMaxSamples = s.cfgMaxSamples := rfl
@[simp] theorem syncClock_cfgSampleSize (r l : Time) (s : State) : (syncClock r l s).cfgSampleSize = s.cfgSampleSize := rfl
@[simp] theorem syncClock_cfgHistoryMult (r l : Time) (s : State) : (syncClock r l s).cfgHistoryMult = s.cfgHistoryMult := rfl
@[simp] theorem syncClock_cfgInitHistory (r l : Time) (s : State) : (syncClock r l s).cfgInitHistory = s.cfgInitHistory := rfl
@[simp] theorem syncClock_cfgKModifier (r l : Time) (s : State) : (syncClock r l s).cfgKModifier = s.cfgKModifier := rfl
@[simp] theorem syncClock_cfgChannels (r l : Time) (s : State) : (syncClock r l s).cfgChannels = s.cfgChannels := rfl
@[simp] theorem syncClock_cfgSampleRate (r l : Time) (s : State) : (syncClock r l s).cfgSampleRate = s.cfgSampleRate := rfl
@[simp] theorem syncClock_bcLen (r l : Time) (s : State) : (syncClock r l s).bcLen = s.bcLen := rfl
@[simp] theorem syncClock_bcIdx (r l : Time) (s : State) : (syncClock r l s).bcIdx = s.bcIdx := rfl
@[simp] theorem syncClock_bcAcc (r l : Time) (s : State) : (syncClock r l s).bcAcc = s.bcAcc := rfl
@[simp] theorem syncClock_fhChan (r l : Time) (s : State) : (syncClock r l s).fhChan = s.fhChan := rfl
@[simp] theorem syncClock_fhHasSize (r l : Time) (s : State) : (syncClock r l s).fhHasSize = s.fhHasSize := rfl
@[simp] theorem syncClock_fhUb (r l : Time) (s : State) : (syncClock r l s).fhUb = s.fhUb := rfl
@[simp] theorem syncClock_fhCf (r l : Time) (s : State) : (syncClock r l s).fhCf = s.fhCf := rfl
@[simp] theorem syncClock_fhN (r l : Time) (s : State) : (syncClock r l s).fhN = s.fhN := rfl
@[simp] theorem syncClock_fhRss (r l : Time) (s : State) : (syncClock r l s).fhRss = s.fhRss := rfl
@[simp] theorem syncClock_fhShift (r l : Time) (s : State) : (syncClock r l s).fhShift = s.fhShift := rfl
@[simp] theorem syncClock_fhLeftWeight (r l : Time) (s : State) : (syncClock r l s).fhLeftWeight = s.fhLeftWeight := rfl
@[simp] theorem syncClock_chA (r l : Time) (s : State) : (syncClock r l s).chA = s.chA := rfl
@[simp] theorem syncClock_chB (r l : Time) (s : State) : (syncClock r l s).chB = s.chB := rfl
@[simp] theorem syncClock_rsHistory (r l : Time) (s : State) : (syncClock r l s).rsHistory = s.rsHistory := rfl
@[simp] theorem syncClock_rsSignMod (r l : Time) (s : State) : (syncClock r l s).rsSignMod = s.rsSignMod := rfl
@[simp] theorem syncClock_payload (r l : Time) (s : State) : (syncClock r l s).payload = s.payload := rfl
@[simp] theorem syncClock_pcm (r l : Time) (s : State) : (syncClock r l s).pcm = s.pcm := rfl
@[simp] theorem syncClock_pcmLen (r l : Time) (s : State) : (syncClock r l s).pcmLen = s.pcmLen := rfl
@[simp] theorem syncClock_jbOffset (r l : Time) (s : State) : (syncClock r l s).jbOffset = s.time (r.toInt - l.toInt) := rfl
@[simp] theorem syncClock_jbOffsetValid (r l : Time) (s : State) : (syncClock r l s).jbOffsetValid = true := rfl
@[simp] theorem syncClock_jbQueue (r l : Time) (s : State) : (syncClock r l s).jbQueue = s.jbQueue := rfl
@[simp] theorem syncClock_jbWritten (r l : Time) (s : State) : (syncClock r l s).jbWritten = s.jbWritten := rfl
@[simp] theorem syncClock_jbClosing (r l : Time) (s : State) : (syncClock r l s).jbClosing = s.jbClosing := rfl
@[simp] theorem syncClock_lock (r l : Time) (s : State) : (syncClock r l s).lock = s.lock := rfl
@[simp] theorem syncClock_drainAwake (r l : Time) (s : State) : (syncClock r l s).drainAwake = true := rfl
@[simp] theorem syncClock_log (r l : Time) (s : State) : (syncClock r l s).log = s.log := rfl
@[simp] theorem syncClock_sink (r l : Time) (s : State) : (syncClock r l s).sink = s.sink := rfl
@[simp] theorem syncClock_sinkReady (r l : Time) (s : State) : (syncClock r l s).sinkReady = s.sinkReady := rfl
@[simp] theorem syncClock_mixL (r l : Time) (s : State) : (syncClock r l s).mixL = s.mixL := rfl
@[simp] theorem syncClock_mixR (r l : Time) (s : State) : (syncClock r l s).mixR = s.mixR := rfl
@[simp] theorem syncClock_decKey (r l : Time) (s : State) : (syncClock r l s).decKey = s.decKey := rfl
@[simp] theorem syncClock_decPend (r l : Time) (s : State) : (syncClock r l s).decPend = s.decPend := rfl
@[simp] theorem syncClock_decLen (r l : Time) (s : State) : (syncClock r l s).decLen = s.decLen := rfl
@[simp] theorem syncClock_resp (r l : Time) (s : State) : (syncClock r l s).resp = s.resp := rfl
@[simp] theorem syncClock_result (r l : Time) (s : State) : (syncClock r l s).result = s.result := rfl
@[simp] theorem syncClock_timeResult (r l : Time) (s : State) : (syncClock r l s).timeResult = s.timeResult := rfl
@[simp] theorem syncClock_agenda (r l : Time) (s : State) : (syncClock r l s).agenda = s.agenda := rfl
@[simp] theorem syncClock_tick (r l : Time) (s : State) : (syncClock r l s).tick = s.tick := rfl

/-! ## `closeStream` -/

@[simp] theorem closeStream_prm (s : State) : (closeStream s).prm = s.prm := rfl
@[simp] theorem closeStream_mode (s : State) : (closeStream s).mode = .closed := rfl
@[simp] theorem closeStream_errCode (s : State) : (closeStream s).errCode = s.errCode := rfl
@[simp] theorem closeStream_errInfo (s : State) : (closeStream s).errInfo = s.errInfo := rfl
@[simp] theorem closeStream_cfgMaxSamples (s : State) : (closeStream s).cfgMaxSamples = s.cfgMaxSamples := rfl
@[simp] theorem closeStream_cfgSampleSize (s : State) : (closeStream s).cfgSampleSize = s.cfgSampleSize := rfl
@[simp] theorem closeStream_cfgHistoryMult (s : State) : (closeStream s).cfgHistoryMult = s.cfgHistoryMult := rfl
@[simp] theorem closeStream_cfgInitHistory (s : State) : (closeStream s).cfgInitHistory = s.cfgInitHistory := rfl
@[simp] theorem closeStream_cfgKModifier (s : State) : (closeStream s).cfgKModifier = s.cfgKModifier := rfl
@[simp] theorem closeStream_cfgChannels (s : State) : (closeStream s).cfgChannels = s.cfgChannels := rfl
@[simp] theorem closeStream_cfgSampleRate (s : State) : (closeStream s).cfgSampleRate = s.cfgSampleRate := rfl
@[simp] theorem closeStream_bcLen (s : State) : (closeStream s).bcLen = s.bcLen := rfl
@[simp] theorem closeStream_bcIdx (s : State) : (closeStream s).bcIdx = s.bcIdx := rfl
@[simp] theorem closeStream_bcAcc (s : State) : (closeStream s).bcAcc = s.bcAcc := rfl
@[simp] theorem closeStream_fhChan (s : State) : (closeStream s).fhChan = s.fhChan := rfl
@[simp] theorem closeStream_fhHasSize (s : State) : (closeStream s).fhHasSize = s.fhHasSize := rfl
@[simp] theorem closeStream_fhUb (s : State) : (closeStream s).fhUb = s.fhUb := rfl
@[simp] theorem closeStream_fhCf (s : State) : (closeStream s).fhCf = s.fhCf := rfl
@[simp] theorem closeStream_fhN (s : State) : (closeStream s).fhN = s.fhN := rfl
@[simp] theorem closeStream_fhRss (s : State) : (closeStream s).fhRss = s.fhRss := rfl
@[simp] theorem closeStream_fhShift (s : State) : (closeStream s).fhShift = s.fhShift := rfl
@[simp] theorem closeStream_fhLeftWeight (s : State) : (closeStream s).fhLeftWeight = s.fhLeftWeight := rfl
@[simp] theorem closeStream_chA (s : State) : (closeStream s).chA = s.chA := rfl
@[simp] theorem closeStream_chB (s : State) : (closeStream s).chB = s.chB := rfl
@[simp] theorem closeStream_rsHistory (s : State) : (closeStream s).rsHistory = s.rsHistory := rfl
@[simp] theorem closeStream_rsSignMod (s : State) : (closeStream s).rsSignMod = s.rsSignMod := rfl
@[simp] theorem closeStream_payload (s : State) : (closeStream s).payload = s.payload := rfl
@[simp] theorem closeStream_pcm (s : State) : (closeStream s).pcm = s.pcm := rfl
@[simp] theorem closeStream_pcmLen (s : State) : (closeStream s).pcmLen = s.pcmLen := rfl
@[simp] theorem closeStream_jbOffset (s : State) : (closeStream s).jbOffset = s.jbOffset := rfl
@[simp] theorem closeStream_jbOffsetValid (s : State) : (closeStream s).jbOffsetValid = s.jbOffsetValid := rfl
@[simp] theorem closeStream_jbQueue (s : State) : (closeStream s).jbQueue = [] := rfl
@[simp] theorem closeStream_jbWritten (s : State) : (closeStream s).jbWritten = s.jbWritten := rfl
@[simp] theorem closeStream_jbClosing (s : State) : (closeStream s).jbClosing = true := rfl
@[simp] theorem closeStream_lock (s : State) : (closeStream s).lock = s.lock := rfl
@[simp] theorem closeStream_drainAwake (s : State) : (closeStream s).drainAwake = true := rfl
@[simp] theorem closeStream_log (s : State) : (closeStream s).log = s.log := rfl
@[simp] theorem closeStream_sink (s : State) : (closeStream s).sink = s.sink := rfl
@[simp] theorem closeStream_sinkReady (s : State) : (closeStream s).sinkReady = s.sinkReady := rfl
@[simp] theorem closeStream_mixL (s : State) : (closeStream s).mixL = s.mixL := rfl
@[simp] theorem closeStream_mixR (s : State) : (closeStream s).mixR = s.mixR := rfl
@[simp] theorem closeStream_decKey (s : State) : (closeStream s).decKey = s.decKey := rfl
@[simp] theorem closeStream_decPend (s : State) : (closeStream s).decPend = s.decPend := rfl
@[simp] theorem closeStream_decLen (s : State) : (closeStream s).decLen = s.decLen := rfl
@[simp] theorem closeStream_resp (s : State) : (closeStream s).resp = s.resp := rfl
@[simp] theorem closeStream_result (s : State) : (closeStream s).result = s.result := rfl
@[simp] theorem closeStream_timeResult (s : State) : (closeStream s).timeResult = s.timeResult := rfl
@[simp] theorem closeStream_agenda (s : State) : (closeStream s).agenda = s.agenda := rfl
@[simp] theorem closeStream_tick (s : State) : (closeStream s).tick = s.tick := rfl

/-! ## `loadPayload` -/

@[simp] theorem loadPayload_prm (k : Time) (b : List Byte) (s : State) : (loadPayload k b s).prm = s.prm := rfl
@[simp] theorem loadPayload_mode (k : Time) (b : List Byte) (s : State) : (loadPayload k b s).mode = s.mode := rfl
@[simp] theorem loadPayload_errCode (k : Time) (b : List Byte) (s : State) : (loadPayload k b s).errCode = s.errCode := rfl
@[simp] theorem loadPayload_errInfo (k : Time) (b : List Byte) (s : State) : (loadPayload k b s).errInfo = s.errInfo := rfl
@[simp] theorem loadPayload_cfgMaxSamples (k : Time) (b : List Byte) (s : State) : (loadPayload k b s).cfgMaxSamples = s.cfgMaxSamples := rfl
@[simp] theorem loadPayload_cfgSampleSize (k : Time) (b : List Byte) (s : State) : (loadPayload k b s).cfgSampleSize = s.cfgSampleSize := rfl
@[simp] theorem loadPayload_cfgHistoryMult (k : Time) (b : List Byte) (s : State) : (loadPayload k b s).cfgHistoryMult = s.cfgHistoryMult := rfl
@[simp] theorem loadPayload_cfgInitHistory (k : Time) (b : List Byte) (s : State) : (loadPayload k b s).cfgInitHistory = s.cfgInitHistory := rfl
@[simp] theorem loadPayload_cfgKModifier (k : Time) (b : List Byte) (s : State) : (loadPayload k b s).cfgKModifier = s.cfgKModifier := rfl
@[simp] theorem loadPayload_cfgChannels (k : Time) (b : List Byte) (s : State) : (loadPayload k b s).cfgChannels = s.cfgChannels := rfl
@[simp] theorem loadPayload_cfgSampleRate (k : Time) (b : List Byte) (s : State) : (loadPayload k b s).cfgSampleRate = s.cfgSampleRate := rfl
@[simp] theorem loadPayload_bcLen (k : Time) (b : List Byte) (s : State) : (loadPayload k b s).bcLen = s.bcLen := rfl
@[simp] theorem loadPayload_bcIdx (k : Time) (b : List Byte) (s : State) : (loadPayload k b s).bcIdx = s.bcIdx := rfl
@[simp] theorem loadPayload_bcAcc (k : Time) (b : List Byte) (s : State) : (loadPayload k b s).bcAcc = s.bcAcc := rfl
@[simp] theorem loadPayload_fhChan (k : Time) (b : List Byte) (s : State) : (loadPayload k b s).fhChan = s.fhChan := rfl
@[simp] theorem loadPayload_fhHasSize (k : Time) (b : List Byte) (s : State) : (loadPayload k b s).fhHasSize = s.fhHasSize := rfl
@[simp] theorem loadPayload_fhUb (k : Time) (b : List Byte) (s : State) : (loadPayload k b s).fhUb = s.fhUb := rfl
@[simp] theorem loadPayload_fhCf (k : Time) (b : List Byte) (s : State) : (loadPayload k b s).fhCf = s.fhCf := rfl
@[simp] theorem loadPayload_fhN (k : Time) (b : List Byte) (s : State) : (loadPayload k b s).fhN = s.fhN := rfl
@[simp] theorem loadPayload_fhRss (k : Time) (b : List Byte) (s : State) : (loadPayload k b s).fhRss = s.fhRss := rfl
@[simp] theorem loadPayload_fhShift (k : Time) (b : List Byte) (s : State) : (loadPayload k b s).fhShift = s.fhShift := rfl
@[simp] theorem loadPayload_fhLeftWeight (k : Time) (b : List Byte) (s : State) : (loadPayload k b s).fhLeftWeight = s.fhLeftWeight := rfl
@[simp] theorem loadPayload_chA (k : Time) (b : List Byte) (s : State) : (loadPayload k b s).chA = s.chA := rfl
@[simp] theorem loadPayload_chB (k : Time) (b : List Byte) (s : State) : (loadPayload k b s).chB = s.chB := rfl
@[simp] theorem loadPayload_rsHistory (k : Time) (b : List Byte) (s : State) : (loadPayload k b s).rsHistory = s.rsHistory := rfl
@[simp] theorem loadPayload_rsSignMod (k : Time) (b : List Byte) (s : State) : (loadPayload k b s).rsSignMod = s.rsSignMod := rfl
@[simp] theorem loadPayload_payload (k : Time) (b : List Byte) (s : State) : (loadPayload k b s).payload = Memory.writeBytes s.payload 0 b := rfl
@[simp] theorem loadPayload_pcm (k : Time) (b : List Byte) (s : State) : (loadPayload k b s).pcm = s.pcm := rfl
@[simp] theorem loadPayload_pcmLen (k : Time) (b : List Byte) (s : State) : (loadPayload k b s).pcmLen = s.pcmLen := rfl
@[simp] theorem loadPayload_jbOffset (k : Time) (b : List Byte) (s : State) : (loadPayload k b s).jbOffset = s.jbOffset := rfl
@[simp] theorem loadPayload_jbOffsetValid (k : Time) (b : List Byte) (s : State) : (loadPayload k b s).jbOffsetValid = s.jbOffsetValid := rfl
@[simp] theorem loadPayload_jbQueue (k : Time) (b : List Byte) (s : State) : (loadPayload k b s).jbQueue = s.jbQueue := rfl
@[simp] theorem loadPayload_jbWritten (k : Time) (b : List Byte) (s : State) : (loadPayload k b s).jbWritten = s.jbWritten := rfl
@[simp] theorem loadPayload_jbClosing (k : Time) (b : List Byte) (s : State) : (loadPayload k b s).jbClosing = s.jbClosing := rfl
@[simp] theorem loadPayload_lock (k : Time) (b : List Byte) (s : State) : (loadPayload k b s).lock = s.lock := rfl
@[simp] theorem loadPayload_drainAwake (k : Time) (b : List Byte) (s : State) : (loadPayload k b s).drainAwake = s.drainAwake := rfl
@[simp] theorem loadPayload_log (k : Time) (b : List Byte) (s : State) : (loadPayload k b s).log = s.log := rfl
@[simp] theorem loadPayload_sink (k : Time) (b : List Byte) (s : State) : (loadPayload k b s).sink = s.sink := rfl
@[simp] theorem loadPayload_sinkReady (k : Time) (b : List Byte) (s : State) : (loadPayload k b s).sinkReady = s.sinkReady := rfl
@[simp] theorem loadPayload_mixL (k : Time) (b : List Byte) (s : State) : (loadPayload k b s).mixL = s.mixL := rfl
@[simp] theorem loadPayload_mixR (k : Time) (b : List Byte) (s : State) : (loadPayload k b s).mixR = s.mixR := rfl
@[simp] theorem loadPayload_decKey (k : Time) (b : List Byte) (s : State) : (loadPayload k b s).decKey = k := rfl
@[simp] theorem loadPayload_decPend (k : Time) (b : List Byte) (s : State) : (loadPayload k b s).decPend = s.decPend := rfl
@[simp] theorem loadPayload_decLen (k : Time) (b : List Byte) (s : State) : (loadPayload k b s).decLen = s.decLen := rfl
@[simp] theorem loadPayload_resp (k : Time) (b : List Byte) (s : State) : (loadPayload k b s).resp = s.resp := rfl
@[simp] theorem loadPayload_result (k : Time) (b : List Byte) (s : State) : (loadPayload k b s).result = s.result := rfl
@[simp] theorem loadPayload_timeResult (k : Time) (b : List Byte) (s : State) : (loadPayload k b s).timeResult = s.timeResult := rfl
@[simp] theorem loadPayload_agenda (k : Time) (b : List Byte) (s : State) : (loadPayload k b s).agenda = s.agenda := rfl
@[simp] theorem loadPayload_tick (k : Time) (b : List Byte) (s : State) : (loadPayload k b s).tick = s.tick := rfl

/-! ## `completeFrame` -/

@[simp] theorem completeFrame_prm (s : State) : (completeFrame s).prm = s.prm := rfl
@[simp] theorem completeFrame_mode (s : State) : (completeFrame s).mode = s.mode := rfl
@[simp] theorem completeFrame_errCode (s : State) : (completeFrame s).errCode = s.errCode := rfl
@[simp] theorem completeFrame_errInfo (s : State) : (completeFrame s).errInfo = s.errInfo := rfl
@[simp] theorem completeFrame_cfgMaxSamples (s : State) : (completeFrame s).cfgMaxSamples = s.cfgMaxSamples := rfl
@[simp] theorem completeFrame_cfgSampleSize (s : State) : (completeFrame s).cfgSampleSize = s.cfgSampleSize := rfl
@[simp] theorem completeFrame_cfgHistoryMult (s : State) : (completeFrame s).cfgHistoryMult = s.cfgHistoryMult := rfl
@[simp] theorem completeFrame_cfgInitHistory (s : State) : (completeFrame s).cfgInitHistory = s.cfgInitHistory := rfl
@[simp] theorem completeFrame_cfgKModifier (s : State) : (completeFrame s).cfgKModifier = s.cfgKModifier := rfl
@[simp] theorem completeFrame_cfgChannels (s : State) : (completeFrame s).cfgChannels = s.cfgChannels := rfl
@[simp] theorem completeFrame_cfgSampleRate (s : State) : (completeFrame s).cfgSampleRate = s.cfgSampleRate := rfl
@[simp] theorem completeFrame_bcLen (s : State) : (completeFrame s).bcLen = s.bcLen := rfl
@[simp] theorem completeFrame_bcIdx (s : State) : (completeFrame s).bcIdx = s.bcIdx := rfl
@[simp] theorem completeFrame_bcAcc (s : State) : (completeFrame s).bcAcc = s.bcAcc := rfl
@[simp] theorem completeFrame_fhChan (s : State) : (completeFrame s).fhChan = s.fhChan := rfl
@[simp] theorem completeFrame_fhHasSize (s : State) : (completeFrame s).fhHasSize = s.fhHasSize := rfl
@[simp] theorem completeFrame_fhUb (s : State) : (completeFrame s).fhUb = s.fhUb := rfl
@[simp] theorem completeFrame_fhCf (s : State) : (completeFrame s).fhCf = s.fhCf := rfl
@[simp] theorem completeFrame_fhN (s : State) : (completeFrame s).fhN = s.fhN := rfl
@[simp] theorem completeFrame_fhRss (s : State) : (completeFrame s).fhRss = s.fhRss := rfl
@[simp] theorem completeFrame_fhShift (s : State) : (completeFrame s).fhShift = s.fhShift := rfl
@[simp] theorem completeFrame_fhLeftWeight (s : State) : (completeFrame s).fhLeftWeight = s.fhLeftWeight := rfl
@[simp] theorem completeFrame_chA (s : State) : (completeFrame s).chA = s.chA := rfl
@[simp] theorem completeFrame_chB (s : State) : (completeFrame s).chB = s.chB := rfl
@[simp] theorem completeFrame_rsHistory (s : State) : (completeFrame s).rsHistory = s.rsHistory := rfl
@[simp] theorem completeFrame_rsSignMod (s : State) : (completeFrame s).rsSignMod = s.rsSignMod := rfl
@[simp] theorem completeFrame_payload (s : State) : (completeFrame s).payload = s.payload := rfl
@[simp] theorem completeFrame_pcm (s : State) : (completeFrame s).pcm = s.pcm := rfl
@[simp] theorem completeFrame_pcmLen (s : State) : (completeFrame s).pcmLen = s.word32 (s.fhN.toNat * bytesPerFrame s) := rfl
@[simp] theorem completeFrame_jbOffset (s : State) : (completeFrame s).jbOffset = s.jbOffset := rfl
@[simp] theorem completeFrame_jbOffsetValid (s : State) : (completeFrame s).jbOffsetValid = s.jbOffsetValid := rfl
@[simp] theorem completeFrame_jbQueue (s : State) : (completeFrame s).jbQueue = s.jbQueue := rfl
@[simp] theorem completeFrame_jbWritten (s : State) : (completeFrame s).jbWritten = s.jbWritten := rfl
@[simp] theorem completeFrame_jbClosing (s : State) : (completeFrame s).jbClosing = s.jbClosing := rfl
@[simp] theorem completeFrame_lock (s : State) : (completeFrame s).lock = s.lock := rfl
@[simp] theorem completeFrame_drainAwake (s : State) : (completeFrame s).drainAwake = s.drainAwake := rfl
@[simp] theorem completeFrame_log (s : State) : (completeFrame s).log = s.log := rfl
@[simp] theorem completeFrame_sink (s : State) : (completeFrame s).sink = s.sink := rfl
@[simp] theorem completeFrame_sinkReady (s : State) : (completeFrame s).sinkReady = s.sinkReady := rfl
@[simp] theorem completeFrame_mixL (s : State) : (completeFrame s).mixL = s.mixL := rfl
@[simp] theorem completeFrame_mixR (s : State) : (completeFrame s).mixR = s.mixR := rfl
@[simp] theorem completeFrame_decKey (s : State) : (completeFrame s).decKey = s.decKey := rfl
@[simp] theorem completeFrame_decPend (s : State) : (completeFrame s).decPend = (s.fhN != 0) := rfl
@[simp] theorem completeFrame_decLen (s : State) : (completeFrame s).decLen = s.fhN.toNat * bytesPerFrame s := rfl
@[simp] theorem completeFrame_resp (s : State) : (completeFrame s).resp = s.resp := rfl
@[simp] theorem completeFrame_result (s : State) : (completeFrame s).result = s.result := rfl
@[simp] theorem completeFrame_timeResult (s : State) : (completeFrame s).timeResult = s.timeResult := rfl
@[simp] theorem completeFrame_agenda (s : State) : (completeFrame s).agenda = s.agenda := rfl
@[simp] theorem completeFrame_tick (s : State) : (completeFrame s).tick = s.tick := rfl

/-! ## `State.setChan` -/

@[simp] theorem State.setChan_prm (s : State) (c : Chan) (r : ChanRegs) : (s.setChan c r).prm = s.prm := by
  cases c <;> rfl
@[simp] theorem State.setChan_mode (s : State) (c : Chan) (r : ChanRegs) : (s.setChan c r).mode = s.mode := by
  cases c <;> rfl
@[simp] theorem State.setChan_errCode (s : State) (c : Chan) (r : ChanRegs) : (s.setChan c r).errCode = s.errCode := by
  cases c <;> rfl
@[simp] theorem State.setChan_errInfo (s : State) (c : Chan) (r : ChanRegs) : (s.setChan c r).errInfo = s.errInfo := by
  cases c <;> rfl
@[simp] theorem State.setChan_cfgMaxSamples (s : State) (c : Chan) (r : ChanRegs) : (s.setChan c r).cfgMaxSamples = s.cfgMaxSamples := by
  cases c <;> rfl
@[simp] theorem State.setChan_cfgSampleSize (s : State) (c : Chan) (r : ChanRegs) : (s.setChan c r).cfgSampleSize = s.cfgSampleSize := by
  cases c <;> rfl
@[simp] theorem State.setChan_cfgHistoryMult (s : State) (c : Chan) (r : ChanRegs) : (s.setChan c r).cfgHistoryMult = s.cfgHistoryMult := by
  cases c <;> rfl
@[simp] theorem State.setChan_cfgInitHistory (s : State) (c : Chan) (r : ChanRegs) : (s.setChan c r).cfgInitHistory = s.cfgInitHistory := by
  cases c <;> rfl
@[simp] theorem State.setChan_cfgKModifier (s : State) (c : Chan) (r : ChanRegs) : (s.setChan c r).cfgKModifier = s.cfgKModifier := by
  cases c <;> rfl
@[simp] theorem State.setChan_cfgChannels (s : State) (c : Chan) (r : ChanRegs) : (s.setChan c r).cfgChannels = s.cfgChannels := by
  cases c <;> rfl
@[simp] theorem State.setChan_cfgSampleRate (s : State) (c : Chan) (r : ChanRegs) : (s.setChan c r).cfgSampleRate = s.cfgSampleRate := by
  cases c <;> rfl
@[simp] theorem State.setChan_bcLen (s : State) (c : Chan) (r : ChanRegs) : (s.setChan c r).bcLen = s.bcLen := by
  cases c <;> rfl
@[simp] theorem State.setChan_bcIdx (s : State) (c : Chan) (r : ChanRegs) : (s.setChan c r).bcIdx = s.bcIdx := by
  cases c <;> rfl
@[simp] theorem State.setChan_bcAcc (s : State) (c : Chan) (r : ChanRegs) : (s.setChan c r).bcAcc = s.bcAcc := by
  cases c <;> rfl
@[simp] theorem State.setChan_fhChan (s : State) (c : Chan) (r : ChanRegs) : (s.setChan c r).fhChan = s.fhChan := by
  cases c <;> rfl
@[simp] theorem State.setChan_fhHasSize (s : State) (c : Chan) (r : ChanRegs) : (s.setChan c r).fhHasSize = s.fhHasSize := by
  cases c <;> rfl
@[simp] theorem State.setChan_fhUb (s : State) (c : Chan) (r : ChanRegs) : (s.setChan c r).fhUb = s.fhUb := by
  cases c <;> rfl
@[simp] theorem State.setChan_fhCf (s : State) (c : Chan) (r : ChanRegs) : (s.setChan c r).fhCf = s.fhCf := by
  cases c <;> rfl
@[simp] theorem State.setChan_fhN (s : State) (c : Chan) (r : ChanRegs) : (s.setChan c r).fhN = s.fhN := by
  cases c <;> rfl
@[simp] theorem State.setChan_fhRss (s : State) (c : Chan) (r : ChanRegs) : (s.setChan c r).fhRss = s.fhRss := by
  cases c <;> rfl
@[simp] theorem State.setChan_fhShift (s : State) (c : Chan) (r : ChanRegs) : (s.setChan c r).fhShift = s.fhShift := by
  cases c <;> rfl
@[simp] theorem State.setChan_fhLeftWeight (s : State) (c : Chan) (r : ChanRegs) : (s.setChan c r).fhLeftWeight = s.fhLeftWeight := by
  cases c <;> rfl
@[simp] theorem State.setChan_rsHistory (s : State) (c : Chan) (r : ChanRegs) : (s.setChan c r).rsHistory = s.rsHistory := by
  cases c <;> rfl
@[simp] theorem State.setChan_rsSignMod (s : State) (c : Chan) (r : ChanRegs) : (s.setChan c r).rsSignMod = s.rsSignMod := by
  cases c <;> rfl
@[simp] theorem State.setChan_payload (s : State) (c : Chan) (r : ChanRegs) : (s.setChan c r).payload = s.payload := by
  cases c <;> rfl
@[simp] theorem State.setChan_pcm (s : State) (c : Chan) (r : ChanRegs) : (s.setChan c r).pcm = s.pcm := by
  cases c <;> rfl
@[simp] theorem State.setChan_pcmLen (s : State) (c : Chan) (r : ChanRegs) : (s.setChan c r).pcmLen = s.pcmLen := by
  cases c <;> rfl
@[simp] theorem State.setChan_jbOffset (s : State) (c : Chan) (r : ChanRegs) : (s.setChan c r).jbOffset = s.jbOffset := by
  cases c <;> rfl
@[simp] theorem State.setChan_jbOffsetValid (s : State) (c : Chan) (r : ChanRegs) : (s.setChan c r).jbOffsetValid = s.jbOffsetValid := by
  cases c <;> rfl
@[simp] theorem State.setChan_jbQueue (s : State) (c : Chan) (r : ChanRegs) : (s.setChan c r).jbQueue = s.jbQueue := by
  cases c <;> rfl
@[simp] theorem State.setChan_jbWritten (s : State) (c : Chan) (r : ChanRegs) : (s.setChan c r).jbWritten = s.jbWritten := by
  cases c <;> rfl
@[simp] theorem State.setChan_jbClosing (s : State) (c : Chan) (r : ChanRegs) : (s.setChan c r).jbClosing = s.jbClosing := by
  cases c <;> rfl
@[simp] theorem State.setChan_lock (s : State) (c : Chan) (r : ChanRegs) : (s.setChan c r).lock = s.lock := by
  cases c <;> rfl
@[simp] theorem State.setChan_drainAwake (s : State) (c : Chan) (r : ChanRegs) : (s.setChan c r).drainAwake = s.drainAwake := by
  cases c <;> rfl
@[simp] theorem State.setChan_log (s : State) (c : Chan) (r : ChanRegs) : (s.setChan c r).log = s.log := by
  cases c <;> rfl
@[simp] theorem State.setChan_sink (s : State) (c : Chan) (r : ChanRegs) : (s.setChan c r).sink = s.sink := by
  cases c <;> rfl
@[simp] theorem State.setChan_sinkReady (s : State) (c : Chan) (r : ChanRegs) : (s.setChan c r).sinkReady = s.sinkReady := by
  cases c <;> rfl
@[simp] theorem State.setChan_mixL (s : State) (c : Chan) (r : ChanRegs) : (s.setChan c r).mixL = s.mixL := by
  cases c <;> rfl
@[simp] theorem State.setChan_mixR (s : State) (c : Chan) (r : ChanRegs) : (s.setChan c r).mixR = s.mixR := by
  cases c <;> rfl
@[simp] theorem State.setChan_decKey (s : State) (c : Chan) (r : ChanRegs) : (s.setChan c r).decKey = s.decKey := by
  cases c <;> rfl
@[simp] theorem State.setChan_decPend (s : State) (c : Chan) (r : ChanRegs) : (s.setChan c r).decPend = s.decPend := by
  cases c <;> rfl
@[simp] theorem State.setChan_decLen (s : State) (c : Chan) (r : ChanRegs) : (s.setChan c r).decLen = s.decLen := by
  cases c <;> rfl
@[simp] theorem State.setChan_resp (s : State) (c : Chan) (r : ChanRegs) : (s.setChan c r).resp = s.resp := by
  cases c <;> rfl
@[simp] theorem State.setChan_result (s : State) (c : Chan) (r : ChanRegs) : (s.setChan c r).result = s.result := by
  cases c <;> rfl
@[simp] theorem State.setChan_timeResult (s : State) (c : Chan) (r : ChanRegs) : (s.setChan c r).timeResult = s.timeResult := by
  cases c <;> rfl
@[simp] theorem State.setChan_agenda (s : State) (c : Chan) (r : ChanRegs) : (s.setChan c r).agenda = s.agenda := by
  cases c <;> rfl
@[simp] theorem State.setChan_tick (s : State) (c : Chan) (r : ChanRegs) : (s.setChan c r).tick = s.tick := by
  cases c <;> rfl

@[simp] theorem State.chan_setChan (s : State) (c : Chan) (r : ChanRegs) : (s.setChan c r).chan c = r := by
  cases c <;> rfl

theorem State.chan_setChan_other (s : State) (c d : Chan) (r : ChanRegs) (h : d ≠ c) :
    (s.setChan c r).chan d = s.chan d := by
  cases c <;> cases d <;> first | rfl | exact absurd rfl h

@[simp] theorem State.setChan_chan (s : State) (c : Chan) : s.setChan c (s.chan c) = s := by
  cases c <;> rfl

@[simp] theorem State.setChan_setChan (s : State) (c : Chan) (r r' : ChanRegs) :
    (s.setChan c r).setChan c r' = s.setChan c r' := by
  cases c <;> rfl

@[simp] theorem State.chan_setPos (s : State) (c : Chan) (p : Nat) : (s.setPos p).chan c = s.chan c := by
  cases c <;> rfl

theorem State.setPos_setChan (s : State) (c : Chan) (r : ChanRegs) (p : Nat) :
    (s.setChan c r).setPos p = (s.setPos p).setChan c r := by
  cases c <;> rfl

/-! ## The cursor's position -/

@[simp] theorem State.setPos_setPos (s : State) (p q : Nat) : (s.setPos p).setPos q = s.setPos q := rfl

@[simp] theorem State.setChan_pos (s : State) (c : Chan) (r : ChanRegs) : (s.setChan c r).pos = s.pos := by
  cases c <;> rfl

/-- POS holds what was written to it, wherever the byte index fits its register. -/
theorem State.pos_setPos (s : State) (p : Nat) (h : p < 2 ^ 35) : (s.setPos p).pos = p := by
  have hd : p / 8 < 2 ^ 32 := by omega
  simp only [State.pos, State.setPos_bcIdx, State.setPos_bcAcc, BitVec.toNat_ofNat]
  rw [Nat.mod_eq_of_lt hd, Nat.mod_eq_of_lt (by omega : p % 8 < 2 ^ 3)]
  omega

/-- POS is a 35-bit quantity (R24). -/
theorem State.pos_lt (s : State) : s.pos < 2 ^ 35 := by
  have h1 := s.bcIdx.isLt
  have h2 := s.bcAcc.isLt
  simp only [State.pos]
  omega

@[simp] theorem State.setPos_pos_self (s : State) : s.setPos s.pos = s := by
  have h1 := s.bcIdx.isLt
  have h2 := s.bcAcc.isLt
  have e1 : BitVec.ofNat 32 (s.pos / 8) = s.bcIdx := by
    apply BitVec.eq_of_toNat_eq
    simp only [State.pos, BitVec.toNat_ofNat]
    omega
  have e2 : BitVec.ofNat 3 (s.pos % 8) = s.bcAcc := by
    apply BitVec.eq_of_toNat_eq
    simp only [State.pos, BitVec.toNat_ofNat]
    omega
  simp only [State.setPos, e1, e2]

/-! ## Derived values that an update keeps -/

/-- A number that fits its 32-bit register is what the register holds. -/
theorem State.word32_fits (s : State) (n : Nat) (h : n < 2 ^ 32) : s.word32 n = BitVec.ofNat 32 n := if_pos h

theorem State.toNat_word32 (s : State) (n : Nat) (h : n < 2 ^ 32) : (s.word32 n).toNat = n := by
  rw [State.word32_fits s n h, BitVec.toNat_ofNat, Nat.mod_eq_of_lt h]

@[simp] theorem State.setPos_word32 (s : State) (p n : Nat) : (s.setPos p).word32 n = s.word32 n := rfl

/-- `sext` and `asr` in the ranges of R10. -/
theorem sext_in (n : Nat) (v : Word) (h : 1 ≤ n ∧ n ≤ 32) : sext n v = (v.setWidth n).signExtend 32 := if_pos h

theorem asr_in (v : Word) (n : Nat) (h : n ≤ 31) : asr v n = v.sshiftRight n := if_pos h

@[simp] theorem State.setPos_time (s : State) (p : Nat) (x : Int) : (s.setPos p).time x = s.time x := rfl

/-- A time that 64 bits hold is exact (R261). -/
theorem State.time_fits (s : State) (x : Int) (h : -(2 ^ 63) ≤ x ∧ x < 2 ^ 63) : (s.time x).toInt = x := by
  simp only [State.time, if_pos h]
  rw [BitVec.toInt_ofInt]
  exact Int.bmod_eq_of_le (by omega) (by omega)

end Sys2Proof.Machine
end

