-- ==== Sys2Proof/Laws/Ops.lean ====
section
/-! SUPPORT. What each shared operation can do, said once: later proofs cite these and do not unfold the
operations. -/

namespace Sys2Proof.Machine

/-! ## Steps inside an operation -/

section
variable {α β γ : Type}

@[simp] theorem Res.bind_ok (v : α) (s : State) (k : α → State → Res β) : (Res.ok v s).bind k = k v s := rfl

@[simp] theorem Res.bind_raised (s : State) (k : α → State → Res β) : (Res.raised s).bind k = .raised s := rfl

@[simp] theorem Res.bind_stuck (f : Fault) (k : α → State → Res β) : (Res.stuck f).bind k = .stuck f := rfl

theorem Res.bind_assoc (r : Res α) (k : α → State → Res β) (l : β → State → Res γ) :
    (r.bind k).bind l = r.bind fun v s => (k v s).bind l := by
  cases r <;> rfl

/-- A sequence succeeds exactly when both steps do. -/
theorem Res.bind_eq_ok {r : Res α} {k : α → State → Res β} {v : β} {s : State} :
    r.bind k = .ok v s ↔ ∃ u t, r = .ok u t ∧ k u t = .ok v s := by
  cases r <;> simp

/-- A sequence raises when its first step does, or its second after a successful first. -/
theorem Res.bind_eq_raised {r : Res α} {k : α → State → Res β} {s : State} :
    r.bind k = .raised s ↔ r = .raised s ∨ ∃ u t, r = .ok u t ∧ k u t = .raised s := by
  cases r <;> simp

@[simp] theorem Res.outcome_ok (v : α) (s : State) (d : α → State → State) :
    (Res.ok v s).outcome d = .next (d v s) := rfl

@[simp] theorem Res.outcome_raised (s : State) (d : α → State → State) :
    (Res.raised s : Res α).outcome d = .next s := rfl

@[simp] theorem Res.outcome_stuck (f : Fault) (d : α → State → State) :
    (Res.stuck f : Res α).outcome d = .fault f := rfl

/-- An operation answers a next state when its last step succeeds or raises. -/
theorem Res.outcome_eq_next {r : Res α} {d : α → State → State} {t : State} :
    r.outcome d = .next t ↔ (∃ v s, r = .ok v s ∧ d v s = t) ∨ r = .raised t := by
  cases r <;> simp [Res.outcome]

end

@[simp] theorem forRes_zero (body : Nat → State → Res Unit) (s : State) : forRes 0 body s = .ok () s := rfl

theorem forRes_succ (n : Nat) (body : Nat → State → Res Unit) (s : State) :
    forRes (n + 1) body s = (forRes n body s).bind fun _ s' => body n s' := rfl

@[simp] theorem eachChan_nil (body : Chan → State → Res Unit) (s : State) : eachChan [] body s = .ok () s := rfl

@[simp] theorem eachChan_cons (c : Chan) (cs : List Chan) (body : Chan → State → Res Unit) (s : State) :
    eachChan (c :: cs) body s = (body c s).bind fun _ s' => eachChan cs body s' := rfl

@[simp] theorem forN_zero {σ : Type} (body : Nat → σ → σ) (x : σ) : forN 0 body x = x := rfl

theorem forN_succ {σ : Type} (n : Nat) (body : Nat → σ → σ) (x : σ) :
    forN (n + 1) body x = body n (forN n body x) := rfl

/-- A loop whose turns keep a property keeps it. -/
theorem forN_keeps {σ : Type} (P : σ → Prop) (n : Nat) (body : Nat → σ → σ) (x : σ) (h : P x)
    (hb : ∀ i < n, ∀ y, P y → P (body i y)) : P (forN n body x) := by
  induction n with
  | zero => exact h
  | succ n ih => exact hb n (Nat.lt_succ_self n) _ (ih fun i hi => hb i (Nat.lt_succ_of_lt hi))

/-- A loop that writes one entry a turn, at a + i, from values it does not change. -/
theorem read_forN_write {w : Nat} (n a : Nat) (g : Nat → BitVec w) (f : File w) (j : Nat) :
    File.read (forN n (fun i f => File.write f (a + i) (g i)) f) j =
      if a ≤ j ∧ j < a + n then g (j - a) else File.read f j := by
  induction n with
  | zero =>
    rw [if_neg (by omega)]
    rfl
  | succ n ih =>
    rw [forN_succ, File.read_write, ih]
    by_cases h : j = a + n
    · subst h
      rw [if_pos rfl, if_pos (by omega)]
      congr 1
      omega
    · rw [if_neg h]
      by_cases h2 : a ≤ j ∧ j < a + n
      · rw [if_pos h2, if_pos (by omega)]
      · rw [if_neg h2, if_neg (by omega)]

/-! ## Taking a DecodeError -/

/-- R330 where it can happen: in READY, with no error on record (R21, R22). -/
theorem raise_faultReady {α : Type} (e : Cause) (info : Word) (s : State) (h : faultReady s = true) :
    (raise e info s : Res α) = .raised (afterFault e.code info s) := by
  simp only [faultReady, Bool.and_eq_true, beq_iff_eq] at h
  rw [raise, if_pos h.1]
  simp [faultEntry, logEvent, afterFault, h.2]

/-- Everything a raise can do. -/
theorem raise_cases {α : Type} (e : Cause) (info : Word) (s : State) :
    (s.mode = .ready ∧ (raise e info s : Res α) = .raised (faultEntry e info s)) ∨
      (s.mode ≠ .ready ∧ (raise e info s : Res α) = .stuck .raiseOutsideReady) := by
  by_cases h : s.mode = .ready
  · exact .inl ⟨h, if_pos h⟩
  · exact .inr ⟨h, if_neg h⟩

/-! ## The bit cursor -/

/-- `readBits` where its bits are there: their number, and POS past them (R131). -/
theorem readBits_ok (s : State) (bits : List Bool) (h1 : 1 ≤ bits.length) (h2 : bits.length ≤ 32)
    (h : holdsBits s bits = true) :
    readBits bits.length s = .ok (BitVec.ofNat 32 (natOfBits bits)) (s.setPos (s.pos + bits.length)) := by
  simp only [holdsBits, holdsBitsAt, Bool.and_eq_true, decide_eq_true_eq, beq_iff_eq] at h
  rw [readBits, if_neg (by omega), if_neg (by omega)]
  simp [memRead, h.2]

/-- Everything `readBits` can do (R131, R322; U11, log 17). -/
theorem readBits_cases (n : Nat) (s : State) :
    (1 ≤ n ∧ n ≤ 32 ∧ s.pos + n ≤ 8 * s.bcLen.toNat ∧
      ∃ bits, payloadBits s.payload s.pos n = some bits ∧
        readBits n s = .ok (BitVec.ofNat 32 (natOfBits bits)) (s.setPos (s.pos + n))) ∨
    (1 ≤ n ∧ n ≤ 32 ∧ 8 * s.bcLen.toNat < s.pos + n ∧
      readBits n s = raise .truncated (s.word32 s.pos) s) ∨
    (1 ≤ n ∧ n ≤ 32 ∧ s.pos + n ≤ 8 * s.bcLen.toNat ∧ payloadBits s.payload s.pos n = none ∧
      readBits n s = .stuck .noSuchByte) ∨
    ((n < 1 ∨ 32 < n) ∧ readBits n s = .stuck .readWidth) := by
  unfold readBits
  by_cases hw : n < 1 ∨ 32 < n
  · exact .inr (.inr (.inr ⟨hw, if_pos hw⟩))
  · rw [if_neg hw]
    by_cases hb : 8 * s.bcLen.toNat < s.pos + n
    · exact .inr (.inl ⟨by omega, by omega, hb, if_pos hb⟩)
    · rw [if_neg hb]
      cases hp : payloadBits s.payload s.pos n with
      | none => exact .inr (.inr (.inl ⟨by omega, by omega, by omega, rfl, by simp [memRead, hp]⟩))
      | some bits => exact .inl ⟨by omega, by omega, by omega, bits, rfl, by simp [memRead, hp]⟩

/-- Everything `unreadBits` can do (R133). -/
theorem unreadBits_cases (n : Nat) (s : State) :
    (n ≤ s.pos ∧ unreadBits n s = .ok () (s.setPos (s.pos - n))) ∨
      (s.pos < n ∧ unreadBits n s = .stuck .cursorBelowZero) := by
  unfold unreadBits
  by_cases h : s.pos < n
  · exact .inr ⟨h, if_pos h⟩
  · exact .inl ⟨by omega, if_neg h⟩

/-! ## The sample buffers -/

/-- Everything the bound of the sample buffers can do (R28). -/
theorem withinBuffers_cases (s : State) (go : Res Unit) :
    (s.fhN.toNat ≤ s.prm.bufSamples ∧ withinBuffers s go = go) ∨
      (s.prm.bufSamples < s.fhN.toNat ∧ withinBuffers s go = .stuck .noSuchEntry) := by
  unfold withinBuffers
  by_cases h : s.prm.bufSamples < s.fhN.toNat
  · exact .inr ⟨h, if_pos h⟩
  · exact .inl ⟨by omega, if_neg h⟩

/-- ORDER alone selects the predictor's mode (R180, R189). -/
theorem lpFir_cases (c : Chan) (order : BitVec 5) (s : State) :
    (order = 0 ∧ lpFir c order s = lpCopy c s) ∨ (order = 31 ∧ lpFir c order s = lpDiff c s) ∨
      (order ≠ 0 ∧ order ≠ 31 ∧ lpFir c order s =
        withinBuffers s (.ok ()
          (s.setChan c (predictFir s.prm.profile.coefW s.fhN.toNat s.fhRss.toNat order.toNat
            (s.chan c).quant.toNat (s.chan c))))) := by
  unfold lpFir
  by_cases h0 : order = 0
  · exact .inl ⟨h0, if_pos h0⟩
  · by_cases h1 : order = 31
    · exact .inr (.inl ⟨h1, by rw [if_neg h0, if_pos h1]⟩)
    · exact .inr (.inr ⟨h0, h1, by rw [if_neg h0, if_neg h1]⟩)

/-! ## The stream lock -/

@[simp] theorem underLock_free (s : State) (go : Outcome) (h : s.lock = false) : underLock s go = go := by
  simp [underLock, h]

/-- A locked transition answers a next state only if it ran, or waited. -/
theorem underLock_eq_next {s t : State} {go : Outcome} :
    underLock s go = .next t ↔ (s.lock = true ∧ t = s) ∨ (s.lock = false ∧ go = .next t) := by
  cases h : s.lock <;> simp [underLock, h, eq_comm]

/-! ## Emission -/

/-- Silence of f frames, where the line's time stays in range (R275). -/
theorem emitSilence_eq (s : State) (f : Nat) (hb : 0 < bytesPerFrame s)
    (ht : timeFits (s.jbWritten.toInt + f)) :
    emitSilence f s =
      { s with
        sink := s.sink ++ List.replicate (f * bytesPerFrame s) 0
        jbWritten := BitVec.ofInt 64 (s.jbWritten.toInt + f) } := by
  have hf : framesOf s (List.replicate (f * bytesPerFrame s) (0 : Byte)) = f := by
    simp only [framesOf, List.length_replicate]
    exact Nat.mul_div_cancel f hb
  unfold emitSilence emit
  rw [hf, State.time, if_pos ht]

/-! ## The queue -/

/-- Everything an insertion can do (R267 to R269). -/
theorem admit_cases (key : Time) (bytes : List Byte) (s : State) :
    (∃ old, Queue.find s.jbQueue key = some old ∧
      admitEntry key bytes s =
        { s with
          jbQueue := Queue.put s.jbQueue key bytes
          log := s.log ++ [.replaced key]
          resp := .status .ok }) ∨
    (Queue.find s.jbQueue key = none ∧ s.jbQueue.length = s.prm.jbCapacity ∧
      admitEntry key bytes s = { s with log := s.log ++ [.dropFull key], resp := .status .dropped }) ∨
    (Queue.find s.jbQueue key = none ∧ s.jbQueue.length ≠ s.prm.jbCapacity ∧
      admitEntry key bytes s =
        { s with
          jbQueue := Queue.put s.jbQueue key bytes
          drainAwake := true
          resp := .status .ok }) := by
  unfold admitEntry
  cases h : Queue.find s.jbQueue key with
  | some old => exact .inl ⟨old, rfl, rfl⟩
  | none =>
    by_cases hc : s.jbQueue.length = s.prm.jbCapacity
    · exact .inr (.inl ⟨rfl, hc, if_pos hc⟩)
    · exact .inr (.inr ⟨rfl, hc, if_neg hc⟩)

/-- Everything an enqueue can do (R264 to R269). -/
theorem enqueue_cases (key : Time) (bytes : List Byte) (s : State) :
    (s.jbClosing = true ∧ enqueue key bytes s = respond .badMode s) ∨
    (s.jbClosing = false ∧ s.jbOffsetValid = true ∧
      (entryEnd s key (framesOf s bytes)).toInt ≤ s.jbWritten.toInt ∧
      enqueue key bytes s = respond .dropped (logEvent (.dropLate key) s)) ∨
    (s.jbClosing = false ∧ s.jbOffsetValid = true ∧
      (s.prm.jbHorizon : Int) < (entryLead s key (framesOf s bytes)).toInt ∧
      enqueue key bytes s = respond .dropped (logEvent (.dropEarly key) s)) ∨
    (s.jbClosing = false ∧ enqueue key bytes s = admitEntry key bytes s) := by
  unfold enqueue
  by_cases hc : s.jbClosing = true
  · exact .inl ⟨hc, if_pos hc⟩
  · have hf : s.jbClosing = false := by simpa using hc
    rw [if_neg hc]
    split
    · rename_i h
      rw [Bool.and_eq_true, decide_eq_true_eq] at h
      exact .inr (.inl ⟨hf, h.1, h.2, rfl⟩)
    · split
      · rename_i h
        rw [Bool.and_eq_true, decide_eq_true_eq] at h
        exact .inr (.inr (.inl ⟨hf, h.1, h.2, rfl⟩))
      · exact .inr (.inr (.inr ⟨hf, rfl⟩))

/-- Everything an enqueue that checks its bytes can do (R264, R265, R303). -/
theorem checkedEnqueue_cases (key : Time) (bytes : List Byte) (s : State) :
    (s.jbClosing = true ∧ checkedEnqueue key bytes s = respond .badMode s) ∨
    (s.jbClosing = false ∧ enqueueBytesOk s bytes = true ∧
      checkedEnqueue key bytes s = enqueue key bytes s) ∨
    (s.jbClosing = false ∧ enqueueBytesOk s bytes = false ∧
      checkedEnqueue key bytes s = respond .badArgument s) := by
  unfold checkedEnqueue
  cases hc : s.jbClosing
  · cases hb : enqueueBytesOk s bytes
    · exact .inr (.inr ⟨rfl, rfl, rfl⟩)
    · exact .inr (.inl ⟨rfl, rfl, rfl⟩)
  · exact .inl ⟨rfl, by simp [enqueue, hc]⟩

/-- Everything the admission of a frame can do (R300, R332; log 9, log 39). -/
theorem admitFrame_cases (s : State) (go : Outcome) :
    (s.mode ≠ .ready ∧ admitFrame s go = .next (respond .badMode s)) ∨
    (s.mode = .ready ∧ s.decPend = true ∧ admitFrame s go = .refused .overlappingDecode) ∨
    (s.mode = .ready ∧ s.decPend = false ∧ admitFrame s go = go) := by
  unfold admitFrame
  by_cases hm : s.mode = .ready
  · rw [if_neg (not_not.mpr hm)]
    cases hp : s.decPend
    · exact .inr (.inr ⟨hm, rfl, rfl⟩)
    · exact .inr (.inl ⟨hm, rfl, rfl⟩)
  · exact .inl ⟨hm, if_pos hm⟩

/-- JB.ENQ waits for the lock and otherwise answers a next state (R72, R264). -/
theorem execJbEnq_eq (key : Time) (bytes : List Byte) (s : State) :
    execJbEnq key bytes s = .next (if s.lock then s else checkedEnqueue key bytes s) := by
  unfold execJbEnq underLock
  split <;> rfl

/-! ## Drain -/

/-- DRAIN's step is one of the five, and the queue says which kind (R270). -/
theorem drainStep_cases (s : State) :
    (s.jbQueue = [] ∧ drainStep s = .jbDrainIdle) ∨
      ∃ key bytes rest, s.jbQueue = (key, bytes) :: rest ∧
        (drainStep s = .jbDrainGap ∨ drainStep s = .jbDrainEmit ∨ drainStep s = .jbDrainTrunc ∨
          drainStep s = .jbDrainSkip) := by
  unfold drainStep
  cases h : s.jbQueue with
  | nil => exact .inl ⟨rfl, rfl⟩
  | cons e rest =>
    obtain ⟨key, bytes⟩ := e
    refine .inr ⟨key, bytes, rest, rfl, ?_⟩
    simp only
    split
    · exact .inl rfl
    · split
      · exact .inr (.inl rfl)
      · split
        · exact .inr (.inr (.inl rfl))
        · exact .inr (.inr (.inr rfl))

end Sys2Proof.Machine
end

