-- ==== Sys2Proof/Laws/PerInstr.lean ====
section
/-! SUPPORT. The family `EncodedWidth`: for each operation, the number of bits its encoding takes is the
width its format gives it in the opcode table. -/

namespace Sys2Proof.Laws

/-- The widths of the formats: a command word has its 4-bit code and its operands, a code word one bit at
least, the other formats a fixed number of bits. -/
def EncodedWidth.fits (i : Instr) (width : Nat) : Prop :=
  match i.source with
  | .host => 4 ≤ width
  | .frame => width = 23
  | .header => width = 23
  | .chhdr _ => width = 16
  | .rice _ _ _ => 1 ≤ width
  | .order _ => width = 5
  | .mix => width = 16
  | .call _ => width = 0

/-- The encoding of the operation has a width that its format has. -/
def EncodedWidth.Statement (i : Instr) : Prop := EncodedWidth.fits i (encode i).length

/-- Of every operation at once; the lemmas below are its cases. -/
theorem EncodedWidth.holds (i : Instr) : EncodedWidth.Statement i := by
  cases i <;> simp [EncodedWidth.Statement, EncodedWidth.fits, Instr.source, encode, headerBits,
    Config.riceThreshold]

theorem EncodedWidth.bcInit (len : Word) : EncodedWidth.Statement (.bcInit len) := EncodedWidth.holds _

theorem EncodedWidth.bcRead (n : Nat) : EncodedWidth.Statement (.bcRead n) := EncodedWidth.holds _

theorem EncodedWidth.bcUnread (n : Nat) : EncodedWidth.Statement (.bcUnread n) := EncodedWidth.holds _

theorem EncodedWidth.bcClz (v : Word) : EncodedWidth.Statement (.bcClz v) := EncodedWidth.holds _

theorem EncodedWidth.rdValueEsc (n : Nat) (k : Int) (mask : Word) : EncodedWidth.Statement (.rdValueEsc n k mask) := EncodedWidth.holds _

theorem EncodedWidth.rdValueUnary (n : Nat) (k : Int) (mask : Word) : EncodedWidth.Statement (.rdValueUnary n k mask) := EncodedWidth.holds _

theorem EncodedWidth.rdValueShort (n : Nat) (k : Int) (mask : Word) : EncodedWidth.Statement (.rdValueShort n k mask) := EncodedWidth.holds _

theorem EncodedWidth.rdValueLong (n : Nat) (k : Int) (mask : Word) : EncodedWidth.Statement (.rdValueLong n k mask) := EncodedWidth.holds _

theorem EncodedWidth.rdStream (c : Chan) (o : RiceOperands) : EncodedWidth.Statement (.rdStream c o) := EncodedWidth.holds _

theorem EncodedWidth.rdSample (c : Chan) (i : Nat) (o : RiceOperands) : EncodedWidth.Statement (.rdSample c i o) := EncodedWidth.holds _

theorem EncodedWidth.rdRun (c : Chan) (i : Nat) (o : RiceOperands) : EncodedWidth.Statement (.rdRun c i o) := EncodedWidth.holds _

theorem EncodedWidth.lpCopy (c : Chan) : EncodedWidth.Statement (.lpCopy c) := EncodedWidth.holds _

theorem EncodedWidth.lpDiff (c : Chan) : EncodedWidth.Statement (.lpDiff c) := EncodedWidth.holds _

theorem EncodedWidth.lpFir (c : Chan) (order : BitVec 5) : EncodedWidth.Statement (.lpFir c order) := EncodedWidth.holds _

theorem EncodedWidth.fdHeader : EncodedWidth.Statement .fdHeader := EncodedWidth.holds _

theorem EncodedWidth.fdMonoC : EncodedWidth.Statement .fdMonoC := EncodedWidth.holds _

theorem EncodedWidth.fdMonoU : EncodedWidth.Statement .fdMonoU := EncodedWidth.holds _

theorem EncodedWidth.fdStereoC : EncodedWidth.Statement .fdStereoC := EncodedWidth.holds _

theorem EncodedWidth.fdStereoU : EncodedWidth.Statement .fdStereoU := EncodedWidth.holds _

theorem EncodedWidth.fdChhdr (c : Chan) : EncodedWidth.Statement (.fdChhdr c) := EncodedWidth.holds _

theorem EncodedWidth.fdRawlow : EncodedWidth.Statement .fdRawlow := EncodedWidth.holds _

theorem EncodedWidth.fdVerbatim : EncodedWidth.Statement .fdVerbatim := EncodedWidth.holds _

theorem EncodedWidth.fdMixWeighted (shift weight : BitVec 8) : EncodedWidth.Statement (.fdMixWeighted shift weight) := EncodedWidth.holds _

theorem EncodedWidth.fdMixDirect (shift : BitVec 8) : EncodedWidth.Statement (.fdMixDirect shift) := EncodedWidth.holds _

theorem EncodedWidth.fdPack16 : EncodedWidth.Statement .fdPack16 := EncodedWidth.holds _

theorem EncodedWidth.fdPack24 : EncodedWidth.Statement .fdPack24 := EncodedWidth.holds _

theorem EncodedWidth.jbSync (remote loc : Time) : EncodedWidth.Statement (.jbSync remote loc) := EncodedWidth.holds _

theorem EncodedWidth.jbToRemote (loc : Time) : EncodedWidth.Statement (.jbToRemote loc) := EncodedWidth.holds _

theorem EncodedWidth.jbFromRemote (remote : Time) : EncodedWidth.Statement (.jbFromRemote remote) := EncodedWidth.holds _

theorem EncodedWidth.jbEnq (key : Time) (bytes : List Byte) : EncodedWidth.Statement (.jbEnq key bytes) := EncodedWidth.holds _

theorem EncodedWidth.jbDrainIdle : EncodedWidth.Statement .jbDrainIdle := EncodedWidth.holds _

theorem EncodedWidth.jbDrainGap : EncodedWidth.Statement .jbDrainGap := EncodedWidth.holds _

theorem EncodedWidth.jbDrainEmit : EncodedWidth.Statement .jbDrainEmit := EncodedWidth.holds _

theorem EncodedWidth.jbDrainTrunc : EncodedWidth.Statement .jbDrainTrunc := EncodedWidth.holds _

theorem EncodedWidth.jbDrainSkip : EncodedWidth.Statement .jbDrainSkip := EncodedWidth.holds _

theorem EncodedWidth.jbClose : EncodedWidth.Statement .jbClose := EncodedWidth.holds _

theorem EncodedWidth.hReset : EncodedWidth.Statement .hReset := EncodedWidth.holds _

theorem EncodedWidth.hConfigure (maxSamples : BitVec 32) (sampleSize historyMult initHistory kModifier channels : BitVec 8) (sampleRate : BitVec 32) : EncodedWidth.Statement (.hConfigure maxSamples sampleSize historyMult initHistory kModifier channels sampleRate) := EncodedWidth.holds _

theorem EncodedWidth.hDecode (key : Time) (payload : List Byte) : EncodedWidth.Statement (.hDecode key payload) := EncodedWidth.holds _

theorem EncodedWidth.hEnqueue (key : Time) (bytes : List Byte) : EncodedWidth.Statement (.hEnqueue key bytes) := EncodedWidth.holds _

theorem EncodedWidth.hSync (remote loc : Time) : EncodedWidth.Statement (.hSync remote loc) := EncodedWidth.holds _

theorem EncodedWidth.hClose : EncodedWidth.Statement .hClose := EncodedWidth.holds _

theorem EncodedWidth.hStatus : EncodedWidth.Statement .hStatus := EncodedWidth.holds _

end Sys2Proof.Laws
end

