-- ==== Sys2Proof/Tests/Slice0.lean ====
section
/-! SUPPORT. The model's own tests. Expected results are taken from the worked examples of spec/ (the rule
or the vector V<n> of `95_test_vectors.md` is named) or written out from the encodings. The witnesses at the
end meet the hypotheses of the statements, clause by clause, at boundary values. -/

namespace Sys2Proof.Tests

set_option Elab.async false

open Sys2Proof Sys2Proof.Machine

/-! ## Small states -/

/-- The parameters of the vectors (`95_test_vectors.md`, conventions), with a small queue. -/
def prm : Config.Params :=
  { profile := .doc, bufSamples := 352, payloadMax := 128, jbCapacity := 2, jbHorizon := 1000 }

def blank : State := { State.reset with prm := prm }

/-- A stream configured as the vectors have it, with a smaller quantum. -/
def stream (size channels : BitVec 8) : State :=
  { blank with
    mode := .ready, cfgMaxSamples := 8, cfgSampleSize := size, cfgHistoryMult := 40, cfgInitHistory := 10
    cfgKModifier := 14, cfgChannels := channels, cfgSampleRate := 44100, sinkReady := true }

def mono : State := stream 16 1

def stereo : State := stream 16 2

/-- The payload holds these bytes, the cursor at bit 0. -/
def holding (bytes : List Nat) (s : State) : State :=
  { s with
    payload := Memory.writeBytes [] 0 (bytes.map (BitVec.ofNat 8)), bcLen := BitVec.ofNat 32 bytes.length
    bcIdx := 0, bcAcc := 0 }

def underRef (s : State) : State := { s with prm := { s.prm with profile := .ref } }

/-- Values in a sample buffer, from index 0. -/
def buffer (vs : List Int) : File 32 :=
  (forN vs.length (fun i f => File.write f i (BitVec.ofInt 32 (vs.getD i 0))) [])

def samples (f : File 32) (n : Nat) : List Int := (List.range n).map fun i => (File.read f i).toInt

def bytes (bs : List Nat) : List Byte := bs.map (BitVec.ofNat 8)

/-- What an outcome's next state shows, if it is one. -/
def shows {α : Type} (o : Outcome) (f : State → α) : Option α :=
  match o with
  | .next t => some (f t)
  | .fault _ => none
  | .refused _ => none

/-- What the step after an operation shows. -/
def showsStep {α : Type} (o : Outcome) (f : State → α) : Option α :=
  match o with
  | .next t => shows (step t) f
  | .fault _ => none
  | .refused _ => none

def pcmBytes (t : State) : Option (List Byte) :=
  if t.decLen = t.pcmLen.toNat then Memory.readBytes t.pcm 0 t.decLen else none

def errors (t : State) : Mode × BitVec 8 × BitVec 32 := (t.mode, t.errCode, t.errInfo)

/-! ## WellFormed: each check refuses -/

theorem test_wf_bcRead_zero : (Instr.bcRead 0).wf = false := by decide
theorem test_wf_bcRead_wide : (Instr.bcRead 33).wf = false := by decide
theorem test_wf_bcUnread_zero : (Instr.bcUnread 0).wf = false := by decide
theorem test_wf_esc_width : (Instr.rdValueEsc 33 1 0).wf = false := by decide
theorem test_wf_esc_k : (Instr.rdValueEsc 16 32 0).wf = false := by decide
theorem test_wf_unary_k : (Instr.rdValueUnary 16 2 0).wf = false := by decide
theorem test_wf_short_k : (Instr.rdValueShort 16 1 0).wf = false := by decide
theorem test_wf_long_k : (Instr.rdValueLong 16 1 0).wf = false := by decide
theorem test_wf_stream_count : (Instr.rdStream .a ⟨2 ^ 32, 16, 10, 14, 40, 0⟩).wf = false := by decide
theorem test_wf_stream_width : (Instr.rdStream .a ⟨4, 0, 10, 14, 40, 0⟩).wf = false := by decide
theorem test_wf_stream_kmod : (Instr.rdStream .a ⟨4, 16, 10, 256, 40, 0⟩).wf = false := by decide
theorem test_wf_sample_index : (Instr.rdSample .a 4 ⟨4, 16, 10, 14, 40, 0⟩).wf = false := by decide
theorem test_wf_run_index : (Instr.rdRun .a 3 ⟨4, 16, 10, 14, 40, 0⟩).wf = false := by decide
theorem test_wf_fir_copy : (Instr.lpFir .a 0).wf = false := by decide
theorem test_wf_fir_diff : (Instr.lpFir .a 31).wf = false := by decide
theorem test_wf_mix_shift : (Instr.fdMixWeighted 32 1).wf = false := by decide
theorem test_wf_mix_weight : (Instr.fdMixWeighted 31 0).wf = false := by decide
theorem test_wf_good : (Instr.rdRun .a 2 ⟨4, 16, 10, 14, 40, 0⟩).wf = true := by decide
/-- The check itself: a payload whose length LEN cannot hold is no operand of H.DECODE. -/
theorem test_wf_decode_length (p : List Byte) (h : p.length = 2 ^ 32) : (Instr.hDecode 0 p).wf = false := by
  simp [Instr.wf, h]
theorem test_wf_enqueue_length (p : List Byte) (h : p.length = 2 ^ 32) : (Instr.hEnqueue 0 p).wf = false := by
  simp [Instr.wf, h]

/-! ## Decoding: words written out from the encodings -/

/-- The operation that a bit string selects in a context. -/
def reads (src : Source) (bits : List Bool) : Option Instr :=
  match decode 0 src bits with
  | .ok (i, _) => some i
  | .error _ => none

/-- A bit string written as a number's digits, most significant first. -/
def w (n v : Nat) : List Bool := bitsOfNat n v

theorem test_decode_hReset : reads .host (w 4 0b0000) = some .hReset := by decide
/-- R108, R301: code 1 and the seven values, CONFIGURE(352, 16, 40, 10, 14, 2, 44100). -/
theorem test_decode_hConfigure :
    reads .host (w 4 0b0001 ++ w 32 352 ++ w 8 16 ++ w 8 40 ++ w 8 10 ++ w 8 14 ++ w 8 2 ++ w 32 44100) =
      some (.hConfigure 352 16 40 10 14 2 44100) := by decide +kernel
theorem test_decode_hDecode :
    reads .host (w 4 0b0010 ++ w 64 7 ++ w 32 2 ++ w 8 0xA5 ++ w 8 0xC3) = some (.hDecode 7 [0xA5, 0xC3]) := by
  decide +kernel
theorem test_decode_hEnqueue :
    reads .host (w 4 0b0011 ++ w 64 (2 ^ 64 - 1) ++ w 32 1 ++ w 8 9) = some (.hEnqueue (-1) [9]) := by decide +kernel
theorem test_decode_hSync : reads .host (w 4 0b0100 ++ w 64 1000000 ++ w 64 352) = some (.hSync 1000000 352) := by
  decide +kernel
theorem test_decode_hClose : reads .host (w 4 0b0101) = some .hClose := by decide
theorem test_decode_hStatus : reads .host (w 4 0b0110) = some .hStatus := by decide
theorem test_decode_reserved : reads .host (w 4 0b0111) = none := by decide
/-- R92: CHAN, RSVD, HASSIZE, UB, CF, every ignored bit set. -/
theorem test_decode_fdMonoC : reads .frame (w 23 0b00011111111111111111110) = some .fdMonoC := by decide
theorem test_decode_fdMonoU : reads .frame (w 23 0b00011111111111111110111) = some .fdMonoU := by decide
theorem test_decode_fdStereoC : reads .frame (w 23 0b00100000000000000001110) = some .fdStereoC := by decide
theorem test_decode_fdStereoU : reads .frame (w 23 0b00111111111111111110001) = some .fdStereoU := by decide
theorem test_decode_fdHeader : reads .header (w 23 0b01000000000000000000000) = some .fdHeader := by decide
theorem test_decode_chan_illegal : reads .frame (w 23 0b01000000000000000000000) = none := by decide
/-- R98, R218's example: PTYPE 0, QUANT 4, RICEMOD 4, ORDER 2. -/
theorem test_decode_fdChhdr : reads (.chhdr .b) (w 16 0b0000010010000010) = some (.fdChhdr .b) := by decide
theorem test_decode_ptype : reads (.chhdr .b) (w 16 0b0001010010000010) = none := by decide
/-- R103: nine one-bits and 16 raw bits. -/
theorem test_decode_rdValueEsc :
    reads (.rice 16 7 0xFFFFFFFF) (w 25 0b1111111110000000000000101) = some (.rdValueEsc 16 7 0xFFFFFFFF) := by
  decide
/-- R103 form 2a: eight one-bits are no escape. -/
theorem test_decode_rdValueUnary : reads (.rice 16 1 0) (w 9 0b111111110) = some (.rdValueUnary 16 1 0) := by decide
theorem test_decode_rdValueShort : reads (.rice 16 3 0) (w 5 0b10000) = some (.rdValueShort 16 3 0) := by decide
/-- R104 in profile DOC: an extra field of 1 is a long word. -/
theorem test_decode_rdValueLong : reads (.rice 16 3 0) (w 5 0b10001) = some (.rdValueLong 16 3 0) := by decide
theorem test_decode_lpCopy : reads (.order .a) (w 5 0b00000) = some (.lpCopy .a) := by decide
theorem test_decode_lpDiff : reads (.order .b) (w 5 0b11111) = some (.lpDiff .b) := by decide
theorem test_decode_lpFir : reads (.order .a) (w 5 0b10001) = some (.lpFir .a 17) := by decide
/-- R97: SHIFT 2, LEFTWEIGHT 3. -/
theorem test_decode_fdMixWeighted : reads .mix (w 16 0b0000001000000011) = some (.fdMixWeighted 2 3) := by decide
theorem test_decode_fdMixDirect : reads .mix (w 16 0b1111111100000000) = some (.fdMixDirect 255) := by decide

/-- The operations without bits of their own are named by their caller. -/
theorem test_decode_internal :
    [Instr.bcInit 9, .bcRead 3, .bcUnread 1, .bcClz 3, .rdStream .a ⟨4, 16, 10, 14, 40, 0⟩,
      .rdSample .a 0 ⟨4, 16, 10, 14, 40, 0⟩, .rdRun .a 0 ⟨4, 16, 10, 14, 40, 0⟩, .fdRawlow, .fdVerbatim, .fdPack16,
      .fdPack24, .jbSync 5 2, .jbToRemote 5, .jbFromRemote 5, .jbEnq 5 [1], .jbDrainIdle, .jbDrainGap, .jbDrainEmit,
      .jbDrainTrunc, .jbDrainSkip, .jbClose].all (fun i => reads (.call i) [] == some i) = true := by
  decide +kernel

theorem test_decode_not_internal : reads (.call .hReset) [] = none := by decide

/-- The next step after reset runs the word that `withFetchWord` places: a CLOSE. -/
theorem test_fetchWord_close :
    shows (step (blank.withFetchWord 8 0b0101)) (fun t => (t.mode, t.jbClosing, t.resp)) =
      some (.closed, true, .status .ok) := by decide +kernel
/-- The same for a mono uncompressed frame of no samples. -/
theorem test_fetchWord_frame :
    shows (step (blank.withFetchWord 24 0b00011111111111111111001)) (fun t => (t.mode, t.pos, t.pcmLen)) =
      some (.ready, 55, 0) := by decide +kernel

/-! ## Unit BC (V5 to V9) -/

theorem test_bcInit : shows (exec (.bcInit 9) (mono.setPos 13)) (fun t => (t.pos, t.bcLen)) = some (0, 9) := by
  decide +kernel
theorem test_bcRead :
    shows (exec (.bcRead 7) ((holding [0xA5, 0xC3] mono).setPos 3)) (fun t => (t.result, t.pos)) = some (23, 10) := by
  decide +kernel
theorem test_bcRead_truncated :
    shows (exec (.bcRead 4) ((holding [0xFF] mono).setPos 5)) (fun t => (errors t, t.pos)) =
      some ((.faulted, 1, 5), 5) := by decide +kernel
theorem test_bcUnread :
    shows (exec (.bcUnread 1) (mono.setPos 13)) (fun t => (t.bcIdx, t.bcAcc)) = some (1, 4) := by decide +kernel
/-- R133's pseudocode: POS - 0. -/
theorem test_bcUnread_none : shows (exec (.bcUnread 0) (mono.setPos 13)) (·.pos) = some 13 := by decide +kernel
theorem test_bcClz : shows (exec (.bcClz 130) mono) (·.result) = some 24 := by decide +kernel
theorem test_bcClz_zero : shows (exec (.bcClz 0) mono) (·.result) = some 32 := by decide +kernel

/-! ## Unit RD (V10 to V29) -/

def rice (n : Nat) (k : Int) (mask : Word) (bs : List Nat) (op : Nat → Int → Word → Instr) (s : State) :
    Option (Word × Nat) := shows (exec (op n k mask) (holding bs s)) fun t => (t.result, t.pos)

theorem test_rdValueEsc : rice 16 7 0xFFFFFFFF [0xFF, 0x80, 0x02, 0x80] .rdValueEsc mono = some (5, 25) := by
  decide +kernel
theorem test_rdValueUnary : rice 16 1 0xFFFFFFFF [0xFF, 0x00] .rdValueUnary mono = some (8, 9) := by decide +kernel
theorem test_rdValueShort : rice 16 3 0xFFFFFFFF [0x84] .rdValueShort mono = some (7, 4) := by decide +kernel
theorem test_rdValueShort_ref : rice 16 3 0xFFFFFFFF [0x88] .rdValueShort (underRef mono) = some (7, 4) := by
  decide +kernel
/-- V18: a run word's mask. -/
theorem test_rdValueLong : rice 8 8 15 [0x80, 0xC0] .rdValueLong mono = some (17, 10) := by decide +kernel
theorem test_rdValueLong_doc : rice 16 3 0xFFFFFFFF [0x88] .rdValueLong mono = some (7, 5) := by decide +kernel
/-- V19: `BAD_K`, nothing read. -/
theorem test_rdValue_badK :
    shows (exec (.rdValueLong 16 32 0) (holding [0] mono)) (fun t => (errors t, t.pos)) =
      some ((.faulted, 5, 3), 0) := by decide +kernel

/-- The operands of the stand-alone streams. -/
def o16 (n : Nat) : RiceOperands := ⟨n, 16, 10, 14, 40, 0x3FFF⟩

/-- V22: two runs, one of them empty. -/
theorem test_rdStream :
    shows (exec (.rdStream .a (o16 7)) (holding [0xD4, 0x00] mono)) (fun t => (samples t.chA.resid 7, t.pos)) =
      some ([1, 0, 0, 0, 0, -1, -1], 11) := by decide +kernel
/-- V28 in profile REF, whose clamp tests the decoded value. -/
theorem test_rdStream_ref :
    shows (exec (.rdStream .b { o16 3 with width := 17 })
        (underRef (holding [0xFF, 0xBA, 0x98, 0x00, 0x1E, 0x00, 0xE0] mono)))
      (fun t => (samples t.chB.resid 3, t.rsHistory, t.pos)) = some ([30000, 7, -7], 2040694, 52) := by decide +kernel
/-- V20's first row. -/
theorem test_rdSample :
    shows (exec (.rdSample .a 0 (o16 4)) (holding [0xFD, 0xCC] { mono with rsHistory := 10 }))
      (fun t => (samples t.chA.resid 1, t.rsHistory, t.pos)) = some ([3], 250, 7) := by decide +kernel
/-- V22's sample 5: the carry. -/
theorem test_rdSample_carry :
    shows (exec (.rdSample .a 5 (o16 7)) (holding [0x00] { mono with rsHistory := 0, rsSignMod := 1 }))
      (fun t => (File.read t.chA.resid 5, t.rsSignMod, t.rsHistory)) = some (-1, 0, 40) := by decide +kernel
/-- R160's example: b = 2. -/
theorem test_rdRun :
    shows (exec (.rdRun .a 0 (o16 7)) (holding [0x01, 0x80] { mono with chA := { mono.chA with resid := buffer [9, 8, 7, 6] } }))
      (fun t => (samples t.chA.resid 4, t.rsSignMod, t.result, t.pos)) = some ([9, 0, 0, 6], 1, 2, 9) := by
  decide +kernel
/-- V68: a run longer than the samples left. -/
theorem test_rdRun_overflow :
    shows (exec (.rdRun .a 0 (o16 2)) (holding [0x30] { mono with rsHistory := 10 })) errors =
      some (.faulted, 5, 4) := by decide +kernel

/-! ## Unit LP (V30 to V38) -/

def predicting (rss n quant : Nat) (coefs resid : List Int) (s : State) : State :=
  { s with
    fhN := BitVec.ofNat 32 n, fhRss := BitVec.ofNat 6 rss
    chA :=
      { s.chA with
        quant := BitVec.ofNat 4 quant, resid := buffer resid
        coef := Vector.ofFn fun i => BitVec.ofInt 32 (coefs.getD i.val 0) } }

theorem test_lpCopy :
    shows (exec (.lpCopy .a) (predicting 16 5 0 [] [7, -7, 0, 32767, -32768] mono)) (fun t => samples t.chA.out 6) =
      some [7, -7, 0, 32767, -32768, 0] := by decide +kernel
theorem test_lpDiff :
    shows (exec (.lpDiff .a) (predicting 16 4 0 [] [32767, 1, 1, 1] mono)) (fun t => samples t.chA.out 4) =
      some [32767, -32768, -32767, -32766] := by decide +kernel
/-- V32. -/
theorem test_lpFir :
    shows (exec (.lpFir .a 2) (predicting 16 8 2 [3, -1] [10, -4, 6, 5, -3, 0, 2, -7] mono))
      (fun t => (samples t.chA.out 8, (coefGet t.chA.coef 0).toInt, (coefGet t.chA.coef 1).toInt)) =
      some ([10, 6, 12, 18, 12, 8, 17, 12], 1, -3) := by decide +kernel
/-- R189's pseudocode sends order 31 to LP.DIFF. -/
theorem test_lpFir_diff :
    shows (exec (.lpFir .a 31) (predicting 16 4 0 [] [32767, 1, 1, 1] mono)) (fun t => samples t.chA.out 4) =
      some [32767, -32768, -32767, -32766] := by decide +kernel
/-- V35 up to i = 5 in profile DOC: the coefficient wraps. -/
theorem test_lpFir_wrap :
    shows (exec (.lpFir .a 2) (predicting 16 6 4 [32767, -32768] [0, 100, -50, 3, 3, -3] mono))
      (fun t => (samples t.chA.out 6, (coefGet t.chA.coef 0).toInt, (coefGet t.chA.coef 1).toInt)) =
      some ([0, 100, 50, 28672, 26986, 18844], 32767, 32767) := by decide +kernel

/-! ## Unit FD -/

theorem test_fdHeader :
    shows (exec .fdHeader (holding [0x17, 0xDD, 0xF2, 0, 0, 0, 3, 0xFF, 0xFC] mono))
      (fun t => (t.fhChan, t.fhHasSize, t.fhUb, t.fhCf, t.fhN, t.pos)) = some (0, 1, 0, 1, 1, 55) := by decide +kernel
/-- V62: CHAN 7 in a one-byte payload. -/
theorem test_fdHeader_chan :
    shows (exec .fdHeader (holding [0xE0] mono)) (fun t => (errors t, t.pos)) = some ((.faulted, 2, 7), 3) := by
  decide +kernel
/-- V1. -/
theorem test_fdMonoC :
    shows (exec .fdMonoC (holding [0, 0, 0x10, 0, 0, 0, 8, 0, 0, 1, 1, 0xFB, 0x98] mono)) (fun t => (pcmBytes t, t.pos)) =
      some (some [3, 0, 0xFE, 0xFF, 0, 0, 1, 0], 102) := by decide +kernel
/-- V50: 24-bit, raw low bytes, FIR. -/
theorem test_fdMonoC_24 :
    shows (exec .fdMonoC (holding [0, 0, 0x14, 0, 0, 0, 0x0A, 0, 0, 9, 4, 0, 0x31, 0xFF, 0xF0, 0x22, 0x44, 0x66, 0x89,
        0xFF, 0xFF, 2, 0x58, 0x92, 0xFA, 0x44, 0x80] (stream 24 1))) (fun t => (pcmBytes t, t.pos)) =
      some (some [0x11, 0x2C, 1, 0x22, 0x18, 1, 0x33, 0x27, 1, 0x44, 0x26, 1, 0xFF, 0x2B, 1], 209) := by decide +kernel
/-- V58. -/
theorem test_fdMonoU :
    shows (exec .fdMonoU (holding [0x17, 0xDD, 0xF2, 0, 0, 0, 3, 0xFF, 0xFC] mono))
      (fun t => (pcmBytes t, t.pos, t.decPend)) = some (some [0xFE, 0xFF], 71, true) := by decide +kernel
/-- R332: the same frame after a fault. -/
theorem test_fdMonoU_faulted :
    shows (exec .fdMonoU { holding [0x17, 0xDD, 0xF2, 0, 0, 0, 3, 0xFF, 0xFC] mono with mode := .faulted })
      (fun t => (t.resp, t.pos, t.decPend)) = some (.status .badMode, 0, false) := by decide +kernel
/-- V3. -/
theorem test_fdStereoC :
    shows (exec .fdStereoC (holding [0x20, 0, 0x10, 0, 0, 0, 8, 0, 0, 1, 0, 1, 1, 0xEB, 0xCE, 0xCF, 0xC0] stereo))
      (fun t => (pcmBytes t, t.pos)) =
      some (some [2, 0, 0xFE, 0xFF, 0xFF, 0xFF, 1, 0, 2, 0, 0, 0, 0, 0, 3, 0], 131) := by decide +kernel
/-- V66. -/
theorem test_fdStereoC_shift :
    shows (exec .fdStereoC (holding [0x20, 0, 0x10, 0, 0, 0, 8, 0x40, 2, 1, 0] stereo)) errors =
      some (.faulted, 5, 5) := by decide +kernel
/-- R234's 24-bit example. -/
theorem test_fdStereoU :
    shows (exec .fdStereoU (holding [0x20, 0, 0x12, 0, 0, 0, 2, 0x24, 0x68, 0xAD, 0xFF, 0xFF, 0xFC] (stream 24 2)))
      (fun t => (pcmBytes t, t.pos)) = some (some [0x56, 0x34, 0x12, 0xFE, 0xFF, 0xFF], 103) := by decide +kernel
/-- R218's example, with two coefficients. -/
theorem test_fdChhdr :
    shows (exec (.fdChhdr .a) (holding [0x04, 0x82, 0, 24, 0xFF, 0xF8] mono))
      (fun t => (t.chA.quant, t.chA.riceMod, t.chA.order, coefGet t.chA.coef 0, coefGet t.chA.coef 1, t.pos)) =
      some (4, 4, 2, 24, -8, 48) := by decide +kernel
theorem test_fdChhdr_ptype :
    shows (exec (.fdChhdr .b) (holding [0xF0, 0x80] mono)) errors = some (.faulted, 3, 15) := by decide +kernel
/-- R220's example. -/
theorem test_fdRawlow :
    shows (exec .fdRawlow (holding [0xAB, 0x01] { stream 24 1 with fhUb := 1, fhN := 2 }))
      (fun t => (File.read t.chA.raw 0, File.read t.chA.raw 1, t.pos)) = some (0xAB, 1, 16) := by decide +kernel
/-- R223's examples, as the two channels of one frame. -/
theorem test_fdVerbatim :
    shows (exec .fdVerbatim (holding [0x12, 0x34, 0x56, 0xFF, 0xFF, 0xFE] { stream 24 2 with fhN := 1, fhChan := 1 }))
      (fun t => (samples t.chA.out 1, samples t.chB.out 1, t.pos)) = some ([1193046], [-2], 48) := by decide +kernel

def mixing (a b : List Int) : State :=
  { stereo with
    fhN := BitVec.ofNat 32 a.length, fhChan := 1, chA := { stereo.chA with out := buffer a }
    chB := { stereo.chB with out := buffer b } }

/-- R224's example. -/
theorem test_fdMixWeighted :
    shows (exec (.fdMixWeighted 2 3) (mixing [100] [-7])) (fun t => (samples t.mixL 1, samples t.mixR 1)) =
      some ([99], [106]) := by decide +kernel
/-- R224's pseudocode with a weight of 0, in a frame whose channel field an unsupported header left (log 33). -/
theorem test_fdMixWeighted_zero :
    shows (exec (.fdMixWeighted 2 0) { mixing [100] [-7] with fhChan := 5 })
      (fun t => (samples t.mixL 1, samples t.mixR 1)) = some ([93], [100]) := by decide +kernel
theorem test_fdMixDirect :
    shows (exec (.fdMixDirect 255) (mixing [2, -1] [-2, 1])) (fun t => (samples t.mixL 2, samples t.mixR 2)) =
      some ([2, -1], [-2, 1]) := by decide +kernel
/-- R226's example. -/
theorem test_fdPack16 :
    shows (exec .fdPack16 { mixing [0] [0] with mixL := buffer [2], mixR := buffer [-2] })
      (fun t => Memory.readBytes t.pcm 0 4) = some (some [2, 0, 0xFE, 0xFF]) := by decide +kernel
/-- R227's example. -/
theorem test_fdPack24 :
    shows (exec .fdPack24
        { stream 24 1 with
          fhN := 1, fhUb := 1, chA := { mono.chA with out := buffer [-2], raw := File.write [] 0 0xAB } })
      (fun t => Memory.readBytes t.pcm 0 3) = some (some [0xAB, 0xFE, 0xFF]) := by decide +kernel

/-! ## Unit JB (V40 to V49) -/

/-- Synchronised with offset 0, the line at `written`. -/
def playing (written : Int) (queue : List QueueEntry) : State :=
  { stereo with
    jbOffset := 0, jbOffsetValid := true, drainAwake := true, jbWritten := BitVec.ofInt 64 written, jbQueue := queue }

/-- Two frames, S4's D. -/
def twoFrames : List Byte := bytes [1, 0, 2, 0, 3, 0, 4, 0]

theorem test_jbSync : shows (exec (.jbSync 1000000 352) stereo) (fun t => (t.jbOffset, t.jbOffsetValid)) =
    some (999648, true) := by decide +kernel
theorem test_jbToRemote : shows (exec (.jbToRemote 704) { playing 0 [] with jbOffset := 999648 }) (·.timeResult) =
    some 1000352 := by decide +kernel
theorem test_jbFromRemote : shows (exec (.jbFromRemote 1000352) { playing 0 [] with jbOffset := 999648 }) (·.timeResult) =
    some 704 := by decide +kernel
/-- V41: the late boundary, and one frame beyond it. -/
theorem test_jbEnq_late : shows (exec (.jbEnq 1054 twoFrames) (playing 1056 [])) (fun t => (t.resp, t.log)) =
    some (.status .dropped, [.dropLate 1054]) := by decide +kernel
theorem test_jbEnq : shows (exec (.jbEnq 1055 twoFrames) (playing 1056 [])) (fun t => (t.resp, t.jbQueue)) =
    some (.status .ok, [(1055, twoFrames)]) := by decide +kernel
theorem test_jbDrainIdle : shows (exec .jbDrainIdle (playing 5 [])) (fun t => (t.sink.length, t.jbWritten)) =
    some (32, 13) := by decide +kernel
theorem test_jbDrainGap :
    shows (exec .jbDrainGap (playing 0 [(12, twoFrames)])) (fun t => (t.sink.length, t.jbWritten, t.log, t.jbQueue.length)) =
      some (32, 8, [.gap 12], 1) := by decide +kernel
theorem test_jbDrainEmit :
    shows (exec .jbDrainEmit (playing 8 [(8, twoFrames)])) (fun t => (t.sink, t.jbWritten, t.jbQueue)) =
      some (twoFrames, 10, []) := by decide +kernel
/-- V49b. -/
theorem test_jbDrainTrunc :
    shows (exec .jbDrainTrunc (playing 4 [(3, twoFrames)])) (fun t => (t.sink, t.jbWritten, t.log)) =
      some (bytes [3, 0, 4, 0], 5, [.truncated 3]) := by decide +kernel
theorem test_jbDrainSkip :
    shows (exec .jbDrainSkip (playing 4 [(2, twoFrames), (9, twoFrames)])) (fun t => (t.sink, t.jbWritten, t.log, t.jbQueue.length)) =
      some ([], 4, [.skipped 2], 1) := by decide +kernel
theorem test_jbClose :
    shows (exec .jbClose (playing 4 [(5, twoFrames)])) (fun t => (t.jbClosing, t.jbQueue, t.mode, drainEnabled t)) =
      some (true, [], .closed, false) := by decide +kernel

/-! ## Host commands (V70 to V75) -/

theorem test_hReset :
    shows (exec .hReset { playing 4 [(5, twoFrames)] with mode := .closed, jbClosing := true, errCode := 3 })
      (fun t => (errors t, t.jbQueue, t.jbWritten, t.jbClosing)) = some ((.unconfigured, 0, 0), [], 0, false) := by
  decide +kernel
theorem test_hConfigure :
    shows (exec (.hConfigure 352 16 40 10 14 2 48000) blank) (fun t => (t.mode, t.resp, bytesPerFrame t, quantum t)) =
      some (.ready, .status .ok, 4, 352) := by decide +kernel
theorem test_hConfigure_kmod :
    shows (exec (.hConfigure 352 16 40 10 32 2 48000) blank) (fun t => (t.mode, t.resp)) =
      some (.unconfigured, .status .configError) := by decide +kernel
/-- R302's example, both transitions. -/
theorem test_hDecode :
    showsStep (exec (.hDecode 0 (bytes [0, 0, 0x12, 0, 0, 0, 3, 0xFF, 0xFC])) { mono with agenda := [.dec] })
      (fun u => (u.resp, u.jbQueue, u.mode)) =
      some (.status .ok, [(0, bytes [0xFE, 0xFF])], .ready) := by decide +kernel
/-- V67 and V75: an unsupported size, an empty payload. -/
theorem test_hDecode_size :
    shows (exec (.hDecode 0 []) (stream 20 2)) (fun t => (errors t, t.resp, t.log)) =
      some ((.faulted, 4, 20), .status .fault, [.fault 4]) := by decide +kernel
/-- V72: nine frames are more than the quantum of eight. -/
theorem test_hEnqueue_long :
    shows (exec (.hEnqueue 0 (List.replicate 36 0)) stereo) (fun t => (t.resp, t.jbQueue)) =
      some (.status .badArgument, []) := by decide +kernel
theorem test_hEnqueue :
    shows (exec (.hEnqueue 0 (List.replicate 32 0)) stereo) (fun t => (t.resp, t.jbQueue.length, t.drainAwake)) =
      some (.status .ok, 1, true) := by decide +kernel
theorem test_hSync_faulted :
    shows (exec (.hSync 300 352) { stereo with mode := .faulted }) (fun t => (t.resp, t.jbOffset)) =
      some (.status .ok, -52) := by decide +kernel
theorem test_hSync_closed :
    shows (exec (.hSync 0 0) { stereo with mode := .closed }) (fun t => (t.resp, t.jbOffsetValid)) =
      some (.status .badMode, false) := by decide +kernel
theorem test_hClose : shows (exec .hClose blank) (fun t => (t.mode, t.resp)) = some (.closed, .status .ok) := by
  decide +kernel
/-- P3's report. -/
theorem test_hStatus :
    shows (exec .hStatus { mono with mode := .faulted, errCode := 3, errInfo := 1, jbQueue := [(0, bytes [1, 2])] })
      (·.resp) = some (.report .ok ⟨.faulted, 3, 1, false, false, 0, 1⟩) := by decide +kernel

/-! ## Agents -/

theorem test_step_drain :
    shows (step { playing 8 [(8, twoFrames)] with agenda := [.drain, .sleep] }) (fun t => (t.sink, t.agenda)) =
      some (twoFrames, [.sleep]) := by decide +kernel
theorem test_step_asleep :
    shows (step { playing 8 [(8, twoFrames)] with agenda := [.drain], drainAwake := false }) (·.sink) = some [] := by
  decide +kernel
theorem test_step_sink :
    shows (step { blank with agenda := [.sink true] }) (fun t => (t.sinkReady, t.drainAwake)) = some (true, true) := by
  decide +kernel
theorem test_step_reserved :
    shows (step { blank with agenda := [.host (w 4 15)] }) (fun t => (t.resp, t.mode)) =
      some (.status .badCommand, .unconfigured) := by decide +kernel

/-! ## Witnesses: states and operands that meet the hypotheses of the statements, clause by clause -/

/-- An outcome that shows something is a next state that has it. -/
theorem next_of_shows {α : Type} {o : Outcome} {f : State → α} {x : α} (h : shows o f = some x) :
    ∃ t, o = .next t ∧ f t = x := by
  cases o with
  | next t => exact ⟨t, rfl, by simpa [shows] using h⟩
  | fault f => simp [shows] at h
  | refused r => simp [shows] at h

/-- Every value of a list is below a bound, checked one by one. -/
theorem all_below {vs : List Word} {n : Nat} (h : (vs.all fun v => decide (v.toNat < n)) = true) :
    ∀ v ∈ vs, v.toNat < n := by simpa using h

/-- A payload given bit by bit, completed with zero bits; LEN is its number of bytes. -/
def bitPayload (n : Nat) (bits : List Bool) (s : State) : State :=
  { s with payload := Memory.writeBytes [] 0 (bytesOfBits n bits), bcLen := BitVec.ofNat 32 n, bcIdx := 0, bcAcc := 0 }

/-- The header of a frame: CHAN, HASSIZE, UB, CF, NSAMPLES; every reserved bit set. -/
def header (chan hasSize ub cf n : Nat) : HeaderFields :=
  ⟨BitVec.ofNat 3 chan, -1, BitVec.ofNat 1 hasSize, BitVec.ofNat 2 ub, BitVec.ofNat 1 cf, BitVec.ofNat 32 n⟩

/-! ### Unit BC -/

/-- 32 bits that end exactly at the payload's end. -/
theorem witness_BcReadRule_read :
    let s := (holding [1, 2, 3, 4, 5] mono).setPos 8
    s.pos + 32 = 8 * s.bcLen.toNat ∧ ∀ i < 32, payloadBit s.payload (s.pos + i) ≠ none := by decide +kernel
/-- One bit beyond it. -/
theorem witness_BcReadRule_truncated :
    let s := (holding [1, 2, 3, 4, 5] mono).setPos 9
    8 * s.bcLen.toNat < s.pos + 32 ∧ faultReady s = true := by decide +kernel
theorem witness_BcClzRule : (1 : Word) ≠ 0 ∧ (0x80000000 : Word) ≠ 0 := by decide
theorem witness_BcUnreadRule : (mono.setPos 1).pos = 1 ∧ (mono.setPos 0).pos < 1 := by decide +kernel

/-! ### Unit RD -/

theorem witness_RdValueEscape_wide :
    holdsBits ((bitPayload 6 (true :: (List.replicate 9 true ++ w 32 (2 ^ 32 - 1))) mono).setPos 1)
      (List.replicate 9 true ++ bitsOfNat 32 (2 ^ 32 - 1)) = true := by decide +kernel
theorem witness_RdValueEscape_narrow :
    holdsBits (bitPayload 2 (List.replicate 9 true) mono) (List.replicate 9 true ++ bitsOfNat 1 0) = true := by
  decide +kernel
theorem witness_RdValueUnary_eight :
    holdsBits (holding [0xFF, 0] mono) (List.replicate 8 true ++ [false]) = true := by decide +kernel
theorem witness_RdValueUnary_zero :
    holdsBits (holding [0] mono) (List.replicate 0 true ++ [false]) = true := by decide +kernel
theorem witness_RdValueShort_doc :
    let s := bitPayload 5 (w 40 0xFF00000000) mono
    0 ≤ s.prm.profile.riceUnreadMax ∧
      holdsBits s (List.replicate 8 true ++ false :: bitsOfNat 31 0) = true := by decide +kernel
/-- In profile REF an extra field of 1 is short. -/
theorem witness_RdValueShort_ref :
    let s := underRef (bitPayload 1 (w 8 0b00100000) mono)
    1 ≤ s.prm.profile.riceUnreadMax ∧ holdsBits s (List.replicate 0 true ++ false :: bitsOfNat 2 1) = true := by
  decide +kernel
/-- The same bits in profile DOC are a long word. -/
theorem witness_RdValueLong_doc :
    let s := bitPayload 1 (w 8 0b00100000) mono
    s.prm.profile.riceUnreadMax < 1 ∧ holdsBits s (List.replicate 0 true ++ false :: bitsOfNat 2 1) = true := by
  decide +kernel
theorem witness_RdValueLong_ref :
    let s := underRef (bitPayload 5 (w 40 0xFF7FFFFFFF) mono)
    s.prm.profile.riceUnreadMax < 2 ^ 31 - 1 ∧
      holdsBits s (List.replicate 8 true ++ false :: bitsOfNat 31 (2 ^ 31 - 1)) = true := by decide +kernel
/-- The clauses of k = 0 and k = 32; the payload ends after eight one-bits; it ends at once. -/
theorem witness_RdValueTraps :
    faultReady mono = true ∧ ((0 : Int) < 1 ∨ (31 : Int) < 0) ∧ ((32 : Int) < 1 ∨ (31 : Int) < 32) ∧
      (let s := holding [0xFF] mono
       faultReady s = true ∧ 8 * s.bcLen.toNat = s.pos + 8 ∧ holdsBits s (List.replicate 8 true) = true) ∧
      (let s := holding [] mono
       faultReady s = true ∧ 8 * s.bcLen.toNat = s.pos + 0 ∧ holdsBits s (List.replicate 0 true) = true) := by
  decide +kernel
/-- One raw bit is missing; one extra bit is missing, after eight one-bits and after none. -/
theorem witness_RdValueTraps_fields :
    (let s := holding [0xFF, 0x80, 0] mono
     faultReady s = true ∧ holdsBits s (List.replicate 9 true) = true ∧ 8 * s.bcLen.toNat + 1 = s.pos + 9 + 16) ∧
    (let s := holding [0xFF, 0x00, 0] mono
     holdsBits s (List.replicate 8 true ++ [false]) = true ∧ 8 * s.bcLen.toNat + 1 = s.pos + (8 + 1) + (16 : Int).toNat) ∧
    (let s := (holding [0] mono).setPos 6
     holdsBits s (List.replicate 0 true ++ [false]) = true ∧ 8 * s.bcLen.toNat + 1 = s.pos + (0 + 1) + (2 : Int).toNat) := by
  decide +kernel
/-- The last index that the buffers have, in a stream of fewer samples. -/
theorem witness_RdSampleRule :
    let s := holding [0xFD, 0xCC] { mono with rsHistory := 10 }
    351 < s.prm.bufSamples ∧
      decodeValue 16 (sampleParameter s.rsHistory 14) 0xFFFFFFFF s = .ok 6 (s.setPos 7) := by decide +kernel
/-- V24's order: a run that fills the rest of the samples exactly (b = 2, samples 1 and 2 of 3). -/
theorem witness_RdRunRule_run :
    let s := holding [0x01, 0x80] mono
    0 + 1 < (o16 3).count ∧ 0 ≤ s.rsHistory.toInt ∧ s.rsHistory.toInt < 128 ∧
      decodeValue 16 (runParameter s.rsHistory) (o16 3).runMask
        { s with rsSignMod := 1 } = .ok 2 ({ s with rsSignMod := 1 }.setPos 9) ∧
      (o16 3).count ≤ s.prm.bufSamples ∧ 0 + 1 + 2 ≤ (o16 3).count := by decide +kernel
/-- The same word with one sample fewer. -/
theorem witness_RdRunRule_overflow :
    let s := holding [0x01, 0x80] mono
    0 + 1 < (o16 2).count ∧
      decodeValue 16 (runParameter s.rsHistory) (o16 2).runMask
        { s with rsSignMod := 1 } = .ok 2 ({ s with rsSignMod := 1 }.setPos 9) ∧
      faultReady s = true ∧ (0 : Int) < (2 : Word).toInt ∧ (o16 2).count < 0 + 1 + (2 : Word).toNat := by decide +kernel
theorem witness_RdRunRule_negative :
    let s := { mono with rsHistory := -1 }
    0 + 1 < (o16 2).count ∧ s.rsHistory.toInt < 0 ∧ faultReady s = true := by decide +kernel
/-- V22's stream: unary sample words, a run of four by a long word, a run of none by a short one. -/
theorem witness_RdStreamRule_runs :
    let s := holding [0xD4, 0x00] mono
    (o16 7).count ≤ s.prm.bufSamples ∧
      streamFrom s (o16 7) [(.unary 2, some (.long 1 2)), (.unary 0, some (.short 0 0)), (.unary 0, none)] 0
        (o16 7).initHist 0 s.pos = some ⟨[1, 0, 0, 0, 0, -1, -1], 40, 0, 11⟩ := by decide +kernel
/-- A short word that hands its last bit to the long word after it, and an escape of the widest raw field, in
profile REF; a run that ends the stream; a stream of no samples. -/
theorem witness_RdStreamRule_forms :
    (let o : RiceOperands := ⟨3, 32, 3000, 14, 0, 0⟩
     let s := underRef (bitPayload 7 (w 9 0b100010111 ++ (List.replicate 9 true ++ w 32 9)) mono)
     1 ≤ o.width ∧ o.width ≤ 32 ∧
       streamFrom s o [(.short 1 1, none), (.long 1 7, none), (.esc 9, none)] 0 o.initHist 0 s.pos =
         some ⟨[-4, -7, -5], 3000, 0, 50⟩ ∧
       shows (exec (.rdStream .a o) s) (fun t => (samples t.chA.resid 3, t.pos)) = some ([-4, -7, -5], 50)) ∧
    (let o : RiceOperands := ⟨3, 16, 0, 14, 0, 0x3FFF⟩
     let s := bitPayload 2 (w 10 0b0000000011) mono
     streamFrom s o [(.unary 0, some (.long 0 3))] 0 o.initHist 0 s.pos = some ⟨[0, 0, 0], 0, 1, 10⟩) ∧
    streamFrom mono (o16 0) [] 0 10 0 0 = some ⟨[], 10, 0, 0⟩ := by decide +kernel
theorem witness_RiceParameterRange :
    0 ≤ (0 : Word).toInt ∧ 0 ≤ (0x7FFFFFFF : Word).toInt ∧ 0 ≤ (127 : Word).toInt ∧ (127 : Word).toInt < 128 := by
  decide +kernel
/-! ### Unit LP -/

/-- The buffers full. -/
theorem witness_LpCopyRule :
    let s := { mono with fhN := 352 }
    s.fhN.toNat ≤ s.prm.bufSamples ∧ 0 < s.fhN.toNat := by decide +kernel
theorem witness_LpDiffRule :
    let s := { mono with fhN := 352, fhRss := 32 }
    s.fhN.toNat ≤ s.prm.bufSamples ∧ 0 + 1 < s.fhN.toNat := by decide +kernel
/-- Thirty taps, more samples than the warm-up writes. -/
theorem witness_LpFirRule :
    let s := { mono with fhN := 352, fhRss := 1 }
    (30 : BitVec 5) ≠ 0 ∧ (30 : BitVec 5) ≠ 31 ∧ s.fhN.toNat ≤ s.prm.bufSamples ∧
      320 + (30 : BitVec 5).toNat + 1 < s.fhN.toNat := by decide +kernel
theorem witness_FirAdaptationRule : (1 ≤ 1 ∧ 1 ≤ 30) ∧ (1 ≤ 30 ∧ 30 ≤ 30) ∧ (-1 : Word) ≠ 0 ∧ 0 < (1 : Word).toInt := by
  decide +kernel
/-! ### Unit FD -/

/-- The explicit count at the stream's maximum. -/
theorem witness_FdHeaderRule_explicit :
    let h := header 0 1 3 1 8
    let s := bitPayload 7 (encodeHeader h) mono
    headerLegal h s = true ∧ holdsBitsAt s 0 (encodeHeader h) = true := by decide +kernel
theorem witness_FdHeaderRule_implicit :
    let h := header 1 0 0 0 0
    let s := bitPayload 3 (encodeHeader h) (stream 24 2)
    headerLegal h s = true ∧ holdsBitsAt s 0 (encodeHeader h) = true := by decide +kernel
theorem witness_FdHeaderTraps_size :
    faultReady (stream 20 1) = true ∧ sampleSizeOk (stream 20 1) = false := by decide +kernel
theorem witness_FdHeaderTraps_empty :
    let s := holding [] mono
    faultReady s = true ∧ sampleSizeOk s = true ∧ s.bcLen = 0 := by decide +kernel
/-- CHAN 2; CHAN 1 in a mono stream; CHAN 0 in a stereo stream. -/
theorem witness_FdHeaderTraps_channels :
    (let s := holding [0x40] mono
     sampleSizeOk s = true ∧ holdsBitsAt s 0 (bitsOfNat 3 2) = true ∧ 1 < (2 : BitVec 3).toNat) ∧
    (let s := holding [0x20] mono
     sampleSizeOk s = true ∧ holdsBitsAt s 0 (bitsOfNat 3 1) = true ∧ 1 + 1 ≠ s.cfgChannels.toNat) ∧
    (let s := holding [0x00] stereo
     sampleSizeOk s = true ∧ holdsBitsAt s 0 (bitsOfNat 3 0) = true ∧ 0 + 1 ≠ s.cfgChannels.toNat) := by
  decide +kernel
/-- The payload ends inside RSVD after one byte and after two; inside NSAMPLES after three and after six. -/
theorem witness_FdHeaderTraps_cut :
    (let s := holding [0x1F] mono
     sampleSizeOk s = true ∧ holdsBitsAt s 0 (bitsOfNat 3 0) = true ∧ 0 + 1 = s.cfgChannels.toNat ∧ s.bcLen.toNat ≤ 2) ∧
    (let s := holding [0x3F, 0xFF] stereo
     holdsBitsAt s 0 (bitsOfNat 3 1) = true ∧ 1 + 1 = s.cfgChannels.toNat ∧ s.bcLen.toNat = 2) ∧
    (let h := header 0 1 3 1 0
     let s := bitPayload 3 (encodeHeader h) mono
     faultReady s = true ∧ sampleSizeOk s = true ∧ holdsBitsAt s 0 ((encodeHeader h).take 23) = true ∧
       h.chan.toNat + 1 = s.cfgChannels.toNat ∧ h.hasSize = 1 ∧ s.bcLen.toNat ≤ 6) ∧
    (let h := header 0 1 0 0 8
     let s := bitPayload 6 (encodeHeader h) mono
     holdsBitsAt s 0 ((encodeHeader h).take 23) = true ∧ s.bcLen.toNat = 6) := by decide +kernel
/-- One sample more than the stream's maximum. -/
theorem witness_FdHeaderTraps_count :
    let h := header 0 1 0 0 9
    let s := bitPayload 7 (encodeHeader h) mono
    faultReady s = true ∧ sampleSizeOk s = true ∧ holdsBitsAt s 0 (encodeHeader h) = true ∧
      h.chan.toNat + 1 = s.cfgChannels.toNat ∧ h.hasSize = 1 ∧ s.cfgMaxSamples.toNat < h.nsamples.toNat := by
  decide +kernel
/-- The longest table. -/
theorem witness_FdChhdrRule_table :
    let coefs : List (BitVec 16) := List.replicate 31 (-1)
    let s := bitPayload 64 (encodeChhdr 0 15 7 31 coefs) mono
    coefs.length = (31 : BitVec 5).toNat ∧ holdsBits s (encodeChhdr 0 15 7 31 coefs) = true := by decide +kernel
theorem witness_FdChhdrRule_ptype :
    let s := (holding [0x0F] mono).setPos 4
    faultReady s = true ∧ (15 : BitVec 4) ≠ 0 ∧ holdsBits s (bitsOfNat 4 (15 : BitVec 4).toNat) = true := by
  decide +kernel
/-- Three bits are left. -/
theorem witness_FdChhdrRule_cut :
    let s := (holding [0] mono).setPos 5
    faultReady s = true ∧ 8 * s.bcLen.toNat < s.pos + 4 := by decide +kernel
theorem witness_FdRawlowRule_none : mono.fhUb = 0 := by decide +kernel
theorem witness_FdRawlowRule_mono :
    let s := { holding [1, 2, 3] (stream 24 1) with fhUb := 3, fhN := 1 }
    s.fhUb ≠ 0 ∧ s.fhN.toNat ≤ s.prm.bufSamples ∧ s.fhChan = 0 ∧
      holdsFields s (s.fhN.toNat * (channels s).length) (8 * s.fhUb.toNat) = true := by decide +kernel
theorem witness_FdRawlowRule_stereo :
    let s := { holding [1, 2, 3, 4] (stream 24 2) with fhUb := 1, fhN := 2, fhChan := 1 }
    s.fhUb ≠ 0 ∧ s.fhN.toNat ≤ s.prm.bufSamples ∧ s.fhChan ≠ 0 ∧
      holdsFields s (s.fhN.toNat * (channels s).length) (8 * s.fhUb.toNat) = true := by decide +kernel
theorem witness_FdVerbatimRule_mono :
    let s := { holding [1, 2] mono with fhN := 1 }
    sampleSizeOk s = true ∧ s.fhN.toNat ≤ s.prm.bufSamples ∧ s.fhChan = 0 ∧
      holdsFields s (s.fhN.toNat * (channels s).length) s.cfgSampleSize.toNat = true := by decide +kernel
theorem witness_FdVerbatimRule_stereo :
    let s := { holding [1, 2, 3, 4, 5, 6] (stream 24 2) with fhN := 1, fhChan := 1 }
    sampleSizeOk s = true ∧ s.fhN.toNat ≤ s.prm.bufSamples ∧ s.fhChan ≠ 0 ∧
      holdsFields s (s.fhN.toNat * (channels s).length) s.cfgSampleSize.toNat = true := by decide +kernel
theorem witness_FdMixRule :
    let s := mixing [100, 5] [-7, 3]
    s.fhChan = 1 ∧ 0 < s.fhN.toNat ∧ s.fhN.toNat ≤ s.prm.bufSamples ∧
      (31 : BitVec 8).toNat ≤ 31 ∧ (255 : BitVec 8) ≠ 0 := by decide +kernel
theorem witness_FdPack16Rule :
    let s := mixing [100, 5] [-7, 3]
    s.cfgSampleSize = 16 ∧ s.fhChan.toNat ≤ 1 ∧ s.fhChan.toNat + 1 = s.cfgChannels.toNat ∧
      0 < s.fhN.toNat ∧ s.fhN.toNat ≤ s.prm.bufSamples := by decide +kernel
theorem witness_FdPack24Rule :
    let s := { stream 24 1 with fhN := 352, fhUb := 2 }
    s.cfgSampleSize = 24 ∧ s.fhChan.toNat ≤ 1 ∧ s.fhChan.toNat + 1 = s.cfgChannels.toNat ∧
      0 < s.fhN.toNat ∧ s.fhN.toNat ≤ s.prm.bufSamples := by decide +kernel
/-- A stereo frame of one sample pair, 24 bits, a UB that the uncompressed path ignores. -/
theorem witness_UncompressedFrames_stereo :
    let h := header 1 1 3 1 1
    let xs : List Word := [0x123456, 0xFFFFFE]
    let s := bitPayload 13 (encodeHeader h ++ xs.flatMap (verbatimBits (stream 24 2))) (stream 24 2)
    frameReady h s = true ∧ h.cf = 1 ∧ xs.length = (headerCount h s).toNat * (h.chan.toNat + 1) ∧
      holdsBitsAt s 0 (encodeHeader h ++ xs.flatMap (verbatimBits s)) = true := by decide +kernel
/-- A mono frame of the stream's own count, 16 bits. -/
theorem witness_UncompressedFrames_mono :
    let h := header 0 0 0 1 0
    let xs : List Word := [1, 2, 3, 4, 5, 6, 7, 0xFFFF]
    let s := bitPayload 19 (encodeHeader h ++ xs.flatMap (verbatimBits mono)) mono
    frameReady h s = true ∧ h.cf = 1 ∧ xs.length = (headerCount h s).toNat * (h.chan.toNat + 1) ∧
      holdsBitsAt s 0 (encodeHeader h ++ xs.flatMap (verbatimBits s)) = true := by decide +kernel
/-- Two coefficients, a rice modifier, one raw byte a sample, two samples: a 24-bit mono frame. -/
theorem witness_MonoCompressedFrames :
    let h := header 0 1 1 0 2
    let coefs : List (BitVec 16) := [3, -1]
    let before := encodeHeader h ++ (bitsOfNat 16 (0xFFFF : BitVec 16).toNat ++ encodeChhdr 0 4 4 2 coefs)
    let raw := w 8 0xAB ++ w 8 0x01
    let s := bitPayload 18 (before ++ raw ++ w 6 0b111010) (stream 24 1)
    let o := streamOperands h 4 s
    frameReady h s = true ∧ h.cf = 0 ∧ h.chan = 0 ∧ ubLegal h s = true ∧ coefs.length = (2 : BitVec 5).toNat ∧
      raw.length = (headerCount h s).toNat * (8 * h.ub.toNat) ∧ holdsBitsAt s 0 (before ++ raw) = true ∧
      streamFrom s o [(.unary 3, none), (.unary 1, none)] 0 o.initHist 0 (before ++ raw).length =
        some ⟨[-2, -1], 160, 0, 141⟩ := by decide +kernel
/-- The smallest: no samples, order 0, no raw bytes. -/
theorem witness_MonoCompressedFrames_empty :
    let h := header 0 1 0 0 0
    let before := encodeHeader h ++ (bitsOfNat 16 (0 : BitVec 16).toNat ++ encodeChhdr 0 15 7 0 [])
    let s := bitPayload 11 before mono
    let o := streamOperands h 7 s
    frameReady h s = true ∧ h.cf = 0 ∧ h.chan = 0 ∧ ubLegal h s = true ∧
      ([] : List (BitVec 16)).length = (0 : BitVec 5).toNat ∧
      ([] : List Bool).length = (headerCount h s).toNat * (8 * h.ub.toNat) ∧ holdsBitsAt s 0 (before ++ []) = true ∧
      streamFrom s o [] 0 o.initHist 0 (before ++ []).length = some ⟨[], 10, 0, 87⟩ := by decide +kernel
/-- A 24-bit stereo frame of one sample pair: the largest legal UB, a weight, difference mode for A, order 0
for B, an escape in A. -/
theorem witness_StereoCompressedFrames :
    let h := header 1 1 2 0 1
    let coefs : List (BitVec 16) := List.replicate 31 0
    let before := encodeHeader h ++ (bitsOfNat 8 (31 : BitVec 8).toNat ++ (bitsOfNat 8 (255 : BitVec 8).toNat ++
      (encodeChhdr 0 1 4 31 coefs ++ encodeChhdr 0 2 0 0 [])))
    let raw := w 16 0xABCD ++ w 16 1
    let s := bitPayload 82 (before ++ raw ++ (List.replicate 9 true ++ w 9 511) ++ [true, false]) (stream 24 2)
    let oa := streamOperands h 4 s
    let ob := streamOperands h 0 s
    frameReady h s = true ∧ h.cf = 0 ∧ h.chan = 1 ∧ ubLegal h s = true ∧ (31 : BitVec 8).toNat ≤ 31 ∧
      coefs.length = (31 : BitVec 5).toNat ∧ raw.length = (headerCount h s).toNat * 2 * (8 * h.ub.toNat) ∧
      holdsBitsAt s 0 (before ++ raw) = true ∧
      streamFrom s oa [(.esc 511, none)] 0 oa.initHist 0 (before ++ raw).length = some ⟨[-256], 20450, 0, 649⟩ ∧
      streamFrom s ob [(.unary 1, none)] 0 ob.initHist 0 649 = some ⟨[-1], 10, 0, 651⟩ := by decide +kernel
/-- LEFTWEIGHT 0 with a shift above 31. -/
theorem witness_StereoCompressedFrames_direct :
    let h := header 1 1 0 0 0
    let before := encodeHeader h ++ (bitsOfNat 8 (255 : BitVec 8).toNat ++ (bitsOfNat 8 (0 : BitVec 8).toNat ++
      (encodeChhdr 0 1 4 0 [] ++ encodeChhdr 0 2 0 0 [])))
    let s := bitPayload 13 before stereo
    frameReady h s = true ∧ h.cf = 0 ∧ h.chan = 1 ∧ ubLegal h s = true ∧ holdsBitsAt s 0 (before ++ []) = true ∧
      streamFrom s (streamOperands h 4 s) [] 0 10 0 (before ++ []).length = some ⟨[], 10, 0, 103⟩ := by decide +kernel
/-- UB 1 in a 16-bit stream; UB 3 in a 24-bit stream. -/
theorem witness_CompressedFrameTraps_ub :
    (let h := header 0 1 1 0 1
     let s := bitPayload 7 (encodeHeader h) mono
     frameReady h s = true ∧ h.cf = 0 ∧ ubLegal h s = false ∧ holdsBitsAt s 0 (encodeHeader h) = true) ∧
    (let h := header 1 0 3 0 1
     let s := bitPayload 7 (encodeHeader h) (stream 24 2)
     frameReady h s = true ∧ h.cf = 0 ∧ ubLegal h s = false ∧ holdsBitsAt s 0 (encodeHeader h) = true) := by
  decide +kernel
/-- The payload ends right after the header's byte: inside the 16 ignored bits, inside SHIFT; and after
SHIFT, inside LEFTWEIGHT. -/
theorem witness_CompressedFrameTraps_cut :
    (let h := header 0 1 0 0 0
     let s := bitPayload 8 (encodeHeader h) mono
     frameReady h s = true ∧ ubLegal h s = true ∧ holdsBitsAt s 0 (encodeHeader h) = true ∧ h.chan = 0 ∧
       8 * s.bcLen.toNat < bodyStart h + 16) ∧
    (let h := header 1 0 2 0 0
     let s := bitPayload 3 (encodeHeader h) (stream 24 2)
     frameReady h s = true ∧ ubLegal h s = true ∧ holdsBitsAt s 0 (encodeHeader h) = true ∧ h.chan = 1 ∧
       8 * s.bcLen.toNat < bodyStart h + 8) ∧
    (let h := header 1 0 1 0 0
     let s := bitPayload 4 (encodeHeader h ++ bitsOfNat 8 40) (stream 24 2)
     frameReady h s = true ∧ ubLegal h s = true ∧ h.chan = 1 ∧ 8 * s.bcLen.toNat < bodyStart h + 16 ∧
       holdsBitsAt s 0 (encodeHeader h ++ bitsOfNat 8 (40 : BitVec 8).toNat) = true) := by decide +kernel
/-- With raw bytes and without. -/
theorem witness_CompressedFrameTraps_shift :
    (let h := header 1 1 0 0 1
     let s := bitPayload 9 (encodeHeader h ++ (bitsOfNat 8 32 ++ bitsOfNat 8 1)) stereo
     frameReady h s = true ∧ h.cf = 0 ∧ ubLegal h s = true ∧ h.chan = 1 ∧ 31 < (32 : BitVec 8).toNat ∧
       holdsBitsAt s 0 (encodeHeader h ++ (bitsOfNat 8 (32 : BitVec 8).toNat ++ bitsOfNat 8 (1 : BitVec 8).toNat)) =
         true) ∧
    (let h := header 1 1 2 0 0
     let s := bitPayload 9 (encodeHeader h ++ (bitsOfNat 8 255 ++ bitsOfNat 8 255)) (stream 24 2)
     frameReady h s = true ∧ ubLegal h s = true ∧ h.chan = 1 ∧
       holdsBitsAt s 0 (encodeHeader h ++ (bitsOfNat 8 (255 : BitVec 8).toNat ++ bitsOfNat 8 (255 : BitVec 8).toNat)) =
         true) := by decide +kernel
/-! ### Unit JB -/

/-- The largest difference that fits; both kinds of mode. -/
theorem witness_SyncRule :
    mono.lock = false ∧ mono.mode = .ready ∧ blank.mode = .unconfigured ∧
      timeFits ((2 ^ 63 - 1 : Time).toInt - (0 : Time).toInt) ∧ timeFits ((0 : Time).toInt - (2 ^ 63 - 1 : Time).toInt) := by
  decide +kernel
theorem witness_TranslationRule :
    let s := { playing 0 [] with jbOffset := 999648 }
    s.lock = false ∧ s.jbOffsetValid = true ∧ timeFits ((704 : Time).toInt + s.jbOffset.toInt) ∧
      timeFits ((704 : Time).toInt - s.jbOffset.toInt) ∧ blank.lock = false ∧ blank.jbOffsetValid = false := by
  decide +kernel

/-- What every clause of EnqueueRule asks of a state, for two frames. -/
def enqueueReady (key : Time) (s : State) : Prop :=
  s.lock = false ∧ enqueueBytesOk s twoFrames = true ∧ Queue.wf s.jbQueue = true ∧
    (s.jbOffsetValid = true → timesFit s key (framesOf s twoFrames))

/-- A closed stream that was never configured, and bytes that no open one takes. -/
theorem witness_EnqueueRule_closing :
    let s := { blank with jbClosing := true }
    s.lock = false ∧ s.jbClosing = true ∧ enqueueBytesOk s [] = false ∧
      shows (exec (.jbEnq 0 []) s) (·.resp) = some (.status .badMode) := by decide +kernel
/-- The entry ends exactly at the line. -/
theorem witness_EnqueueRule_late :
    let s := playing 1056 []
    enqueueReady 1054 s ∧ s.jbClosing = false ∧ s.jbOffsetValid = true ∧
      lineTime s 1054 + framesOf s twoFrames ≤ s.jbWritten.toInt := by unfold enqueueReady; decide +kernel
/-- One frame beyond the horizon. -/
theorem witness_EnqueueRule_early :
    let s := playing 0 []
    enqueueReady 999 s ∧ s.jbClosing = false ∧ ¬ lineTime s 999 + framesOf s twoFrames ≤ s.jbWritten.toInt ∧
      (s.prm.jbHorizon : Int) < lineTime s 999 + framesOf s twoFrames - s.jbWritten.toInt := by
  unfold enqueueReady; decide +kernel
/-- A full queue and a new key, within the horizon. -/
theorem witness_EnqueueRule_full :
    let s := playing 0 [(10, twoFrames), (20, twoFrames)]
    enqueueReady 998 s ∧ s.jbClosing = false ∧ ¬ lineTime s 998 + framesOf s twoFrames ≤ s.jbWritten.toInt ∧
      ¬ (s.prm.jbHorizon : Int) < lineTime s 998 + framesOf s twoFrames - s.jbWritten.toInt ∧
      (Queue.find s.jbQueue 998).isSome = false ∧ s.jbQueue.length = s.prm.jbCapacity := by
  unfold enqueueReady; decide +kernel
/-- A full queue and a held key; a queue with room and a new key, before the first SYNC. -/
theorem witness_EnqueueRule_insert :
    (let s := playing 0 [(10, twoFrames), (20, twoFrames)]
     enqueueReady 10 s ∧ s.jbClosing = false ∧ ¬ lineTime s 10 + framesOf s twoFrames ≤ s.jbWritten.toInt ∧
       ¬ (s.prm.jbHorizon : Int) < lineTime s 10 + framesOf s twoFrames - s.jbWritten.toInt ∧
       (Queue.find s.jbQueue 10).isSome = true) ∧
    (let s := { stereo with jbQueue := [(10, twoFrames)] }
     enqueueReady (-5) s ∧ s.jbClosing = false ∧ s.jbOffsetValid = false ∧
       ¬ s.jbQueue.length = s.prm.jbCapacity) := by unfold enqueueReady; decide +kernel
theorem witness_DrainSilence_idle :
    let s := playing 5 []
    s.lock = false ∧ drainEnabled s = true ∧ 0 < bytesPerFrame s ∧ timeFits (s.jbWritten.toInt + quantum s) := by
  decide +kernel
/-- A gap of one frame; a gap of more than a quantum. -/
theorem witness_DrainSilence_gap :
    (let s := playing 5 [(6, twoFrames)]
     s.lock = false ∧ drainEnabled s = true ∧ 0 < bytesPerFrame s ∧ timesFit s 6 (framesOf s twoFrames) ∧
       lineTime s 6 - s.jbWritten.toInt = 1) ∧
    (let s := playing 5 [(14, twoFrames)]
     drainEnabled s = true ∧ timesFit s 14 (framesOf s twoFrames) ∧
       lineTime s 14 - s.jbWritten.toInt = quantum s + 1) := by decide +kernel
/-- The three clauses at gaps 0, -1 and -n, for an entry of n = 2 frames. -/
theorem witness_DrainEntry :
    (let s := playing 8 [(8, twoFrames)]
     s.lock = false ∧ drainEnabled s = true ∧ enqueueBytesOk s twoFrames = true ∧
       timesFit s 8 (framesOf s twoFrames) ∧ lineTime s 8 - s.jbWritten.toInt = 0) ∧
    (let s := playing 9 [(8, twoFrames)]
     timesFit s 8 (framesOf s twoFrames) ∧ -(framesOf s twoFrames : Int) < lineTime s 8 - s.jbWritten.toInt ∧
       lineTime s 8 - s.jbWritten.toInt < 0) ∧
    (let s := playing 10 [(8, twoFrames)]
     timesFit s 8 (framesOf s twoFrames) ∧ lineTime s 8 - s.jbWritten.toInt = -(framesOf s twoFrames : Int)) := by
  decide +kernel
/-- Each condition in some state, at its boundary, for an entry of two frames: an empty queue, the gaps 1, 0,
-1 and -2; and a DRAIN that is not enabled. -/
theorem witness_DrainExclusive :
    (let s := playing 5 []
     s.lock = false ∧ s.jbOffsetValid = true ∧ s.jbClosing = false ∧ s.sinkReady = true ∧ s.cfgSampleSize = 16 ∧
       s.jbQueue = []) ∧
    ([6, 5, 4, 3].map fun key : Time =>
      let s := playing 5 [(key, twoFrames)]
      (decide (s.jbQueue = (key, twoFrames) :: [] ∧ timeFits (lineTime s key) ∧
        timeFits (lineTime s key - s.jbWritten.toInt)), lineTime s key - s.jbWritten.toInt, framesOf s twoFrames)) =
      [(true, 1, 2), (true, 0, 2), (true, -1, 2), (true, -2, 2)] ∧
    mono.lock = false ∧ mono.jbOffsetValid = false := by decide +kernel
theorem witness_CloseRule : stereo.lock = false := by decide +kernel

/-! ### Host commands -/

theorem witness_ResetRule : (playing 4 [(5, twoFrames)]).lock = false ∧ (playing 4 [(5, twoFrames)]).decPend = false := by
  decide +kernel
/-- The clauses of ConfigureRule: another mode; a maximum of 0 or one above BUF_SAMPLES, three channels, a
kmodifier of 0 or 32; the largest legal values. -/
theorem witness_ConfigureRule :
    mono.lock = false ∧ mono.mode ≠ .unconfigured ∧ blank.lock = false ∧ blank.mode = .unconfigured ∧
      ¬ 1 ≤ (0 : BitVec 32).toNat ∧ ¬ (353 : BitVec 32).toNat ≤ blank.prm.bufSamples ∧
      ¬ ((3 : BitVec 8) = 1 ∨ (3 : BitVec 8) = 2) ∧ ¬ (32 : BitVec 8).toNat ≤ 31 ∧
      (352 : BitVec 32).toNat ≤ blank.prm.bufSamples := by decide +kernel
theorem witness_DecodeAlwaysAnswers :
    mono.mode = .ready ∧ mono.decPend = false ∧ configLegal mono = true ∧
      (List.replicate 128 (0 : Byte)).length ≤ mono.prm.payloadMax := by decide +kernel
theorem witness_DecodeFaultPrecise :
    (stream 20 2).mode = .ready ∧ (stream 20 2).errCode = 0 ∧
      ∃ t, exec (.hDecode 0 []) (stream 20 2) = .next t ∧ t.mode ≠ .ready := by
  refine ⟨by decide +kernel, by decide +kernel, ?_⟩
  obtain ⟨t, h, hm⟩ := next_of_shows (o := exec (.hDecode 0 []) (stream 20 2)) (f := (·.mode)) (x := .faulted)
    (by decide +kernel)
  exact ⟨t, h, by simp [hm]⟩
/-- One frame of stereo 16-bit samples, the queue with one place left. -/
theorem witness_DecodeThenEnqueue :
    let h := header 1 1 0 1 1
    let xs : List Word := [5, 0xFFFF]
    let s := { stereo with agenda := [.dec, .drain], jbQueue := [(3, twoFrames)] }
    let payload := bytesOfBits 11 (encodeHeader h ++ xs.flatMap (verbatimBits s))
    frameReady h s = true ∧ configLegal s = true ∧ h.cf = 1 ∧ headerCount h s ≠ 0 ∧
      xs.length = (headerCount h s).toNat * (h.chan.toNat + 1) ∧ payload.length ≤ s.prm.payloadMax ∧ payload.length < 2 ^ 32 ∧
      (encodeHeader h ++ xs.flatMap (verbatimBits s)).isPrefixOf (bitsOfBytes payload) = true ∧
      s.lock = false ∧ s.jbClosing = false ∧ s.jbOffsetValid = false ∧ Queue.find s.jbQueue 7 = none ∧
      s.jbQueue.length < s.prm.jbCapacity ∧ s.agenda = .dec :: [.drain] := by decide +kernel
/-- The clauses of HostEnqueueRule: another mode; nine frames and a broken frame; eight frames. -/
theorem witness_HostEnqueueRule :
    blank.mode ≠ .ready ∧ stereo.lock = false ∧ stereo.mode = .ready ∧
      stereo.cfgMaxSamples.toNat < (List.replicate 36 (0 : Byte)).length / bytesPerFrame stereo ∧
      (List.replicate 31 (0 : Byte)).length % bytesPerFrame stereo ≠ 0 ∧
      ¬ ((stereo.cfgSampleSize ≠ 16 ∧ stereo.cfgSampleSize ≠ 24) ∨ (List.replicate 32 (0 : Byte)).length = 0 ∨
        (List.replicate 32 (0 : Byte)).length % bytesPerFrame stereo ≠ 0 ∨
        stereo.cfgMaxSamples.toNat < (List.replicate 32 (0 : Byte)).length / bytesPerFrame stereo) := by decide +kernel
theorem witness_StatusRule : mono.lock = false := by decide +kernel
/-- The four modes, and a payload one byte too long. -/
theorem witness_AdmissionTable :
    [blank.mode, mono.mode, { mono with mode := Mode.faulted }.mode, { mono with mode := Mode.closed }.mode] =
      [.unconfigured, .ready, .faulted, .closed] ∧ mono.lock = false ∧ mono.decPend = false ∧
    mono.prm.payloadMax < (List.replicate 129 (0 : Byte)).length := by decide +kernel
theorem witness_RefusedCommandsChangeNothing :
    (Instr.hSync 0 0).source = .host ∧
      (∃ t, exec (.hSync 0 0) blank = .next t ∧ t.resp = .status .badMode) ∧ 1 ≤ (Status.code .badMode).toNat ∧
      (Status.code .badMode).toNat ≤ 4 :=
  ⟨rfl, next_of_shows (by decide +kernel), by decide, by decide⟩

/-! ### Fetch and decode -/

theorem witness_StepRunsDecoded_host :
    let s := { blank with agenda := [.host (w 4 5), .drain] }
    s.agenda = .host (w 4 5) :: [.drain] ∧ decode s.prm.profile.riceUnreadMax .host (w 4 5) = .ok (.hClose, []) := by
  decide +kernel
theorem witness_StepRunsDecoded_unit :
    let s := { holding [0xFF, 0] mono with agenda := [.unit (.rice 16 1 0)] }
    s.agenda = .unit (.rice 16 1 0) :: [] ∧
      decode s.prm.profile.riceUnreadMax (.rice 16 1 0) (unitBits s (.rice 16 1 0)) =
        .ok (.rdValueUnary 16 1 0, List.replicate 7 false) := by decide +kernel
theorem witness_StepAgentTurns_drain :
    let s := { playing 5 [] with agenda := [.drain] }
    s.lock = false ∧ s.drainAwake = true ∧ drainEnabled s = true ∧ { s with drainAwake := false }.drainAwake = false ∧
      drainEnabled { s with sinkReady := false } = false := by decide +kernel
theorem witness_StepAgentTurns_dec :
    let s := { stereo with agenda := [.dec], decPend := true, pcm := [(0, 1), (1, 2), (2, 3), (3, 4)], decLen := 4 }
    s.lock = false ∧ s.agenda = .dec :: [] ∧ s.decPend = true ∧
      Memory.readBytes s.pcm 0 s.decLen = some [1, 2, 3, 4] ∧ stereo.decPend = false ∧ stereo.agenda = [] := by
  decide +kernel
theorem witness_ReservedCommandCodes :
    { blank with agenda := [Turn.host (bitsOfNat 4 7 ++ [true])] }.agenda = .host (bitsOfNat 4 7 ++ [true]) :: [] ∧
      { blank with agenda := [Turn.host (bitsOfNat 4 15 ++ [])] }.agenda = .host (bitsOfNat 4 15 ++ []) :: [] := by
  decide +kernel
theorem witness_DecodeEncode :
    (Instr.rdValueShort 32 31 0).wf = true ∧ (Instr.rdValueLong 1 2 5).wf = true ∧
      (Instr.hEnqueue (-1) (bytes [1, 2])).wf = true ∧ (Instr.lpFir .b 30).wf = true := by decide +kernel

/-! ### The whole machine -/

/-- A stream that plays, an entry due, a drain turn and a command to come. -/
def live : State := { playing 8 [(8, twoFrames)] with agenda := [.drain, .host (w 4 6)], sink := List.replicate 32 0 }

theorem witness_inv : Inv live := by constructor <;> decide +kernel

theorem witness_StepKeepsInvariant : Inv live ∧ ∃ t, step live = .next t ∧ t.sink.length = 40 :=
  ⟨witness_inv, next_of_shows (by decide +kernel)⟩
/-- The four ways that the mode moves. -/
theorem witness_ModeTransitions :
    (∃ t, exec .hReset mono = .next t ∧ t.mode = .unconfigured) ∧
    (∃ t, exec (.hConfigure 352 16 40 10 31 2 48000) blank = .next t ∧ t.mode = .ready) ∧
    (∃ t, exec (.bcRead 32) (holding [1] mono) = .next t ∧ t.mode = .faulted) ∧
    (∃ t, exec .hClose mono = .next t ∧ t.mode = .closed) ∧
    { mono with mode := Mode.faulted }.mode ≠ .ready ∧
    (∃ t, exec (.lpCopy .a) { mono with mode := .faulted, decPend := true } = .next t ∧ t.decPend = true) :=
  ⟨next_of_shows (by decide +kernel), next_of_shows (by decide +kernel), next_of_shows (by decide +kernel),
    next_of_shows (by decide +kernel), by decide +kernel, next_of_shows (by decide +kernel)⟩
theorem witness_SinkCountsFrames :
    Inv live ∧ SinkCounts live ∧ live.jbWritten.toInt + 2 ^ 32 < 2 ^ 63 ∧
      ∃ t, exec .jbDrainEmit live = .next t ∧ t.jbWritten = 10 :=
  ⟨witness_inv, by unfold SinkCounts; decide +kernel, by decide +kernel, next_of_shows (by decide +kernel)⟩
/-- CONFIGURE, with nothing emitted yet. -/
theorem witness_SinkCountsFrames_configure :
    let s := { blank with agenda := [] }
    SinkCounts s ∧ s.jbWritten.toInt + 2 ^ 32 < 2 ^ 63 ∧ s.sink = [] ∧
      ∃ t, exec (.hConfigure 352 16 40 10 31 2 48000) s = .next t ∧ t.mode = .ready :=
  ⟨by unfold SinkCounts; decide +kernel, by decide +kernel, by decide +kernel, next_of_shows (by decide +kernel)⟩
theorem witness_ConfigurationImmutable :
    mono.mode ≠ .unconfigured ∧ mono.lock = false ∧
      ∃ t, exec (.hConfigure 352 16 40 10 31 2 48000) mono = .next t ∧ t.resp = .status .badMode :=
  ⟨by decide +kernel, by decide +kernel, next_of_shows (by decide +kernel)⟩
/-- A DECODE, and an operation that takes the lock. -/
theorem witness_UnitsKeepApart :
    takesLock (.hDecode 0 []) = false ∧ takesLock (.jbSync 1 0) = true ∧
      (∃ t, exec (.hDecode 0 []) mono = .next t ∧ t.mode = .faulted) ∧
      (∃ t, exec (.jbSync 1 0) mono = .next t ∧ t.jbOffset = 1) :=
  ⟨rfl, rfl, next_of_shows (by decide +kernel), next_of_shows (by decide +kernel)⟩
/-- A word of the unary form where another form is asked for. -/
theorem witness_StopsByName_rice :
    riceWord 16 1 0 (holding [0xFF, 0] mono) = .ok (.unary, 8) ((holding [0xFF, 0] mono).setPos 9) ∧
      RiceForm.unary ≠ .esc := by decide +kernel
/-- Frames of each of the four kinds. -/
theorem witness_StopsByName_frame :
    ([(0, 0), (0, 1)].all fun p : Nat × Nat =>
      let h := header p.1 1 0 p.2 0
      let s := bitPayload 7 (encodeHeader h) mono
      frameReady h s && holdsBitsAt s 0 (encodeHeader h) && h.chan == 0 && h.cf.toNat == p.2) = true ∧
    ([(1, 0), (1, 1)].all fun p : Nat × Nat =>
      let h := header p.1 1 0 p.2 0
      let s := bitPayload 7 (encodeHeader h) stereo
      frameReady h s && holdsBitsAt s 0 (encodeHeader h) && h.chan == 1 && h.cf.toNat == p.2) = true := by
  decide +kernel
theorem witness_StopsByName_operands :
    (0 < 1 ∨ 32 < 0) ∧ (33 < 1 ∨ 32 < 33) ∧ mono.cfgSampleSize ≠ 24 ∧ (stream 24 1).cfgSampleSize ≠ 16 ∧
      (stream 20 1).cfgSampleSize ≠ 16 ∧ (stream 20 1).cfgSampleSize ≠ 24 ∧ mono.fhChan = 0 ∧
      (o16 4).count ≤ 3 + 1 ∧ 128 ≤ { mono with rsHistory := 128 }.rsHistory.toInt ∧ mono.prm.bufSamples ≤ 352 ∧
      2 < { mono with cfgChannels := 3 }.cfgChannels.toNat := by decide +kernel
/-- One sample more than the buffers hold, for every clause. -/
theorem witness_StopsByName_buffers :
    let s := { stereo with fhN := 353, fhUb := 1, fhChan := 1 }
    s.prm.bufSamples < s.fhN.toNat ∧ s.fhUb ≠ 0 ∧ sampleSizeOk s = true ∧ s.fhChan ≠ 0 ∧ s.cfgChannels.toNat ≤ 2 := by
  decide +kernel
/-- LEN names a byte that the buffer does not hold; a read beyond the payload in mode CLOSED. -/
theorem witness_StopsByName_cursor :
    (let s := { holding [1] mono with bcLen := 2 }
     s.pos + 16 ≤ 8 * s.bcLen.toNat ∧ ∃ i < 16, payloadBit s.payload (s.pos + i) = none) ∧
    (let s := { holding [1] mono with mode := .closed }
     8 * s.bcLen.toNat < s.pos + 9 ∧ s.mode ≠ .ready) := by decide +kernel
/-- A stereo frame, and the channel field that an unsupported header leaves. -/
theorem witness_UnstatedOperandsRun :
    (let s := { mixing [100, 5] [-7, 3] with fhChan := 7 }
     s.fhChan ≠ 0 ∧ 0 < s.fhN.toNat ∧ s.fhN.toNat ≤ s.prm.bufSamples ∧ 31 < (255 : BitVec 8).toNat) ∧
    ∃ t, exec .fdPack16 { { mixing [100, 5] [-7, 3] with fhChan := 7 } with fhChan := 1 } = .next t ∧
      t.pcm.length = 8 :=
  ⟨by decide +kernel, next_of_shows (by decide +kernel)⟩
/-- Bytes that are no whole frame, one frame more than a quantum, and no frames at all. -/
theorem witness_UnstatedOperandsRun_enqueue :
    let s := playing 0 []
    s.lock = false ∧ s.jbClosing = false ∧ (bytes [1]).length % bytesPerFrame s ≠ 0 ∧
      s.cfgMaxSamples.toNat <
        (List.replicate ((quantum s + 1) * bytesPerFrame s) (0 : Byte)).length / bytesPerFrame s ∧
      ([] : List Byte).length = 0 ∧ (stream 20 1).lock = false ∧ (stream 20 1).jbClosing = false ∧
      (stream 20 1).cfgSampleSize ≠ 16 ∧ (stream 20 1).cfgSampleSize ≠ 24 := by decide +kernel
/-- A stereo frame in a mono stream: every frame's left bytes, the last frame's right bytes. -/
theorem witness_UnstatedOperandsRun_pack :
    let s := { mono with fhN := 2, fhChan := 1, mixL := buffer [0x102, 0x304], mixR := buffer [0x506, 0x708] }
    sampleSizeOk s = true ∧ s.cfgChannels.toNat ≤ 2 ∧ s.fhN.toNat ≤ s.prm.bufSamples ∧ 0 < s.cfgChannels.toNat ∧
      1 + 1 = s.fhN.toNat ∧
      shows (exec .fdPack16 s) (fun t => Memory.readBytes t.pcm 0 6) = some (some (bytes [2, 1, 4, 3, 8, 7])) := by
  decide +kernel
theorem witness_OverlapRefused :
    (let s := { mono with decPend := true }
     s.decPend = true ∧ s.mode = .ready ∧ s.lock = false) ∧
    (let s := { mono with decPend := true, mode := .faulted }
     s.decPend = true ∧ s.mode ≠ .ready) := by decide +kernel

end Sys2Proof.Tests
end

/-! SUPPORT. The canonical form of the decoder's buffers (R27, R28, R38): what each write to them keeps. -/

namespace Sys2Proof.Machine

/-! ## Coefficients (R27, R185) -/

/-- Every entry of a coefficient file is a `w`-bit number, sign-extended to 32 bits (R27). -/
def CoefsFit (w : Nat) (coef : Vector Word 31) : Prop := ∀ v ∈ coef.toList, sext w v = v

@[simp] theorem sext_32 (v : Word) : sext 32 v = v := by
  rw [sext_in 32 v ⟨by omega, by omega⟩, BitVec.setWidth_eq, BitVec.signExtend_eq]

theorem sext_idem (n : Nat) (v : Word) (h : 1 ≤ n ∧ n ≤ 32) : sext n (sext n v) = sext n v := by
  have low : ((v.setWidth n).signExtend 32).setWidth n = v.setWidth n := by
    apply BitVec.eq_of_getLsbD_eq
    intro i hi
    have hi32 : i < 32 := by omega
    rw [BitVec.getLsbD_setWidth, BitVec.getLsbD_signExtend]
    simp [hi, hi32]
  rw [sext_in n _ h, sext_in n v h, low]

/-- Coefficients are written at COEF_W bits (R187). -/
theorem sext_coefW_idem (p : Config.Profile) (v : Word) : sext p.coefW (sext p.coefW v) = sext p.coefW v := by
  cases p <;> exact sext_idem _ v (by decide)

/-- Coefficients are read as 16-bit numbers (R218), which both COEF_W hold (R7, U3). -/
theorem sext_coefW_sext_16 (p : Config.Profile) (v : Word) : sext p.coefW (sext 16 v) = sext 16 v := by
  cases p
  · exact sext_idem 16 v (by decide)
  · exact sext_32 _

theorem CoefsFit.set {w : Nat} {coef : Vector Word 31} (h : CoefsFit w coef) (j : Nat) {v : Word}
    (hv : sext w v = v) : CoefsFit w (coefSet coef j v) := by
  intro u hu
  rw [coefSet, Vector.toList_setIfInBounds] at hu
  rcases List.mem_or_eq_of_mem_set hu with hu | rfl
  · exact h u hu
  · exact hv

/-- The adaptation writes COEF_W-bit numbers only (R187). -/
theorem CoefsFit.adaptTaps {p : Config.Profile} {coef : Vector Word 31} (h : CoefsFit p.coefW coef)
    (out : File 32) (order quant b : Nat) (neg : Bool) (tap : Nat) (e : Word) :
    CoefsFit p.coefW (adaptTaps p.coefW out order quant b neg tap e coef) := by
  induction tap generalizing e coef with
  | zero => exact h
  | succ tap ih =>
    rw [Machine.adaptTaps]
    by_cases budget : if neg then e.toInt < 0 else 0 < e.toInt
    · rw [if_pos budget]
      exact ih (h.set tap (sext_coefW_idem p _)) _
    · rwa [if_neg budget]

theorem CoefsFit.adapt {p : Config.Profile} {coef : Vector Word 31} (h : CoefsFit p.coefW coef)
    (out : File 32) (order quant b : Nat) (e : Word) :
    CoefsFit p.coefW (adapt p.coefW out order quant b e coef) := by
  unfold Machine.adapt
  split
  · exact h.adaptTaps _ _ _ _ _ _ _
  · split
    · exact h.adaptTaps _ _ _ _ _ _ _
    · exact h

/-! ## Loops over a buffer -/

/-- A loop that writes entries of a sample buffer keeps its canonical form. -/
theorem File.wf_forN {w : Nat} {f : File w} (h : File.wf f = true) (n : Nat) (idx : Nat → Nat)
    (v : Nat → File w → BitVec w) :
    File.wf (forN n (fun i g => File.write g (idx i) (v i g)) f) = true :=
  forN_keeps (fun g : File w => File.wf g = true) n _ f h fun i _ g hg => File.wf_write hg (idx i) (v i g)

/-! ## A channel's registers -/

theorem ChanRegs.wf_iff (w : Nat) (r : ChanRegs) :
    r.wf w = true ↔
      File.wf r.resid = true ∧ File.wf r.out = true ∧ File.wf r.raw = true ∧ CoefsFit w r.coef := by
  simp only [ChanRegs.wf, CoefsFit, Bool.and_eq_true, List.all_eq_true, beq_iff_eq, and_assoc]

theorem ChanRegs.wf_reset (p : Config.Profile) : ChanRegs.reset.wf p.coefW = true := by
  cases p <;> decide

theorem ChanRegs.wf_writeResid {w : Nat} {r : ChanRegs} (h : r.wf w = true) (i : Nat) (v : Word) :
    ChanRegs.wf w { r with resid := File.write r.resid i v } = true := by
  obtain ⟨hresid, hout, hraw, hcoef⟩ := (wf_iff w r).mp h
  exact (wf_iff ..).mpr ⟨File.wf_write hresid i v, hout, hraw, hcoef⟩

theorem ChanRegs.wf_zeroResid {w : Nat} {r : ChanRegs} (h : r.wf w = true) (i n : Nat) :
    ChanRegs.wf w { r with resid := forN n (fun j f => File.write f (i + j) 0) r.resid } = true := by
  obtain ⟨hresid, hout, hraw, hcoef⟩ := (wf_iff w r).mp h
  exact (wf_iff ..).mpr ⟨File.wf_forN hresid n (i + ·) fun _ _ => 0, hout, hraw, hcoef⟩

theorem ChanRegs.wf_writeOut {w : Nat} {r : ChanRegs} (h : r.wf w = true) (i : Nat) (v : Word) :
    ChanRegs.wf w { r with out := File.write r.out i v } = true := by
  obtain ⟨hresid, hout, hraw, hcoef⟩ := (wf_iff w r).mp h
  exact (wf_iff ..).mpr ⟨hresid, File.wf_write hout i v, hraw, hcoef⟩

theorem ChanRegs.wf_writeRaw {w : Nat} {r : ChanRegs} (h : r.wf w = true) (i : Nat) (v : BitVec 24) :
    ChanRegs.wf w { r with raw := File.write r.raw i v } = true := by
  obtain ⟨hresid, hout, hraw, hcoef⟩ := (wf_iff w r).mp h
  exact (wf_iff ..).mpr ⟨hresid, hout, File.wf_write hraw i v, hcoef⟩

theorem ChanRegs.wf_writeCoef {p : Config.Profile} {r : ChanRegs} (h : r.wf p.coefW = true) (j : Nat) (v : Word) :
    ChanRegs.wf p.coefW { r with coef := coefSet r.coef j (sext 16 v) } = true := by
  obtain ⟨hresid, hout, hraw, hcoef⟩ := (wf_iff _ r).mp h
  exact (wf_iff ..).mpr ⟨hresid, hout, hraw, hcoef.set j (sext_coefW_sext_16 p v)⟩

/-- The three predictors write OUT through the buffer's own write, and COEF through the adaptation
(R182, R183, R189). -/
theorem ChanRegs.wf_predictCopy {w : Nat} {r : ChanRegs} (h : r.wf w = true) (n : Nat) :
    (predictCopy n r).wf w = true := by
  obtain ⟨hresid, hout, hraw, hcoef⟩ := (wf_iff w r).mp h
  exact (wf_iff ..).mpr ⟨hresid, File.wf_forN hout n id fun i _ => File.read r.resid i, hraw, hcoef⟩

theorem ChanRegs.wf_predictDiff {w : Nat} {r : ChanRegs} (h : r.wf w = true) (n rss : Nat) :
    (predictDiff n rss r).wf w = true := by
  obtain ⟨hresid, hout, hraw, hcoef⟩ := (wf_iff w r).mp h
  unfold predictDiff
  split
  · exact h
  · exact (wf_iff ..).mpr ⟨hresid, File.wf_forN (File.wf_write hout ..) (n - 1) (· + 1) _, hraw, hcoef⟩

theorem wf_warmUp {r : ChanRegs} (h : File.wf r.out = true) (n rss order : Nat) :
    File.wf (warmUp n rss order r) = true :=
  forN_keeps (fun g : File 32 => File.wf g = true) order _ _ (File.wf_write h ..) fun i _ g hg => by
    split
    · exact File.wf_write hg ..
    · exact hg

theorem ChanRegs.wf_predictFir {p : Config.Profile} {r : ChanRegs} (h : r.wf p.coefW = true)
    (n rss order quant : Nat) : (predictFir p.coefW n rss order quant r).wf p.coefW = true := by
  obtain ⟨hresid, hout, hraw, hcoef⟩ := (wf_iff _ r).mp h
  unfold predictFir
  split
  · exact h
  · obtain ⟨hout', hcoef'⟩ := forN_keeps
      (fun oc : File 32 × Vector Word 31 => File.wf oc.1 = true ∧ CoefsFit p.coefW oc.2) (n - (order + 1))
      (fun j => firStep p.coefW rss r.resid order quant (order + 1 + j)) (warmUp n rss order r, r.coef)
      ⟨wf_warmUp hout n rss order, hcoef⟩ fun i _ oc hoc => ⟨File.wf_write hoc.1 .., hoc.2.adapt _ _ _ _ _⟩
    exact (wf_iff ..).mpr ⟨hresid, hout', hraw, hcoef'⟩

/-! ## All buffers of the decoder -/

/-- The buffers that the decoder writes are in canonical form: the part of the invariant that its steps
have to keep. -/
structure BuffersWf (s : State) : Prop where
  /-- The registers of either channel. -/
  chan : ∀ c, (s.chan c).wf s.prm.profile.coefW = true
  mixL : File.wf s.mixL = true
  mixR : File.wf s.mixR = true
  pcm : Memory.wf s.pcm = true

theorem BuffersWf.setChan {s : State} (h : BuffersWf s) (c : Chan) {r : ChanRegs}
    (hr : (s.chan c).wf s.prm.profile.coefW = true → r.wf s.prm.profile.coefW = true) :
    BuffersWf (s.setChan c r) := by
  refine ⟨fun d => ?_, by simpa using h.mixL, by simpa using h.mixR, by simpa using h.pcm⟩
  by_cases hd : d = c
  · subst hd
    simpa using hr (h.chan d)
  · simpa [State.chan_setChan_other s c d r hd] using h.chan d

end Sys2Proof.Machine

/-! SUPPORT. What a step of the decoder may do (R20, R76): it writes decoder registers and nothing else, and
keeps their canonical form. Every operation inside a DECODE is shown to be such a step, so that a fact
about all of them is proved once, of `DecoderStep`. -/

namespace Sys2Proof.Machine

/-! ## The relation -/

/-- The state with the registers that the decoder's steps write blanked: what they leave as it was. -/
def State.outsideDecoder (s : State) : State :=
  { s with
    bcLen := 0, bcIdx := 0, bcAcc := 0
    fhChan := 0, fhHasSize := 0, fhUb := 0, fhCf := 0, fhN := 0, fhRss := 0, fhShift := 0, fhLeftWeight := 0
    chA := ChanRegs.reset, chB := ChanRegs.reset
    rsHistory := 0, rsSignMod := 0
    pcm := [], mixL := [], mixR := [] }

/-- A step of the decoder that neither raises nor completes a frame. -/
structure DecoderStep (s t : State) : Prop where
  outside : t.outsideDecoder = s.outsideDecoder
  buffers : BuffersWf s → BuffersWf t

theorem DecoderStep.refl (s : State) : DecoderStep s s := ⟨rfl, id⟩

theorem DecoderStep.trans {s u t : State} (h : DecoderStep s u) (h' : DecoderStep u t) : DecoderStep s t :=
  ⟨h'.outside.trans h.outside, h'.buffers ∘ h.buffers⟩

theorem DecoderStep.setPos (s : State) (p : Nat) : DecoderStep s (s.setPos p) :=
  ⟨rfl, fun h => ⟨fun c => by simpa using h.chan c, h.mixL, h.mixR, h.pcm⟩⟩

theorem State.outsideDecoder_setChan (s : State) (c : Chan) (r : ChanRegs) :
    (s.setChan c r).outsideDecoder = s.outsideDecoder := by
  cases c <;> rfl

theorem DecoderStep.setChan (s : State) (c : Chan) {r : ChanRegs}
    (hr : (s.chan c).wf s.prm.profile.coefW = true → r.wf s.prm.profile.coefW = true) :
    DecoderStep s (s.setChan c r) :=
  ⟨s.outsideDecoder_setChan c r, fun h => h.setChan c hr⟩

theorem DecoderStep.setPcm (s : State) {m : Memory} (hm : Memory.wf s.pcm = true → Memory.wf m = true) :
    DecoderStep s { s with pcm := m } :=
  ⟨rfl, fun h => ⟨h.chan, h.mixL, h.mixR, hm h.pcm⟩⟩

theorem DecoderStep.setMix (s : State) {l r : File 32} (hl : File.wf s.mixL = true → File.wf l = true)
    (hr : File.wf s.mixR = true → File.wf r = true) : DecoderStep s { s with mixL := l, mixR := r } :=
  ⟨rfl, fun h => ⟨h.chan, hl h.mixL, hr h.mixR, h.pcm⟩⟩

/-- A frame's decoding: a step of the decoder, which may complete the frame (R228). -/
inductive FrameStep (s : State) : State → Prop
  | within {t : State} : DecoderStep s t → FrameStep s t
  | complete {u : State} : DecoderStep s u → FrameStep s (completeFrame u)

theorem FrameStep.after {s u t : State} (h : DecoderStep s u) (h' : FrameStep u t) : FrameStep s t := by
  cases h' with
  | within h' => exact .within (h.trans h')
  | complete h' => exact .complete (h.trans h')

/-! ## Runs of an operation's steps -/

/-- An operation's steps from `s` stay within `R`: where they succeed, and up to the fault entry where they
raise (R330), which they do in READY only (R333). -/
def Res.Along {α : Type} (R : State → State → Prop) (s : State) : Res α → Prop
  | .ok _ t => R s t
  | .raised t => ∃ u e info, R s u ∧ u.mode = .ready ∧ t = faultEntry e info u
  | .stuck _ => True

/-- The steps are steps of the decoder. -/
abbrev Decodes {α : Type} (s : State) (r : Res α) : Prop := r.Along DecoderStep s

section
variable {α β : Type} {s u : State} {r : Res α}

/-- What comes after a step of the decoder. -/
theorem Decodes.after (h : DecoderStep s u) (hr : Decodes u r) : Decodes s r := by
  cases r with
  | ok v t => exact h.trans hr
  | raised t =>
    obtain ⟨w, e, info, hw, hm, rfl⟩ := hr
    exact ⟨w, e, info, h.trans hw, hm, rfl⟩
  | stuck f => trivial

/-- Steps in sequence, the later ones perhaps those of a whole frame. -/
theorem Decodes.frame {k : α → State → Res β} (hr : Decodes s r) (hk : ∀ v u, (k v u).Along FrameStep u) :
    (r.bind k).Along FrameStep s := by
  cases r with
  | ok v u =>
    have hku := hk v u
    rw [Res.bind_ok]
    cases hres : k v u with rw [hres] at hku
    | ok w t => exact FrameStep.after hr hku
    | raised t =>
      obtain ⟨x, e, info, hx, hm, rfl⟩ := hku
      exact ⟨x, e, info, .after hr hx, hm, rfl⟩
    | stuck f => trivial
  | raised t =>
    obtain ⟨w, e, info, hw, hm, rfl⟩ := hr
    exact ⟨w, e, info, .within hw, hm, rfl⟩
  | stuck f => trivial

/-- Steps in sequence. -/
theorem Decodes.bind {k : α → State → Res β} (hr : Decodes s r) (hk : ∀ v u, Decodes u (k v u)) :
    Decodes s (r.bind k) := by
  cases r with
  | ok v u => exact .after hr (hk v u)
  | raised t => exact hr
  | stuck f => trivial

theorem Decodes.raise (e : Cause) (info : Word) (s : State) : Decodes s (raise e info s : Res α) := by
  rcases raise_cases (α := α) e info s with ⟨hm, h⟩ | ⟨-, h⟩
  · rw [h]
    exact ⟨s, e, info, .refl s, hm, rfl⟩
  · rw [h]
    trivial

theorem Decodes.ite {p : Prop} [Decidable p] {r' : Res α} (h : Decodes s r) (h' : Decodes s r') :
    Decodes s (if p then r else r') := by
  split <;> assumption

end

theorem Decodes.forRes (n : Nat) {body : Nat → State → Res Unit} (h : ∀ i s, Decodes s (body i s)) (s : State) :
    Decodes s (forRes n body s) := by
  induction n with
  | zero => exact .refl s
  | succ n ih => exact ih.bind fun _ u => h n u

theorem Decodes.eachChan (cs : List Chan) {body : Chan → State → Res Unit} (h : ∀ c s, Decodes s (body c s))
    (s : State) : Decodes s (eachChan cs body s) := by
  induction cs generalizing s with
  | nil => exact .refl s
  | cons c cs ih => exact (h c s).bind fun _ u => ih u

theorem Decodes.withinBuffers {s : State} {go : Res Unit} (h : Decodes s go) :
    Decodes s (withinBuffers s go) :=
  .ite trivial h

/-! ## The bit cursor -/

theorem Decodes.readBits (n : Nat) (s : State) : Decodes s (readBits n s) := by
  rcases readBits_cases n s with ⟨-, -, -, _, -, h⟩ | ⟨-, -, -, h⟩ | ⟨-, -, -, -, h⟩ | ⟨-, h⟩ <;> rw [h]
  · exact .setPos s _
  · exact .raise ..
  · trivial
  · trivial

theorem Decodes.unreadBits (n : Nat) (s : State) : Decodes s (unreadBits n s) := by
  rcases unreadBits_cases n s with ⟨-, h⟩ | ⟨-, h⟩ <;> rw [h]
  · exact .setPos s _
  · trivial

theorem DecoderStep.initCursor (len : Word) (s : State) : DecoderStep s (initCursor len s) :=
  ⟨rfl, fun h => { h with }⟩

/-! ## The Rice decoder -/

theorem Decodes.ricePrefix (room x : Nat) (s : State) : Decodes s (ricePrefix room x s) := by
  induction room generalizing x s with
  | zero => exact .refl s
  | succ room ih => exact (Decodes.readBits 1 s).bind fun b u => .ite (ih (x + 1) u) (.refl u)

theorem Decodes.riceExtra (k : Int) (mask : Word) (x : Nat) (s : State) : Decodes s (riceExtra k mask x s) :=
  (Decodes.readBits k.toNat s).bind fun _ u =>
    .ite (.refl u) ((Decodes.unreadBits 1 u).bind fun _ u' => .refl u')

theorem Decodes.riceWord (n : Nat) (k : Int) (mask : Word) (s : State) : Decodes s (riceWord n k mask s) :=
  .ite (.raise ..)
    ((Decodes.ricePrefix _ 0 s).bind fun x u =>
      .ite ((Decodes.readBits n u).bind fun _ u' => .refl u') (.ite (.refl u) (.riceExtra k mask x u)))

theorem Decodes.decodeValue (n : Nat) (k : Int) (mask : Word) (s : State) : Decodes s (decodeValue n k mask s) :=
  (Decodes.riceWord n k mask s).bind fun _ u => .refl u

theorem Decodes.riceWordAs (form : RiceForm) (n : Nat) (k : Int) (mask : Word) (s : State) :
    Decodes s (riceWordAs form n k mask s) :=
  (Decodes.riceWord n k mask s).bind fun _ u => .ite (.refl u) trivial

/-- The carry and the history are registers of the Rice decoder alone (R29). -/
theorem DecoderStep.setRice (s : State) (history : BitVec 32) (carry : BitVec 1) :
    DecoderStep s { s with rsHistory := history, rsSignMod := carry } :=
  ⟨rfl, fun h => { h with }⟩

theorem DecoderStep.storeSample (c : Chan) (i : Nat) (hm d : Word) (s : State) :
    DecoderStep s (storeSample c i hm d s) :=
  .trans (.setChan s c fun h => ChanRegs.wf_writeResid h i (fold d)) (.setRice _ _ 0)

theorem DecoderStep.storeRun (c : Chan) (i : Nat) (b : Word) (s : State) : DecoderStep s (storeRun c i b s) := by
  unfold Machine.storeRun
  refine .trans ?_ (.setRice _ _ _)
  split
  · exact .setChan s c fun h => ChanRegs.wf_zeroResid h (i + 1) b.toNat
  · exact .refl s

theorem Decodes.riceSample (c : Chan) (i : Nat) (o : RiceOperands) (s : State) : Decodes s (riceSample c i o s) :=
  .ite trivial ((Decodes.decodeValue ..).bind fun _ u => DecoderStep.storeSample c i o.hm _ u)

theorem Decodes.riceRun (c : Chan) (i : Nat) (o : RiceOperands) (s : State) : Decodes s (riceRun c i o s) :=
  .ite (.raise ..)
    (.after (.setRice s s.rsHistory 1)
      ((Decodes.decodeValue ..).bind fun b u => .ite (.raise ..) (.ite trivial (DecoderStep.storeRun c i b u))))

theorem Decodes.riceLoop (c : Chan) (o : RiceOperands) (fuel i : Nat) (s : State) :
    Decodes s (riceLoop c o fuel i s) := by
  induction fuel generalizing i s with
  | zero => exact .refl s
  | succ fuel ih =>
    exact .ite (.refl s)
      ((Decodes.riceSample c i o s).bind fun _ u =>
        .ite ((Decodes.riceRun c i o u).bind fun b u' => ih _ u') (ih _ u))

theorem Decodes.riceStream (c : Chan) (o : RiceOperands) (s : State) : Decodes s (riceStream c o s) :=
  .after (.setRice s o.initHist 0) (.riceLoop ..)

/-! ## The predictor -/

theorem Decodes.lpCopy (c : Chan) (s : State) : Decodes s (lpCopy c s) :=
  .withinBuffers (DecoderStep.setChan s c fun h => ChanRegs.wf_predictCopy h _)

theorem Decodes.lpDiff (c : Chan) (s : State) : Decodes s (lpDiff c s) :=
  .withinBuffers (DecoderStep.setChan s c fun h => ChanRegs.wf_predictDiff h ..)

theorem Decodes.lpFir (c : Chan) (order : BitVec 5) (s : State) : Decodes s (lpFir c order s) := by
  rcases lpFir_cases c order s with ⟨-, h⟩ | ⟨-, h⟩ | ⟨-, -, h⟩ <;> rw [h]
  · exact .lpCopy c s
  · exact .lpDiff c s
  · exact .withinBuffers (DecoderStep.setChan s c fun h => ChanRegs.wf_predictFir h ..)

end Sys2Proof.Machine

/-! SUPPORT. Every operation of the frame decoder is made of steps of the decoder, and a whole frame is such
steps and its completion (R210, R228). -/

namespace Sys2Proof.Machine

/-! ## Registers of the header -/

/-- The frame-header registers are the decoder's alone (R25). -/
theorem DecoderStep.setHeader (s : State) (chan : BitVec 3) (hasSize : BitVec 1) (ub : BitVec 2) (cf : BitVec 1)
    (n : BitVec 32) (rss : BitVec 6) (shift weight : BitVec 8) :
    DecoderStep s { s with
      fhChan := chan, fhHasSize := hasSize, fhUb := ub, fhCf := cf, fhN := n, fhRss := rss
      fhShift := shift, fhLeftWeight := weight } :=
  ⟨rfl, fun h => { h with }⟩

theorem Decodes.readChan (s : State) : Decodes s (readChan s) :=
  (Decodes.readBits 3 s).bind fun v u =>
    .after (.setHeader u (v.setWidth 3) _ _ _ _ _ _ _)
      (.ite (.raise ..) (.ite (.raise ..) (.refl _)))

theorem Decodes.readFlags (s : State) : Decodes s (readFlags s) :=
  (Decodes.readBits 16 s).bind fun _ s1 =>
    (Decodes.readBits 1 s1).bind fun hasSize s2 =>
      .after (.setHeader s2 _ (hasSize.setWidth 1) _ _ _ _ _ _)
        ((Decodes.readBits 2 _).bind fun ub s3 =>
          .after (.setHeader s3 _ _ (ub.setWidth 2) _ _ _ _ _)
            ((Decodes.readBits 1 _).bind fun cf s4 => .setHeader s4 _ _ _ (cf.setWidth 1) _ _ _ _))

theorem Decodes.checkCount (n : Word) (s : State) : Decodes s (checkCount n s) :=
  .after (.setHeader s _ _ _ _ n _ _ _) (.ite (.raise ..) (.refl _))

theorem Decodes.readCount (s : State) : Decodes s (readCount s) :=
  .ite ((Decodes.readBits 32 s).bind fun n u => .checkCount n u) (.checkCount _ s)

theorem Decodes.frameHeader (len : Word) (s : State) : Decodes s (frameHeader len s) :=
  .ite
    (.after (.initCursor len s)
      ((Decodes.readChan _).bind fun _ s1 => (Decodes.readFlags s1).bind fun _ s2 => .readCount s2))
    (.raise ..)

/-! ## The compressed path -/

theorem Decodes.checkUb (s : State) : Decodes s (checkUb s) :=
  .ite (.raise ..) (DecoderStep.setHeader s _ _ _ _ _ _ _ _)

theorem Decodes.readMix (s : State) : Decodes s (readMix s) :=
  .ite
    (Decodes.bind (.ite (.readBits 16 s) (.refl s)) fun _ u => .setHeader u _ _ _ _ _ _ 0 0)
    ((Decodes.readBits 8 s).bind fun shift s1 =>
      .after (.setHeader s1 _ _ _ _ _ _ (shift.setWidth 8) _)
        ((Decodes.readBits 8 _).bind fun weight s2 =>
          .after (.setHeader s2 _ _ _ _ _ _ _ (weight.setWidth 8)) (.ite (.raise ..) (.refl _))))

theorem Decodes.readCoef (c : Chan) (j : Nat) (s : State) : Decodes s (readCoef c j s) :=
  (Decodes.readBits 16 s).bind fun v u => .setChan u c fun h => ChanRegs.wf_writeCoef h j v

/-- The fields of a channel header stand beside the channel's buffers (R26). -/
theorem DecoderStep.setChanHeader (s : State) (c : Chan) (ptype quant : BitVec 4) (riceMod : BitVec 3)
    (order : BitVec 5) :
    DecoderStep s (s.setChan c
      { s.chan c with ptype := ptype, quant := quant, riceMod := riceMod, order := order }) :=
  .setChan s c id

theorem Decodes.readTable (c : Chan) (s : State) : Decodes s (readTable c s) :=
  (Decodes.readBits 4 s).bind fun quant s1 =>
    .after (.setChanHeader s1 c _ (quant.setWidth 4) _ _)
      ((Decodes.readBits 3 _).bind fun riceMod s2 =>
        .after (.setChanHeader s2 c _ _ (riceMod.setWidth 3) _)
          ((Decodes.readBits 5 _).bind fun order s3 =>
            .after (.setChanHeader s3 c _ _ _ (order.setWidth 5)) (.forRes _ (Decodes.readCoef c) _)))

theorem Decodes.channelHeader (c : Chan) (s : State) : Decodes s (channelHeader c s) :=
  (Decodes.readBits 4 s).bind fun ptype u =>
    .after (.setChanHeader u c (ptype.setWidth 4) _ _ _) (.ite (.raise ..) (.readTable c _))

theorem Decodes.readRaw (ub i : Nat) (c : Chan) (s : State) : Decodes s (readRaw ub i c s) :=
  (Decodes.readBits (8 * ub) s).bind fun _ u => .setChan u c fun h => ChanRegs.wf_writeRaw h i _

theorem Decodes.rawLow (s : State) : Decodes s (rawLow s) :=
  .ite (.refl s) (.withinBuffers (.forRes _ (fun i u => .eachChan _ (Decodes.readRaw _ i) u) s))

theorem Decodes.decodeChannel (c : Chan) (s : State) : Decodes s (decodeChannel c s) :=
  (Decodes.riceStream c _ s).bind fun _ u => .lpFir c _ u

theorem Decodes.compressedBody (s : State) : Decodes s (compressedBody s) :=
  (Decodes.checkUb s).bind fun _ s1 =>
    (Decodes.readMix s1).bind fun _ s2 =>
      (Decodes.eachChan _ Decodes.channelHeader s2).bind fun _ s3 =>
        (Decodes.rawLow s3).bind fun _ s4 => .eachChan _ Decodes.decodeChannel s4

/-! ## The uncompressed path -/

theorem DecoderStep.setOut (c : Chan) (i : Nat) (v : Word) (s : State) : DecoderStep s (setOut c i v s) :=
  .setChan s c fun h => ChanRegs.wf_writeOut h i v

theorem Decodes.readVerbatim (size : BitVec 8) (i : Nat) (c : Chan) (s : State) :
    Decodes s (readVerbatim size i c s) :=
  .ite
    ((Decodes.readBits 16 s).bind fun _ u => DecoderStep.setOut c i _ u)
    ((Decodes.readBits 16 s).bind fun _ s1 =>
      (Decodes.readBits 8 s1).bind fun _ s2 => DecoderStep.setOut c i _ s2)

theorem Decodes.verbatim (s : State) : Decodes s (verbatim s) :=
  .withinBuffers (.forRes _ (fun i u => .eachChan _ (Decodes.readVerbatim _ i) u) s)

theorem Decodes.verbatimBody (s : State) : Decodes s (verbatimBody s) :=
  .after (.setHeader s _ _ 0 _ _ _ 0 0) (.verbatim _)

/-! ## Deinterlacing and packing -/

theorem Decodes.mixWeighted (shift weight : BitVec 8) (s : State) : Decodes s (mixWeighted shift weight s) :=
  .ite trivial
    (.withinBuffers
      (DecoderStep.setMix s (fun h => File.wf_forN h _ id fun _ _ => _) fun h => File.wf_forN h _ id fun _ _ => _))

theorem Decodes.mixDirect (shift : BitVec 8) (s : State) : Decodes s (mixDirect shift s) :=
  .ite trivial
    (.withinBuffers
      (DecoderStep.setMix s (fun h => File.wf_forN h _ id fun _ _ => _) fun h => File.wf_forN h _ id fun _ _ => _))

theorem Decodes.deinterlace (s : State) : Decodes s (deinterlace s) :=
  .ite (.refl s) (.ite (.mixDirect _ s) (.mixWeighted _ _ s))

theorem DecoderStep.packWith (frameBytes : Nat → List Byte) (s : State) : DecoderStep s (packWith frameBytes s) :=
  .setPcm s fun h => forN_keeps (fun m => Memory.wf m = true) _ _ _ h fun _ _ _ hm => Memory.wf_writeBytes hm ..

theorem Decodes.packReady {s t : State} (h : DecoderStep s t) : Decodes s (packReady s t) :=
  .ite trivial (.withinBuffers h)

theorem Decodes.pack16 (s : State) : Decodes s (pack16 s) := .ite (.packReady (.packWith _ s)) trivial

theorem Decodes.pack24 (s : State) : Decodes s (pack24 s) := .ite (.packReady (.packWith _ s)) trivial

theorem Decodes.pack (s : State) : Decodes s (pack s) := .ite (.pack16 s) (.pack24 s)

/-! ## Whole frames -/

theorem Decodes.kindBody (kind : FrameKind) (s : State) : Decodes s (kindBody kind s) := by
  cases kind with
  | monoC => exact .compressedBody s
  | stereoC => exact .compressedBody s
  | monoU => exact .verbatimBody s
  | stereoU => exact .verbatimBody s

theorem frameBody_along (kind : FrameKind) (s : State) : (frameBody kind s).Along FrameStep s :=
  (Decodes.kindBody kind s).frame fun _ s1 =>
    (Decodes.deinterlace s1).frame fun _ s2 =>
      (Decodes.pack s2).frame fun _ s3 => .complete (.refl s3)

theorem decodeOneFrame_along (len : Word) (s : State) : (decodeOneFrame len s).Along FrameStep s :=
  (Decodes.frameHeader len s).frame fun _ u => frameBody_along (frameKind u) u

theorem frameOfKind_along (kind : FrameKind) (s : State) : (frameOfKind kind s).Along FrameStep s :=
  (Decodes.frameHeader s.bcLen s).frame fun _ u => by
    split
    · exact frameBody_along kind u
    · trivial

end Sys2Proof.Machine

/-! SUPPORT. What every operation of the opcode table can do, said once for the decoder's operations and
once for those under the stream lock. RESET alone is neither (R360). -/

namespace Sys2Proof.Machine

/-! ## The decoder's operations -/

/-- What an operation of the decoder comes to: its steps, perhaps with a value returned; a DecodeError
raised in READY (R330, R333); or a refusal, which gives its status alone (R300). -/
inductive DecoderEffect (s : State) : State → Prop
  | ran {u : State} (v : Word) : FrameStep s u → DecoderEffect s { u with result := v }
  | raised {u : State} (e : Cause) (info : Word) :
      FrameStep s u → u.mode = .ready → DecoderEffect s (faultEntry e info u)
  | refused (st : Status) : DecoderEffect s (respond st s)

section
variable {α : Type} {s t : State}

theorem Res.Along.effect {r : Res α} (hr : r.Along FrameStep s) (h : (r.outcome fun _ u => u) = .next t) :
    DecoderEffect s t := by
  rcases Res.outcome_eq_next.mp h with ⟨v, u, rfl, rfl⟩ | rfl
  · exact .ran u.result hr
  · obtain ⟨u, e, info, hu, hm, rfl⟩ := hr
    exact .raised e info hu hm

theorem Decodes.along_frame {r : Res α} (hr : Decodes s r) : r.Along FrameStep s := by
  cases r with
  | ok v u => exact .within hr
  | raised u =>
    obtain ⟨w, e, info, hw, hm, rfl⟩ := hr
    exact ⟨w, e, info, .within hw, hm, rfl⟩
  | stuck f => trivial

theorem Decodes.effect {r : Res α} (hr : Decodes s r) (h : (r.outcome fun _ u => u) = .next t) :
    DecoderEffect s t :=
  hr.along_frame.effect h

/-- An operation that returns a value (log 14). -/
theorem Decodes.effect_result {r : Res Word} (hr : Decodes s r)
    (h : (r.outcome fun v u => { u with result := v }) = .next t) : DecoderEffect s t := by
  rcases Res.outcome_eq_next.mp h with ⟨v, u, rfl, rfl⟩ | rfl
  · exact .ran v (.within hr)
  · obtain ⟨u, e, info, hu, hm, rfl⟩ := hr
    exact .raised e info (.within hu) hm

/-- The admission of a frame answers a next state where it refuses by `BadMode`, or lets the frame run. -/
theorem admitFrame_eq_next {go : Outcome} (h : admitFrame s go = .next t) :
    t = respond .badMode s ∨ go = .next t := by
  rcases admitFrame_cases s go with ⟨-, ha⟩ | ⟨-, -, ha⟩ | ⟨-, -, ha⟩ <;> rw [ha] at h
  · cases h
    exact .inl rfl
  · cases h
  · exact .inr h

/-- A frame kind on its own (R91, R300). -/
theorem admitFrame_effect {kind : FrameKind}
    (h : admitFrame s ((frameOfKind kind s).outcome fun _ u => u) = .next t) : DecoderEffect s t := by
  rcases admitFrame_eq_next h with rfl | h
  · exact .refused .badMode
  · exact (frameOfKind_along kind s).effect h

end

/-- Everything an operation of the decoder can do, but for a whole DECODE. -/
theorem exec_decoder {i : Instr} {s t : State} (hi : takesLock i = false)
    (hd : ∀ key payload, i ≠ .hDecode key payload) (h : exec i s = .next t) : DecoderEffect s t := by
  cases i with
  | bcInit len =>
    cases h
    exact .ran s.result (.within (.initCursor len s))
  | bcRead n => exact (Decodes.readBits n s).effect_result h
  | bcUnread n => exact (Decodes.unreadBits n s).effect h
  | bcClz v =>
    cases h
    exact .ran _ (.within (.refl s))
  | rdValueEsc n k mask => exact (Decodes.riceWordAs .esc n k mask s).effect_result h
  | rdValueUnary n k mask => exact (Decodes.riceWordAs .unary n k mask s).effect_result h
  | rdValueShort n k mask => exact (Decodes.riceWordAs .short n k mask s).effect_result h
  | rdValueLong n k mask => exact (Decodes.riceWordAs .long n k mask s).effect_result h
  | rdStream c o => exact (Decodes.riceStream c o s).effect h
  | rdSample c i o => exact (Decodes.riceSample c i o s).effect h
  | rdRun c i o =>
    replace h : execRdRun c i o s = .next t := h
    unfold execRdRun at h
    split at h
    · exact (Decodes.riceRun c i o s).effect_result h
    · cases h
  | lpCopy c => exact (Decodes.lpCopy c s).effect h
  | lpDiff c => exact (Decodes.lpDiff c s).effect h
  | lpFir c order => exact (Decodes.lpFir c order s).effect h
  | fdHeader => exact (Decodes.frameHeader s.bcLen s).effect h
  | fdMonoC => exact admitFrame_effect h
  | fdMonoU => exact admitFrame_effect h
  | fdStereoC => exact admitFrame_effect h
  | fdStereoU => exact admitFrame_effect h
  | fdChhdr c => exact (Decodes.channelHeader c s).effect h
  | fdRawlow => exact (Decodes.rawLow s).effect h
  | fdVerbatim =>
    replace h : execFdVerbatim s = .next t := h
    unfold execFdVerbatim at h
    split at h
    · exact (Decodes.verbatim s).effect h
    · cases h
  | fdMixWeighted shift weight => exact (Decodes.mixWeighted shift weight s).effect h
  | fdMixDirect shift => exact (Decodes.mixDirect shift s).effect h
  | fdPack16 => exact (Decodes.pack16 s).effect h
  | fdPack24 => exact (Decodes.pack24 s).effect h
  | hDecode key payload => exact absurd rfl (hd key payload)
  | _ => cases hi

/-- Everything a DECODE can do before its enqueue: it is refused, or it loads its payload, decodes, and
answers (R302). -/
theorem exec_hDecode {key : Time} {payload : List Byte} {s t : State}
    (h : exec (.hDecode key payload) s = .next t) :
    (∃ st, t = respond st s) ∨
      ∃ u r, DecoderEffect (loadPayload key payload s) u ∧ t = { u with resp := r } := by
  rcases admitFrame_eq_next h with rfl | h
  · exact .inl ⟨_, rfl⟩
  · split at h
    · cases h
      exact .inl ⟨_, rfl⟩
    · have hrun := decodeOneFrame_along (s.word32 payload.length) (loadPayload key payload s)
      unfold decodePayload at h
      split at h <;> rename_i hres <;> rw [hres] at hrun <;> cases h
      · exact .inr ⟨_, _, .ran _ hrun, rfl⟩
      · obtain ⟨u, e, info, hu, hm, rfl⟩ := hrun
        exact .inr ⟨_, _, .raised e info hu hm, rfl⟩

/-! ## The operations under the stream lock -/

/-- What a drain step may do: take entries from the front of the queue, emit, and log (R271 to R276). -/
structure DrainEffect (s t : State) : Prop where
  queue : t.jbQueue <:+ s.jbQueue
  frame : t = { s with jbQueue := t.jbQueue, jbWritten := t.jbWritten, sink := t.sink, log := t.log }

theorem DrainEffect.idle (s : State) : DrainEffect s (drainIdle s) := ⟨List.suffix_rfl, rfl⟩

theorem DrainEffect.gap (s : State) : DrainEffect s (drainGapStep s) := by
  unfold drainGapStep
  split
  · exact ⟨List.suffix_rfl, rfl⟩
  · exact ⟨List.suffix_rfl, rfl⟩

/-- A step that takes the entry at the front, if there is one. -/
theorem DrainEffect.withHead {s : State} {go : QueueEntry → State → State}
    (h : ∀ head u, DrainEffect u (go head u)) : DrainEffect s (withHead s go) := by
  unfold Machine.withHead
  split
  · exact ⟨List.suffix_rfl, rfl⟩
  · rename_i head rest hq
    have hgo := h head { s with jbQueue := rest }
    exact ⟨hgo.queue.trans (hq ▸ List.suffix_cons head rest), hgo.frame⟩

theorem DrainEffect.emit (s : State) : DrainEffect s (drainEmit s) :=
  .withHead fun _ _ => ⟨List.suffix_rfl, rfl⟩

theorem DrainEffect.trunc (s : State) : DrainEffect s (drainTrunc s) :=
  .withHead fun _ _ => ⟨List.suffix_rfl, rfl⟩

theorem DrainEffect.skip (s : State) : DrainEffect s (drainSkip s) :=
  .withHead fun _ _ => ⟨List.suffix_rfl, rfl⟩

/-- What an operation that takes the stream lock comes to, RESET apart. -/
inductive LockedEffect (s : State) : State → Prop
  /-- Another agent holds the lock (R72). -/
  | waited : LockedEffect s s
  /-- A status or a report, and nothing else (R300, R306, R327). -/
  | answered (r : Response) : LockedEffect s { s with resp := r }
  | translated (v : Time) : LockedEffect s { s with timeResult := v }
  | configured (maxSamples : BitVec 32) (sampleSize historyMult initHistory kModifier channels : BitVec 8)
      (sampleRate : BitVec 32) :
      s.mode = .unconfigured → configOk s maxSamples kModifier channels = true →
      LockedEffect s (respond .ok
        (configure maxSamples sampleSize historyMult initHistory kModifier channels sampleRate s))
  | synced (remote loc : Time) (r : Response) : LockedEffect s { syncClock remote loc s with resp := r }
  | enqueued (key : Time) (bytes : List Byte) : LockedEffect s (checkedEnqueue key bytes s)
  | drained {t : State} : DrainEffect s t → LockedEffect s t
  | closed (r : Response) : LockedEffect s { closeStream s with resp := r }

/-- Under the lock, what is to be shown is to be shown of the transition. -/
theorem underLock_effect {s t : State} {go : Outcome} (h : underLock s go = .next t)
    (hgo : go = .next t → LockedEffect s t) : LockedEffect s t := by
  rcases underLock_eq_next.mp h with ⟨-, rfl⟩ | ⟨-, h⟩
  · exact .waited
  · exact hgo h

theorem drainAs_effect {op : Instr} {s t u : State} (h : drainAs op s u = .next t) (hu : DrainEffect s u) :
    LockedEffect s t :=
  underLock_effect h fun h => by
    split at h
    · cases h
      exact .drained hu
    · cases h

/-- Everything an operation under the lock can do, RESET apart. -/
theorem exec_locked {i : Instr} {s t : State} (hi : takesLock i = true) (hr : i ≠ .hReset)
    (h : exec i s = .next t) : LockedEffect s t := by
  cases i with
  | jbSync remote loc =>
    refine underLock_effect h fun h => ?_
    cases h
    exact .synced remote loc s.resp
  | jbToRemote loc =>
    refine underLock_effect h fun h => ?_
    split at h <;> cases h
    exact .translated _
  | jbFromRemote remote =>
    refine underLock_effect h fun h => ?_
    split at h <;> cases h
    exact .translated _
  | jbEnq key bytes =>
    refine underLock_effect h fun h => ?_
    cases h
    exact .enqueued key bytes
  | jbDrainIdle => exact drainAs_effect h (.idle s)
  | jbDrainGap => exact drainAs_effect h (.gap s)
  | jbDrainEmit => exact drainAs_effect h (.emit s)
  | jbDrainTrunc => exact drainAs_effect h (.trunc s)
  | jbDrainSkip => exact drainAs_effect h (.skip s)
  | jbClose =>
    refine underLock_effect h fun h => ?_
    cases h
    exact .closed s.resp
  | hReset => exact absurd rfl hr
  | hConfigure maxSamples sampleSize historyMult initHistory kModifier channels sampleRate =>
    refine underLock_effect h fun h => ?_
    split at h
    · cases h
      exact .answered _
    · rename_i hmode
      split at h <;> cases h
      · rename_i hok
        exact .configured maxSamples sampleSize historyMult initHistory kModifier channels sampleRate
          (not_not.mp hmode) hok
      · exact .answered _
  | hEnqueue key bytes =>
    refine underLock_effect h fun h => ?_
    split at h
    · cases h
      exact .answered _
    · split at h <;> cases h
      · rename_i hok
        have hc : checkedEnqueue key bytes s = enqueue key bytes s := by simp [checkedEnqueue, hok]
        exact hc ▸ .enqueued key bytes
      · exact .answered _
  | hSync remote loc =>
    refine underLock_effect h fun h => ?_
    split at h <;> cases h
    · exact .synced remote loc _
    · exact .answered _
  | hClose =>
    refine underLock_effect h fun h => ?_
    cases h
    exact .closed _
  | hStatus =>
    refine underLock_effect h fun h => ?_
    cases h
    exact .answered _
  | _ => cases hi

end Sys2Proof.Machine

/-! SUPPORT. For O57: who touches what (R20, R72, R76). The state is cut into the decoder's part and the part
that it shares; each effect of `exec_decoder` and `exec_locked` keeps the part of the other. -/

namespace Sys2Proof.Machine

/-! ## The parts of the state -/

/-- The configuration and what the decoder shares with DRAIN, with everything else blanked. -/
def State.sharedPart (s : State) : State :=
  { State.reset with
    prm := s.prm
    cfgMaxSamples := s.cfgMaxSamples, cfgSampleSize := s.cfgSampleSize, cfgHistoryMult := s.cfgHistoryMult
    cfgInitHistory := s.cfgInitHistory, cfgKModifier := s.cfgKModifier, cfgChannels := s.cfgChannels
    cfgSampleRate := s.cfgSampleRate
    jbOffset := s.jbOffset, jbOffsetValid := s.jbOffsetValid, jbQueue := s.jbQueue, jbWritten := s.jbWritten
    jbClosing := s.jbClosing, lock := s.lock, drainAwake := s.drainAwake
    sink := s.sink, sinkReady := s.sinkReady, agenda := s.agenda, tick := s.tick }

/-- The decoder's registers, the payload and the PCM, with everything else blanked. -/
def State.decoderPart (s : State) : State :=
  { State.reset with
    bcLen := s.bcLen, bcIdx := s.bcIdx, bcAcc := s.bcAcc
    fhChan := s.fhChan, fhHasSize := s.fhHasSize, fhUb := s.fhUb, fhCf := s.fhCf, fhN := s.fhN, fhRss := s.fhRss
    fhShift := s.fhShift, fhLeftWeight := s.fhLeftWeight
    chA := s.chA, chB := s.chB, rsHistory := s.rsHistory, rsSignMod := s.rsSignMod
    payload := s.payload, pcm := s.pcm, pcmLen := s.pcmLen, mixL := s.mixL, mixR := s.mixR
    decKey := s.decKey, decPend := s.decPend, decLen := s.decLen }

section
variable {s t : State}

theorem configSame_of_sharedPart (h : t.sharedPart = s.sharedPart) : configSame s t := by
  have same {β : Type} (f : State → β) : f t.sharedPart = f s.sharedPart := congrArg f h
  exact ⟨same State.cfgMaxSamples, same State.cfgSampleSize, same State.cfgHistoryMult,
    same State.cfgInitHistory, same State.cfgKModifier, same State.cfgChannels, same State.cfgSampleRate⟩

theorem sharedSame_of_sharedPart (h : t.sharedPart = s.sharedPart) : sharedSame s t := by
  have same {β : Type} (f : State → β) : f t.sharedPart = f s.sharedPart := congrArg f h
  exact ⟨same State.prm, same State.jbOffset, same State.jbOffsetValid, same State.jbQueue,
    same State.jbWritten, same State.jbClosing, same State.lock, same State.drainAwake, same State.sink,
    same State.sinkReady, same State.agenda, same State.tick⟩

theorem decoderSame_of_decoderPart (h : t.decoderPart = s.decoderPart) : decoderSame s t := by
  have same {β : Type} (f : State → β) : f t.decoderPart = f s.decoderPart := congrArg f h
  exact ⟨same State.bcLen, same State.bcIdx, same State.bcAcc, same State.fhChan, same State.fhHasSize,
    same State.fhUb, same State.fhCf, same State.fhN, same State.fhRss, same State.fhShift,
    same State.fhLeftWeight, same State.chA, same State.chB, same State.rsHistory, same State.rsSignMod,
    same State.payload, same State.pcm, same State.pcmLen, same State.mixL, same State.mixR,
    same State.decKey, same State.decPend, same State.decLen⟩

/-! ## The decoder leaves the shared part and the payload -/

theorem DecoderStep.sharedPart (h : DecoderStep s t) : t.sharedPart = s.sharedPart :=
  show t.outsideDecoder.sharedPart = s.outsideDecoder.sharedPart by rw [h.outside]

theorem DecoderStep.payload (h : DecoderStep s t) : t.payload = s.payload :=
  show t.outsideDecoder.payload = s.outsideDecoder.payload by rw [h.outside]

theorem FrameStep.sharedPart (h : FrameStep s t) : t.sharedPart = s.sharedPart := by
  cases h with
  | within h => exact h.sharedPart
  | complete h => exact h.sharedPart

theorem FrameStep.payload (h : FrameStep s t) : t.payload = s.payload := by
  cases h with
  | within h => exact h.payload
  | complete h => exact h.payload

theorem DecoderEffect.sharedPart (h : DecoderEffect s t) : t.sharedPart = s.sharedPart := by
  cases h with
  | ran v h => exact h.sharedPart
  | raised e info h => exact h.sharedPart
  | refused st => rfl

theorem DecoderEffect.payload (h : DecoderEffect s t) : t.payload = s.payload := by
  cases h with
  | ran v h => exact h.payload
  | raised e info h => exact h.payload
  | refused st => rfl

theorem exec_hDecode_sharedPart {key : Time} {payload : List Byte} (h : exec (.hDecode key payload) s = .next t) :
    t.sharedPart = s.sharedPart := by
  rcases exec_hDecode h with ⟨st, rfl⟩ | ⟨u, r, hu, rfl⟩
  · rfl
  · exact hu.sharedPart

/-! ## The transitions under the lock leave the decoder's part -/

theorem decoderPart_checkedEnqueue (key : Time) (bytes : List Byte) (s : State) :
    (checkedEnqueue key bytes s).decoderPart = s.decoderPart := by
  rcases checkedEnqueue_cases key bytes s with ⟨-, h⟩ | ⟨-, -, h⟩ | ⟨-, -, h⟩ <;> rw [h]
  · rfl
  · rcases enqueue_cases key bytes s with ⟨-, h⟩ | ⟨-, -, -, h⟩ | ⟨-, -, -, h⟩ | ⟨-, h⟩ <;> rw [h]
    · rfl
    · rfl
    · rfl
    · rcases admit_cases key bytes s with ⟨_, -, h⟩ | ⟨-, -, h⟩ | ⟨-, -, h⟩ <;> rw [h] <;> rfl
  · rfl

theorem LockedEffect.decoderPart (h : LockedEffect s t) : t.decoderPart = s.decoderPart := by
  cases h with
  | enqueued key bytes => exact decoderPart_checkedEnqueue key bytes s
  | drained h =>
    rw [h.frame]
    rfl
  | _ => rfl

end

/-- The payload changes by DECODE and RESET alone (R60). -/
theorem exec_payload {i : Instr} {s t : State} (h : exec i s = .next t)
    (hd : ∀ key payload, i ≠ .hDecode key payload) (hr : i ≠ .hReset) : t.payload = s.payload := by
  cases hi : takesLock i with
  | false => exact (exec_decoder hi hd h).payload
  | true =>
    have hpart := (exec_locked hi hr h).decoderPart
    change t.decoderPart.payload = s.decoderPart.payload
    rw [hpart]

/-- Settles O57: the decoder's operations keep the shared part, those under the lock the decoder's. -/
theorem unitsKeepApart : Obligations.UnitsKeepApart := by
  intro i s t h
  refine ⟨fun hi => ?_, exec_payload h, fun hi hr => decoderSame_of_decoderPart (exec_locked hi hr h).decoderPart⟩
  have hpart : t.sharedPart = s.sharedPart := by
    by_cases hd : ∃ key payload, i = .hDecode key payload
    · obtain ⟨key, payload, rfl⟩ := hd
      exact exec_hDecode_sharedPart h
    · exact (exec_decoder hi (fun key payload he => hd ⟨key, payload, he⟩) h).sharedPart
  exact ⟨configSame_of_sharedPart hpart, sharedSame_of_sharedPart hpart⟩

end Sys2Proof.Machine

/-! SUPPORT. For O52 and O53: the invariant holds after reset, and every step keeps it: one lemma per effect of
`exec_decoder` and `exec_locked`, one for RESET, one for the fetch of a turn. -/

namespace Sys2Proof.Machine

/-! ## The decoder's steps keep it -/

theorem Inv.buffersWf {s : State} (h : Inv s) : BuffersWf s :=
  ⟨fun c => by cases c; exacts [h.chanA, h.chanB], h.mixL, h.mixR, h.pcm⟩

/-- The invariant is the canonical form of the decoder's buffers and a part that none of its registers
enters. -/
theorem inv_iff (s : State) : Inv s ↔ BuffersWf s ∧ Inv s.outsideDecoder :=
  ⟨fun h => ⟨h.buffersWf,
      { h with
        chanA := ChanRegs.wf_reset _, chanB := ChanRegs.wf_reset _, mixL := rfl, mixR := rfl, pcm := rfl }⟩,
    fun ⟨hb, h⟩ =>
      { h with chanA := hb.chan .a, chanB := hb.chan .b, mixL := hb.mixL, mixR := hb.mixR, pcm := hb.pcm }⟩

theorem Inv.decoderStep {s t : State} (h : Inv s) (hst : DecoderStep s t) : Inv t := by
  obtain ⟨hb, ho⟩ := (inv_iff s).mp h
  exact (inv_iff t).mpr ⟨hst.buffers hb, hst.outside ▸ ho⟩

theorem Inv.frameStep {s t : State} (h : Inv s) (hst : FrameStep s t) : Inv t := by
  cases hst with
  | within hst => exact h.decoderStep hst
  | complete hst => exact { h.decoderStep hst with }

theorem Cause.code_ne_zero (e : Cause) : e.code ≠ 0 := by
  cases e <;> decide

/-- A fault entry in READY (R330): the stream keeps its configuration, and its error is on record. -/
theorem Inv.faultEntry {s : State} (h : Inv s) (hm : s.mode = .ready) (e : Cause) (info : Word) :
    Inv (faultEntry e info s) where
  __ := h
  config := fun _ => h.config (.inl hm)
  closing := by simpa [hm] using h.closing
  errorMode := fun _ => .inl rfl
  faultedError := fun _ => by
    rw [faultEntry_errCode]
    split
    · exact e.code_ne_zero
    · assumption

theorem Inv.decoderEffect {s t : State} (h : Inv s) (hst : DecoderEffect s t) : Inv t := by
  cases hst with
  | ran v hst => exact { h.frameStep hst with }
  | raised e info hst hm => exact (h.frameStep hst).faultEntry hm e info
  | refused st => exact { h with }

theorem Inv.loadPayload {s : State} (h : Inv s) (key : Time) (payload : List Byte) :
    Inv (loadPayload key payload s) :=
  { h with payload := Memory.wf_writeBytes h.payload 0 payload }

theorem Inv.exec_hDecode {key : Time} {payload : List Byte} {s t : State} (h : Inv s)
    (ht : exec (.hDecode key payload) s = .next t) : Inv t := by
  rcases Machine.exec_hDecode ht with ⟨st, rfl⟩ | ⟨u, r, hu, rfl⟩
  · exact { h with }
  · exact { (h.loadPayload key payload).decoderEffect hu with }

/-! ## The transitions under the lock keep it -/

/-- What RESET leaves has it (R44, R360), whatever stood before. -/
theorem inv_resetState (s : State) : Inv (resetState s) where
  chanA := ChanRegs.wf_reset _
  chanB := ChanRegs.wf_reset _
  mixL := rfl
  mixR := rfl
  payload := rfl
  pcm := rfl
  queue := rfl
  capacity := Nat.zero_le _
  entries := fun _ he => by cases he
  config := fun hm => by rcases hm with hm | hm <;> cases hm
  sized := fun hs => by cases hs
  closing := ⟨nofun, nofun⟩
  errorMode := fun he => absurd rfl he
  faultedError := fun hm => by cases hm
  unlocked := rfl

/-- CONFIGURE of an unconfigured stream (R301) admits legal values only, and empties the queue. -/
theorem Inv.configure {s : State} (h : Inv s) (hm : s.mode = .unconfigured)
    {maxSamples : BitVec 32} {sampleSize historyMult initHistory kModifier channels : BitVec 8}
    {sampleRate : BitVec 32} (hok : configOk s maxSamples kModifier channels = true) :
    Inv (configure maxSamples sampleSize historyMult initHistory kModifier channels sampleRate s) where
  __ := h
  queue := rfl
  capacity := Nat.zero_le _
  entries := fun _ he => by cases he
  config := fun _ => hok
  sized := fun _ => hok
  closing := by simpa [hm, Machine.configure] using h.closing
  errorMode := fun he => by simpa [hm] using h.errorMode he
  faultedError := fun hf => by cases hf

theorem Inv.closeStream {s : State} (h : Inv s) : Inv (closeStream s) where
  __ := h
  queue := rfl
  capacity := Nat.zero_le _
  entries := fun _ he => by cases he
  config := fun hm => by rcases hm with hm | hm <;> cases hm
  closing := ⟨fun _ => rfl, fun _ => rfl⟩
  errorMode := fun _ => .inr rfl
  faultedError := fun hm => by cases hm

/-- A new queue that is in order, within the capacity and of whole frames. -/
theorem Inv.setQueue {s : State} (h : Inv s) {q : List QueueEntry} (hq : Queue.wf q = true)
    (hc : q.length ≤ s.prm.jbCapacity) (he : ∀ e ∈ q, enqueueBytesOk s e.2 = true) :
    Inv { s with jbQueue := q } :=
  { h with queue := hq, capacity := hc, entries := he }

/-- A checked entry put where there is room for it (R33, R264). -/
theorem Inv.putEntry {s : State} (h : Inv s) (key : Time) {bytes : List Byte}
    (hb : enqueueBytesOk s bytes = true)
    (hroom : (Queue.put s.jbQueue key bytes).length ≤ s.prm.jbCapacity) :
    Inv { s with jbQueue := Queue.put s.jbQueue key bytes } := by
  refine h.setQueue (Queue.wf_put h.queue key bytes) hroom fun e he => ?_
  rcases Queue.mem_put he with rfl | he
  · exact hb
  · exact h.entries e he

/-- The insertion replaces an entry, or finds the queue full, or has room (R267 to R269). -/
theorem Inv.admitEntry {s : State} (h : Inv s) (key : Time) {bytes : List Byte}
    (hb : enqueueBytesOk s bytes = true) : Inv (admitEntry key bytes s) := by
  rcases admit_cases key bytes s with ⟨old, hold, ha⟩ | ⟨-, -, ha⟩ | ⟨hnew, hroom, ha⟩ <;> rw [ha]
  · have hlen := Queue.length_put_held h.queue key bytes (by rw [hold]; rfl)
    exact { h.putEntry key hb (hlen ▸ h.capacity) with }
  · exact { h with }
  · have hlen := Queue.length_put_new s.jbQueue key bytes hnew
    have hcap := h.capacity
    exact { h.putEntry key hb (by omega) with }

theorem Inv.checkedEnqueue {s : State} (h : Inv s) (key : Time) (bytes : List Byte) :
    Inv (checkedEnqueue key bytes s) := by
  rcases checkedEnqueue_cases key bytes s with ⟨-, hc⟩ | ⟨-, hb, hc⟩ | ⟨-, -, hc⟩ <;> rw [hc]
  · exact { h with }
  · rcases enqueue_cases key bytes s with ⟨-, he⟩ | ⟨-, -, -, he⟩ | ⟨-, -, -, he⟩ | ⟨-, he⟩ <;> rw [he]
    · exact { h with }
    · exact { h with }
    · exact { h with }
    · exact h.admitEntry key hb
  · exact { h with }

theorem Queue.wf_suffix {p q : List QueueEntry} (h : Queue.wf q = true) (hs : p <:+ q) : Queue.wf p = true :=
  (Queue.wf_iff p).mpr (((Queue.wf_iff q).mp h).sublist hs.sublist)

theorem Inv.drainEffect {s t : State} (h : Inv s) (hst : DrainEffect s t) : Inv t := by
  have hq : Inv { s with jbQueue := t.jbQueue } :=
    h.setQueue (Queue.wf_suffix h.queue hst.queue) (hst.queue.length_le.trans h.capacity)
      fun e he => h.entries e (hst.queue.subset he)
  rw [hst.frame]
  exact { hq with }

theorem Inv.lockedEffect {s t : State} (h : Inv s) (hst : LockedEffect s t) : Inv t := by
  cases hst with
  | waited => exact h
  | answered r => exact { h with }
  | translated v => exact { h with }
  | configured maxSamples sampleSize historyMult initHistory kModifier channels sampleRate hmode hok =>
    exact { h.configure hmode hok (sampleSize := sampleSize) (historyMult := historyMult)
      (initHistory := initHistory) (sampleRate := sampleRate) with }
  | synced remote loc r => exact { h with }
  | enqueued key bytes => exact h.checkedEnqueue key bytes
  | drained hst => exact h.drainEffect hst
  | closed r => exact { h.closeStream with }

theorem Inv.exec_hReset {s t : State} (h : Inv s) (ht : exec .hReset s = .next t) : Inv t := by
  rcases underLock_eq_next.mp (show execHReset s = .next t from ht) with ⟨-, rfl⟩ | ⟨-, ht⟩
  · exact h
  · split at ht <;> cases ht
    exact { inv_resetState s with }

/-! ## Operations and steps -/

theorem Inv.exec {i : Instr} {s t : State} (h : Inv s) (ht : exec i s = .next t) : Inv t := by
  cases hi : takesLock i with
  | true =>
    by_cases hr : i = .hReset
    · subst hr
      exact h.exec_hReset ht
    · exact h.lockedEffect (exec_locked hi hr ht)
  | false =>
    by_cases hd : ∃ key payload, i = .hDecode key payload
    · obtain ⟨key, payload, rfl⟩ := hd
      exact h.exec_hDecode ht
    · exact h.decoderEffect (exec_decoder hi (fun key payload he => hd ⟨key, payload, he⟩) ht)

/-- The state that a fetch hands on, to an operation or as the step's own outcome, has a property. -/
def Fetched.Has (P : State → Prop) : Fetched → Prop
  | .run _ s => P s
  | .done (.next t) => P t
  | .done _ => True

theorem Inv.fetchUnit {s : State} (h : Inv s) (src : Source) : (fetchUnit src s).Has Inv := by
  unfold Machine.fetchUnit
  split
  case h_1 => exact h
  case h_2 => exact h
  all_goals trivial

theorem Inv.fetchHost {s : State} (h : Inv s) (word : List Bool) : (fetchHost word s).Has Inv := by
  unfold Machine.fetchHost
  split
  case h_1 => exact h
  case h_2 => exact { h with }
  all_goals trivial

theorem Inv.fetchDec {s : State} (h : Inv s) : (fetchDec s).Has Inv := by
  unfold Machine.fetchDec
  split
  · split
    · exact { h with }
    · trivial
  · exact h

theorem Inv.fetchDrain {s : State} (h : Inv s) : (fetchDrain s).Has Inv := by
  unfold Machine.fetchDrain
  split <;> exact h

theorem Inv.fetchTurn {s : State} (h : Inv s) (turn : Turn) : (fetchTurn s turn).Has Inv := by
  cases turn with
  | host word => exact h.fetchHost word
  | dec => exact h.fetchDec
  | drain => exact h.fetchDrain
  | sleep => exact { h with }
  | sink ready => exact { h with }
  | unit src => exact h.fetchUnit src

theorem Inv.fetch {s : State} (h : Inv s) : (fetch s).Has Inv := by
  unfold Machine.fetch
  split
  · exact h
  · rename_i turn rest _
    have htaken : Inv { s with agenda := rest, tick := s.tick + 1 } := { h with }
    exact htaken.fetchTurn turn

theorem Inv.runFetched {s t : State} (h : Inv s) {f : Fetched} (hf : f.Has Inv) (ht : runFetched s f = .next t) :
    Inv t := by
  cases f with
  | run i u =>
    replace ht : (if takesLock i && u.lock then Host.Outcome.next s else Machine.exec i u) = .next t := ht
    split at ht
    · cases ht
      exact h
    · exact Inv.exec hf ht
  | done o =>
    replace ht : o = .next t := ht
    subst ht
    exact hf

/-- Settles O52: a turn's fetch keeps the invariant, and so does the operation that it selects. -/
theorem stepKeepsInvariant : Obligations.StepKeepsInvariant :=
  fun _ _ h ht => h.runFetched h.fetch ht

/-- Settles O53: the machine after power-on is what RESET leaves (R44, R361). -/
theorem resetHasInvariant : Obligations.ResetHasInvariant := inv_resetState State.reset

end Sys2Proof.Machine

/-! SUPPORT. For O47: how a step takes a turn, what a decoded word fetches, and that an operation's bits do
not depend on the turns to come or on the step counter. -/

namespace Sys2Proof.Machine

/-! ## A turn -/

/-- The turn leaves the agenda and the counter advances before the turn's fetch (log 4). -/
theorem step_of_agenda {s : State} {turn : Turn} {rest : List Turn} (h : s.agenda = turn :: rest) :
    step s = runFetched s (fetchTurn { s with agenda := rest, tick := s.tick + 1 } turn) := by
  rw [step, fetch, h]

/-- R72, R74: a fetched operation runs, or waits for the lock with its turn still to come. -/
theorem runFetched_run (s u : State) (i : Instr) :
    runFetched s (.run i u) = if takesLock i && u.lock then .next s else exec i u := rfl

/-! ## What the bits select -/

theorem fetchHost_of_decodeCommand {word after : List Bool} {i : Instr}
    (h : decodeCommand word = .ok (i, after)) (s : State) : fetchHost word s = .run i s := by
  rw [fetchHost, h]

theorem fetchUnit_of_decode {src : Source} {s : State} {i : Instr} {after : List Bool}
    (h : decode s.prm.profile.riceUnreadMax src (unitBits s src) = .ok (i, after)) :
    fetchUnit src s = .run i s := by
  rw [fetchUnit, h]

theorem peekBits_of_turn_taken (s : State) (agenda : List Turn) (tick p n : Nat) :
    peekBits { s with agenda := agenda, tick := tick } p n = peekBits s p n := by
  induction n generalizing p with
  | zero => rfl
  | succ n ih => simp only [peekBits, ih]

theorem unitBits_of_turn_taken (s : State) (agenda : List Turn) (tick : Nat) (src : Source) :
    unitBits { s with agenda := agenda, tick := tick } src = unitBits s src := by
  cases src with
  | frame => exact peekBits_of_turn_taken s agenda tick 0 23
  | header => exact peekBits_of_turn_taken s agenda tick 0 23
  | chhdr c => exact peekBits_of_turn_taken s agenda tick s.pos 16
  | rice n k mask => exact peekBits_of_turn_taken s agenda tick s.pos riceWordMax
  | host | order c | mix | call i => rfl

/-! ## The step -/

/-- Settles O47: a decoded word fetches its operation in the state with the turn taken, where an operation's
context holds the same bits as before. -/
theorem stepRunsDecoded : Obligations.StepRunsDecoded := by
  intro word src i after rest s s1
  refine ⟨fun hturn hdec => ?host, fun hturn hdec => ?unit⟩
  case host =>
    have hfetch : fetchTurn s1 (.host word) = .run i s1 := fetchHost_of_decodeCommand hdec s1
    rw [step_of_agenda hturn, hfetch, runFetched_run]
  case unit =>
    have hbits : unitBits s1 src = unitBits s src := unitBits_of_turn_taken s rest (s.tick + 1) src
    have hfetch : fetchTurn s1 (.unit src) = .run i s1 := fetchUnit_of_decode (hbits ▸ hdec)
    rw [step_of_agenda hturn, hfetch, runFetched_run]

end Sys2Proof.Machine

/-! SUPPORT. For O50 and O51: decode undoes encode, format by format (`30_encoding.md`): the command words of
R108, the headers of R92 and R98, the code words of R103, the ORDER field of R180 and the mix fields of R97. -/

namespace Sys2Proof

/-! ## Fields -/

/-- A field reads back the value it was written with, when that value fits it (R9). -/
theorem takeNat_bitsOfNat_of_lt {n v : Nat} (h : v < 2 ^ n) (rest : List Bool) :
    takeNat n (bitsOfNat n v ++ rest) = some (v, rest) := by
  rw [takeNat_bitsOfNat, Nat.mod_eq_of_lt h]

@[simp] theorem takeNat_bitsOfNat_toNat {n : Nat} (v : BitVec n) (rest : List Bool) :
    takeNat n (bitsOfNat n v.toNat ++ rest) = some (v.toNat, rest) :=
  takeNat_bitsOfNat_of_lt v.isLt rest

@[simp] theorem takeBytes_bitsOfBytes (bytes : List Byte) (rest : List Bool) :
    takeBytes bytes.length (bitsOfBytes bytes ++ rest) = some (bytes, rest) := by
  induction bytes with
  | nil => rfl
  | cons b bytes ih => simp [takeBytes, bitsOfBytes, ih]

/-- All bits of a field but its last are skipped: what stands there is its lowest bit (R9). -/
theorem drop_bitsOfNat_succ (n v : Nat) (rest : List Bool) :
    (bitsOfNat (n + 1) v ++ rest).drop n = v.testBit 0 :: rest := by
  induction n with
  | zero => rfl
  | succ n ih => simpa [bitsOfNat] using ih

/-! ## Command words (R108, log 5) -/

theorem decodeKeyBytes_encodeKeyBytes {bytes : List Byte} (h : bytes.length < 2 ^ 32) (key : Time)
    (rest : List Bool) :
    decodeKeyBytes (encodeKeyBytes key bytes ++ rest) = some ((key, bytes), rest) := by
  simp [decodeKeyBytes, encodeKeyBytes, takeNat_bitsOfNat_of_lt h]

theorem decode_encode_of_host {i : Instr} (hsrc : i.source = .host) (hwf : i.wf = true) (u : Nat)
    (after : List Bool) : decode u i.source (encode i ++ after) = .ok (i, after) := by
  rw [hsrc, decode]
  cases i with
  | hReset | hClose | hStatus => simp [encode, decodeCommand, takeNat_bitsOfNat]
  | hConfigure | hSync =>
    simp [encode, decodeCommand, decodeConfigure, decodeSync, orShort, takeNat_bitsOfNat 4]
  | hDecode key bytes | hEnqueue key bytes =>
    have hlen : bytes.length < 2 ^ 32 := by simpa [Instr.wf] using hwf
    simp [encode, decodeCommand, orShort, takeNat_bitsOfNat 4, decodeKeyBytes_encodeKeyBytes hlen]
  | _ => nomatch hsrc

/-! ## Headers (R90, R92, R98) -/

/-- The 23 bits of a header are one field: CHAN above, CF lowest, zeros between. -/
theorem headerBits_eq_bitsOfNat {chan cf : Nat} (hchan : chan ≤ 1) (hcf : cf ≤ 1) :
    headerBits chan cf = bitsOfNat 23 (chan * 2 ^ 20 + cf) := by
  interval_cases chan <;> interval_cases cf <;> rfl

theorem decode_encode_of_frame {i : Instr} (hsrc : i.source = .frame) (u : Nat) (after : List Bool) :
    decode u i.source (encode i ++ after) = .ok (i, after) := by
  rw [hsrc, decode]
  cases i with
  | fdMonoC | fdMonoU | fdStereoC | fdStereoU =>
    simp [encode, Config.cfUncompressedValue, headerBits_eq_bitsOfNat, decodeFrame, takeNat_bitsOfNat, frameOfHeader]
  | _ => nomatch hsrc

theorem decodeHeader_encode (after : List Bool) : decodeHeader (encode .fdHeader ++ after) = .ok (.fdHeader, after) := by
  simp [encode, headerBits_eq_bitsOfNat, decodeHeader, takeNat_bitsOfNat]

theorem decodeChhdr_encode (c : Chan) (after : List Bool) :
    decodeChhdr c (encode (.fdChhdr c) ++ after) = .ok (.fdChhdr c, after) := by
  simp [encode, decodeChhdr, takeNat_bitsOfNat]

/-! ## The ORDER field (R180) and the mix fields (R97, R224, R225) -/

theorem decodeOrder_bitsOfNat (c : Chan) (order : BitVec 5) (after : List Bool) :
    decodeOrder c (bitsOfNat 5 order.toNat ++ after) = .ok (predictorOf c order, after) := by
  simp [decodeOrder]

theorem decodeMix_bitsOfNat (shift weight : BitVec 8) (after : List Bool) :
    decodeMix (bitsOfNat 8 shift.toNat ++ bitsOfNat 8 weight.toNat ++ after) = .ok (mixOf shift weight, after) := by
  simp [decodeMix]

/-! ## Code words (R103, R104) -/

/-- As many one-bits as are looked at: there is no terminator (R152). -/
theorem prefixOfBits_replicate (room x : Nat) (rest : List Bool) :
    prefixOfBits room x (List.replicate room true ++ rest) = some (x + room, rest) := by
  induction room generalizing x with
  | zero => rfl
  | succ room ih => rw [List.replicate_succ, List.cons_append, prefixOfBits, ih, Nat.add_right_comm, Nat.add_assoc]

/-- Fewer one-bits than are looked at, and the zero bit that ends them (R152). -/
theorem prefixOfBits_replicate_false {room q : Nat} (h : q < room) (x : Nat) (rest : List Bool) :
    prefixOfBits room x (List.replicate q true ++ false :: rest) = some (x + q, rest) := by
  induction room generalizing q x with
  | zero => omega
  | succ room ih =>
    cases q with
    | zero => rfl
    | succ q =>
      rw [List.replicate_succ, List.cons_append, prefixOfBits, ih (by omega), Nat.add_right_comm, Nat.add_assoc]

section
variable {k : Int} (u n : Nat) (mask : Word) (after : List Bool)

/-- Form 1: nine one-bits and n raw bits. -/
theorem decodeRice_escape (hk : 1 ≤ k ∧ k ≤ 31) (raw : Nat) :
    decodeRice u n k mask (List.replicate (Config.riceThreshold + 1) true ++ (bitsOfNat n raw ++ after)) =
      .ok (.rdValueEsc n k mask, after) := by
  simp [decodeRice, prefixOfBits_replicate, takeNat_bitsOfNat, hk]

/-- Form 2a: the one-bits and their terminator alone, at k = 1. -/
theorem decodeRice_unary {q : Nat} (hq : q ≤ Config.riceThreshold) :
    decodeRice u n 1 mask (List.replicate q true ++ false :: after) = .ok (.rdValueUnary n 1 mask, after) := by
  simp [decodeRice, prefixOfBits_replicate_false (Nat.lt_succ_of_le hq), Nat.not_lt.mpr hq]

/-- Form 2c: an extra field above RICE_UNREAD_MAX is consumed whole. -/
theorem decodeRice_long (hk : 2 ≤ k ∧ k ≤ 31) {q extra : Nat} (hq : q ≤ Config.riceThreshold)
    (hfits : extra < 2 ^ k.toNat) (hextra : u < extra) :
    decodeRice u n k mask (List.replicate q true ++ false :: (bitsOfNat k.toNat extra ++ after)) =
      .ok (.rdValueLong n k mask, after) := by
  have hk1 : ¬(k < 1 ∨ 31 < k) := by omega
  have hk2 : k ≠ 1 := by omega
  simp [decodeRice, prefixOfBits_replicate_false (Nat.lt_succ_of_le hq), Nat.not_lt.mpr hq, hk1, hk2,
    takeNat_bitsOfNat_of_lt hfits, hextra]

/-- Form 2b: at most RICE_UNREAD_MAX in the extra field, and its last bit is handed back (R154). -/
theorem decodeRice_short (hk : 2 ≤ k ∧ k ≤ 31) {q extra : Nat} (hq : q ≤ Config.riceThreshold)
    (hfits : extra < 2 ^ k.toNat) (hextra : extra ≤ u) :
    decodeRice u n k mask (List.replicate q true ++ false :: (bitsOfNat k.toNat extra ++ after)) =
      .ok (.rdValueShort n k mask, extra.testBit 0 :: after) := by
  have hk1 : ¬(k < 1 ∨ 31 < k) := by omega
  have hk2 : k ≠ 1 := by omega
  obtain ⟨m, hm⟩ : ∃ m, k.toNat = m + 1 := ⟨k.toNat - 1, by omega⟩
  rw [hm] at hfits
  simp [decodeRice, prefixOfBits_replicate_false (Nat.lt_succ_of_le hq), Nat.not_lt.mpr hq, hk1, hk2, hm,
    takeNat_bitsOfNat_of_lt hfits, Nat.not_lt.mpr hextra, drop_bitsOfNat_succ]

end

/-- The extra field that the encoder writes in a long code word is one that every profile reads so (R7). -/
theorem riceUnreadMax_lt_of_two_le (profile : Config.Profile) {k : Nat} (hk : 2 ≤ k) :
    profile.riceUnreadMax < 2 ^ k - 1 := by
  have hpow : 2 ^ 2 ≤ 2 ^ k := Nat.pow_le_pow_right (by decide) hk
  have hmax : profile.riceUnreadMax ≤ 1 := by cases profile <;> decide
  omega

/-! ## Operations without bits of their own -/

/-- An operation that its caller names takes no bits. -/
theorem decode_encode_of_call {i : Instr} (hsrc : i.source = .call i) (u : Nat) (after : List Bool) :
    decode u i.source (encode i ++ after) = .ok (i, after) := by
  have hlen := Laws.EncodedWidth.holds i
  rw [Laws.EncodedWidth.Statement, Laws.EncodedWidth.fits, hsrc] at hlen
  rw [List.eq_nil_of_length_eq_zero hlen, hsrc, decode, if_pos hsrc, List.nil_append]

/-! ## The obligations -/

/-- Every operation but a short code word: all its bits are consumed, and what follows stays. -/
theorem decode_encode (profile : Config.Profile) {i : Instr} (hwf : i.wf = true)
    (hshort : ∀ n k mask, i ≠ .rdValueShort n k mask) (after : List Bool) :
    decode profile.riceUnreadMax i.source (encode i ++ after) = .ok (i, after) := by
  cases i with
  | hReset | hConfigure | hDecode | hEnqueue | hSync | hClose | hStatus =>
    exact decode_encode_of_host rfl hwf _ after
  | fdMonoC | fdMonoU | fdStereoC | fdStereoU => exact decode_encode_of_frame rfl _ after
  | fdHeader => exact decodeHeader_encode after
  | fdChhdr c => exact decodeChhdr_encode c after
  | rdValueEsc n k mask =>
    simp only [Instr.wf, Bool.and_eq_true, decide_eq_true_eq] at hwf
    obtain ⟨⟨-, hk1⟩, hk31⟩ := hwf
    rw [encode, List.append_assoc]
    exact decodeRice_escape _ n mask after ⟨hk1, hk31⟩ 0
  | rdValueUnary n k mask =>
    simp only [Instr.wf, Bool.and_eq_true, decide_eq_true_eq] at hwf
    obtain ⟨-, rfl⟩ := hwf
    exact decodeRice_unary _ n mask after (Nat.zero_le _)
  | rdValueShort n k mask => exact absurd rfl (hshort n k mask)
  | rdValueLong n k mask =>
    simp only [Instr.wf, Bool.and_eq_true, decide_eq_true_eq] at hwf
    obtain ⟨⟨-, hk2⟩, hk31⟩ := hwf
    exact decodeRice_long _ n mask after ⟨hk2, hk31⟩ (Nat.zero_le _) (Nat.sub_lt (Nat.two_pow_pos _) Nat.one_pos)
      (riceUnreadMax_lt_of_two_le profile (by omega))
  | lpCopy c => exact decodeOrder_bitsOfNat c 0 after
  | lpDiff c => exact decodeOrder_bitsOfNat c 31 after
  | lpFir c order =>
    simp only [Instr.wf, Bool.and_eq_true, decide_eq_true_eq] at hwf
    obtain ⟨hcopy, hdiff⟩ := hwf
    have hmode : predictorOf c order = .lpFir c order := by rw [predictorOf, if_neg hcopy, if_neg hdiff]
    exact (decodeOrder_bitsOfNat c order after).trans (by rw [hmode])
  | fdMixWeighted shift weight =>
    simp only [Instr.wf, Bool.and_eq_true, decide_eq_true_eq] at hwf
    obtain ⟨-, hweight⟩ := hwf
    have hmix : mixOf shift weight = .fdMixWeighted shift weight := if_neg hweight
    exact (decodeMix_bitsOfNat shift weight after).trans (by rw [hmix])
  | fdMixDirect shift => exact decodeMix_bitsOfNat shift 0 after
  | _ => exact decode_encode_of_call rfl _ after

/-- A short code word hands its last bit back, which the encoder writes as 0 (R154). -/
theorem decode_encode_rdValueShort (profile : Config.Profile) {n : Nat} {k : Int} {mask : Word}
    (hwf : (Instr.rdValueShort n k mask).wf = true) (after : List Bool) :
    decode profile.riceUnreadMax (.rice n k mask) (encode (.rdValueShort n k mask) ++ after) =
      .ok (.rdValueShort n k mask, false :: after) := by
  simp only [Instr.wf, Bool.and_eq_true, decide_eq_true_eq] at hwf
  obtain ⟨⟨-, hk2⟩, hk31⟩ := hwf
  exact decodeRice_short _ n mask after ⟨hk2, hk31⟩ (Nat.zero_le _) (Nat.two_pow_pos _) (Nat.zero_le _)

/-- Settles O50: a short code word is the one operation whose encoding gives a bit back. -/
theorem decodeEncode : Obligations.DecodeEncode := by
  intro profile i after hwf
  by_cases hshort : ∃ n k mask, i = .rdValueShort n k mask
  · obtain ⟨n, k, mask, rfl⟩ := hshort
    exact ⟨false :: after, decode_encode_rdValueShort profile hwf after, .inr ⟨n, k, mask, rfl, rfl⟩⟩
  · push Not at hshort
    exact ⟨after, decode_encode profile hwf hshort after, .inl rfl⟩

/-- Settles O51: the table's words by evaluation; the code words by the form that the extra field, 0 or 1,
has against RICE_UNREAD_MAX. -/
theorem decodeWords : Obligations.DecodeWords := by
  refine ⟨by decide +kernel, by decide +kernel, by decide +kernel, by decide +kernel, by decide +kernel,
    by decide +kernel, by decide +kernel, by decide +kernel, ?doc_short, ?ref_short, ?doc_long⟩
  case doc_short =>
    exact decodeRice_short (k := 3) (q := 1) (extra := 0) 0 16 _ [true] (by decide) (by decide) (by decide) (by decide)
  case ref_short =>
    exact decodeRice_short (k := 3) (q := 1) (extra := 1) 1 16 _ [true] (by decide) (by decide) (by decide) (by decide)
  case doc_long =>
    exact decodeRice_long (k := 3) (q := 1) (extra := 1) 0 16 _ [true] (by decide) (by decide) (by decide) (by decide)

end Sys2Proof

/-! SUPPORT. What the operations answer, in the terms of their steps. -/

namespace Sys2Proof.Machine

/-- The outcome of an operation that returns no value. -/
def Res.answer (r : Res Unit) : Outcome := r.outcome fun _ u => u

@[simp] theorem Res.answer_ok (s : State) : (Res.ok () s).answer = .next s := rfl

@[simp] theorem Res.answer_stuck (f : Fault) : (Res.stuck f).answer = .fault f := rfl

section
variable (s : State)

theorem exec_bcRead (n : Nat) :
    exec (.bcRead n) s = (readBits n s).outcome fun v u => { u with result := v } := rfl

theorem exec_bcUnread (n : Nat) : exec (.bcUnread n) s = (unreadBits n s).answer := rfl

theorem exec_rdSample (c : Chan) (i : Nat) (o : RiceOperands) :
    exec (.rdSample c i o) s = (riceSample c i o s).answer := rfl

theorem exec_lpCopy (c : Chan) : exec (.lpCopy c) s = (lpCopy c s).answer := rfl

theorem exec_lpDiff (c : Chan) : exec (.lpDiff c) s = (lpDiff c s).answer := rfl

theorem exec_lpFir (c : Chan) (order : BitVec 5) : exec (.lpFir c order) s = (lpFir c order s).answer := rfl

theorem exec_fdRawlow : exec .fdRawlow s = (rawLow s).answer := rfl

theorem exec_fdVerbatim :
    exec .fdVerbatim s = if sampleSizeOk s then (verbatim s).answer else .fault .notSelected := rfl

theorem exec_fdMixWeighted (shift weight : BitVec 8) :
    exec (.fdMixWeighted shift weight) s = (mixWeighted shift weight s).answer := rfl

theorem exec_fdMixDirect (shift : BitVec 8) : exec (.fdMixDirect shift) s = (mixDirect shift s).answer := rfl

theorem exec_fdPack16 : exec .fdPack16 s = (pack16 s).answer := rfl

theorem exec_fdPack24 : exec .fdPack24 s = (pack24 s).answer := rfl

end

end Sys2Proof.Machine

/-! SUPPORT. For O1 to O4: the bit cursor (`40_bitcursor.md`). -/

namespace Sys2Proof.Machine

/-! ## The number that a bit string writes (R9, R61) -/

/-- The number's bits are the string's, the first on top. -/
theorem testBit_natOfBits (bits : List Bool) {i : Nat} (h : i < bits.length) :
    (natOfBits bits).testBit (bits.length - 1 - i) = bits[i] := by
  induction bits generalizing i with
  | nil => simp at h
  | cons b rest ih =>
    rw [natOfBits_cons, Nat.mul_comm, Nat.testBit_two_pow_mul_add _ (natOfBits_lt rest)]
    cases i with
    | zero => cases b <;> simp
    | succ i =>
      have hi : i < rest.length := by simpa using h
      have hsub : (b :: rest).length - 1 - (i + 1) = rest.length - 1 - i := by simp; omega
      rw [hsub, if_pos (by omega), ih hi, List.getElem_cons_succ]

/-- No bit string can be read exactly when one of its bits lies in a byte that nothing has written (R40). -/
theorem payloadBits_eq_none_iff {m : Memory} {p n : Nat} :
    payloadBits m p n = none ↔ ∃ i < n, payloadBit m (p + i) = none := by
  induction n generalizing p with
  | zero => simp [payloadBits]
  | succ n ih =>
    have hsplit : payloadBits m p (n + 1) = none ↔ payloadBit m p = none ∨ payloadBits m (p + 1) n = none := by
      rw [payloadBits]
      cases payloadBit m p <;> simp
    rw [hsplit, ih, Nat.exists_lt_succ_left]
    simp only [Nat.add_zero, Nat.add_assoc, Nat.add_comm 1]

/-! ## BC.READ (R131) -/

/-- A read inside the payload, all of whose bytes are there. -/
theorem readBits_of_present {n : Nat} {s : State} (h1 : 1 ≤ n) (h32 : n ≤ 32)
    (hend : s.pos + n ≤ 8 * s.bcLen.toNat) (hbytes : ∀ i < n, payloadBit s.payload (s.pos + i) ≠ none) :
    ∃ v : Word, v.toNat < 2 ^ n ∧
      (∀ i < n, payloadBit s.payload (s.pos + i) = some (v.getLsbD (n - 1 - i))) ∧
      readBits n s = .ok v (s.setPos (s.pos + n)) := by
  obtain ⟨bits, hbits⟩ : ∃ bits, payloadBits s.payload s.pos n = some bits := by
    rw [← Option.ne_none_iff_exists', ne_eq, payloadBits_eq_none_iff]
    push Not
    exact hbytes
  obtain rfl : bits.length = n := payloadBits_length hbits
  have hlt := natOfBits_lt bits
  have hfit : natOfBits bits < 2 ^ 32 := hlt.trans_le (Nat.pow_le_pow_right (by decide) h32)
  refine ⟨BitVec.ofNat 32 (natOfBits bits), ?bound, fun i hi => ?bit, readBits_ok s bits h1 h32 ?held⟩
  case bound => rwa [BitVec.toNat_ofNat, Nat.mod_eq_of_lt hfit]
  case bit =>
    rw [(payloadBits_eq_some_iff ..).mp hbits i hi, BitVec.getLsbD_ofNat, testBit_natOfBits bits hi,
      decide_eq_true (by omega : bits.length - 1 - i < 32), Bool.true_and]
  case held => simp [holdsBits, holdsBitsAt, hend, hbits]

/-- A read beyond the payload's end raises, before anything is read (R131, R322). -/
theorem readBits_beyond {n : Nat} {s : State} (h1 : 1 ≤ n) (h32 : n ≤ 32) (hend : 8 * s.bcLen.toNat < s.pos + n) :
    readBits n s = raise .truncated (s.word32 s.pos) s := by
  rw [readBits, if_neg (by omega), if_pos hend]

/-- A read of a byte that nothing has written (R40, log 17). -/
theorem readBits_missing {n : Nat} {s : State} (h1 : 1 ≤ n) (h32 : n ≤ 32) (hend : s.pos + n ≤ 8 * s.bcLen.toNat)
    (hbyte : ∃ i < n, payloadBit s.payload (s.pos + i) = none) : readBits n s = .stuck .noSuchByte := by
  rw [readBits, if_neg (by omega), if_neg (by omega), memRead, payloadBits_eq_none_iff.mpr hbyte, Option.map_none]

/-- A read of a width that R131 gives no meaning (U11). -/
theorem readBits_width {n : Nat} (s : State) (h : n < 1 ∨ 32 < n) : readBits n s = .stuck .readWidth := if_pos h

/-- Inside the payload POS stays a 35-bit quantity (R24). -/
theorem pos_setPos_of_le_end {s : State} {p : Nat} (h : p ≤ 8 * s.bcLen.toNat) : (s.setPos p).pos = p :=
  s.pos_setPos p (by have := s.bcLen.isLt; omega)

/-! ## BC.CLZ (R134) -/

/-- The count of zero bits above the highest set bit, at any word but 0 (R10). -/
theorem clz32_spec {v : Word} (h : v ≠ 0) :
    clz32 v ≤ 31 ∧ 2 ^ (31 - clz32 v) ≤ v.toNat ∧ v.toNat < 2 ^ (32 - clz32 v) := by
  have hv : v.toNat ≠ 0 := fun h0 => h (BitVec.eq_of_toNat_eq h0)
  have hlog : v.toNat.log2 < 32 := (Nat.log2_lt hv).mpr v.isLt
  have hclz : clz32 v = 31 - v.toNat.log2 := if_neg h
  have hbelow : 31 - clz32 v = v.toNat.log2 := by omega
  have habove : 32 - clz32 v = v.toNat.log2 + 1 := by omega
  rw [hbelow, habove]
  exact ⟨by omega, Nat.log2_self_le hv, Nat.lt_log2_self⟩

/-! ## The obligations -/

/-- Settles O1: BC.INIT is one write of the three cursor registers. -/
theorem bcInitRule : Obligations.BcInitRule := fun _ _ => rfl

/-- Settles O2: the read by its bits, the raise by the fault entry it makes. -/
theorem bcReadRule : Obligations.BcReadRule := by
  intro n s h1 h32
  refine ⟨fun hend hbytes => ?read, fun hend hready => ?raised⟩
  case read =>
    obtain ⟨v, hlt, hbits, hread⟩ := readBits_of_present h1 h32 hend hbytes
    exact ⟨v, hlt, hbits, by rw [exec_bcRead, hread, Res.outcome_ok], pos_setPos_of_le_end hend⟩
  case raised =>
    refine ⟨s.word32 s.pos, s.toNat_word32 s.pos, ?_⟩
    rw [exec_bcRead, readBits_beyond h1 h32 hend, raise_faultReady _ _ s hready, Res.outcome_raised]
    rfl

/-- Settles O3: the two things that `unreadBits` can do. -/
theorem bcUnreadRule : Obligations.BcUnreadRule := by
  intro n s _
  rcases unreadBits_cases n s with ⟨hle, hback⟩ | ⟨hlt, hstop⟩
  · have hpos : (s.setPos (s.pos - n)).pos = s.pos - n := s.pos_setPos _ (by have := s.pos_lt; omega)
    exact ⟨fun _ => ⟨by rw [exec_bcUnread, hback, Res.answer_ok], hpos⟩, fun h => by omega⟩
  · exact ⟨fun h => by omega, fun _ => by rw [exec_bcUnread, hstop, Res.answer_stuck]⟩

/-- Settles O4: the count is 32 of the zero word, and of any other it is the one that `clz32_spec` bounds. -/
theorem bcClzRule : Obligations.BcClzRule := by
  intro v s
  refine ⟨clz32 v, rfl, ?_⟩
  by_cases h : v = 0
  · have hzero : clz32 v = 32 := if_pos h
    exact ⟨hzero.le, ⟨fun _ => hzero, fun _ => h⟩, fun hne => absurd h hne⟩
  · obtain ⟨hle, hbelow, habove⟩ := clz32_spec h
    exact ⟨by omega, ⟨fun h0 => absurd h0 h, fun h32 => by omega⟩, fun _ => ⟨hbelow, habove⟩⟩

end Sys2Proof.Machine

/-! SUPPORT. A frame's header read from its bits (R90, R211 to R216), and the kind that it names (R91). -/

namespace Sys2Proof.Machine

/-! ## Fields of the payload -/

/-- A bit string in two parts lies in the payload when each part does. -/
theorem holdsBitsAt_append {s : State} {p : Nat} {x y : List Bool} :
    holdsBitsAt s p (x ++ y) = true ↔ holdsBitsAt s p x = true ∧ holdsBitsAt s (p + x.length) y = true := by
  simp only [holdsBitsAt, Bool.and_eq_true, decide_eq_true_eq, beq_iff_eq, payloadBits_append]
  rw [List.length_append]
  constructor
  · rintro ⟨hend, hx, hy⟩
    exact ⟨⟨by omega, hx⟩, by omega, hy⟩
  · rintro ⟨⟨-, hx⟩, hend, hy⟩
    exact ⟨by omega, hx, hy⟩

/-- What the payload holds depends on its bytes and on its length alone (R9). -/
theorem holdsBitsAt_congr {s t : State} (hbytes : t.payload = s.payload) (hlen : t.bcLen = s.bcLen) {p : Nat}
    {bits : List Bool} (h : holdsBitsAt s p bits = true) : holdsBitsAt t p bits = true := by
  rwa [holdsBitsAt, hbytes, hlen]

/-- POS is made of the cursor's two registers alone (R24). -/
theorem pos_eq_of_cursor {t : State} {p : Nat} (hp : p < 2 ^ 35) (hidx : t.bcIdx = BitVec.ofNat 32 (p / 8))
    (hacc : t.bcAcc = BitVec.ofNat 3 (p % 8)) : t.pos = p := by
  have hpos := t.pos_setPos p hp
  rw [State.pos, State.setPos_bcIdx, State.setPos_bcAcc, ← hidx, ← hacc] at hpos
  exact hpos

/-- A field at POS is read as its value (R131). -/
theorem readBits_field {w : Nat} {v : BitVec w} {s : State} {p : Nat} (h1 : 1 ≤ w) (h32 : w ≤ 32)
    (hpos : s.pos = p) (h : holdsBitsAt s p (bitsOfNat w v.toNat) = true) :
    readBits w s = .ok (v.setWidth 32) (s.setPos (p + w)) := by
  subst hpos
  have hread := readBits_ok s (bitsOfNat w v.toNat) (by simpa) (by simpa) h
  have hvalue : BitVec.ofNat 32 v.toNat = v.setWidth 32 := by simp
  rwa [length_bitsOfNat, natOfBits_bitsOfNat, Nat.mod_eq_of_lt v.isLt, hvalue] at hread

/-- A field of at most 32 bits is handed over whole in a word. -/
theorem setWidth_setWidth_32 {w : Nat} (h : w ≤ 32) (v : BitVec w) : (v.setWidth 32).setWidth w = v := by
  rw [BitVec.setWidth_setWidth_of_le _ h, BitVec.setWidth_eq]

/-! ## The three parts of a header -/

section
variable {h : HeaderFields} {s : State}

/-- CHAN as the stream was configured (R212). -/
theorem readChan_of_bits (hpos : s.pos = 0) (hbits : holdsBitsAt s 0 (bitsOfNat 3 h.chan.toNat) = true)
    (hchan : h.chan.toNat ≤ 1) (hcfg : h.chan.toNat + 1 = s.cfgChannels.toNat) :
    readChan s = .ok () { s.setPos 3 with fhChan := h.chan } := by
  have hvalue : (h.chan.setWidth 32).toNat = h.chan.toNat := BitVec.toNat_setWidth_of_le (by decide)
  rw [readChan, readBits_field (by decide) (by decide) hpos hbits, Res.bind_ok]
  simp only [setWidth_setWidth_32 (by decide : 3 ≤ 32), hvalue, State.setPos_cfgChannels]
  rw [if_neg (by omega), if_neg (by omega)]

/-- RSVD, whatever it is, HASSIZE, UB and CF (R213, R214). -/
theorem readFlags_of_bits (hpos : s.pos = 3)
    (hbits : holdsBitsAt s 3 (bitsOfNat 16 h.rsvd.toNat ++ (bitsOfNat 1 h.hasSize.toNat ++
      (bitsOfNat 2 h.ub.toNat ++ bitsOfNat 1 h.cf.toNat))) = true) :
    readFlags s = .ok () { s.setPos 23 with fhHasSize := h.hasSize, fhUb := h.ub, fhCf := h.cf } := by
  simp only [holdsBitsAt_append, length_bitsOfNat] at hbits
  obtain ⟨hrsvd, hhas, hub, hcf⟩ := hbits
  rw [readFlags, readBits_field (by decide) (by decide) hpos hrsvd, Res.bind_ok,
    readBits_field (v := h.hasSize) (p := 19) (by decide) (by decide) ?hasSizeAt ?hasSizeHeld, Res.bind_ok,
    readBits_field (v := h.ub) (p := 20) (by decide) (by decide) ?ubAt ?ubHeld, Res.bind_ok,
    readBits_field (v := h.cf) (p := 22) (by decide) (by decide) ?cfAt ?cfHeld, Res.bind_ok]
  case hasSizeAt | ubAt | cfAt => exact pos_eq_of_cursor (by decide) rfl rfl
  case hasSizeHeld => exact holdsBitsAt_congr rfl rfl hhas
  case ubHeld => exact holdsBitsAt_congr (by simp) (by simp) hub
  case cfHeld => exact holdsBitsAt_congr (by simp) (by simp) hcf
  simp

/-- The sample count, from the header or from the stream, within the stream's (R215, R216). -/
theorem readCount_of_bits (hpos : s.pos = 23) (hhas : s.fhHasSize = h.hasSize)
    (hbits : holdsBitsAt s 23 (if h.hasSize = 1 then bitsOfNat 32 h.nsamples.toNat else []) = true)
    (hcount : (headerCount h s).toNat ≤ s.cfgMaxSamples.toNat) :
    readCount s = .ok () { s.setPos (bodyStart h) with fhN := headerCount h s } := by
  rw [readCount, hhas]
  by_cases hsized : h.hasSize = 1
  · rw [if_pos hsized] at hbits ⊢
    have hvalue : headerCount h s = h.nsamples := if_pos hsized
    have hstart : bodyStart h = 55 := if_pos hsized
    rw [hvalue] at hcount ⊢
    rw [readBits_field (by decide) (by decide) hpos hbits, Res.bind_ok, BitVec.setWidth_eq, checkCount, hstart]
    exact if_neg (Nat.not_lt.mpr hcount)
  · have hvalue : headerCount h s = s.cfgMaxSamples := if_neg hsized
    have hstart : bodyStart h = 23 := if_neg hsized
    rw [if_neg hsized, hvalue, hstart, ← hpos, State.setPos_pos_self, checkCount]
    exact if_neg (Nat.lt_irrefl _)

/-- The bits of a header in its three parts. -/
theorem encodeHeader_parts (h : HeaderFields) :
    encodeHeader h = bitsOfNat 3 h.chan.toNat ++ ((bitsOfNat 16 h.rsvd.toNat ++ (bitsOfNat 1 h.hasSize.toNat ++
      (bitsOfNat 2 h.ub.toNat ++ bitsOfNat 1 h.cf.toNat))) ++
        if h.hasSize = 1 then bitsOfNat 32 h.nsamples.toNat else []) := by
  simp only [encodeHeader, List.append_assoc]

/-- A header that the stream takes is read field by field (R211 to R216). -/
theorem frameHeader_of_bits (hlegal : headerLegal h s = true) (hbits : holdsBitsAt s 0 (encodeHeader h) = true) :
    frameHeader s.bcLen s = .ok () (headerState h s) := by
  simp only [headerLegal, Bool.and_eq_true, decide_eq_true_eq] at hlegal
  obtain ⟨⟨⟨hsize, hchan⟩, hcfg⟩, hcount⟩ := hlegal
  rw [encodeHeader_parts, holdsBitsAt_append, holdsBitsAt_append] at hbits
  simp only [List.length_append, length_bitsOfNat] at hbits
  obtain ⟨hb0, hb3, hb23⟩ := hbits
  let s1 : State := { s.setPos 3 with fhChan := h.chan }
  let s2 : State := { s1.setPos 23 with fhHasSize := h.hasSize, fhUb := h.ub, fhCf := h.cf }
  have hstart : initCursor s.bcLen s = s.setPos 0 := rfl
  have hread1 : readChan (s.setPos 0) = .ok () s1 :=
    readChan_of_bits (s.pos_setPos 0 (by decide)) (holdsBitsAt_congr rfl rfl hb0) hchan hcfg
  have hread2 : readFlags s1 = .ok () s2 :=
    readFlags_of_bits (pos_eq_of_cursor (by decide) rfl rfl) (holdsBitsAt_congr rfl rfl hb3)
  have hread3 : readCount s2 = .ok () { s2.setPos (bodyStart h) with fhN := headerCount h s2 } :=
    readCount_of_bits (pos_eq_of_cursor (by decide) rfl rfl) rfl (holdsBitsAt_congr rfl rfl hb23) hcount
  have hend : { s2.setPos (bodyStart h) with fhN := headerCount h s2 } = headerState h s := by
    simp [headerState, headerCount, s2, s1]
  rw [frameHeader, if_pos hsize, hstart, hread1, Res.bind_ok, hread2, Res.bind_ok, hread3, hend]

end

/-! ## The kind of a frame (R91) -/

/-- CHAN of the frames of a kind. -/
def FrameKind.chan : FrameKind → BitVec 3
  | .monoC | .monoU => 0
  | .stereoC | .stereoU => 1

/-- CF of the frames of a kind (R95). -/
def FrameKind.cf : FrameKind → BitVec 1
  | .monoC | .stereoC => 0
  | .monoU | .stereoU => 1

/-- In a mono or stereo frame the two fields are those of its kind. -/
theorem fields_of_frameKind {s : State} (h : s.fhChan.toNat ≤ 1) :
    s.fhChan = (frameKind s).chan ∧ s.fhCf = (frameKind s).cf := by
  have hchan : s.fhChan = 0 ∨ s.fhChan = 1 := by
    rcases Nat.le_one_iff_eq_zero_or_eq_one.mp h with h0 | h1
    · exact .inl (BitVec.eq_of_toNat_eq h0)
    · exact .inr (BitVec.eq_of_toNat_eq h1)
  rcases hchan with hchan | hchan <;> rcases BitVec.eq_zero_or_eq_one s.fhCf with hcf | hcf <;>
    simp [frameKind, Config.cfUncompressedValue, hchan, hcf, FrameKind.chan, FrameKind.cf]

/-- A frame of another kind than asked for stops after its header (R91, log 13). -/
theorem frameOfKind_of_other_fields {h : HeaderFields} {s : State} {kind : FrameKind}
    (hlegal : headerLegal h s = true) (hbits : holdsBitsAt s 0 (encodeHeader h) = true)
    (hother : h.chan ≠ kind.chan ∨ h.cf ≠ kind.cf) : frameOfKind kind s = .stuck .notSelected := by
  have hchan : h.chan.toNat ≤ 1 := by
    simp only [headerLegal, Bool.and_eq_true, decide_eq_true_eq] at hlegal
    obtain ⟨⟨⟨-, hchan⟩, -⟩, -⟩ := hlegal
    exact hchan
  have hkind : frameKind (headerState h s) ≠ kind := by
    rintro rfl
    obtain ⟨hc, hf⟩ := fields_of_frameKind (s := headerState h s) hchan
    exact hother.elim (absurd hc) (absurd hf)
  rw [frameOfKind, frameHeader_of_bits hlegal hbits, Res.bind_ok, if_neg hkind]

end Sys2Proof.Machine

/-! SUPPORT. For O59: the operations that ask for the frame's channels take FH_CHAN 2 to 7 as 1 (log 33). Their
loops over the channels are built of steps that do not read FH_CHAN at all. -/

namespace Sys2Proof.Machine

/-! ## FH_CHAN 2 to 7 taken as 1 (log 33) -/

/-- The state with another FH_CHAN (R25). -/
def State.withChan (x : BitVec 3) (s : State) : State := { s with fhChan := x }

/-- What a step inside an operation comes to, with another FH_CHAN in its state. -/
def Res.withChan {α : Type} (x : BitVec 3) : Res α → Res α
  | .ok v s => .ok v (s.withChan x)
  | .raised s => .raised (s.withChan x)
  | .stuck f => .stuck f

@[simp] theorem State.chan_withChan (x : BitVec 3) (s : State) (c : Chan) : (s.withChan x).chan c = s.chan c := by
  cases c <;> rfl

theorem State.withChan_setChan (x : BitVec 3) (s : State) (c : Chan) (r : ChanRegs) :
    (s.withChan x).setChan c r = (s.setChan c r).withChan x := by
  cases c <;> rfl

/-- Not in a mono frame, the channels are A and B (R210; log 33). -/
theorem channels_of_ne_zero {s : State} (h : s.fhChan ≠ 0) : channels s = [.a, .b] := if_neg h

theorem Res.answer_withChan {r : Res Unit} {t : State} (x : BitVec 3) (h : r.answer = .next t) :
    (r.withChan x).answer = .next (t.withChan x) := by
  cases r with
  | ok v u => cases h; rfl
  | raised u => cases h; rfl
  | stuck f => cases h

/-- The step does what it does whatever FH_CHAN is. -/
def IgnoresChan {α : Type} (f : State → Res α) : Prop :=
  ∀ (x : BitVec 3) (s : State), f (s.withChan x) = (f s).withChan x

theorem IgnoresChan.bind {α β : Type} {f : State → Res α} {k : α → State → Res β} (hf : IgnoresChan f)
    (hk : ∀ v, IgnoresChan (k v)) : IgnoresChan fun s => (f s).bind k := by
  intro x s
  simp only [hf x s]
  cases f s with
  | ok v u => exact hk v x u
  | raised u => rfl
  | stuck e => rfl

theorem IgnoresChan.readBits (n : Nat) : IgnoresChan (readBits n) := by
  intro x s
  rcases readBits_cases n s with ⟨h1, h32, hend, bits, hbits, h⟩ | ⟨h1, h32, hend, h⟩ | ⟨h1, h32, hend, hnone, h⟩ |
    ⟨hw, h⟩ <;> rw [h]
  · obtain rfl := payloadBits_length hbits
    have hheld : holdsBits s bits = true := by simp [holdsBits, holdsBitsAt, hend, hbits]
    exact readBits_ok (s.withChan x) bits h1 h32 hheld
  · rw [readBits_beyond (s := s.withChan x) h1 h32 hend]
    rcases raise_cases (α := Word) .truncated (s.word32 s.pos) s with ⟨hm, hr⟩ | ⟨hm, hr⟩ <;> rw [hr]
    · exact if_pos hm
    · exact if_neg hm
  · exact readBits_missing (s := s.withChan x) h1 h32 hend (payloadBits_eq_none_iff.mp hnone)
  · exact readBits_width _ hw

/-- A write to a channel's registers, from what stood there. -/
theorem IgnoresChan.setChan (c : Chan) (g : ChanRegs → ChanRegs) :
    IgnoresChan fun s => .ok () (s.setChan c (g (s.chan c))) := by
  intro x s
  simp only [State.chan_withChan, State.withChan_setChan]
  rfl

theorem IgnoresChan.readRaw (ub i : Nat) (c : Chan) : IgnoresChan (readRaw ub i c) :=
  .bind (.readBits _) fun v => .setChan c fun r => { r with raw := File.write r.raw i (v.setWidth 24) }

theorem IgnoresChan.setOut (c : Chan) (i : Nat) (v : Word) : IgnoresChan fun s => .ok () (setOut c i v s) :=
  .setChan c fun r => { r with out := File.write r.out i v }

theorem IgnoresChan.readVerbatim (size : BitVec 8) (i : Nat) (c : Chan) : IgnoresChan (readVerbatim size i c) := by
  unfold Machine.readVerbatim
  split
  · exact .bind (.readBits 16) fun v => .setOut c i (sext 16 v)
  · exact .bind (.readBits 16) fun hi => .bind (.readBits 8) fun lo => .setOut c i (sext 24 (lsl hi 8 ||| lo))

theorem IgnoresChan.eachChan {body : Chan → State → Res Unit} (h : ∀ c, IgnoresChan (body c)) (cs : List Chan) :
    IgnoresChan (eachChan cs body) := by
  induction cs with
  | nil => exact fun _ _ => rfl
  | cons c cs ih => exact .bind (h c) fun _ => ih

theorem IgnoresChan.forRes {body : Nat → State → Res Unit} (h : ∀ i, IgnoresChan (body i)) (n : Nat) :
    IgnoresChan (forRes n body) := by
  induction n with
  | zero => exact fun _ _ => rfl
  | succ n ih => exact .bind ih fun _ => h n

theorem withinBuffers_withChan (x : BitVec 3) (s : State) (go : Res Unit) :
    withinBuffers (s.withChan x) (go.withChan x) = (withinBuffers s go).withChan x := by
  rcases withinBuffers_cases s go with ⟨hle, h⟩ | ⟨hlt, h⟩ <;> rw [h]
  · exact if_neg (Nat.not_lt.mpr hle)
  · exact if_pos hlt

section
variable {x : BitVec 3} {s : State}

theorem rawLow_withChan (hs : s.fhChan ≠ 0) (hx : x ≠ 0) : rawLow (s.withChan x) = (rawLow s).withChan x := by
  have hloop := IgnoresChan.forRes (fun i => .eachChan (IgnoresChan.readRaw s.fhUb.toNat i) [.a, .b]) s.fhN.toNat x s
  unfold rawLow
  rw [channels_of_ne_zero hs, channels_of_ne_zero (s := s.withChan x) hx]
  by_cases hub : s.fhUb = 0
  · rw [if_pos hub]
    exact if_pos hub
  · rw [if_neg hub, ← withinBuffers_withChan, ← hloop]
    exact if_neg hub

theorem verbatim_withChan (hs : s.fhChan ≠ 0) (hx : x ≠ 0) : verbatim (s.withChan x) = (verbatim s).withChan x := by
  have hloop :=
    IgnoresChan.forRes (fun i => .eachChan (IgnoresChan.readVerbatim s.cfgSampleSize i) [.a, .b]) s.fhN.toNat x s
  unfold verbatim
  rw [channels_of_ne_zero hs, channels_of_ne_zero (s := s.withChan x) hx, ← withinBuffers_withChan, ← hloop]
  rfl

theorem mixWeighted_withChan (hs : s.fhChan ≠ 0) (hx : x ≠ 0) (shift weight : BitVec 8) :
    mixWeighted shift weight (s.withChan x) = (mixWeighted shift weight s).withChan x := by
  rw [mixWeighted, mixWeighted, if_neg hs, ← withinBuffers_withChan]
  exact if_neg hx

theorem mixDirect_withChan (hs : s.fhChan ≠ 0) (hx : x ≠ 0) (shift : BitVec 8) :
    mixDirect shift (s.withChan x) = (mixDirect shift s).withChan x := by
  rw [mixDirect, mixDirect, if_neg hs, ← withinBuffers_withChan]
  exact if_neg hx

theorem outputs_withChan (hs : s.fhChan ≠ 0) (hx : x ≠ 0) (i : Nat) : outputs (s.withChan x) i = outputs s i := by
  rw [outputs, outputs, if_neg hs]
  exact if_neg hx

theorem packReady_withChan (t : State) :
    packReady (s.withChan x) (t.withChan x) = (packReady s t).withChan x := by
  by_cases hc : 2 < s.cfgChannels.toNat
  · rw [packReady, packReady, if_pos hc]
    exact if_pos hc
  · rw [packReady, packReady, if_neg hc, ← withinBuffers_withChan]
    exact if_neg hc

theorem pack16_withChan (hs : s.fhChan ≠ 0) (hx : x ≠ 0) : pack16 (s.withChan x) = (pack16 s).withChan x := by
  have hbytes : frameBytes16 (s.withChan x) = frameBytes16 s :=
    funext fun i => by rw [frameBytes16, outputs_withChan hs hx, frameBytes16]
  unfold pack16
  rw [hbytes]
  by_cases h16 : s.cfgSampleSize = 16
  · rw [if_pos h16, ← packReady_withChan]
    exact if_pos h16
  · rw [if_neg h16]
    exact if_neg h16

theorem pack24_withChan (hs : s.fhChan ≠ 0) (hx : x ≠ 0) : pack24 (s.withChan x) = (pack24 s).withChan x := by
  have hbytes : frameBytes24 (s.withChan x) = frameBytes24 s :=
    funext fun i => by rw [frameBytes24, outputs_withChan hs hx, frameBytes24]; rfl
  unfold pack24
  rw [hbytes]
  by_cases h24 : s.cfgSampleSize = 24
  · rw [if_pos h24, ← packReady_withChan]
    exact if_pos h24
  · rw [if_neg h24]
    exact if_neg h24

end

/-- An operation that asks for the frame's channels does with any FH_CHAN but 0 what it does with any other. -/
theorem exec_withChan {op : Instr} {shift weight : BitVec 8} {s t : State} {x : BitVec 3}
    (hop : op = .fdRawlow ∨ op = .fdVerbatim ∨ op = .fdMixWeighted shift weight ∨ op = .fdMixDirect shift ∨
      op = .fdPack16 ∨ op = .fdPack24)
    (hs : s.fhChan ≠ 0) (hx : x ≠ 0) (h : exec op s = .next t) : exec op (s.withChan x) = .next (t.withChan x) := by
  rcases hop with rfl | rfl | rfl | rfl | rfl | rfl
  · rw [exec_fdRawlow, rawLow_withChan hs hx]
    exact Res.answer_withChan x h
  · rw [exec_fdVerbatim] at h
    split at h
    · rename_i hsize
      rw [exec_fdVerbatim, verbatim_withChan hs hx]
      exact (if_pos hsize).trans (Res.answer_withChan x h)
    · cases h
  · rw [exec_fdMixWeighted, mixWeighted_withChan hs hx]
    exact Res.answer_withChan x h
  · rw [exec_fdMixDirect, mixDirect_withChan hs hx]
    exact Res.answer_withChan x h
  · rw [exec_fdPack16, pack16_withChan hs hx]
    exact Res.answer_withChan x h
  · rw [exec_fdPack24, pack24_withChan hs hx]
    exact Res.answer_withChan x h

end Sys2Proof.Machine

/-! SUPPORT. For O58 and O59: what the packs write (R226, R227), frame by frame and sample by sample. -/

namespace Sys2Proof.Machine

/-! ## Runs of bytes, one after the other -/

/-- An address outside every run reads as before. -/
theorem Memory.read_forN_writeBytes_other (m : Memory) (n : Nat) (base : Nat → Nat) (g : Nat → List Byte) (x : Nat)
    (h : ∀ i < n, ¬(base i ≤ x ∧ x < base i + (g i).length)) :
    Memory.read (forN n (fun i m => m.writeBytes (base i) (g i)) m) x = m.read x := by
  induction n with
  | zero => rfl
  | succ n ih =>
    rw [forN_succ, Memory.read_writeBytes, dif_neg (h n n.lt_succ_self), ih fun i hi => h i (by omega)]

/-- A byte of a run is read back, when every later run lies above it. -/
theorem Memory.read_forN_writeBytes_last (m : Memory) {n i j : Nat} (base : Nat → Nat) (g : Nat → List Byte)
    (hi : i < n) (hj : j < (g i).length) (hlater : ∀ i', i < i' → i' < n → base i + j < base i') :
    Memory.read (forN n (fun i m => m.writeBytes (base i) (g i)) m) (base i + j) = (g i)[j]? := by
  induction n with
  | zero => omega
  | succ n ih =>
    rw [forN_succ, Memory.read_writeBytes]
    by_cases hin : i = n
    · subst hin
      rw [dif_pos (by omega), List.getElem?_eq_getElem hj]
      simp only [Nat.add_sub_cancel_left]
    · have hbelow : base i + j < base n := hlater n (by omega) n.lt_succ_self
      rw [dif_neg (by omega)]
      exact ih (by omega) fun i' h1 h2 => hlater i' h1 (by omega)

/-- An entry of one of several blocks of the same length. -/
theorem getElem?_flatMap_of_length {α β : Type} (f : α → List β) {k : Nat} (hk : ∀ a, (f a).length = k)
    (l : List α) (x : Nat) {j : Nat} (hj : j < k) :
    (l.flatMap f)[x * k + j]? = l[x]?.bind fun a => (f a)[j]? := by
  induction l generalizing x with
  | nil => simp
  | cons a l ih =>
    rw [List.flatMap_cons]
    cases x with
    | zero =>
      have hja : j < (f a).length := by rwa [hk]
      simp [List.getElem?_append_left hja]
    | succ x =>
      have hidx : (x + 1) * k + j = (f a).length + (x * k + j) := by rw [hk, Nat.succ_mul]; omega
      rw [hidx, List.getElem?_append_right (Nat.le_add_right ..), Nat.add_sub_cancel_left, ih,
        List.getElem?_cons_succ]

/-! ## The bytes of a frame -/

/-- The number of output channels of a frame (R210, R230; log 33). -/
def outputCount (s : State) : Nat := if s.fhChan = 0 then 1 else 2

/-- Output channel x of frame i: S of a mono frame, L and R of any other (R224, R230). -/
def outputSample (s : State) (i x : Nat) : Word :=
  if s.fhChan = 0 then File.read s.chA.out i else if x = 0 then File.read s.mixL i else File.read s.mixR i

/-- The raw low bytes that join output channel x of frame i (R227). -/
def outputRaw (s : State) (i x : Nat) : BitVec 24 :=
  if x = 0 then File.read s.chA.raw i else File.read s.chB.raw i

/-- What the pack of the configured size writes of output channel x of frame i (R226, R227). -/
def packedSample (s : State) (i x : Nat) : Word :=
  if s.fhUb = 0 ∨ s.cfgSampleSize = 16 then outputSample s i x
  else (outputSample s i x <<< (8 * s.fhUb.toNat)) ||| (outputRaw s i x).setWidth 32

/-- The PCM bytes of frame i, channel by channel (R64). -/
def frameBytes (s : State) (i : Nat) : List Byte :=
  (List.range (outputCount s)).flatMap fun x => sampleBytes (bytesPerSample s) (packedSample s i x)

theorem outputs_eq (s : State) (i : Nat) :
    outputs s i = (List.range (outputCount s)).map fun x => (outputSample s i x, outputRaw s i x) := by
  unfold outputs outputCount outputSample outputRaw
  by_cases h : s.fhChan = 0
  · simp only [if_pos h]
    rfl
  · simp only [if_neg h]
    rfl

theorem frameBytes16_eq {s : State} (h : s.cfgSampleSize = 16) : frameBytes16 s = frameBytes s := by
  funext i
  simp [frameBytes16, frameBytes, outputs_eq, List.flatMap_map, packedSample, bytesPerSample, h]

theorem frameBytes24_eq {s : State} (h : s.cfgSampleSize = 24) : frameBytes24 s = frameBytes s := by
  funext i
  simp [frameBytes24, frameBytes, outputs_eq, List.flatMap_map, packedSample, mergeRaw, lsl, bytesPerSample, h]

theorem sampleSizeOk_iff {s : State} : sampleSizeOk s = true ↔ s.cfgSampleSize = 16 ∨ s.cfgSampleSize = 24 := by
  simp only [sampleSizeOk, Bool.or_eq_true, beq_iff_eq]

/-- The pack that the sample size selects (R226, R227) writes the frames of `frameBytes`. -/
theorem exec_packOp {s : State} (h : sampleSizeOk s = true) :
    exec (packOp s) s = (packReady s (packWith (frameBytes s) s)).answer := by
  by_cases h16 : s.cfgSampleSize = 16
  · rw [packOp, if_pos h16, exec_fdPack16, pack16, if_pos h16, frameBytes16_eq h16]
  · have h24 : s.cfgSampleSize = 24 := (sampleSizeOk_iff.mp h).resolve_left h16
    rw [packOp, if_neg h16, exec_fdPack24, pack24, if_pos h24, frameBytes24_eq h24]

@[simp] theorem length_sampleBytes (n : Nat) (v : Word) : (sampleBytes n v).length = n := by simp [sampleBytes]

theorem length_frameBytes (s : State) (i : Nat) :
    (frameBytes s i).length = outputCount s * bytesPerSample s := by
  simp [frameBytes, List.length_flatMap]

/-- Byte j of output channel x in its frame (R64, R69). -/
theorem getElem?_frameBytes {s : State} (i : Nat) {x j : Nat} (hx : x < outputCount s) (hj : j < bytesPerSample s) :
    (frameBytes s i)[x * bytesPerSample s + j]? = some ((packedSample s i x >>> (8 * j)).setWidth 8) := by
  rw [frameBytes, getElem?_flatMap_of_length _ (fun _ => length_sampleBytes ..) _ x hj, List.getElem?_range hx]
  simp [sampleBytes, hj]

/-- BPF is BPS for each channel of the stream (R33, R64). -/
theorem bytesPerFrame_eq {s : State} (h : sampleSizeOk s = true) :
    bytesPerFrame s = s.cfgChannels.toNat * bytesPerSample s := by
  rcases sampleSizeOk_iff.mp h with h | h <;> simp [bytesPerFrame, bytesPerSample, h] <;> omega

/-! ## What a pack leaves in PCM -/

/-- A byte of a sample that no later frame is written over: one of a channel of the stream, or one of the
last frame. -/
theorem read_packWith {s : State} (hsize : sampleSizeOk s = true) {i x j : Nat} (hi : i < s.fhN.toNat)
    (hx : x < outputCount s) (hj : j < bytesPerSample s) (hlast : x < s.cfgChannels.toNat ∨ i + 1 = s.fhN.toNat) :
    Memory.read (packWith (frameBytes s) s).pcm (i * bytesPerFrame s + x * bytesPerSample s + j) =
      some ((packedSample s i x >>> (8 * j)).setWidth 8) := by
  have inside {y c : Nat} (h : y < c) : y * bytesPerSample s + j < c * bytesPerSample s :=
    calc y * bytesPerSample s + j < (y + 1) * bytesPerSample s := by rw [Nat.succ_mul]; omega
      _ ≤ c * bytesPerSample s := Nat.mul_le_mul_right _ h
  have hlater : ∀ i', i < i' → i' < s.fhN.toNat →
      i * bytesPerFrame s + (x * bytesPerSample s + j) < i' * bytesPerFrame s := by
    intro i' hlt hlt'
    have hxc : x < s.cfgChannels.toNat := by omega
    calc i * bytesPerFrame s + (x * bytesPerSample s + j)
        < i * bytesPerFrame s + bytesPerFrame s :=
          Nat.add_lt_add_left (bytesPerFrame_eq hsize ▸ inside hxc) _
      _ = (i + 1) * bytesPerFrame s := (Nat.succ_mul ..).symm
      _ ≤ i' * bytesPerFrame s := Nat.mul_le_mul_right _ hlt
  have hlen : x * bytesPerSample s + j < (frameBytes s i).length := length_frameBytes s i ▸ inside hx
  rw [Nat.add_assoc, ← getElem?_frameBytes i hx hj]
  exact Memory.read_forN_writeBytes_last s.pcm (· * bytesPerFrame s) (frameBytes s) hi hlen hlater

/-- An address that is no byte of any sample of the frames. -/
theorem read_packWith_other {s : State} {a : Nat}
    (h : ∀ i < s.fhN.toNat, ∀ x < outputCount s, ∀ j < bytesPerSample s,
      a ≠ i * bytesPerFrame s + x * bytesPerSample s + j) :
    Memory.read (packWith (frameBytes s) s).pcm a = Memory.read s.pcm a := by
  refine Memory.read_forN_writeBytes_other s.pcm _ (· * bytesPerFrame s) (frameBytes s) a fun i hi hin => ?_
  rw [length_frameBytes] at hin
  obtain ⟨d, rfl⟩ := Nat.exists_eq_add_of_le hin.1
  have hd : d < outputCount s * bytesPerSample s := by omega
  have hpos : 0 < bytesPerSample s := Nat.pos_of_mul_pos_left (Nat.zero_lt_of_lt hd)
  refine h i hi (d / bytesPerSample s) ((Nat.div_lt_iff_lt_mul hpos).mpr hd) (d % bytesPerSample s)
    (Nat.mod_lt _ hpos) ?_
  rw [Nat.add_assoc, Nat.div_add_mod']

end Sys2Proof.Machine

/-! SUPPORT. For O59: operations on operands outside the ranges that their rules name (log 18, 33, 36). -/

namespace Sys2Proof.Machine

/-! ## The predictor, the weighted mix and the enqueue -/

/-- LP.FIR with ORDER 0 is LP.COPY (R182, R189). -/
theorem lpFir_zero (c : Chan) (s : State) : lpFir c 0 s = lpCopy c s := if_pos rfl

/-- LP.FIR with ORDER 31 is LP.DIFF (R183, R189). -/
theorem lpFir_31 (c : Chan) (s : State) : lpFir c 31 s = lpDiff c s := by
  rw [lpFir, if_neg (by decide), if_pos rfl]

/-- A loop that writes the entries from 0 on, from values it does not change. -/
theorem read_forN_write_zero {w : Nat} (n : Nat) (g : Nat → BitVec w) (f : File w) (j : Nat) :
    File.read (forN n (fun i f => File.write f i (g i)) f) j = if j < n then g j else File.read f j := by
  simpa using read_forN_write n 0 g f j

/-- FD.MIX.WEIGHTED in a frame that is not mono, whatever its operands are (R224; log 33, log 36). -/
theorem mixWeighted_runs {s : State} (shift weight : BitVec 8) (hchan : s.fhChan ≠ 0)
    (hbuf : s.fhN.toNat ≤ s.prm.bufSamples) :
    ∃ l r : File 32, mixWeighted shift weight s = .ok () { s with mixL := l, mixR := r } ∧
      (∀ i < s.fhN.toNat,
        File.read r i = mixRight (File.read s.chA.out i) (File.read s.chB.out i) shift weight ∧
          File.read l i = File.read r i + File.read s.chB.out i) ∧
      ∀ i, s.fhN.toNat ≤ i → File.read l i = File.read s.mixL i ∧ File.read r i = File.read s.mixR i := by
  have hrun : mixWeighted shift weight s = .ok () _ := (if_neg hchan).trans (if_neg (Nat.not_lt.mpr hbuf))
  refine ⟨_, _, hrun, fun i hi => ?mixed, fun i hi => ?kept⟩
  case mixed =>
    simp only [read_forN_write_zero, if_pos hi]
    exact ⟨rfl, trivial⟩
  case kept =>
    simp only [read_forN_write_zero, if_neg (Nat.not_lt.mpr hi)]
    exact ⟨trivial, trivial⟩

/-- The bytes that R264 leaves to its caller's check, by which of its conditions they fail (R264, R303). -/
theorem enqueueBytesOk_eq_false {s : State} {bytes : List Byte}
    (h : s.cfgSampleSize ≠ 16 ∧ s.cfgSampleSize ≠ 24 ∨ bytes.length = 0 ∨
      bytes.length % bytesPerFrame s ≠ 0 ∨ s.cfgMaxSamples.toNat < bytes.length / bytesPerFrame s) :
    enqueueBytesOk s bytes = false := by
  rw [Bool.eq_false_iff]
  intro hok
  simp only [enqueueBytesOk, framesOf, quantum, Bool.and_eq_true, bne_iff_ne, beq_iff_eq,
    sampleSizeOk_iff] at hok
  obtain ⟨⟨⟨⟨hsize, hsome⟩, -⟩, hwhole⟩, hquantum⟩ := hok
  rcases h with ⟨h16, h24⟩ | hnone | hpart | hlong
  · exact hsize.elim h16 h24
  · exact hsome hnone
  · exact hpart hwhole
  · exact absurd (of_decide_eq_true hquantum) (Nat.not_le.mpr hlong)

/-- JB.ENQ of such bytes, with the lock free and the stream not closing (R303; log 18). -/
theorem exec_jbEnq_of_bad_bytes {s : State} {bytes : List Byte} (key : Time) (hlock : s.lock = false)
    (hclosing : s.jbClosing = false) (h : enqueueBytesOk s bytes = false) :
    exec (.jbEnq key bytes) s = .next (respond .badArgument s) := by
  have hrun : exec (.jbEnq key bytes) s = .next (if s.lock then s else checkedEnqueue key bytes s) :=
    execJbEnq_eq key bytes s
  rw [hrun, hlock, if_neg Bool.false_ne_true, checkedEnqueue, hclosing, h]
  rfl

/-! ## The packs -/

/-- A pack of frames that the buffers hold, for at most two channels, writes them all (R226, R227). -/
theorem packReady_of_fits {s : State} (go : State) (hcfg : s.cfgChannels.toNat ≤ 2)
    (hbuf : s.fhN.toNat ≤ s.prm.bufSamples) : packReady s go = .ok () go := by
  rw [packReady, if_neg (by omega)]
  exact if_neg (Nat.not_lt.mpr hbuf)

/-! ## The obligation -/

/-- Settles O59: clause by clause, from what each operation does on any operands. -/
theorem unstatedOperandsRun : Obligations.UnstatedOperandsRun := by
  intro c shift weight key bytes s
  refine ⟨?unread, ?copy, ?diff, fun hlock hclosing hbad => ?enqueue, fun hchan hbuf => ?mix,
    fun op t hop hchan hrun => ?anyChan, fun hsize hcfg hbuf => ?packs⟩
  case unread =>
    have hback : unreadBits 0 s = .ok () (s.setPos s.pos) := if_neg (Nat.not_lt_zero _)
    rw [exec_bcUnread, hback, State.setPos_pos_self, Res.answer_ok]
  case copy => rw [exec_lpFir, lpFir_zero, exec_lpCopy]
  case diff => rw [exec_lpFir, lpFir_31, exec_lpDiff]
  case enqueue => exact exec_jbEnq_of_bad_bytes key hlock hclosing (enqueueBytesOk_eq_false hbad)
  case mix =>
    obtain ⟨l, r, hmix, hmixed, hkept⟩ := mixWeighted_runs shift weight hchan hbuf
    exact ⟨fun v => asr v shift.toNat, l, r, by rw [exec_fdMixWeighted, hmix, Res.answer_ok],
      fun hshift v => asr_in v shift.toNat hshift, hmixed, hkept⟩
  case anyChan =>
    have hone : (s.withChan 1).fhChan ≠ 0 := show (1 : BitVec 3) ≠ 0 by decide
    exact exec_withChan (s := s.withChan 1) hop hone hchan hrun
  case packs =>
    refine ⟨(packWith (frameBytes s) s).pcm, ?run, fun i hi x hx j hj hlast => ?written, fun a ha => ?kept⟩
    case run =>
      rw [exec_packOp hsize, packReady_of_fits _ hcfg hbuf, Res.answer_ok]
      rfl
    case written => exact read_packWith hsize hi hx hj hlast
    case kept => exact read_packWith_other ha

end Sys2Proof.Machine

/-! SUPPORT. For O58: the operations that stop by name (log 10, 11, 13, 17). -/

namespace Sys2Proof.Machine

/-! ## Stops of an operation's first check -/

section
variable {s : State}

/-- More samples than the buffers hold (R28). -/
theorem withinBuffers_full (go : Res Unit) (h : s.prm.bufSamples < s.fhN.toNat) :
    withinBuffers s go = .stuck .noSuchEntry := if_pos h

theorem lpFir_full (c : Chan) (order : BitVec 5) (h : s.prm.bufSamples < s.fhN.toNat) :
    lpFir c order s = .stuck .noSuchEntry := by
  rcases lpFir_cases c order s with ⟨-, hmode⟩ | ⟨-, hmode⟩ | ⟨-, -, hmode⟩ <;> rw [hmode]
  · exact withinBuffers_full _ h
  · exact withinBuffers_full _ h
  · exact withinBuffers_full _ h

/-- A code word of another form than asked for (R103). -/
theorem riceWordAs_other {form asked : RiceForm} {n : Nat} {k : Int} {mask v : Word} {t : State}
    (hword : riceWord n k mask s = .ok (form, v) t) (h : form ≠ asked) :
    riceWordAs asked n k mask s = .stuck .notSelected := by
  rw [riceWordAs, hword]
  exact if_neg h

/-- No run follows: too few samples, or a history of 128 or more (R160). -/
theorem runFollows_eq_false {h : Word} {i count : Nat} (hno : count ≤ i + 1 ∨ 128 ≤ h.toInt) :
    runFollows h i count = false := by
  rw [runFollows, Bool.and_eq_false_iff, decide_eq_false_iff_not, decide_eq_false_iff_not]
  omega

/-- A frame of another kind, in a state that can decode it (R91, R302). -/
theorem admitFrame_of_other_kind {h : HeaderFields} {kind : FrameKind} (hready : frameReady h s = true)
    (hbits : holdsBitsAt s 0 (encodeHeader h) = true) (hother : h.chan ≠ kind.chan ∨ h.cf ≠ kind.cf) :
    admitFrame s (frameOfKind kind s).answer = .fault .notSelected := by
  simp only [frameReady, faultReady, Bool.and_eq_true, beq_iff_eq, Bool.not_eq_true'] at hready
  obtain ⟨⟨⟨⟨hmode, -⟩, hidle⟩, hlegal⟩, -⟩ := hready
  rw [frameOfKind_of_other_fields hlegal hbits hother, Res.answer_stuck, admitFrame, if_neg (not_not.mpr hmode),
    hidle]
  exact if_neg Bool.false_ne_true

end

/-! ## The obligation -/

/-- Settles O58: each stop is the first check of its operation that fails. -/
theorem stopsByName : Obligations.StopsByName := by
  intro c i o order shift weight n k mask s
  refine ⟨fun hwidth => ?readWidth, fun h1 h32 hend hbyte => ?readMissing, fun h1 h32 hend hmode => ?readMode,
    fun h16 => ?size16, fun h24 => ?size24, fun h16 h24 => ?sizeVerbatim, fun hmono => ?mixMono, fun hno => ?noRun,
    fun hi => ?lateSample, fun hfull => ⟨?fullCopy, ?fullDiff, ?fullFir, fun hub => ?fullRaw,
      fun hsize => ?fullVerbatim, fun hchan => ⟨?fullWeighted, ?fullDirect⟩, fun hcfg hsize => ?fullPack⟩,
    fun hcfg hsize => ?manyChannels, fun form v t hword => ?otherForm, fun h hready hbits => ?otherKind⟩
  case readWidth => rw [exec_bcRead, readBits_width s hwidth, Res.outcome_stuck]
  case readMissing => rw [exec_bcRead, readBits_missing h1 h32 hend hbyte, Res.outcome_stuck]
  case readMode => rw [exec_bcRead, readBits_beyond h1 h32 hend, raise, if_neg hmode, Res.outcome_stuck]
  case size16 => rw [exec_fdPack16, pack16, if_neg h16, Res.answer_stuck]
  case size24 => rw [exec_fdPack24, pack24, if_neg h24, Res.answer_stuck]
  case sizeVerbatim => rw [exec_fdVerbatim, if_neg (fun hok => (sampleSizeOk_iff.mp hok).elim h16 h24)]
  case mixMono =>
    rw [exec_fdMixWeighted, exec_fdMixDirect, mixWeighted, mixDirect, if_pos hmono, if_pos hmono]
    exact ⟨Res.answer_stuck _, Res.answer_stuck _⟩
  case noRun =>
    have hrun : exec (.rdRun c i o) s = execRdRun c i o s := rfl
    rw [hrun, execRdRun, runFollows_eq_false hno, if_neg Bool.false_ne_true]
  case lateSample => rw [exec_rdSample, riceSample, if_pos hi, Res.answer_stuck]
  case fullCopy => rw [exec_lpCopy, lpCopy, withinBuffers_full _ hfull, Res.answer_stuck]
  case fullDiff => rw [exec_lpDiff, lpDiff, withinBuffers_full _ hfull, Res.answer_stuck]
  case fullFir => rw [exec_lpFir, lpFir_full c order hfull, Res.answer_stuck]
  case fullRaw => rw [exec_fdRawlow, rawLow, if_neg hub, withinBuffers_full _ hfull, Res.answer_stuck]
  case fullVerbatim => rw [exec_fdVerbatim, if_pos hsize, verbatim, withinBuffers_full _ hfull, Res.answer_stuck]
  case fullWeighted =>
    rw [exec_fdMixWeighted, mixWeighted, if_neg hchan, withinBuffers_full _ hfull, Res.answer_stuck]
  case fullDirect => rw [exec_fdMixDirect, mixDirect, if_neg hchan, withinBuffers_full _ hfull, Res.answer_stuck]
  case fullPack =>
    rw [exec_packOp hsize, packReady, if_neg (Nat.not_lt.mpr hcfg), withinBuffers_full _ hfull, Res.answer_stuck]
  case manyChannels => rw [exec_packOp hsize, packReady, if_pos hcfg, Res.answer_stuck]
  case otherForm =>
    have stops {asked : RiceForm} (h : form ≠ asked) :
        ((riceWordAs asked n k mask s).outcome fun v u => { u with result := v }) = .fault .notSelected := by
      rw [riceWordAs_other hword h, Res.outcome_stuck]
    exact ⟨stops, stops, stops, stops⟩
  case otherKind =>
    have stops (kind : FrameKind) (hother : h.chan ≠ kind.chan ∨ h.cf ≠ kind.cf) :
        admitFrame s (frameOfKind kind s).answer = .fault .notSelected :=
      admitFrame_of_other_kind hready hbits hother
    exact ⟨stops .monoC, stops .monoU, stops .stereoC, stops .stereoU⟩

end Sys2Proof.Machine

/-! SUPPORT. For O5 to O9: one code word (R103, R151), read from the payload's bits piece by piece, and where a
payload that ends inside it raises. -/

namespace Sys2Proof.Machine

/-! ## The payload from POS on -/

/-- Behind bits that the payload holds, the cursor stands where it was put (R24). -/
theorem pos_after_bits {s : State} {bits : List Bool} {n : Nat} (hn : bits.length = n)
    (h : holdsBits s bits = true) : (s.setPos (s.pos + n)).pos = s.pos + n := by
  simp only [holdsBits, holdsBitsAt, Bool.and_eq_true, decide_eq_true_eq, hn] at h
  exact pos_setPos_of_le_end h.1

/-- Of a bit string in two parts, the first lies at POS and the second where the cursor stands behind it. -/
theorem holdsBits_split {s : State} {x y : List Bool} {n : Nat} (hn : x.length = n)
    (h : holdsBits s (x ++ y) = true) :
    holdsBits s x = true ∧ (s.setPos (s.pos + n)).pos = s.pos + n ∧
      holdsBits (s.setPos (s.pos + n)) y = true := by
  obtain ⟨hx, hy⟩ := holdsBitsAt_append.mp h
  have hpos := pos_after_bits hn hx
  rw [hn] at hy
  exact ⟨hx, hpos, by rw [holdsBits, hpos]; exact hy⟩

/-- A number that was written in n bits is read back (R9, R131). -/
theorem readBits_bitsOfNat {n v : Nat} {s : State} (h1 : 1 ≤ n) (h32 : n ≤ 32) (hv : v < 2 ^ n)
    (h : holdsBits s (bitsOfNat n v) = true) :
    readBits n s = .ok (BitVec.ofNat 32 v) (s.setPos (s.pos + n)) := by
  have hread := readBits_ok s (bitsOfNat n v) (by simpa) (by simpa) h
  rwa [length_bitsOfNat, natOfBits_bitsOfNat, Nat.mod_eq_of_lt hv] at hread

/-- A read beyond the payload's end, in a state that can raise, takes the fault entry of Truncated (R322). -/
theorem readBits_truncated {n : Nat} {s : State} (h1 : 1 ≤ n) (h32 : n ≤ 32) (hready : faultReady s = true)
    (hend : 8 * s.bcLen.toNat < s.pos + n) :
    ∃ info : Word, (s.pos < 2 ^ 32 → info.toNat = s.pos) ∧ readBits n s = .raised (afterFault 1 info s) :=
  ⟨s.word32 s.pos, s.toNat_word32 s.pos, by
    rw [readBits_beyond h1 h32 hend, raise_faultReady _ _ s hready]
    rfl⟩

/-! ## The unary count (R152) -/

/-- One-bits are counted one by one, as long as there is room. -/
theorem ricePrefix_ones (q room x : Nat) {s : State} (h : holdsBits s (List.replicate q true) = true) :
    ricePrefix (q + room) x s = ricePrefix room (x + q) (s.setPos (s.pos + q)) := by
  induction q generalizing x s with
  | zero => simp
  | succ q ih =>
    have hsplit : holdsBits s ([true] ++ List.replicate q true) = true := h
    obtain ⟨hone, hpos, hrest⟩ := holdsBits_split (n := 1) rfl hsplit
    have hread : readBits 1 s = .ok 1 (s.setPos (s.pos + 1)) :=
      readBits_ok s [true] (by decide) (by decide) hone
    have hroom : q + 1 + room = (q + room) + 1 := by omega
    rw [hroom, ricePrefix, hread, Res.bind_ok, if_pos rfl, ih (x + 1) hrest, hpos, State.setPos_setPos,
      Nat.add_assoc x, Nat.add_assoc s.pos, Nat.add_comm 1]

/-- A zero-bit ends the count and is consumed. -/
theorem ricePrefix_zero (room x : Nat) {s : State} (h : holdsBits s [false] = true) :
    ricePrefix (room + 1) x s = .ok x (s.setPos (s.pos + 1)) := by
  have hread : readBits 1 s = .ok 0 (s.setPos (s.pos + 1)) := readBits_ok s [false] (by decide) (by decide) h
  rw [ricePrefix, hread, Res.bind_ok, if_neg (by decide)]

section
variable {n k q : Nat} {mask : Word} {s : State}

/-! ## The word behind its unary count (R151) -/

/-- Nine one-bits begin an escape: its raw bits follow (R153). -/
theorem riceWord_of_nine_ones (k : Int) (hk : 1 ≤ k ∧ k ≤ 31)
    (h : holdsBits s (List.replicate 9 true) = true) :
    riceWord n k mask s = (readBits n (s.setPos (s.pos + 9))).bind fun v t => .ok (.esc, v) t := by
  have hprefix : ricePrefix 9 0 s = .ok 9 (s.setPos (s.pos + 9)) := ricePrefix_ones 9 0 0 h
  rw [riceWord, if_neg (by omega), Config.riceThreshold, hprefix, Res.bind_ok, if_pos (by decide)]

/-- At most eight one-bits and a zero-bit begin the other forms: nothing follows for k = 1, the k
extra bits otherwise (R152). -/
theorem riceWord_of_prefix (k : Int) (hk : 1 ≤ k ∧ k ≤ 31) (hq : q ≤ 8)
    (h : holdsBits s (List.replicate q true ++ [false]) = true) :
    riceWord n k mask s =
      if k = 1 then .ok (.unary, BitVec.ofNat 32 q) (s.setPos (s.pos + (q + 1)))
      else riceExtra k mask q (s.setPos (s.pos + (q + 1))) := by
  obtain ⟨hones, hpos, hzero⟩ := holdsBits_split List.length_replicate h
  have hroom : 9 = q + ((8 - q) + 1) := by omega
  have hprefix : ricePrefix 9 0 s = .ok q (s.setPos (s.pos + (q + 1))) := by
    rw [hroom, ricePrefix_ones q _ 0 hones, ricePrefix_zero _ _ hzero, hpos, State.setPos_setPos, Nat.zero_add,
      Nat.add_assoc]
  rw [riceWord, if_neg (by omega), Config.riceThreshold, hprefix, Res.bind_ok, if_neg (by omega)]

/-- Form 1 (R153). -/
theorem riceWord_esc {raw : Nat} (hn : 1 ≤ n ∧ n ≤ 32) (hk : 1 ≤ k ∧ k ≤ 31) (hraw : raw < 2 ^ n)
    (h : holdsBits s (List.replicate 9 true ++ bitsOfNat n raw) = true) :
    riceWord n k mask s = .ok (.esc, BitVec.ofNat 32 raw) (s.setPos (s.pos + (9 + n))) := by
  obtain ⟨hones, hpos, hbits⟩ := holdsBits_split List.length_replicate h
  rw [riceWord_of_nine_ones k (by omega) hones, readBits_bitsOfNat hn.1 hn.2 hraw hbits, Res.bind_ok, hpos,
    State.setPos_setPos, Nat.add_assoc]

/-- Form 2a (R152). -/
theorem riceWord_unary (hq : q ≤ 8) (h : holdsBits s (List.replicate q true ++ [false]) = true) :
    riceWord n 1 mask s = .ok (.unary, BitVec.ofNat 32 q) (s.setPos (s.pos + (q + 1))) := by
  rw [riceWord_of_prefix 1 (by decide) hq h, if_pos rfl]

/-- m of R103, for a parameter that R151 admits. -/
theorem riceM_eq (k : Nat) (mask : Word) : riceM k mask = BitVec.ofNat 32 (2 ^ k - 1) &&& mask := by
  have hpow : (1 <<< k : Word) = BitVec.ofNat 32 (2 ^ k) := by
    apply BitVec.eq_of_toNat_eq
    simp [Nat.shiftLeft_eq]
  have hm : (1 <<< k : Word) - 1 = BitVec.ofNat 32 (2 ^ k - 1) := by
    rw [hpow]
    exact (BitVec.ofNat_sub_ofNat_of_le _ _ (by decide) Nat.one_le_two_pow).trans rfl
  rw [riceM, Int.toNat_natCast, hm]

/-- The two forms with an extra field: behind the zero-bit, the field is read whole, and its size says which
form it is (R154, R162). -/
theorem riceWord_of_extra {extra : Nat} (hq : q ≤ 8) (hk : 2 ≤ k ∧ k ≤ 31) (hextra : extra < 2 ^ k)
    (h : holdsBits s (List.replicate q true ++ false :: bitsOfNat k extra) = true) :
    riceWord n k mask s =
      if s.prm.profile.riceUnreadMax < extra then
        .ok (.long, BitVec.ofNat 32 q * (BitVec.ofNat 32 (2 ^ k - 1) &&& mask) + BitVec.ofNat 32 extra - 1)
          (s.setPos (s.pos + (q + 1 + k)))
      else
        .ok (.short, BitVec.ofNat 32 q * (BitVec.ofNat 32 (2 ^ k - 1) &&& mask)) (s.setPos (s.pos + (q + k))) := by
  have hsplit : holdsBits s ((List.replicate q true ++ [false]) ++ bitsOfNat k extra) = true := by
    rwa [List.append_assoc]
  obtain ⟨hprefix, hpos, hfield⟩ := holdsBits_split (n := q + 1) (by simp) hsplit
  have hend := pos_after_bits (n := q + 1 + k) (by simp; omega) hsplit
  have hfit : extra < 2 ^ 32 := hextra.trans_le (Nat.pow_le_pow_right (by decide) (by omega))
  have hread : readBits k (s.setPos (s.pos + (q + 1))) =
      .ok (BitVec.ofNat 32 extra) (s.setPos (s.pos + (q + 1 + k))) := by
    rw [readBits_bitsOfNat (by omega) (by omega) hextra hfield, hpos, State.setPos_setPos, Nat.add_assoc _ (q + 1)]
  have hback : unreadBits 1 (s.setPos (s.pos + (q + 1 + k))) = .ok () (s.setPos (s.pos + (q + k))) := by
    rw [unreadBits, hend, if_neg (by omega), State.setPos_setPos]
    congr 2
    omega
  rw [riceWord_of_prefix k (by omega) hq hprefix, if_neg (by omega), riceExtra, Int.toNat_natCast, hread, Res.bind_ok,
    riceM_eq, BitVec.toNat_ofNat, Nat.mod_eq_of_lt hfit, hback]
  rfl

end

/-! ## The four operations -/

/-- The operation of each form (R103). -/
def RiceForm.op (n : Nat) (k : Int) (mask : Word) : RiceForm → Instr
  | .esc => .rdValueEsc n k mask
  | .unary => .rdValueUnary n k mask
  | .short => .rdValueShort n k mask
  | .long => .rdValueLong n k mask

theorem exec_riceForm_op (form : RiceForm) (n : Nat) (k : Int) (mask : Word) (s : State) :
    exec (form.op n k mask) s = (riceWordAs form n k mask s).outcome fun v t => { t with result := v } := by
  cases form <;> rfl

/-- A word of the operation's own form is its result. -/
theorem exec_riceForm_op_of_ok {form : RiceForm} {n : Nat} {k : Int} {mask v : Word} {s t : State}
    (h : riceWord n k mask s = .ok (form, v) t) :
    exec (form.op n k mask) s = .next { t with result := v } := by
  rw [exec_riceForm_op, riceWordAs, h, Res.bind_ok, if_pos rfl, Res.outcome_ok]

/-- A word that raises does so in each of the four. -/
theorem exec_riceForm_op_of_raised (form : RiceForm) {n : Nat} {k : Int} {mask : Word} {s t : State}
    (h : riceWord n k mask s = .raised t) : exec (form.op n k mask) s = .next t := by
  rw [exec_riceForm_op, riceWordAs, h, Res.bind_raised, Res.outcome_raised]

/-! ## Where a word raises -/

section
variable {n q : Nat} {k : Int} {mask : Word} {s : State}

/-- A parameter outside 1..31 (R151). -/
theorem riceWord_badK (hready : faultReady s = true) (hk : k < 1 ∨ 31 < k) :
    riceWord n k mask s = .raised (afterFault 5 3 s) := by
  rw [riceWord, if_pos hk, raiseMalformed, raise_faultReady _ _ s hready]
  rfl

/-- A payload that ends inside the unary count (R152, R322). -/
theorem riceWord_truncated_prefix (hready : faultReady s = true) (hk : 1 ≤ k ∧ k ≤ 31) (hq : q ≤ 8)
    (hend : 8 * s.bcLen.toNat = s.pos + q) (h : holdsBits s (List.replicate q true) = true) :
    ∃ info : Word, (s.pos + q < 2 ^ 32 → info.toNat = s.pos + q) ∧
      riceWord n k mask s = .raised (afterFault 1 info (s.setPos (s.pos + q))) := by
  have hpos := pos_after_bits List.length_replicate h
  obtain ⟨info, hinfo, hread⟩ := readBits_truncated (s := s.setPos (s.pos + q)) (n := 1) (by decide) (by decide)
    hready (by rw [hpos, State.setPos_bcLen]; omega)
  rw [hpos] at hinfo
  refine ⟨info, hinfo, ?_⟩
  have hroom : 8 + 1 = q + ((8 - q) + 1) := by omega
  rw [riceWord, if_neg (by omega), Config.riceThreshold, hroom, ricePrefix_ones q _ 0 h, ricePrefix, hread,
    Res.bind_raised, Res.bind_raised]

/-- A payload that ends inside the raw bits of an escape (R153, R322). -/
theorem riceWord_truncated_raw (hready : faultReady s = true) (hk : 1 ≤ k ∧ k ≤ 31) (hn : 1 ≤ n ∧ n ≤ 32)
    (h : holdsBits s (List.replicate 9 true) = true) (hend : 8 * s.bcLen.toNat < s.pos + 9 + n) :
    ∃ info : Word, (s.pos + 9 < 2 ^ 32 → info.toNat = s.pos + 9) ∧
      riceWord n k mask s = .raised (afterFault 1 info (s.setPos (s.pos + 9))) := by
  have hpos : (s.setPos (s.pos + 9)).pos = s.pos + 9 := pos_after_bits rfl h
  obtain ⟨info, hinfo, hread⟩ := readBits_truncated (s := s.setPos (s.pos + 9)) hn.1 hn.2 hready
    (by rwa [hpos, State.setPos_bcLen])
  rw [hpos] at hinfo
  exact ⟨info, hinfo, by rw [riceWord_of_nine_ones k hk h, hread, Res.bind_raised]⟩

/-- A payload that ends inside the extra bits (R154, R162, R322, R368). -/
theorem riceWord_truncated_extra (hready : faultReady s = true) (hk : 2 ≤ k ∧ k ≤ 31) (hq : q ≤ 8)
    (h : holdsBits s (List.replicate q true ++ [false]) = true)
    (hend : 8 * s.bcLen.toNat < s.pos + (q + 1) + k.toNat) :
    ∃ info : Word, (s.pos + (q + 1) < 2 ^ 32 → info.toNat = s.pos + (q + 1)) ∧
      riceWord n k mask s = .raised (afterFault 1 info (s.setPos (s.pos + (q + 1)))) := by
  have hpos := pos_after_bits (n := q + 1) (by simp) h
  obtain ⟨info, hinfo, hread⟩ := readBits_truncated (s := s.setPos (s.pos + (q + 1))) (n := k.toNat) (by omega)
    (by omega) hready (by rwa [hpos, State.setPos_bcLen])
  rw [hpos] at hinfo
  refine ⟨info, hinfo, ?_⟩
  rw [riceWord_of_prefix k (by omega) hq h, if_neg (by omega), riceExtra, hread, Res.bind_raised]

end

/-! ## The obligations -/

/-- Settles O5: the escape's word is of the operation's form. -/
theorem rdValueEscape : Obligations.RdValueEscape := by
  intro n k v mask s hn1 hn32 hk1 hk31 hv hbits
  exact exec_riceForm_op_of_ok (riceWord_esc ⟨hn1, hn32⟩ ⟨hk1, hk31⟩ hv hbits)

/-- Settles O6: with k = 1 the unary count is the whole word. -/
theorem rdValueUnary : Obligations.RdValueUnary := by
  intro n q mask s hq hbits
  exact exec_riceForm_op_of_ok (riceWord_unary hq hbits)

/-- Settles O7: an extra field of at most RICE_UNREAD_MAX makes the word a short one. -/
theorem rdValueShort : Obligations.RdValueShort := by
  intro n q k extra mask s hq hk2 hk31 hextra hbits
  have hfit : extra < 2 ^ k := by
    have := riceUnreadMax_lt_of_two_le s.prm.profile hk2
    omega
  have hword := riceWord_of_extra (n := n) (mask := mask) hq ⟨hk2, hk31⟩ hfit hbits
  rw [if_neg (Nat.not_lt.mpr hextra), ← riceM_eq] at hword
  exact exec_riceForm_op_of_ok hword

/-- Settles O8: a larger extra field makes the word a long one. -/
theorem rdValueLong : Obligations.RdValueLong := by
  intro n q k extra mask s hq hk2 hk31 hextra hfit hbits
  have hword := riceWord_of_extra (n := n) (mask := mask) hq ⟨hk2, hk31⟩ hfit hbits
  rw [if_pos hextra, ← riceM_eq] at hword
  exact exec_riceForm_op_of_ok hword

/-- Settles O9: each of the four operations raises where its word does. -/
theorem rdValueTraps : Obligations.RdValueTraps := by
  intro n k mask s op hop hready
  obtain ⟨form, rfl⟩ : ∃ form : RiceForm, op = form.op n k mask := by
    rcases hop with rfl | rfl | rfl | rfl
    · exact ⟨.esc, rfl⟩
    · exact ⟨.unary, rfl⟩
    · exact ⟨.short, rfl⟩
    · exact ⟨.long, rfl⟩
  refine ⟨fun hk => ?badK, fun q h1 h31 hq hend hbits => ?inPrefix, fun h1 h31 hn1 hn32 hbits hend => ?inRaw,
    fun q h2 h31 hq hbits hend => ?inExtra⟩
  case badK => exact exec_riceForm_op_of_raised form (riceWord_badK hready hk)
  case inPrefix =>
    obtain ⟨info, hinfo, hword⟩ := riceWord_truncated_prefix hready ⟨h1, h31⟩ hq hend hbits
    exact ⟨info, hinfo, exec_riceForm_op_of_raised form hword⟩
  case inRaw =>
    obtain ⟨info, hinfo, hword⟩ := riceWord_truncated_raw hready ⟨h1, h31⟩ ⟨hn1, hn32⟩ hbits hend
    exact ⟨info, hinfo, exec_riceForm_op_of_raised form hword⟩
  case inExtra =>
    obtain ⟨info, hinfo, hword⟩ := riceWord_truncated_extra hready ⟨h2, h31⟩ hq hbits hend
    exact ⟨info, hinfo, exec_riceForm_op_of_raised form hword⟩

end Sys2Proof.Machine

/-! SUPPORT. For O13: the parameters that a history gives (R156, R160). -/

namespace Sys2Proof.Machine

/-- The two readings of R156's clamp agree. -/
theorem sampleK_eq (h : Word) (kmod : Nat) : sampleK h kmod = sampleParameter h kmod := by
  simp only [sampleK, sampleParameter, asr_in h 9 (by decide)]
  split <;> omega

/-- R160's formula stands in the model as it is. -/
theorem runK_eq (h : Word) : runK h = runParameter h := rfl

/-- The logarithm that R156 takes of a history that is not negative is at least that of 3. -/
theorem clz32_historyScale {h : Word} (hh : 0 ≤ h.toInt) : clz32 (h.sshiftRight 9 + 3) ≤ 30 := by
  have hmsb : h.msb = false := by rwa [← Bool.not_eq_true, BitVec.msb_eq_toInt, decide_eq_true_eq, not_lt]
  have hscale : (h.sshiftRight 9 + 3).toNat = h.toNat / 2 ^ 9 + 3 := by
    have := h.isLt
    rw [BitVec.sshiftRight_eq_of_msb_false hmsb, BitVec.toNat_add, BitVec.toNat_ushiftRight, Nat.shiftRight_eq_div_pow]
    exact Nat.mod_eq_of_lt (by simp; omega)
  have hne : h.sshiftRight 9 + 3 ≠ 0 := fun h0 => by
    rw [h0] at hscale
    simp at hscale
  obtain ⟨hle, -, habove⟩ := clz32_spec hne
  by_contra hgt
  have hclz : clz32 (h.sshiftRight 9 + 3) = 31 := by omega
  rw [hclz] at habove
  omega

/-- The sample parameter of a history that is not negative (R156). -/
theorem sampleParameter_range {h : Word} {kmod : Nat} (hh : 0 ≤ h.toInt) (hk : 1 ≤ kmod) :
    1 ≤ sampleParameter h kmod ∧ sampleParameter h kmod ≤ kmod := by
  have := clz32_historyScale hh
  rw [sampleParameter]
  omega

/-- The run parameter of a history in 0..127 (R160): its table. -/
theorem runParameter_range {h : Word} (h0 : 0 ≤ h.toInt) (h128 : h.toInt < 128) :
    2 ≤ runParameter h ∧ runParameter h ≤ 8 := by
  have table : ∀ i : Fin 128, 2 ≤ runParameter (BitVec.ofNat 32 i) ∧ runParameter (BitVec.ofNat 32 i) ≤ 8 := by
    decide +kernel
  have hlt : h.toNat < 128 := by
    rw [BitVec.toInt_eq_toNat_cond] at h0 h128
    split at h0 <;> omega
  simpa using table ⟨h.toNat, hlt⟩

/-- Settles O13: both formulas, and the ranges that they keep to. -/
theorem riceParameterRange : Obligations.RiceParameterRange := by
  refine ⟨fun h kmod => ⟨sampleK_eq h kmod, fun hh h1 _ => ?sample⟩,
    fun h => ⟨runK_eq h, fun h0 h128 => runParameter_range h0 h128⟩⟩
  case sample =>
    rw [sampleK_eq]
    exact sampleParameter_range hh h1

end Sys2Proof.Machine

/-! SUPPORT. For O10 and O11: RD.SAMPLE and RD.RUN as steps between states that differ in the cursor, one
channel's residuals, the carry and the history alone. -/

namespace Sys2Proof.Machine

/-! ## A code word moves the cursor alone (R151) -/

/-- Where the steps succeed, they have moved the cursor and nothing else. -/
def Res.MovesCursor {α : Type} (s : State) : Res α → Prop
  | .ok _ t => t = s.setPos t.pos
  | .raised _ => True
  | .stuck _ => True

section
variable {α β : Type} {s : State}

theorem Res.MovesCursor.ok (v : α) (s : State) : (Res.ok v s).MovesCursor s := (State.setPos_pos_self s).symm

theorem Res.MovesCursor.setPos (v : α) (s : State) (p : Nat) : (Res.ok v (s.setPos p)).MovesCursor s :=
  (State.setPos_pos_self (s.setPos p)).symm

theorem Res.MovesCursor.raise (e : Cause) (info : Word) (u : State) : (raise e info u : Res α).MovesCursor s := by
  rcases raise_cases (α := α) e info u with ⟨-, h⟩ | ⟨-, h⟩ <;> rw [h] <;> trivial

theorem Res.MovesCursor.bind {r : Res α} {k : α → State → Res β} (hr : r.MovesCursor s)
    (hk : ∀ v u, (k v u).MovesCursor u) : (r.bind k).MovesCursor s := by
  cases r with
  | ok v u =>
    have hu : u = s.setPos u.pos := hr
    have hku := hk v u
    rw [Res.bind_ok]
    cases hres : k v u with rw [hres] at hku
    | ok w t =>
      have ht : t = u.setPos t.pos := hku
      rw [hu, State.setPos_setPos] at ht
      exact ht
    | raised t => trivial
    | stuck f => trivial
  | raised t => trivial
  | stuck f => trivial

theorem Res.MovesCursor.ite {p : Prop} [Decidable p] {r r' : Res α} (h : r.MovesCursor s) (h' : r'.MovesCursor s) :
    (if p then r else r').MovesCursor s := by
  split <;> assumption

end

theorem readBits_movesCursor (n : Nat) (s : State) : (readBits n s).MovesCursor s := by
  rcases readBits_cases n s with ⟨-, -, -, _, -, h⟩ | ⟨-, -, -, h⟩ | ⟨-, -, -, -, h⟩ | ⟨-, h⟩ <;> rw [h]
  · exact .setPos _ s _
  · exact .raise ..
  · trivial
  · trivial

theorem unreadBits_movesCursor (n : Nat) (s : State) : (unreadBits n s).MovesCursor s := by
  rcases unreadBits_cases n s with ⟨-, h⟩ | ⟨-, h⟩ <;> rw [h]
  · exact .setPos _ s _
  · trivial

theorem ricePrefix_movesCursor (room x : Nat) (s : State) : (ricePrefix room x s).MovesCursor s := by
  induction room generalizing x s with
  | zero => exact .ok x s
  | succ room ih => exact (readBits_movesCursor 1 s).bind fun _ u => .ite (ih (x + 1) u) (.ok x u)

theorem riceExtra_movesCursor (k : Int) (mask : Word) (x : Nat) (s : State) :
    (riceExtra k mask x s).MovesCursor s :=
  (readBits_movesCursor k.toNat s).bind fun _ u =>
    .ite (.ok _ u) ((unreadBits_movesCursor 1 u).bind fun _ u' => .ok _ u')

theorem riceWord_movesCursor (n : Nat) (k : Int) (mask : Word) (s : State) : (riceWord n k mask s).MovesCursor s :=
  .ite (.raise ..)
    ((ricePrefix_movesCursor _ 0 s).bind fun x u =>
      .ite ((readBits_movesCursor n u).bind fun _ u' => .ok _ u')
        (.ite (.ok _ u) (riceExtra_movesCursor k mask x u)))

theorem decodeValue_movesCursor (n : Nat) (k : Int) (mask : Word) (s : State) :
    (decodeValue n k mask s).MovesCursor s :=
  (riceWord_movesCursor n k mask s).bind fun fv u => .ok fv.2 u

/-! ## What the Rice decoder writes (R29) -/

/-- A state of the Rice decoder inside a stream of channel c: `s` with the cursor at p, the residuals f, the
carry and the history h. -/
def riceState (c : Chan) (s : State) (p : Nat) (f : File 32) (carry : BitVec 1) (h : Word) : State :=
  { (s.setPos p).setChan c { s.chan c with resid := f } with
    rsSignMod := carry
    rsHistory := h }

section
variable (c : Chan) (s : State) (p : Nat) (f : File 32) (carry : BitVec 1) (h : Word)

theorem setPos_rice_eq_riceState :
    ({ s with rsSignMod := carry, rsHistory := h } : State).setPos p =
      riceState c s p (s.chan c).resid carry h := by
  cases c <;> rfl

@[simp] theorem riceState_setPos (q : Nat) :
    (riceState c s p f carry h).setPos q = riceState c s q f carry h := by
  cases c <;> rfl

@[simp] theorem riceState_prm : (riceState c s p f carry h).prm = s.prm := by
  cases c <;> rfl

@[simp] theorem riceState_payload : (riceState c s p f carry h).payload = s.payload := by
  cases c <;> rfl

@[simp] theorem riceState_bcLen : (riceState c s p f carry h).bcLen = s.bcLen := by
  cases c <;> rfl

theorem riceState_pos (hp : p < 2 ^ 35) : (riceState c s p f carry h).pos = p := by
  have hsame : (riceState c s p f carry h).pos = (s.setPos p).pos := by cases c <;> rfl
  rw [hsame, s.pos_setPos p hp]

end

/-- The model's fold of a decoded value is R157's. -/
theorem fold_eq_residual (d : Word) : fold d = residual d := by
  simp only [fold, residual, asr_in _ 1 (by decide)]

/-- The model's update of the history is that of R158 and R159. -/
theorem nextHistory_eq (p : Config.Profile) (h d hm : Word) : nextHistory p h d hm = historyAfter p hm h d := by
  rw [nextHistory, asr_in _ 9 (by decide)]
  cases p <;> rfl

/-- Steps 2 to 4 of RD.SAMPLE (R157 to R159). -/
theorem storeSample_riceState (c : Chan) (i : Nat) (hm d : Word) (s : State) (p : Nat) (f : File 32)
    (carry : BitVec 1) (h : Word) :
    storeSample c i hm d (riceState c s p f carry h) =
      riceState c s p (File.write f i (residual d)) 0 (historyAfter s.prm.profile hm h d) := by
  rw [storeSample, nextHistory_eq, fold_eq_residual]
  cases c <;> rfl

/-- The residuals after a run of b zeros behind sample i (R160). -/
def zeroRun (i : Nat) (b : Word) (f : File 32) : File 32 :=
  if 0 < b.toInt then forN b.toNat (fun j g => File.write g (i + 1 + j) 0) f else f

theorem read_zeroRun (i : Nat) (b : Word) (f : File 32) (j : Nat) :
    File.read (zeroRun i b f) j = if 0 < b.toInt ∧ i < j ∧ j ≤ i + b.toNat then 0 else File.read f j := by
  by_cases hb : 0 < b.toInt
  · have hrange : (i + 1 ≤ j ∧ j < i + 1 + b.toNat) ↔ (0 < b.toInt ∧ i < j ∧ j ≤ i + b.toNat) := by omega
    rw [zeroRun, if_pos hb, read_forN_write b.toNat (i + 1) fun _ => 0]
    simp only [hrange]
  · rw [zeroRun, if_neg hb, if_neg (fun h => hb h.1)]

/-- The end of RD.RUN (R160). -/
theorem storeRun_riceState (c : Chan) (i : Nat) (b : Word) (s : State) (p : Nat) (f : File 32) (carry : BitVec 1)
    (h : Word) :
    storeRun c i b (riceState c s p f carry h) =
      riceState c s p (zeroRun i b f) (if 0xFFFF < b.toInt then 0 else carry) 0 := by
  unfold storeRun zeroRun
  split <;> cases c <;> rfl

/-! ## RD.SAMPLE and RD.RUN from the value of their word -/

section
variable {c : Chan} {i : Nat} {o : RiceOperands} {s t : State} {v : Word}

theorem riceSample_of_word (hi : i < s.prm.bufSamples)
    (hword : decodeValue o.width (sampleParameter s.rsHistory o.kmod) 0xFFFFFFFF s = .ok v t) :
    riceSample c i o s = .ok () (storeSample c i o.hm (v + t.rsSignMod.setWidth 32) t) := by
  rw [riceSample, if_neg (Nat.not_le.mpr hi), sampleK_eq, hword, Res.bind_ok]

/-- A run that the samples left have room for. -/
theorem riceRun_of_word (h0 : 0 ≤ s.rsHistory.toInt) (hcount : o.count ≤ t.prm.bufSamples)
    (hfit : 0 < v.toInt → i + 1 + v.toNat ≤ o.count)
    (hword : decodeValue 16 (runParameter s.rsHistory) o.runMask { s with rsSignMod := 1 } = .ok v t) :
    riceRun c i o s = .ok v (storeRun c i v t) := by
  rw [riceRun, if_neg (not_lt.mpr h0), runK_eq, hword, Res.bind_ok, if_neg (by omega), if_neg (by omega)]

/-- A run longer than the samples left (R160). -/
theorem riceRun_overflow (h0 : 0 ≤ s.rsHistory.toInt) (hready : faultReady t = true) (hpos : 0 < v.toInt)
    (hlong : o.count < i + 1 + v.toNat)
    (hword : decodeValue 16 (runParameter s.rsHistory) o.runMask { s with rsSignMod := 1 } = .ok v t) :
    riceRun c i o s = .raised (afterFault 5 4 t) := by
  rw [riceRun, if_neg (not_lt.mpr h0), runK_eq, hword, Res.bind_ok, if_pos ⟨hpos, hlong⟩, raiseMalformed,
    raise_faultReady _ _ t hready]
  rfl

/-- A negative history gives no parameter (R160). -/
theorem riceRun_badK (hneg : s.rsHistory.toInt < 0) (hready : faultReady s = true) :
    riceRun c i o s = .raised (afterFault 5 3 s) := by
  rw [riceRun, if_pos hneg, raiseMalformed, raise_faultReady _ _ s hready]
  rfl

end

/-- A decoded word leaves a state of the Rice decoder, whatever the carry was set to before it. -/
theorem decodeValue_eq_riceState {n : Nat} {k : Int} {mask v : Word} {s t : State} {carry : BitVec 1} {h : Word}
    (hword : decodeValue n k mask { s with rsSignMod := carry, rsHistory := h } = .ok v t) (c : Chan) :
    ∃ q, t.pos = q ∧ t = riceState c s q (s.chan c).resid carry h := by
  have hmoves := decodeValue_movesCursor n k mask { s with rsSignMod := carry, rsHistory := h }
  rw [hword] at hmoves
  refine ⟨t.pos, rfl, ?_⟩
  rwa [← setPos_rice_eq_riceState]

/-- A run word is asked for (R160). -/
theorem exec_rdRun {c : Chan} {i : Nat} {o : RiceOperands} {s : State} (h : s.rsHistory.toInt < 128)
    (hi : i + 1 < o.count) :
    exec (.rdRun c i o) s = (riceRun c i o s).outcome fun b t => { t with result := b } := by
  have hrun : exec (.rdRun c i o) s = execRdRun c i o s := rfl
  rw [hrun, execRdRun, runFollows, decide_eq_true h, decide_eq_true hi]
  rfl

/-! ## The obligations -/

/-- Settles O10: the word moves the cursor alone, and the step writes the rest. -/
theorem rdSampleRule : Obligations.RdSampleRule := by
  intro c i o s s' v hi hword d
  obtain ⟨q, hq, hmoved⟩ := decodeValue_eq_riceState (s := s) hword c
  refine ⟨File.write (s.chan c).resid i (residual d), ?exec, File.read_write_same ..,
    fun j hj => File.read_write_other _ i j _ hj⟩
  case exec =>
    rw [exec_rdSample, riceSample_of_word hi hword, Res.answer_ok, hq, hmoved, storeSample_riceState]
    rfl

/-- Settles O11: the word moves the cursor alone; its value says whether the run fits. -/
theorem rdRunRule : Obligations.RdRunRule := by
  intro c i o s hi
  refine ⟨fun b s' h0 h128 hword => ?word, fun hneg hready => ?badK⟩
  case badK => rw [exec_rdRun (by omega) hi, riceRun_badK hneg hready, Res.outcome_raised]
  case word =>
    obtain ⟨q, hq, hmoved⟩ := decodeValue_eq_riceState (s := s) hword c
    have hprm : s'.prm = s.prm := by rw [hmoved, riceState_prm]
    refine ⟨fun hcount hfit => ⟨zeroRun i b (s.chan c).resid, ?runs, read_zeroRun i b _⟩,
      fun hready hpos hlong => ?overflow⟩
    case runs =>
      rw [exec_rdRun h128 hi, riceRun_of_word h0 (by rwa [hprm]) hfit hword, Res.outcome_ok, hq, hmoved,
        storeRun_riceState]
      rfl
    case overflow =>
      have hmoved' : s' = { s.setPos q with rsSignMod := 1 } := by
        rw [hmoved]
        cases c <;> rfl
      rw [exec_rdRun h128 hi, riceRun_overflow h0 (by rw [hmoved']; exact hready) hpos hlong hword,
        Res.outcome_raised, hq, hmoved']

end Sys2Proof.Machine

/-! SUPPORT. For O12: a whole Rice stream (R161), item by item. -/

namespace Sys2Proof.Machine

/-! ## A code word of any form (R103) -/

/-- The form of a code word. -/
def CodeWord.form : CodeWord → RiceForm
  | .esc _ => .esc
  | .unary _ => .unary
  | .short _ _ => .short
  | .long _ _ => .long

/-- What it is that the payload holds a word. -/
theorem holdsWord_iff {s : State} {p n : Nat} {k : Int} {word : CodeWord} :
    holdsWord s p n k word = true ↔
      (1 ≤ k ∧ k ≤ 31) ∧ word.legal s.prm.profile.riceUnreadMax n k.toNat = true ∧
        holdsBitsAt s p (word.bits n k.toNat) = true := by
  simp only [holdsWord, Bool.and_eq_true, decide_eq_true_eq, and_assoc]

/-- A word depends on the payload, its length and the profile alone. -/
theorem holdsWord_congr {s t : State} (hprm : t.prm = s.prm) (hbytes : t.payload = s.payload)
    (hlen : t.bcLen = s.bcLen) {p n : Nat} {k : Int} {word : CodeWord} (h : holdsWord s p n k word = true) :
    holdsWord t p n k word = true := by
  rw [holdsWord_iff] at h ⊢
  obtain ⟨hk, hlegal, hbits⟩ := h
  exact ⟨hk, by rwa [hprm], holdsBitsAt_congr hbytes hlen hbits⟩

/-- No word consumes more bits than are read for it (R154). -/
theorem CodeWord.size_le_length_bits (n k : Nat) (word : CodeWord) : word.size n k ≤ (word.bits n k).length := by
  cases word <;> simp [CodeWord.size, CodeWord.bits] <;> omega

/-- Behind a word the position is a 35-bit quantity (R24). -/
theorem end_lt_of_holdsWord {s : State} {p n : Nat} {k : Int} {word : CodeWord} (h : holdsWord s p n k word = true) :
    p + word.size n k.toNat < 2 ^ 35 := by
  obtain ⟨-, -, hbits⟩ := holdsWord_iff.mp h
  simp only [holdsBitsAt, Bool.and_eq_true, decide_eq_true_eq] at hbits
  have := word.size_le_length_bits n k.toNat
  have := s.bcLen.isLt
  omega

/-- A word at POS is read as its form and its value, and the cursor moves by its size (R151). -/
theorem riceWord_of_holdsWord {n : Nat} {k : Int} {mask : Word} {s : State} {word : CodeWord}
    (hn : 1 ≤ n ∧ n ≤ 32) (h : holdsWord s s.pos n k word = true) :
    riceWord n k mask s = .ok (word.form, word.value k.toNat mask) (s.setPos (s.pos + word.size n k.toNat)) := by
  obtain ⟨⟨hk1, hk31⟩, hlegal, hbits⟩ := holdsWord_iff.mp h
  obtain ⟨k, rfl⟩ := Int.eq_ofNat_of_zero_le (by omega : 0 ≤ k)
  rw [Int.toNat_natCast] at hlegal hbits ⊢
  cases word with
  | esc raw => exact riceWord_esc hn (by omega) (of_decide_eq_true hlegal) hbits
  | unary ones =>
    obtain ⟨hones, rfl⟩ := of_decide_eq_true hlegal
    exact riceWord_unary hones hbits
  | short ones extra =>
    obtain ⟨hones, hk, hextra⟩ := of_decide_eq_true hlegal
    have hmax := riceUnreadMax_lt_of_two_le s.prm.profile hk
    exact (riceWord_of_extra hones (by omega) (by omega) hbits).trans (if_neg (by omega))
  | long ones extra =>
    obtain ⟨hones, hk, hextra, hfit⟩ := of_decide_eq_true hlegal
    exact (riceWord_of_extra hones (by omega) hfit hbits).trans (if_pos hextra)

/-- The value of a word that the payload holds, inside a stream (R151). -/
theorem decodeValue_riceState {c : Chan} {s : State} {p n : Nat} {f : File 32} {carry : BitVec 1} {h : Word} {k : Int}
    {word : CodeWord} (mask : Word) (hp : p < 2 ^ 35) (hn : 1 ≤ n ∧ n ≤ 32) (hword : holdsWord s p n k word = true) :
    decodeValue n k mask (riceState c s p f carry h) =
      .ok (word.value k.toNat mask) (riceState c s (p + word.size n k.toNat) f carry h) := by
  have hpos := riceState_pos c s p f carry h hp
  have hat : holdsWord (riceState c s p f carry h) (riceState c s p f carry h).pos n k word = true := by
    rw [hpos]
    exact holdsWord_congr (by simp) (by simp) (by simp) hword
  rw [decodeValue, riceWord_of_holdsWord hn hat, Res.bind_ok, hpos, riceState_setPos]

/-! ## The length of a run (R160) -/

/-- m of R103 for a run word's parameter. -/
theorem toNat_riceMask_le {k : Nat} (mask : Word) (hk : k ≤ 8) :
    (BitVec.ofNat 32 (2 ^ k - 1) &&& mask).toNat ≤ 255 := by
  have hpow : 2 ^ k ≤ 2 ^ 8 := Nat.pow_le_pow_right (by decide) hk
  calc (BitVec.ofNat 32 (2 ^ k - 1) &&& mask).toNat
    _ ≤ (2 ^ k - 1) % 2 ^ 32 := by rw [BitVec.toNat_and, BitVec.toNat_ofNat]; exact Nat.and_le_left
    _ ≤ 255 := by omega

/-- With a run word's parameter, at most 8, and its raw width 16, a word's value is at most 0xFFFF. -/
theorem toNat_runWord_value_le {k unreadMax : Nat} {word : CodeWord} (mask : Word) (hk : k ≤ 8)
    (hlegal : word.legal unreadMax 16 k = true) : (word.value k mask).toNat ≤ 0xFFFF := by
  have hpow : 2 ^ k ≤ 2 ^ 8 := Nat.pow_le_pow_right (by decide) hk
  have hm := toNat_riceMask_le mask hk
  have hproduct {ones : Nat} (h : ones ≤ 8) : ones * (BitVec.ofNat 32 (2 ^ k - 1) &&& mask).toNat ≤ 8 * 255 :=
    Nat.mul_le_mul h hm
  cases word with
  | esc raw =>
    have hraw := of_decide_eq_true hlegal
    rw [CodeWord.value, BitVec.toNat_ofNat]
    omega
  | unary ones =>
    obtain ⟨hones, -⟩ := of_decide_eq_true hlegal
    rw [CodeWord.value, BitVec.toNat_ofNat]
    omega
  | short ones extra =>
    obtain ⟨hones, -, -⟩ := of_decide_eq_true hlegal
    have := hproduct hones
    rw [CodeWord.value, BitVec.toNat_mul, BitVec.toNat_ofNat, Nat.mod_eq_of_lt (by omega : ones < 2 ^ 32)]
    omega
  | long ones extra =>
    obtain ⟨hones, -, hmin, hfit⟩ := of_decide_eq_true hlegal
    have := hproduct hones
    have hone : (1 : Word).toNat = 1 := rfl
    rw [CodeWord.value, BitVec.toNat_sub, hone, BitVec.toNat_add, BitVec.toNat_mul, BitVec.toNat_ofNat,
      BitVec.toNat_ofNat, Nat.mod_eq_of_lt (by omega : ones < 2 ^ 32)]
    omega

/-! ## Residuals in their places -/

/-- The file g is f with these values from index i on. -/
def Places (f : File 32) (i : Nat) (values : List Word) (g : File 32) : Prop :=
  ∀ j, File.read g j = (if i ≤ j then values[j - i]? else none).getD (File.read f j)

theorem Places.nil (f : File 32) (i : Nat) : Places f i [] f := by
  intro j
  split <;> simp

theorem Places.write (f : File 32) (i : Nat) (v : Word) : Places f i [v] (File.write f i v) := by
  intro j
  rw [File.read_write]
  by_cases hj : j = i
  · simp [hj]
  · by_cases hi : i ≤ j
    · have : j - i ≠ 0 := by omega
      simp [hj, hi, this]
    · simp [hj, hi]

theorem Places.zeroRun (f : File 32) (i : Nat) {b : Word} (hb : b.toInt = b.toNat) :
    Places f (i + 1) (List.replicate b.toNat 0) (zeroRun i b f) := by
  intro j
  rw [read_zeroRun]
  by_cases hj : i + 1 ≤ j ∧ j < i + 1 + b.toNat
  · rw [if_pos (by omega), if_pos hj.1, List.getElem?_replicate, if_pos (by omega), Option.getD_some]
  · rw [if_neg (by omega)]
    split
    · rw [List.getElem?_replicate, if_neg (by omega), Option.getD_none]
    · rfl

theorem Places.append {f g g' : File 32} {i : Nat} {x y : List Word} (hx : Places f i x g)
    (hy : Places g (i + x.length) y g') : Places f i (x ++ y) g' := by
  intro j
  rw [hy j, hx j]
  by_cases hi : i ≤ j
  · by_cases hj : i + x.length ≤ j
    · rw [if_pos hj, if_pos hi, if_pos hi, List.getElem?_eq_none (by omega : x.length ≤ j - i), Option.getD_none,
        List.getElem?_append_right (by omega), Nat.sub_add_eq]
    · rw [if_neg hj, if_pos hi, if_pos hi, Option.getD_none, List.getElem?_append_left (by omega)]
  · rw [if_neg hi, if_neg hi, if_neg (by omega), Option.getD_none]

/-! ## One item of a stream (R161) -/

section
variable (o : RiceOperands) (s : State)

/-- The decoded value of a sample word for the history h, the carry added (R157). -/
def sampleValue (word : CodeWord) (h : Word) (carry : BitVec 1) : Word :=
  word.value (sampleParameter h o.kmod).toNat 0xFFFFFFFF + carry.setWidth 32

/-- Where a sample word at bit p ends. -/
def sampleEnd (word : CodeWord) (h : Word) (p : Nat) : Nat :=
  p + word.size o.width (sampleParameter h o.kmod).toNat

/-- The value of a run word for the history h (R160). -/
def runValue (word : CodeWord) (h : Word) : Word := word.value (runParameter h).toNat o.runMask

/-- Where a run word at bit p ends. -/
def runEnd (word : CodeWord) (h : Word) (p : Nat) : Nat := p + word.size 16 (runParameter h).toNat

variable {o s} {word runWord : CodeWord} {rest : List StreamItem} {i p : Nat} {h : Word} {carry : BitVec 1}
  {r : StreamEnd}

theorem streamFrom_nil (hr : streamFrom s o [] i h carry p = some r) : i = o.count ∧ r = ⟨[], h, carry, p⟩ := by
  rw [streamFrom] at hr
  split at hr
  · exact ⟨‹_›, (Option.some.inj hr).symm⟩
  · nomatch hr

/-- A sample word without a run. -/
theorem streamFrom_sample (hr : streamFrom s o ((word, none) :: rest) i h carry p = some r) :
    let d := sampleValue o word h carry
    let h' := historyAfter s.prm.profile o.hm h d
    i < o.count ∧ holdsWord s p o.width (sampleParameter h o.kmod) word = true ∧
      ¬ (h'.toInt < 128 ∧ i + 1 < o.count) ∧
      ∃ r', streamFrom s o rest (i + 1) h' 0 (sampleEnd o word h p) = some r' ∧
        r = { r' with resid := residual d :: r'.resid } := by
  rw [streamFrom] at hr
  split at hr
  case isFalse => nomatch hr
  case isTrue hword =>
    split at hr
    · nomatch hr
    · obtain ⟨r', hr', rfl⟩ := Option.map_eq_some_iff.mp hr
      exact ⟨hword.1, hword.2, ‹_›, r', hr', rfl⟩

/-- A sample word and its run word. -/
theorem streamFrom_run (hr : streamFrom s o ((word, some runWord) :: rest) i h carry p = some r) :
    let d := sampleValue o word h carry
    let h' := historyAfter s.prm.profile o.hm h d
    let b := (runValue o runWord h').toNat
    i < o.count ∧ holdsWord s p o.width (sampleParameter h o.kmod) word = true ∧
      (0 ≤ h'.toInt ∧ h'.toInt < 128) ∧ i + 1 + b ≤ o.count ∧ i + 1 < o.count ∧
      holdsWord s (sampleEnd o word h p) 16 (runParameter h') runWord = true ∧
      ∃ r', streamFrom s o rest (i + 1 + b) 0 1 (runEnd runWord h' (sampleEnd o word h p)) = some r' ∧
        r = { r' with resid := residual d :: (List.replicate b 0 ++ r'.resid) } := by
  rw [streamFrom] at hr
  split at hr
  case isFalse => nomatch hr
  case isTrue hword =>
    dsimp only at hr
    split at hr
    case isFalse => nomatch hr
    case isTrue hrun =>
      obtain ⟨h0, h128, hfit, hleft, hrunWord⟩ := hrun
      obtain ⟨r', hr', rfl⟩ := Option.map_eq_some_iff.mp hr
      exact ⟨hword.1, hword.2, ⟨h0, h128⟩, hfit, hleft, hrunWord, r', hr', rfl⟩

variable {c : Chan} {f : File 32}

/-- The sample word of an item (R156 to R159). -/
theorem riceSample_of_item (hp : p < 2 ^ 35) (hw : 1 ≤ o.width ∧ o.width ≤ 32) (hi : i < s.prm.bufSamples)
    (hword : holdsWord s p o.width (sampleParameter h o.kmod) word = true) :
    riceSample c i o (riceState c s p f carry h) =
      .ok () (riceState c s (sampleEnd o word h p) (File.write f i (residual (sampleValue o word h carry))) 0
        (historyAfter s.prm.profile o.hm h (sampleValue o word h carry))) := by
  rw [riceSample_of_word (by simpa) (decodeValue_riceState _ hp hw hword), storeSample_riceState]
  rfl

/-- A run word's value is not negative, so it is the number of zeros (R160). -/
theorem toInt_runValue (h0 : 0 ≤ h.toInt) (h128 : h.toInt < 128)
    (hword : holdsWord s p 16 (runParameter h) runWord = true) :
    (runValue o runWord h).toInt = (runValue o runWord h).toNat ∧ (runValue o runWord h).toInt ≤ 0xFFFF := by
  obtain ⟨-, hlegal, -⟩ := holdsWord_iff.mp hword
  have hrange := runParameter_range h0 h128
  have hle : (runValue o runWord h).toNat ≤ 0xFFFF :=
    toNat_runWord_value_le o.runMask (by omega : (runParameter h).toNat ≤ 8) hlegal
  have hint := BitVec.toInt_eq_toNat_of_lt (by omega : 2 * (runValue o runWord h).toNat < 2 ^ 32)
  omega

/-- The run word of an item (R160). -/
theorem riceRun_of_item (hp : p < 2 ^ 35) (hbuf : o.count ≤ s.prm.bufSamples) (h0 : 0 ≤ h.toInt)
    (h128 : h.toInt < 128) (hword : holdsWord s p 16 (runParameter h) runWord = true)
    (hfit : i + 1 + (runValue o runWord h).toNat ≤ o.count) :
    riceRun c i o (riceState c s p f carry h) =
      .ok (runValue o runWord h) (riceState c s (runEnd runWord h p) (zeroRun i (runValue o runWord h) f) 1 0) := by
  obtain ⟨-, hle⟩ := toInt_runValue (o := o) h0 h128 hword
  have hdecode : decodeValue 16 (runParameter h) o.runMask (riceState c s p f 1 h) =
      .ok (runValue o runWord h) (riceState c s (runEnd runWord h p) f 1 h) :=
    decodeValue_riceState o.runMask hp (by decide) hword
  rw [riceRun_of_word (s := riceState c s p f carry h) h0 (by simpa) (fun _ => hfit) hdecode, storeRun_riceState,
    if_neg (by omega)]

/-! ## The loop of R161 -/

/-- No sample is left. -/
theorem riceLoop_done (fuel : Nat) (hi : o.count ≤ i) : riceLoop c o fuel i s = .ok () s := by
  cases fuel with
  | zero => rfl
  | succ fuel => rw [riceLoop, if_pos hi]

/-- A turn without a run word. -/
theorem riceLoop_sample {fuel : Nat} {t : State} (hi : i < o.count) (hsample : riceSample c i o s = .ok () t)
    (hno : ¬ (t.rsHistory.toInt < 128 ∧ i + 1 < o.count)) :
    riceLoop c o (fuel + 1) i s = riceLoop c o fuel (i + 1) t := by
  rw [riceLoop, if_neg (by omega), hsample, Res.bind_ok, runFollows_eq_false (by omega), if_neg Bool.false_ne_true]

/-- A turn with a run word, whose value is not negative. -/
theorem riceLoop_run {fuel : Nat} {t u : State} {b : Word} (hi : i + 1 < o.count)
    (hsample : riceSample c i o s = .ok () t) (h128 : t.rsHistory.toInt < 128) (hrun : riceRun c i o t = .ok b u)
    (hb : b.toInt = b.toNat) :
    riceLoop c o (fuel + 1) i s = riceLoop c o fuel (i + 1 + b.toNat) u := by
  have hfollows : runFollows t.rsHistory i o.count = true := by
    rw [runFollows, decide_eq_true h128, decide_eq_true hi, Bool.and_self]
  have hzeros : (if 0 < b.toInt then b.toNat else 0) = b.toNat := by split <;> omega
  rw [riceLoop, if_neg (by omega), hsample, Res.bind_ok, if_pos hfollows, hrun, Res.bind_ok, hzeros]

/-- The loop over the items that the payload holds: it ends where they do, with their residuals in their
places. As each turn goes on by at least one sample, N - i turns are enough. -/
theorem riceLoop_of_streamFrom (hbuf : o.count ≤ s.prm.bufSamples) (hw : 1 ≤ o.width ∧ o.width ≤ 32)
    {items : List StreamItem} {fuel : Nat} (hfuel : o.count ≤ i + fuel) (hp : p < 2 ^ 35)
    (hr : streamFrom s o items i h carry p = some r) :
    ∃ g, riceLoop c o fuel i (riceState c s p f carry h) = .ok () (riceState c s r.pos g r.carry r.history) ∧
      i + r.resid.length = o.count ∧ Places f i r.resid g := by
  induction items generalizing fuel i h carry p r f with
  | nil =>
    obtain ⟨rfl, rfl⟩ := streamFrom_nil hr
    exact ⟨f, riceLoop_done fuel le_rfl, rfl, .nil f _⟩
  | cons item rest ih =>
    obtain ⟨word, run⟩ := item
    cases run with
    | none =>
      obtain ⟨hi, hword, hno, r', hr', rfl⟩ := streamFrom_sample hr
      obtain ⟨fuel, rfl⟩ : ∃ m, fuel = m + 1 := ⟨fuel - 1, by omega⟩
      obtain ⟨g, hloop, hlen, hplaces⟩ := ih (fuel := fuel) (by omega) (end_lt_of_holdsWord hword) hr'
      refine ⟨g, ?_, by simp only [List.length_cons]; omega, (Places.write _ _ _).append hplaces⟩
      exact (riceLoop_sample hi (riceSample_of_item hp hw (hi.trans_le hbuf) hword) hno).trans hloop
    | some runWord =>
      obtain ⟨hi, hword, ⟨h0, h128⟩, hfit, hleft, hrunWord, r', hr', rfl⟩ := streamFrom_run hr
      obtain ⟨fuel, rfl⟩ : ∃ m, fuel = m + 1 := ⟨fuel - 1, by omega⟩
      have hb := (toInt_runValue (o := o) h0 h128 hrunWord).1
      obtain ⟨g, hloop, hlen, hplaces⟩ := ih (fuel := fuel) (by omega) (end_lt_of_holdsWord hrunWord) hr'
      refine ⟨g, ?_, by simp only [List.length_cons, List.length_append, List.length_replicate]; omega, ?_⟩
      · exact (riceLoop_run hleft (riceSample_of_item hp hw (hi.trans_le hbuf) hword) h128
          (riceRun_of_item (end_lt_of_holdsWord hword) hbuf h0 h128 hrunWord hfit) hb).trans hloop
      · refine (Places.write _ _ _).append ((Places.zeroRun _ i hb).append ?_)
        rwa [List.length_replicate]

end

/-! ## The obligation -/

theorem exec_rdStream (c : Chan) (o : RiceOperands) (s : State) :
    exec (.rdStream c o) s = (riceStream c o s).answer := rfl

/-- A stream starts from the initial history and the carry 0 (R155). -/
theorem riceStream_eq (c : Chan) (o : RiceOperands) (s : State) :
    riceStream c o s = riceLoop c o o.count 0 (riceState c s s.pos (s.chan c).resid 0 o.initHist) := by
  rw [← setPos_rice_eq_riceState, riceStream]
  exact congrArg _ (State.setPos_pos_self _).symm

/-- Settles O12, by induction on the items (`riceLoop_of_streamFrom`). -/
theorem rdStreamRule : Obligations.RdStreamRule := by
  intro c o items r s hbuf h1 h32 hr
  obtain ⟨g, hloop, hlen, hplaces⟩ := riceLoop_of_streamFrom (c := c) (f := (s.chan c).resid) (fuel := o.count) hbuf
    ⟨h1, h32⟩ (by omega) s.pos_lt hr
  rw [Nat.zero_add] at hlen
  refine ⟨g, ?exec, hlen, fun i hi => ?inside, fun i hi => ?beyond⟩
  case exec =>
    rw [exec_rdStream, riceStream_eq, hloop]
    rfl
  case inside => rw [hplaces i, if_pos i.zero_le, Nat.sub_zero, List.getElem?_eq_getElem hi, Option.getD_some]
  case beyond =>
    rw [hplaces i, if_pos i.zero_le, Nat.sub_zero, List.getElem?_eq_none (by omega), Option.getD_none]

end Sys2Proof.Machine

/-! SUPPORT. For O14 to O18: the predictors (`42_predictor.md`), sample by sample. -/

namespace Sys2Proof.Machine

theorem withinBuffers_of_le {s : State} (go : Res Unit) (h : s.fhN.toNat ≤ s.prm.bufSamples) :
    withinBuffers s go = go := if_neg (Nat.not_lt.mpr h)

/-! ## LP.DIFF and the warm-up of LP.FIR (R183, R184) -/

section
variable {rss n i : Nat} {resid : File 32}

/-- n turns of `accumulate` write the entries 1 to n. -/
theorem read_forN_accumulate_other (f : File 32) (h : i = 0 ∨ n < i) :
    File.read (forN n (accumulate rss resid) f) i = File.read f i := by
  induction n with
  | zero => rfl
  | succ n ih => rw [forN_succ, accumulate, File.read_write_other _ _ _ _ (by omega), ih (by omega)]

/-- Each written entry holds its formula in the file that the loop leaves: no later turn writes it, or the entry
before it, again. -/
theorem read_forN_accumulate_succ (f : File 32) (hi : i < n) :
    File.read (forN n (accumulate rss resid) f) (i + 1) =
      sext rss (File.read (forN n (accumulate rss resid) f) i + File.read resid (i + 1)) := by
  induction n with
  | zero => omega
  | succ n ih =>
    have hbefore : File.read (forN (n + 1) (accumulate rss resid) f) i =
        File.read (forN n (accumulate rss resid) f) i := File.read_write_other _ _ _ _ (by omega)
    rw [hbefore, forN_succ, accumulate]
    rcases Nat.lt_succ_iff_lt_or_eq.mp hi with hlt | rfl
    · rw [File.read_write_other _ _ _ _ (by omega), ih hlt]
    · rw [File.read_write_same]

theorem read_firstSample_zero (r : ChanRegs) : File.read (firstSample r) 0 = File.read r.resid 0 :=
  File.read_write_same ..

theorem read_firstSample_other (r : ChanRegs) (h : i ≠ 0) : File.read (firstSample r) i = File.read r.out i :=
  File.read_write_other _ _ _ _ h

/-- LP.DIFF in a frame that has samples (R181, R183). -/
theorem predictDiff_eq (hn : 0 < n) (r : ChanRegs) :
    predictDiff n rss r = { r with out := forN (n - 1) (accumulate rss r.resid) (firstSample r) } :=
  if_neg (Nat.ne_of_gt hn)

/-- The frame's end cuts the warm-up short: it accumulates ORDER samples, or the N - 1 that there are (R184). -/
theorem warmUp_eq (n rss order : Nat) (r : ChanRegs) :
    warmUp n rss order r = forN (min order (n - 1)) (accumulate rss r.resid) (firstSample r) := by
  unfold warmUp
  induction order with
  | zero => rw [Nat.zero_min]; rfl
  | succ order ih =>
    rw [forN_succ, ih]
    by_cases h : order + 1 < n
    · rw [if_pos h, min_eq_left (by omega), min_eq_left (by omega), forN_succ]
    · rw [if_neg h, min_eq_right (by omega), min_eq_right (by omega)]

end

/-! ## The prediction (R185) -/

theorem firSum_eq (out : File 32) (coef : Vector Word 31) (order b : Nat) :
    firSum out coef order b =
      ((List.range order).map fun j => (File.read out (b + order - j) - File.read out b) * coefGet coef j).sum := by
  have hsum (n : Nat) (g : Nat → Word) : forN n (fun j sum => sum + g j) 0 = ((List.range n).map g).sum := by
    induction n with
    | zero => rfl
    | succ n ih => rw [forN_succ, ih, List.sum_range_succ]
  exact hsum order _

/-- The prediction reads the samples up to b + ORDER. -/
theorem firPred_congr {out out' : File 32} {order b : Nat} (h : ∀ i ≤ b + order, File.read out i = File.read out' i)
    (coef : Vector Word 31) (quant : Nat) :
    firPred out coef order quant b = firPred out' coef order quant b := by
  have htaps : firSum out coef order b = firSum out' coef order b := by
    rw [firSum_eq, firSum_eq]
    exact congrArg List.sum (List.map_congr_left fun j _ => by rw [h _ (Nat.sub_le ..), h b (by omega)])
  rw [firPred, firPred, htaps, h b (by omega)]

/-! ## The adaptation (R187, R188) -/

theorem coefGet_coefSet_same (coef : Vector Word 31) {j : Nat} (v : Word) (hj : j < 31) :
    coefGet (coefSet coef j v) j = v := by
  simp [coefGet, coefSet, hj]

theorem coefGet_coefSet_other (coef : Vector Word 31) {j k : Nat} (v : Word) (h : k ≠ j) :
    coefGet (coefSet coef j v) k = coefGet coef k := by
  simp [coefGet, coefSet, Vector.getElem?_setIfInBounds_ne h.symm]

/-- The adaptation reads the samples up to b + ORDER. -/
theorem adapt_congr {out out' : File 32} {order b : Nat} (h : ∀ i ≤ b + order, File.read out i = File.read out' i)
    (coefW quant : Nat) (e : Word) (coef : Vector Word 31) :
    adapt coefW out order quant b e coef = adapt coefW out' order quant b e coef := by
  have htaps (neg : Bool) (p : Nat) (e : Word) (coef : Vector Word 31) :
      adaptTaps coefW out order quant b neg p e coef = adaptTaps coefW out' order quant b neg p e coef := by
    induction p generalizing e coef with
    | zero => rfl
    | succ p ih => rw [adaptTaps, adaptTaps, h b (by omega), h _ (Nat.sub_le ..), ih]
  rw [adapt, adapt, htaps, htaps]

section
variable (coefW : Nat) (out : File 32) (order quant b : Nat) (neg : Bool)

/-- The difference of tap p (R187). -/
def tapDiff (p : Nat) : Word := File.read out b - File.read out (b + order - p)

/-- The direction of tap p: the sign of its difference, reversed for a negative error (R187). -/
def tapSign (p : Nat) : Word := if neg then -(sign (tapDiff out order b p)) else sign (tapDiff out order b p)

/-- What the walk does at tap p of the coefficients `old`, with the budget `left` before it and `rest` after it. -/
def TapAdapted (old new : Vector Word 31) (left rest : Word) (p : Nat) : Prop :=
  if (if neg then left.toInt < 0 else 0 < left.toInt) then
    coefGet new p = sext coefW (coefGet old p - tapSign out order b neg p) ∧
      rest = left - asr (tapDiff out order b p * tapSign out order b neg p) quant * BitVec.ofNat 32 (order - p)
  else coefGet new p = coefGet old p ∧ rest = left

/-- The walk from tap p - 1 down: a step at tap p writes entry p alone, so the entries below are still the old ones
when the walk comes to them, and an exhausted budget stays exhausted. -/
theorem adaptTaps_walk {p : Nat} (hp : p ≤ 31) (e : Word) (coef : Vector Word 31) :
    ∃ left : Nat → Word, left p = e ∧
      (∀ q < p, TapAdapted coefW out order quant b neg coef (adaptTaps coefW out order quant b neg p e coef)
        (left (q + 1)) (left q) q) ∧
      ∀ q, p ≤ q → coefGet (adaptTaps coefW out order quant b neg p e coef) q = coefGet coef q := by
  induction p generalizing e coef with
  | zero => exact ⟨fun _ => e, rfl, fun q hq => absurd hq q.not_lt_zero, fun _ _ => rfl⟩
  | succ p ih =>
    rw [adaptTaps]
    by_cases hgo : if neg then e.toInt < 0 else 0 < e.toInt
    · rw [if_pos hgo]
      obtain ⟨left, hleft, htaps, hkept⟩ := ih (by omega)
        (e - asr (tapDiff out order b p * tapSign out order b neg p) quant * BitVec.ofNat 32 (order - p))
        (coefSet coef p (sext coefW (coefGet coef p - tapSign out order b neg p)))
      refine ⟨Function.update left (p + 1) e, Function.update_self .., fun q hq => ?_, fun q hq => ?_⟩
      · rw [Function.update_of_ne (a := q) (by omega)]
        rcases Nat.lt_succ_iff_lt_or_eq.mp hq with hlt | rfl
        · have htap := htaps q hlt
          rw [TapAdapted, coefGet_coefSet_other _ _ (by omega)] at htap
          rwa [Function.update_of_ne (by omega)]
        · rw [Function.update_self, TapAdapted, if_pos hgo]
          exact ⟨(hkept q le_rfl).trans (coefGet_coefSet_same _ _ (by omega)), hleft⟩
      · exact (hkept q (by omega)).trans (coefGet_coefSet_other _ _ (by omega))
    · rw [if_neg hgo]
      exact ⟨fun _ => e, rfl, fun q _ => by rw [TapAdapted, if_neg hgo]; exact ⟨rfl, rfl⟩, fun _ _ => rfl⟩

end

/-- The error alone selects the walk (R187, R188). -/
theorem adapt_cases (coefW : Nat) (out : File 32) (order quant b : Nat) (e : Word) (coef : Vector Word 31) :
    (e = 0 ∧ adapt coefW out order quant b e coef = coef) ∨
      (e ≠ 0 ∧ adapt coefW out order quant b e coef =
        adaptTaps coefW out order quant b (decide (e.toInt ≤ 0)) order e coef) := by
  unfold adapt
  by_cases h0 : e = 0
  · subst h0
    exact .inl ⟨rfl, rfl⟩
  · have hne : e.toInt ≠ 0 := fun h => h0 (BitVec.eq_of_toInt_eq h)
    refine .inr ⟨h0, ?_⟩
    by_cases hpos : 0 < e.toInt
    · rw [if_pos hpos, decide_eq_false (by omega)]
    · rw [if_neg hpos, if_pos (by omega), decide_eq_true (by omega)]

/-! ## The loop of LP.FIR (R189) -/

section
variable (coefW n rss order quant : Nat) (r : ChanRegs)

/-- OUT and COEF after the warm-up and m more samples. -/
def firRun (m : Nat) : File 32 × Vector Word 31 :=
  forN m (fun j => firStep coefW rss r.resid order quant (order + 1 + j)) (warmUp n rss order r, r.coef)

theorem firRun_zero : firRun coefW n rss order quant r 0 = (warmUp n rss order r, r.coef) := rfl

theorem firRun_succ (m : Nat) :
    firRun coefW n rss order quant r (m + 1) =
      firStep coefW rss r.resid order quant (order + 1 + m) (firRun coefW n rss order quant r m) := rfl

theorem predictFir_eq (hn : 0 < n) :
    predictFir coefW n rss order quant r =
      { r with
        out := (firRun coefW n rss order quant r (n - (order + 1))).1
        coef := (firRun coefW n rss order quant r (n - (order + 1))).2 } :=
  if_neg (Nat.ne_of_gt hn)

variable {coefW n rss order quant r} {m i : Nat}

/-- A turn writes its own sample alone. -/
theorem read_firRun_succ_other (hi : i ≠ order + 1 + m) :
    File.read (firRun coefW n rss order quant r (m + 1)).1 i = File.read (firRun coefW n rss order quant r m).1 i :=
  File.read_write_other _ _ _ _ hi

/-- The loop writes the samples behind the warm-up. -/
theorem read_firRun_other (hi : i ≤ order ∨ order + 1 + m ≤ i) :
    File.read (firRun coefW n rss order quant r m).1 i = File.read (warmUp n rss order r) i := by
  induction m with
  | zero => rfl
  | succ m ih => rw [read_firRun_succ_other (by omega), ih (by omega)]

/-- R185 to R188 for the turn that writes sample b + ORDER + 1: `out` is the file that holds the samples. -/
def FirTurn (coefW n rss order quant : Nat) (r : ChanRegs) (out : File 32) (b : Nat) : Prop :=
  File.read out (b + order + 1) = sext rss
      (firPred out (firRun coefW n rss order quant r b).2 order quant b + File.read r.resid (b + order + 1)) ∧
    (firRun coefW n rss order quant r (b + 1)).2 = adapt coefW out order quant b
      (File.read r.resid (b + order + 1)) (firRun coefW n rss order quant r b).2

theorem FirTurn.congr {out out' : File 32} {b : Nat} (h : ∀ i ≤ b + order + 1, File.read out i = File.read out' i)
    (ht : FirTurn coefW n rss order quant r out b) : FirTurn coefW n rss order quant r out' b := by
  have hbefore : ∀ i ≤ b + order, File.read out i = File.read out' i := fun i hi => h i (by omega)
  rwa [FirTurn, h _ le_rfl, firPred_congr hbefore, adapt_congr hbefore] at ht

/-- What each turn computed is still so in the file that the loop leaves: it read samples that no later turn
writes. -/
theorem firTurn_of_lt {b : Nat} (hb : b < m) :
    FirTurn coefW n rss order quant r (firRun coefW n rss order quant r m).1 b := by
  induction m with
  | zero => omega
  | succ m ih =>
    rcases Nat.lt_succ_iff_lt_or_eq.mp hb with hlt | rfl
    · exact (ih hlt).congr fun i hi => (read_firRun_succ_other (by omega)).symm
    · have hindex : order + 1 + b = b + order + 1 := by omega
      have hbase : b + order + 1 - order - 1 = b := by omega
      have hbefore : ∀ i ≤ b + order, File.read (firRun coefW n rss order quant r (b + 1)).1 i =
          File.read (firRun coefW n rss order quant r b).1 i := fun i hi => read_firRun_succ_other (by omega)
      rw [FirTurn, firPred_congr hbefore, firRun_succ, firStep, hindex, hbase]
      exact ⟨File.read_write_same .., rfl⟩

end

/-! ## The obligations -/

/-- Settles O14: the loop writes entry i from residual i, for i < N. -/
theorem lpCopyRule : Obligations.LpCopyRule := by
  intro c s hbuf
  refine ⟨(predictCopy s.fhN.toNat (s.chan c)).out, ?exec, fun i hi => ?copied, fun i hi => ?kept⟩
  case exec =>
    rw [exec_lpCopy, lpCopy, withinBuffers_of_le _ hbuf, Res.answer_ok]
    rfl
  case copied => rw [predictCopy, read_forN_write_zero, if_pos hi]
  case kept => rw [predictCopy, read_forN_write_zero, if_neg (Nat.not_lt.mpr hi)]

/-- Settles O15: one turn of `accumulate` for each sample behind the first. -/
theorem lpDiffRule : Obligations.LpDiffRule := by
  intro c s hbuf
  have hexec : exec (.lpDiff c) s = .next (s.setChan c (predictDiff s.fhN.toNat s.fhRss.toNat (s.chan c))) := by
    rw [exec_lpDiff, lpDiff, withinBuffers_of_le _ hbuf, Res.answer_ok]
  rcases Nat.eq_zero_or_pos s.fhN.toNat with h0 | hpos
  · rw [h0] at hexec ⊢
    exact ⟨(s.chan c).out, hexec, fun h => absurd h (lt_irrefl 0), fun i hi => absurd hi (Nat.not_lt_zero _),
      fun _ _ => rfl⟩
  · rw [predictDiff_eq hpos] at hexec
    refine ⟨_, hexec, fun _ => ?first, fun i hi => ?later, fun i hi => ?kept⟩
    case first => rw [read_forN_accumulate_other _ (.inl rfl), read_firstSample_zero]
    case later => exact read_forN_accumulate_succ _ (by omega)
    case kept => rw [read_forN_accumulate_other _ (.inr (by omega)), read_firstSample_other _ (by omega)]

/-- Settles O16: the warm-up's entries stay as the loop over the later samples runs, and `firTurn_of_lt` says what
that loop leaves. -/
theorem lpFirRule : Obligations.LpFirRule := by
  intro c order s hcopy hdiff hbuf n r
  have hexec : exec (.lpFir c order) s = .next (s.setChan c
      (predictFir s.prm.profile.coefW n s.fhRss.toNat order.toNat r.quant.toNat r)) := by
    rw [exec_lpFir, lpFir, if_neg hcopy, if_neg hdiff, withinBuffers_of_le _ hbuf, Res.answer_ok]
  rcases Nat.eq_zero_or_pos n with h0 | hpos
  · rw [h0] at hexec ⊢
    exact ⟨r.out, fun _ => r.coef, hexec, rfl, fun h => absurd h (lt_irrefl 0),
      fun i _ hi => absurd hi (Nat.not_lt_zero _), fun b hb => absurd hb (Nat.not_lt_zero _), fun _ _ => rfl⟩
  · rw [predictFir_eq _ _ _ _ _ _ hpos] at hexec
    refine ⟨_, fun b => (firRun s.prm.profile.coefW n s.fhRss.toNat order.toNat r.quant.toNat r b).2, hexec, rfl,
      fun _ => ?first, fun i hi hin => ?warm, fun b hb => ?turn, fun i hi => ?kept⟩
    case first =>
      rw [read_firRun_other (.inl (by omega)), warmUp_eq, read_forN_accumulate_other _ (.inl rfl),
        read_firstSample_zero]
    case warm =>
      rw [read_firRun_other (.inl (by omega)), read_firRun_other (.inl (by omega)), warmUp_eq]
      exact read_forN_accumulate_succ _ (by omega)
    case turn => exact firTurn_of_lt (by omega)
    case kept =>
      rw [read_firRun_other (by omega), warmUp_eq, read_forN_accumulate_other _ (.inr (by omega)),
        read_firstSample_other _ (by omega)]

/-- Settles O17: the loop's sum is the list's (`firSum_eq`), the shifted 1 a power of two. -/
theorem firPredictionFormula : Obligations.FirPredictionFormula := by
  intro out coef order quant b
  rw [firPred, firSum_eq]
  cases quant with
  | zero => rw [if_neg (lt_irrefl 0), if_pos rfl]
  | succ q =>
    rw [if_pos q.succ_pos, if_neg q.succ_ne_zero, Nat.shiftLeft_eq, one_mul]
    rfl

/-- Settles O18: no walk, or the walk of `adaptTaps_walk`. -/
theorem firAdaptationRule : Obligations.FirAdaptationRule := by
  intro coefW out order quant b e coef _ hmax v sg new
  obtain ⟨left, hleft, htaps, hkept⟩ :=
    adaptTaps_walk coefW out order quant b (decide (e.toInt ≤ 0)) (p := order) (by omega) e coef
  rcases adapt_cases coefW out order quant b e coef with ⟨hzero, hnew⟩ | ⟨hne, hnew⟩
  · exact ⟨fun _ => hnew, fun p _ => congrArg (coefGet · p) hnew, fun h => absurd hzero h⟩
  · rw [← hnew] at htaps hkept
    refine ⟨fun h => absurd h hne, hkept, fun _ => ⟨left, hleft, fun p hp => ?_⟩⟩
    have htap := htaps p hp
    by_cases hpos : 0 < e.toInt
    · rw [decide_eq_false (Int.not_le.mpr hpos)] at htap
      have hsg : sg p = sign (v p) := if_pos hpos
      simp only [if_pos hpos, hsg]
      exact htap
    · rw [decide_eq_true (Int.not_lt.mp hpos)] at htap
      have hsg : sg p = -sign (v p) := if_neg hpos
      simp only [if_neg hpos, hsg]
      exact htap

end Sys2Proof.Machine

/-! SUPPORT. For O19 and O20: FD.HEADER (R211 to R216), and where a header raises. -/

namespace Sys2Proof.Machine

@[simp] theorem Res.answer_raised (s : State) : (Res.raised s).answer = .next s := rfl

theorem exec_fdHeader (s : State) : exec .fdHeader s = (frameHeader s.bcLen s).answer := rfl

/-! ## Where a header raises -/

/-- A read beyond the payload's end from a POS that ERR_INFO holds (R131, R322). -/
theorem readBits_truncated_at {n p : Nat} {s : State} (h1 : 1 ≤ n) (h32 : n ≤ 32) (hready : faultReady s = true)
    (hpos : s.pos = p) (hp : p < 2 ^ 32) (hend : 8 * s.bcLen.toNat < p + n) :
    readBits n s = .raised (afterFault 1 (BitVec.ofNat 32 p) s) := by
  subst hpos
  rw [readBits_beyond h1 h32 hend, raise_faultReady _ _ s hready, State.word32_fits s _ hp]
  rfl

section
variable {h : HeaderFields} {s : State}

/-- A supported sample size lets the header be read, from payload bit 0 (R210, R211). -/
theorem frameHeader_of_size (hsize : sampleSizeOk s = true) :
    frameHeader s.bcLen s =
      (readChan (s.setPos 0)).bind fun _ s1 => (readFlags s1).bind fun _ s2 => readCount s2 := if_pos hsize

/-- The state after CHAN (R212). -/
def chanState (h : HeaderFields) (s : State) : State := { s.setPos 3 with fhChan := h.chan }

/-- The state after the flags (R212 to R214). -/
def flagsState (h : HeaderFields) (s : State) : State :=
  { s.setPos 23 with fhChan := h.chan, fhHasSize := h.hasSize, fhUb := h.ub, fhCf := h.cf }

theorem pos_chanState : (chanState h s).pos = 3 := pos_eq_of_cursor (by decide) rfl rfl

theorem pos_flagsState : (flagsState h s).pos = 23 := pos_eq_of_cursor (by decide) rfl rfl

/-- CHAN at payload bit 0 (R212). -/
theorem readChan_start (hbits : holdsBitsAt s 0 (bitsOfNat 3 h.chan.toNat) = true) (hchan : h.chan.toNat ≤ 1)
    (hcfg : h.chan.toNat + 1 = s.cfgChannels.toNat) : readChan (s.setPos 0) = .ok () (chanState h s) :=
  readChan_of_bits (s.pos_setPos 0 (by decide)) (holdsBitsAt_congr rfl rfl hbits) hchan hcfg

/-- A channel field that the stream was not configured for (R212). -/
theorem readChan_unsupported (hready : faultReady s = true)
    (hbits : holdsBitsAt s 0 (bitsOfNat 3 h.chan.toNat) = true)
    (hbad : 1 < h.chan.toNat ∨ h.chan.toNat + 1 ≠ s.cfgChannels.toNat) :
    readChan (s.setPos 0) = .raised (afterFault 2 (h.chan.setWidth 32) (chanState h s)) := by
  have hvalue : (h.chan.setWidth 32).toNat = h.chan.toNat := BitVec.toNat_setWidth_of_le (by decide)
  have hraise : (raise .unsupportedChannelConfig (h.chan.setWidth 32) (chanState h s) : Res Unit) =
      .raised (afterFault 2 (h.chan.setWidth 32) (chanState h s)) := raise_faultReady _ _ _ hready
  rw [readChan, readBits_field (v := h.chan) (by decide) (by decide) (s.pos_setPos 0 (by decide))
    (holdsBitsAt_congr rfl rfl hbits), Res.bind_ok, ← hraise]
  simp only [setWidth_setWidth_32 (by decide : 3 ≤ 32), hvalue, State.setPos_cfgChannels]
  split
  · rfl
  · exact if_pos (hbad.resolve_left ‹_›)

/-- The first 23 bits of a header, CHAN as the stream was configured (R212 to R214). -/
theorem readFlags_start (hbits : holdsBitsAt s 0 ((encodeHeader h).take 23) = true) (hchan : h.chan.toNat ≤ 1)
    (hcfg : h.chan.toNat + 1 = s.cfgChannels.toNat) :
    ((readChan (s.setPos 0)).bind fun _ s1 => readFlags s1) = .ok () (flagsState h s) := by
  rw [encodeHeader_parts, ← List.append_assoc, List.take_left' (by simp), holdsBitsAt_append,
    length_bitsOfNat] at hbits
  obtain ⟨hb0, hb3⟩ := hbits
  rw [readChan_start hb0 hchan hcfg, Res.bind_ok,
    readFlags_of_bits (h := h) pos_chanState (holdsBitsAt_congr rfl rfl hb3)]
  rfl

/-- An explicit count that the payload ends in (R215, R322). -/
theorem readCount_truncated (hready : faultReady s = true) (hpos : s.pos = 23) (hsized : s.fhHasSize = 1)
    (hend : s.bcLen.toNat ≤ 6) : readCount s = .raised (afterFault 1 23 s) := by
  rw [readCount, if_pos hsized,
    readBits_truncated_at (n := 32) (by decide) (by decide) hready hpos (by decide) (by omega)]
  rfl

/-- An explicit count above the stream's (R216). -/
theorem readCount_above (hready : faultReady s = true) (hpos : s.pos = 23) (hsized : s.fhHasSize = 1)
    (hbits : holdsBitsAt s 23 (bitsOfNat 32 h.nsamples.toNat) = true)
    (habove : s.cfgMaxSamples.toNat < h.nsamples.toNat) :
    readCount s = .raised (afterFault 5 1 { s.setPos 55 with fhN := h.nsamples }) := by
  rw [readCount, if_pos hsized, readBits_field (by decide) (by decide) hpos hbits, Res.bind_ok, BitVec.setWidth_eq,
    checkCount]
  exact (if_pos habove).trans (raise_faultReady _ _ _ hready)

end

/-! ## The obligations -/

/-- Settles O19 (`frameHeader_of_bits`). -/
theorem fdHeaderRule : Obligations.FdHeaderRule := by
  intro h s hlegal hbits
  have hstart : bodyStart h < 2 ^ 35 := by unfold bodyStart; split <;> decide
  exact ⟨by rw [exec_fdHeader, frameHeader_of_bits hlegal hbits, Res.answer_ok], pos_eq_of_cursor hstart rfl rfl⟩

/-- Settles O20: the steps before the one that raises succeed, clause by clause. -/
theorem fdHeaderTraps : Obligations.FdHeaderTraps := by
  intro h s hready
  refine ⟨fun hsize => ?size, fun hsize hlen => ?noChan, fun hsize hbits hbad => ?badChan,
    fun hsize hbits hchan hcfg hlen => ?noFlags, fun hsize hbits hchan hcfg hsized hlen => ?noCount,
    fun hsize hbits hchan hcfg hsized habove => ?badCount⟩ <;> rw [exec_fdHeader]
  case size =>
    rw [frameHeader, if_neg (by simp [hsize]), raise_faultReady _ _ s hready]
    rfl
  all_goals rw [frameHeader_of_size hsize]
  case noChan =>
    rw [readChan, readBits_truncated_at (s := s.setPos 0) (n := 3) (p := 0) (by decide) (by decide) hready
      (s.pos_setPos 0 (by decide)) (by decide) (by simp [hlen])]
    rfl
  case badChan =>
    rw [readChan_unsupported hready hbits hbad]
    rfl
  case noFlags =>
    rw [readChan_start hbits hchan hcfg, Res.bind_ok, readFlags,
      readBits_truncated_at (s := chanState h s) (n := 16) (p := 3) (by decide) (by decide) hready pos_chanState
        (by decide) (by change 8 * s.bcLen.toNat < 3 + 16; omega)]
    rfl
  all_goals rw [← Res.bind_assoc]
  case noCount =>
    rw [readFlags_start hbits hchan hcfg, Res.bind_ok,
      readCount_truncated (s := flagsState h s) hready pos_flagsState hsized hlen]
    rfl
  case badCount =>
    have hparts : encodeHeader h = (encodeHeader h).take 23 ++ bitsOfNat 32 h.nsamples.toNat := by
      rw [encodeHeader_parts, if_pos hsized, ← List.append_assoc, List.take_left' (by simp)]
    have hlen : ((encodeHeader h).take 23).length = 23 := by simp [encodeHeader]; omega
    have hvalue : headerCount h s = h.nsamples := if_pos hsized
    have hstart : bodyStart h = 55 := if_pos hsized
    rw [hparts, holdsBitsAt_append, hlen] at hbits
    obtain ⟨hfirst, hcount⟩ := hbits
    rw [readFlags_start hfirst hchan hcfg, Res.bind_ok,
      readCount_above (s := flagsState h s) hready pos_flagsState hsized (holdsBitsAt_congr rfl rfl hcount) habove,
      headerState, hvalue, hstart]
    rfl

end Sys2Proof.Machine

/-! SUPPORT. For O24 to O26: the mixes and the packs of frames that have the stream's channels. -/

namespace Sys2Proof.Machine

/-- FD.MIX.DIRECT in a frame that is not mono (R225; log 33). -/
theorem mixDirect_runs {s : State} (shift : BitVec 8) (hchan : s.fhChan ≠ 0)
    (hbuf : s.fhN.toNat ≤ s.prm.bufSamples) :
    ∃ l r : File 32, mixDirect shift s = .ok () { s with mixL := l, mixR := r } ∧
      (∀ i < s.fhN.toNat, File.read l i = File.read s.chA.out i ∧ File.read r i = File.read s.chB.out i) ∧
      ∀ i, s.fhN.toNat ≤ i → File.read l i = File.read s.mixL i ∧ File.read r i = File.read s.mixR i := by
  have hrun : mixDirect shift s = .ok () _ := (if_neg hchan).trans (withinBuffers_of_le _ hbuf)
  refine ⟨_, _, hrun, fun i hi => ?mixed, fun i hi => ?kept⟩
  case mixed => simp only [read_forN_write_zero, if_pos hi, and_self]
  case kept => simp only [read_forN_write_zero, if_neg (Nat.not_lt.mpr hi), and_self]

/-- A frame of the stream's channels has as many output channels as the stream (R212, R230). -/
theorem outputCount_eq {s : State} (hchan : s.fhChan.toNat ≤ 1) (hcfg : s.fhChan.toNat + 1 = s.cfgChannels.toNat) :
    outputCount s = s.cfgChannels.toNat := by
  by_cases hmono : s.fhChan = 0
  · rw [outputCount, if_pos hmono, ← hcfg, hmono]
    rfl
  · have hne : s.fhChan.toNat ≠ 0 := fun h0 => hmono (BitVec.eq_of_toNat_eq h0)
    rw [outputCount, if_neg hmono]
    omega

/-- The pack of a frame is the operation that the sample size selects (R226, R227). -/
theorem exec_packOp_eq_pack (s : State) : exec (packOp s) s = (pack s).answer := by
  by_cases h16 : s.cfgSampleSize = 16
  · rw [packOp, pack, if_pos h16, if_pos h16, exec_fdPack16]
  · rw [packOp, pack, if_neg h16, if_neg h16, exec_fdPack24]

/-- The pack of the configured size writes the frames of `frameBytes`. -/
theorem pack_eq {s : State} (h : sampleSizeOk s = true) : pack s = packReady s (packWith (frameBytes s) s) := by
  by_cases h16 : s.cfgSampleSize = 16
  · rw [pack, if_pos h16, pack16, if_pos h16, frameBytes16_eq h16]
  · have h24 : s.cfgSampleSize = 24 := (sampleSizeOk_iff.mp h).resolve_left h16
    rw [pack, if_neg h16, pack24, if_pos h24, frameBytes24_eq h24]

/-- The pack of the configured size, of a frame of the stream's channels: every byte of its samples, and no other
byte of PCM (R64, R66, R226, R227). -/
theorem pack_runs {s : State} (hsize : sampleSizeOk s = true) (hchan : s.fhChan.toNat ≤ 1)
    (hcfg : s.fhChan.toNat + 1 = s.cfgChannels.toNat) (hbuf : s.fhN.toNat ≤ s.prm.bufSamples) :
    ∃ pcm : Memory, pack s = .ok () { s with pcm := pcm } ∧
      (∀ i < s.fhN.toNat, ∀ x < s.cfgChannels.toNat, ∀ j < bytesPerSample s,
        Memory.read pcm (i * bytesPerFrame s + x * bytesPerSample s + j) =
          some ((packedSample s i x >>> (8 * j)).setWidth 8)) ∧
      ∀ a, s.fhN.toNat * bytesPerFrame s ≤ a → Memory.read pcm a = Memory.read s.pcm a := by
  have hcount := outputCount_eq hchan hcfg
  refine ⟨(packWith (frameBytes s) s).pcm, ?run, fun i hi x hx j hj => ?written, fun a ha => ?kept⟩
  case run =>
    rw [pack_eq hsize, packReady_of_fits _ (by omega) hbuf]
    rfl
  case written => exact read_packWith hsize hi (hcount ▸ hx) hj (.inl hx)
  case kept =>
    refine read_packWith_other fun i hi x hx j hj => ?_
    rw [hcount] at hx
    have hlast : i * bytesPerFrame s + x * bytesPerSample s + j < s.fhN.toNat * bytesPerFrame s :=
      calc i * bytesPerFrame s + x * bytesPerSample s + j
          < i * bytesPerFrame s + (x + 1) * bytesPerSample s := by rw [Nat.succ_mul]; omega
        _ ≤ i * bytesPerFrame s + bytesPerFrame s :=
            Nat.add_le_add_left (bytesPerFrame_eq hsize ▸ Nat.mul_le_mul_right _ hx) _
        _ = (i + 1) * bytesPerFrame s := (Nat.succ_mul ..).symm
        _ ≤ s.fhN.toNat * bytesPerFrame s := Nat.mul_le_mul_right _ hi
    omega

/-! ## The obligations -/

/-- Settles O24: the two mixes of a frame that is not mono; a shift of at most 31 is R10's. -/
theorem fdMixRule : Obligations.FdMixRule := by
  intro shift weight s hstereo hbuf kept
  have hchan : s.fhChan ≠ 0 := by rw [hstereo]; decide
  refine ⟨fun hshift _ => ?weighted, ?direct⟩
  case weighted =>
    obtain ⟨l, r, hmix, hmixed, hkept⟩ := mixWeighted_runs shift weight hchan hbuf
    refine ⟨l, r, by rw [exec_fdMixWeighted, hmix, Res.answer_ok], fun i hi => ?_, hkept⟩
    obtain ⟨hright, hleft⟩ := hmixed i hi
    rw [mixRight, asr_in _ _ hshift] at hright
    exact ⟨hright, hleft⟩
  case direct =>
    obtain ⟨l, r, hmix, hmixed, hkept⟩ := mixDirect_runs shift hchan hbuf
    exact ⟨l, r, by rw [exec_fdMixDirect, hmix, Res.answer_ok], hmixed, hkept⟩

/-- Settles O25: BPS is 2, and no raw bytes join a 16-bit sample. -/
theorem fdPack16Rule : Obligations.FdPack16Rule := by
  intro s h16 hchan hcfg hbuf bpf
  have hsize : sampleSizeOk s = true := sampleSizeOk_iff.mpr (.inl h16)
  have hbps : bytesPerSample s = 2 := by rw [bytesPerSample, h16]; rfl
  have hbpf : bytesPerFrame s = bpf := by rw [bytesPerFrame_eq hsize, hbps, Nat.mul_comm]
  have hop : packOp s = .fdPack16 := if_pos h16
  obtain ⟨pcm, hrun, hwritten, hkept⟩ := pack_runs hsize hchan hcfg hbuf
  rw [hbpf] at hwritten hkept
  refine ⟨pcm, by rw [← hop, exec_packOp_eq_pack, hrun, Res.answer_ok], fun i hi x hx j hj => ?_, hkept⟩
  have hbyte := hwritten i hi x hx j (hbps ▸ hj)
  rwa [hbps, Nat.mul_comm x, packedSample, if_pos (.inr h16)] at hbyte

/-- Settles O26: BPS is 3, and the raw bytes join as UB says. -/
theorem fdPack24Rule : Obligations.FdPack24Rule := by
  intro s h24 hchan hcfg hbuf bpf
  have h16 : s.cfgSampleSize ≠ 16 := by rw [h24]; decide
  have hsize : sampleSizeOk s = true := sampleSizeOk_iff.mpr (.inr h24)
  have hbps : bytesPerSample s = 3 := by rw [bytesPerSample, h24]; rfl
  have hbpf : bytesPerFrame s = bpf := by rw [bytesPerFrame_eq hsize, hbps, Nat.mul_comm]
  have hop : packOp s = .fdPack24 := if_neg h16
  obtain ⟨pcm, hrun, hwritten, hkept⟩ := pack_runs hsize hchan hcfg hbuf
  rw [hbpf] at hwritten hkept
  refine ⟨pcm, by rw [← hop, exec_packOp_eq_pack, hrun, Res.answer_ok], fun i hi x hx j hj => ?_, hkept⟩
  have hbyte := hwritten i hi x hx j (hbps ▸ hj)
  simp only [hbps, Nat.mul_comm x, packedSample, h16, or_false] at hbyte
  exact hbyte

end Sys2Proof.Machine

/-! SUPPORT. For O22, O23 and the whole frames: FD.RAWLOW and FD.VERBATIM read fields of one width, channels
alternating sample by sample, into one buffer of each channel (R210, R220, R223). -/

namespace Sys2Proof.Machine

/-! ## Fields of one width -/

section
variable {s : State} {count w j : Nat}

/-- A read of bits that are there is what `MemRead` gives (R61, R131). -/
theorem readBits_of_memRead {n : Nat} {v : Word} (h1 : 1 ≤ n) (h32 : n ≤ 32)
    (hend : s.pos + n ≤ 8 * s.bcLen.toNat) (h : memRead s.payload s.pos n = some v) :
    readBits n s = .ok v (s.setPos (s.pos + n)) := by
  rw [readBits, if_neg (by omega), if_neg (by omega), h]

/-- Field j of the `w`-bit fields from POS on, as a word. -/
def fieldValue (s : State) (w j : Nat) : Word := (fieldAt s w j).getD 0

/-- Of the fields that lie in the payload, each lies before its end and has a value. -/
theorem field_of_holdsFields (h : holdsFields s count w = true) (hj : j < count) :
    s.pos + j * w + w ≤ 8 * s.bcLen.toNat ∧ fieldAt s w j = some (fieldValue s w j) := by
  simp only [holdsFields, Bool.and_eq_true, decide_eq_true_eq, Option.isSome_iff_ne_none, ne_eq,
    payloadBits_eq_none_iff] at h
  obtain ⟨hend, hbits⟩ := h
  have hlast : j * w + w ≤ count * w := Nat.succ_mul j w ▸ Nat.mul_le_mul_right w hj
  have hsome : fieldAt s w j ≠ none := by
    rw [fieldAt, memRead, ne_eq, Option.map_eq_none_iff, payloadBits_eq_none_iff]
    rintro ⟨i, hi, hnone⟩
    exact hbits ⟨j * w + i, by omega, Nat.add_assoc s.pos .. ▸ hnone⟩
  obtain ⟨v, hv⟩ := Option.ne_none_iff_exists'.mp hsome
  exact ⟨by omega, by rw [fieldValue, hv, Option.getD_some]⟩

end

/-! ## One buffer of a channel -/

/-- A sample buffer among a channel's registers (R28). -/
structure Buffer (u : Nat) where
  get : ChanRegs → File u
  set : ChanRegs → File u → ChanRegs
  get_set : ∀ r f, get (set r f) = f
  set_set : ∀ r f g, set (set r f) g = set r g
  set_get : ∀ r, set r (get r) = r

/-- OUT_c. -/
def outBuffer : Buffer 32 where
  get r := r.out
  set r f := { r with out := f }
  get_set _ _ := rfl
  set_set _ _ _ := rfl
  set_get _ := rfl

/-- RAW_c. -/
def rawBuffer : Buffer 24 where
  get r := r.raw
  set r f := { r with raw := f }
  get_set _ _ := rfl
  set_set _ _ _ := rfl
  set_get _ := rfl

/-- The state with the cursor at p and the channels' registers rA and rB. -/
def State.withChans (s : State) (p : Nat) (rA rB : ChanRegs) : State := { s.setPos p with chA := rA, chB := rB }

section
variable (s : State) (p : Nat) (rA rB r : ChanRegs)

theorem State.withChans_pos (h : p ≤ 8 * s.bcLen.toNat) : (s.withChans p rA rB).pos = p := pos_setPos_of_le_end h

theorem State.withChans_self : s.withChans s.pos s.chA s.chB = s := State.setPos_pos_self s

@[simp] theorem State.withChans_chan_a : (s.withChans p rA rB).chan .a = rA := rfl

@[simp] theorem State.withChans_chan_b : (s.withChans p rA rB).chan .b = rB := rfl

@[simp] theorem State.withChans_setChan_a : (s.withChans p rA rB).setChan .a r = s.withChans p r rB := rfl

@[simp] theorem State.withChans_setChan_b : (s.withChans p rA rB).setChan .b r = s.withChans p rA r := rfl

end

section
variable {u : Nat} (B : Buffer u) (conv : Word → BitVec u) {step : Nat → Chan → State → Res Unit} {s : State}
  {N w n i j : Nat} {rA rB : ChanRegs}

/-- The step reads one field of w bits and puts what `conv` makes of it in entry i of channel c's buffer. -/
def ReadsField (w : Nat) (step : Nat → Chan → State → Res Unit) : Prop :=
  ∀ (i : Nat) (c : Chan) (s : State) (v : Word), s.pos + w ≤ 8 * s.bcLen.toNat →
    memRead s.payload s.pos w = some v →
    step i c s = .ok ()
      ((s.setPos (s.pos + w)).setChan c (B.set (s.chan c) (File.write (B.get (s.chan c)) i (conv v))))

variable {B conv}

/-- The step at field j. -/
theorem ReadsField.at_field (hstep : ReadsField B conv w step) (hfields : holdsFields s N w = true) (hj : j < N)
    (c : Chan) :
    step i c (s.withChans (s.pos + j * w) rA rB) = .ok ()
      ((s.withChans (s.pos + (j + 1) * w) rA rB).setChan c
        (B.set ((s.withChans (s.pos + (j + 1) * w) rA rB).chan c)
          (File.write (B.get ((s.withChans (s.pos + (j + 1) * w) rA rB).chan c)) i (conv (fieldValue s w j))))) := by
  obtain ⟨hend, hvalue⟩ := field_of_holdsFields hfields hj
  have hpos : (s.withChans (s.pos + j * w) rA rB).pos = s.pos + j * w := State.withChans_pos _ _ _ _ (by omega)
  have hrun := hstep i c (s.withChans (s.pos + j * w) rA rB) (fieldValue s w j)
  rw [hpos] at hrun
  rw [hrun hend hvalue, Nat.succ_mul, Nat.add_assoc]
  cases c <;> rfl

variable (B conv)

/-- The buffer f after samples 0 to n - 1: entry i holds the field that stands k places behind the first of
sample i. -/
def fieldFile (s : State) (w k n : Nat) (f : File u) : File u :=
  forN n (fun i f => File.write f i (conv (fieldValue s w (i * (channels s).length + k)))) f

theorem read_fieldFile (s : State) (w k n : Nat) (f : File u) (i : Nat) :
    File.read (fieldFile conv s w k n f) i =
      if i < n then conv (fieldValue s w (i * (channels s).length + k)) else File.read f i :=
  read_forN_write_zero n _ f i

/-- The registers of a channel, with its buffer after n samples. -/
def fieldRegs (s : State) (w k n : Nat) (r : ChanRegs) : ChanRegs := B.set r (fieldFile conv s w k n (B.get r))

theorem fieldRegs_zero (s : State) (w k : Nat) (r : ChanRegs) : fieldRegs B conv s w k 0 r = r := B.set_get r

theorem fieldRegs_succ (s : State) (w k n : Nat) (r : ChanRegs) :
    B.set (fieldRegs B conv s w k n r)
        (File.write (B.get (fieldRegs B conv s w k n r)) n (conv (fieldValue s w (n * (channels s).length + k)))) =
      fieldRegs B conv s w k (n + 1) r := by
  rw [fieldRegs, B.get_set, B.set_set]
  rfl

variable {B conv}

/-- A mono frame's samples, one after the other. -/
theorem forRes_fields_mono (hstep : ReadsField B conv w step) (hmono : s.fhChan = 0)
    (hfields : holdsFields s N w = true) (hn : n ≤ N) :
    forRes n (fun i => eachChan [.a] (step i)) s =
      .ok () (s.withChans (s.pos + n * w) (fieldRegs B conv s w 0 n s.chA) s.chB) := by
  have hlen : (channels s).length = 1 := by rw [channels, if_pos hmono]; rfl
  induction n with
  | zero => rw [forRes_zero, Nat.zero_mul, Nat.add_zero, fieldRegs_zero, State.withChans_self]
  | succ n ih =>
    rw [forRes_succ, ih (by omega), Res.bind_ok, eachChan_cons, hstep.at_field hfields (by omega) .a, Res.bind_ok,
      eachChan_nil, ← fieldRegs_succ, hlen, Nat.mul_one]
    rfl

/-- A stereo frame's samples, A before B in each. -/
theorem forRes_fields_stereo (hstep : ReadsField B conv w step) (hstereo : s.fhChan ≠ 0)
    (hfields : holdsFields s (N * 2) w = true) (hn : n ≤ N) :
    forRes n (fun i => eachChan [.a, .b] (step i)) s =
      .ok () (s.withChans (s.pos + n * 2 * w) (fieldRegs B conv s w 0 n s.chA)
        (fieldRegs B conv s w 1 n s.chB)) := by
  have hlen : (channels s).length = 2 := by rw [channels_of_ne_zero hstereo]; rfl
  induction n with
  | zero => simp only [forRes_zero, Nat.zero_mul, Nat.add_zero, fieldRegs_zero, State.withChans_self]
  | succ n ih =>
    have hnext : (n + 1) * 2 = n * 2 + 1 + 1 := by omega
    rw [forRes_succ, ih (by omega), Res.bind_ok, eachChan_cons, hstep.at_field hfields (by omega) .a, Res.bind_ok,
      State.withChans_chan_a, State.withChans_setChan_a, eachChan_cons, hstep.at_field hfields (by omega) .b,
      Res.bind_ok, eachChan_nil, ← fieldRegs_succ, ← fieldRegs_succ, hlen, hnext]
    rfl

/-- The fields of sample i, one for each channel of the frame. -/
theorem field_lt_of_lt {k : Nat} (hi : i < n) (hk : k < (channels s).length) :
    i * (channels s).length + k < n * (channels s).length :=
  calc i * (channels s).length + k < (i + 1) * (channels s).length := by rw [Nat.succ_mul]; omega
    _ ≤ n * (channels s).length := Nat.mul_le_mul_right _ hi

/-- All the frame's samples: each channel's buffer holds its fields, and the rest of it is as before. -/
theorem forRes_fields (hstep : ReadsField B conv w step)
    (hfields : holdsFields s (n * (channels s).length) w = true) :
    ∃ fA fB : File u,
      forRes n (fun i => eachChan (channels s) (step i)) s =
        .ok () (s.withChans (s.pos + n * (channels s).length * w) (B.set s.chA fA) (B.set s.chB fB)) ∧
      (∀ i < n, some (File.read fA i) = (fieldAt s w (i * (channels s).length)).map conv) ∧
      (s.fhChan = 0 → fB = B.get s.chB) ∧
      (s.fhChan ≠ 0 → ∀ i < n, some (File.read fB i) = (fieldAt s w (i * (channels s).length + 1)).map conv) ∧
      ∀ i, n ≤ i → File.read fA i = File.read (B.get s.chA) i ∧ File.read fB i = File.read (B.get s.chB) i := by
  have inside (k : Nat) (hk : k < (channels s).length) (f : File u) (i : Nat) (hi : i < n) :
      some (File.read (fieldFile conv s w k n f) i) = (fieldAt s w (i * (channels s).length + k)).map conv := by
    obtain ⟨-, hvalue⟩ := field_of_holdsFields hfields (field_lt_of_lt hi hk)
    rw [read_fieldFile, if_pos hi, hvalue, Option.map_some]
  have beyond (k : Nat) (f : File u) (i : Nat) (hi : n ≤ i) :
      File.read (fieldFile conv s w k n f) i = File.read f i := by
    rw [read_fieldFile, if_neg (Nat.not_lt.mpr hi)]
  by_cases hmono : s.fhChan = 0
  · have hchans : channels s = [.a] := if_pos hmono
    refine ⟨fieldFile conv s w 0 n (B.get s.chA), B.get s.chB, ?mono, inside 0 (by simp [hchans]) _, fun _ => rfl,
      fun h => absurd hmono h, fun i hi => ⟨beyond 0 _ i hi, rfl⟩⟩
    rw [hchans, List.length_singleton, Nat.mul_one] at hfields ⊢
    rw [B.set_get]
    exact forRes_fields_mono hstep hmono hfields le_rfl
  · have hchans : channels s = [.a, .b] := channels_of_ne_zero hmono
    refine ⟨fieldFile conv s w 0 n (B.get s.chA), fieldFile conv s w 1 n (B.get s.chB), ?stereo,
      inside 0 (by simp [hchans]) _, fun h => absurd h hmono, fun _ => inside 1 (by simp [hchans]) _,
      fun i hi => ⟨beyond 0 _ i hi, beyond 1 _ i hi⟩⟩
    rw [hchans] at hfields ⊢
    exact forRes_fields_stereo hstep hmono hfields le_rfl

end

/-! ## The two steps -/

/-- A raw low byte entry is one unsigned field (R220). -/
theorem readRaw_readsField {ub : Nat} (h1 : 1 ≤ ub) (h3 : ub ≤ 4) :
    ReadsField rawBuffer (·.setWidth 24) (8 * ub) (readRaw ub) := by
  intro i c s v hend hv
  rw [readRaw, readBits_of_memRead (by omega) (by omega) hend hv, Res.bind_ok, State.chan_setPos]
  rfl

/-- The two reads of a 24-bit sample are one field of 24 bits (R106, R223). -/
theorem memRead_24 {m : Memory} {p : Nat} {v : Word} (h : memRead m p 24 = some v) :
    ∃ hi lo : Word, memRead m p 16 = some hi ∧ memRead m (p + 16) 8 = some lo ∧ lsl hi 8 ||| lo = v := by
  have hsplit := payloadBits_add m p 16 8
  simp only [memRead, Option.map_eq_some_iff] at h
  obtain ⟨bits, hbits, rfl⟩ := h
  rw [hbits, eq_comm, Option.bind_eq_some_iff] at hsplit
  obtain ⟨x, hx, hxy⟩ := hsplit
  obtain ⟨y, hy, rfl⟩ := Option.map_eq_some_iff.mp hxy
  refine ⟨_, _, by rw [memRead, hx]; rfl, by rw [memRead, hy]; rfl, ?_⟩
  have hxlt := natOfBits_lt x
  have hylt := natOfBits_lt y
  rw [payloadBits_length hx] at hxlt
  rw [payloadBits_length hy] at hylt
  rw [natOfBits_append, payloadBits_length hy]
  apply BitVec.eq_of_toNat_eq
  rw [lsl, BitVec.toNat_or, BitVec.toNat_shiftLeft]
  simp only [BitVec.toNat_ofNat]
  rw [Nat.mod_eq_of_lt (by omega : natOfBits x < 2 ^ 32), Nat.mod_eq_of_lt (by omega : natOfBits y < 2 ^ 32),
    Nat.shiftLeft_eq, Nat.mod_eq_of_lt (by omega), Nat.mod_eq_of_lt (by omega), Nat.mul_comm,
    Nat.two_pow_add_eq_or_of_lt hylt]

/-- A verbatim sample is one two's complement field of the configured size (R223, R68). -/
theorem readVerbatim_readsField {size : BitVec 8} (h : size = 16 ∨ size = 24) :
    ReadsField outBuffer (sext size.toNat) size.toNat (readVerbatim size) := by
  rcases h with rfl | rfl <;> intro i c s v hend hv
  · have hread : readBits 16 s = .ok v (s.setPos (s.pos + 16)) :=
      readBits_of_memRead (by decide) (by decide) hend hv
    rw [readVerbatim, if_pos rfl, hread, Res.bind_ok, setOut, State.chan_setPos]
    rfl
  · obtain ⟨hi, lo, hhi, hlo, hjoin⟩ := memRead_24 hv
    have hend24 : s.pos + 24 ≤ 8 * s.bcLen.toNat := hend
    have hpos : (s.setPos (s.pos + 16)).pos = s.pos + 16 := pos_setPos_of_le_end (by omega)
    rw [← hpos] at hlo
    rw [readVerbatim, if_neg (by decide), readBits_of_memRead (by decide) (by decide) (by omega) hhi, Res.bind_ok,
      readBits_of_memRead (by decide) (by decide) (by rw [hpos, State.setPos_bcLen]; omega) hlo, Res.bind_ok, hjoin,
      hpos, State.setPos_setPos, setOut, State.chan_setPos]
    rfl

/-! ## FD.RAWLOW and FD.VERBATIM -/

section
variable {s : State}

theorem rawLow_of_ub_zero (h : s.fhUb = 0) : rawLow s = .ok () s := if_pos h

/-- FD.RAWLOW with UB other than 0 (R220). -/
theorem rawLow_runs (hub : s.fhUb ≠ 0) (hbuf : s.fhN.toNat ≤ s.prm.bufSamples)
    (hfields : holdsFields s (s.fhN.toNat * (channels s).length) (8 * s.fhUb.toNat) = true) :
    ∃ rawA rawB : File 24,
      rawLow s = .ok () (s.withChans (s.pos + s.fhN.toNat * (channels s).length * (8 * s.fhUb.toNat))
        { s.chA with raw := rawA } { s.chB with raw := rawB }) ∧
      (∀ i < s.fhN.toNat, some (File.read rawA i) =
        (fieldAt s (8 * s.fhUb.toNat) (i * (channels s).length)).map (·.setWidth 24)) ∧
      (s.fhChan = 0 → rawB = s.chB.raw) ∧
      (s.fhChan ≠ 0 → ∀ i < s.fhN.toNat, some (File.read rawB i) =
        (fieldAt s (8 * s.fhUb.toNat) (i * (channels s).length + 1)).map (·.setWidth 24)) ∧
      ∀ i, s.fhN.toNat ≤ i →
        File.read rawA i = File.read s.chA.raw i ∧ File.read rawB i = File.read s.chB.raw i := by
  have hne : s.fhUb.toNat ≠ 0 := fun h0 => hub (BitVec.eq_of_toNat_eq h0)
  have hlt := s.fhUb.isLt
  rw [rawLow, if_neg hub, withinBuffers_of_le _ hbuf]
  exact forRes_fields (readRaw_readsField (by omega) (by omega)) hfields

/-- FD.VERBATIM (R223). -/
theorem verbatim_runs (hsize : sampleSizeOk s = true) (hbuf : s.fhN.toNat ≤ s.prm.bufSamples)
    (hfields : holdsFields s (s.fhN.toNat * (channels s).length) s.cfgSampleSize.toNat = true) :
    ∃ outA outB : File 32,
      verbatim s = .ok () (s.withChans (s.pos + s.fhN.toNat * (channels s).length * s.cfgSampleSize.toNat)
        { s.chA with out := outA } { s.chB with out := outB }) ∧
      (∀ i < s.fhN.toNat, some (File.read outA i) =
        (fieldAt s s.cfgSampleSize.toNat (i * (channels s).length)).map (sext s.cfgSampleSize.toNat)) ∧
      (s.fhChan = 0 → outB = s.chB.out) ∧
      (s.fhChan ≠ 0 → ∀ i < s.fhN.toNat, some (File.read outB i) =
        (fieldAt s s.cfgSampleSize.toNat (i * (channels s).length + 1)).map (sext s.cfgSampleSize.toNat)) ∧
      ∀ i, s.fhN.toNat ≤ i →
        File.read outA i = File.read s.chA.out i ∧ File.read outB i = File.read s.chB.out i := by
  rw [verbatim, withinBuffers_of_le _ hbuf]
  exact forRes_fields (readVerbatim_readsField (sampleSizeOk_iff.mp hsize)) hfields

end

/-! ## The obligations -/

/-- Settles O22: no loop for UB = 0, otherwise one field for each entry. -/
theorem fdRawlowRule : Obligations.FdRawlowRule := by
  intro s
  refine ⟨fun hub => ?none, fun hub hbuf => ?some⟩
  case none => rw [exec_fdRawlow, rawLow_of_ub_zero hub, Res.answer_ok]
  case some =>
    intro w nch hfields
    obtain ⟨rawA, rawB, hrun, hreads⟩ := rawLow_runs hub hbuf hfields
    refine ⟨rawA, rawB, ?_, hreads⟩
    rw [exec_fdRawlow, hrun, Res.answer_ok]
    rfl

/-- Settles O23: one field for each entry. -/
theorem fdVerbatimRule : Obligations.FdVerbatimRule := by
  intro s hsize hbuf w nch hfields
  obtain ⟨outA, outB, hrun, hreads⟩ := verbatim_runs hsize hbuf hfields
  refine ⟨outA, outB, ?_, hreads⟩
  rw [exec_fdVerbatim, if_pos hsize, hrun, Res.answer_ok]
  rfl

end Sys2Proof.Machine

/-! SUPPORT. For O27 to O30: whole frames (R210). What a header selects, what a frame leaves as it was, fields of
the payload that a bit string writes, and the completion. -/

namespace Sys2Proof.Machine

/-! ## The hypotheses about a frame's header -/

section
variable {h : HeaderFields} {s : State}

theorem headerLegal_iff :
    headerLegal h s = true ↔ sampleSizeOk s = true ∧ h.chan.toNat ≤ 1 ∧ h.chan.toNat + 1 = s.cfgChannels.toNat ∧
      (headerCount h s).toNat ≤ s.cfgMaxSamples.toNat := by
  simp only [headerLegal, Bool.and_eq_true, decide_eq_true_eq, and_assoc]

theorem frameReady_iff :
    frameReady h s = true ↔ faultReady s = true ∧ s.decPend = false ∧ headerLegal h s = true ∧
      s.cfgMaxSamples.toNat ≤ s.prm.bufSamples := by
  simp only [frameReady, Bool.and_eq_true, Bool.not_eq_true', decide_eq_true_eq, and_assoc]

/-- The buffers hold the frame's samples (R28). -/
theorem headerCount_le_bufSamples (hready : frameReady h s = true) :
    (headerCount h s).toNat ≤ s.prm.bufSamples := by
  obtain ⟨-, -, hlegal, hmax⟩ := frameReady_iff.mp hready
  obtain ⟨-, -, -, hcount⟩ := headerLegal_iff.mp hlegal
  exact hcount.trans hmax

theorem pos_headerState : (headerState h s).pos = bodyStart h := by
  have hstart : bodyStart h < 2 ^ 35 := by unfold bodyStart; split <;> decide
  exact pos_eq_of_cursor hstart rfl rfl

theorem length_encodeHeader : (encodeHeader h).length = bodyStart h := by
  unfold encodeHeader bodyStart
  split <;> simp

/-- A header at payload bit 0, and what follows it from the body's start on (R91). -/
theorem holdsBitsAt_header_append {bits : List Bool} (hbits : holdsBitsAt s 0 (encodeHeader h ++ bits) = true) :
    holdsBitsAt s 0 (encodeHeader h) = true ∧ holdsBitsAt s (bodyStart h) bits = true := by
  rwa [holdsBitsAt_append, length_encodeHeader, Nat.zero_add] at hbits

/-- The channels of a frame of a legal header (R210). -/
theorem channels_length {t : State} (hchan : h.chan.toNat ≤ 1) (ht : t.fhChan = h.chan) :
    (channels t).length = h.chan.toNat + 1 := by
  rw [channels, ht]
  split
  · rename_i hmono
    rw [hmono]
    rfl
  · rename_i hstereo
    have hne : h.chan.toNat ≠ 0 := fun h0 => hstereo (BitVec.eq_of_toNat_eq h0)
    simp only [List.length_cons, List.length_nil]
    omega

theorem outputCount_of_chan {t : State} (hchan : h.chan.toNat ≤ 1) (ht : t.fhChan = h.chan) :
    outputCount t = h.chan.toNat + 1 := by
  rw [← channels_length hchan ht, outputCount, channels]
  split <;> rfl

/-! ## The steps of a whole frame -/

/-- A frame of the kind that the header names is decoded from its body on (R91, R210). -/
theorem admitFrame_of_header {kind : FrameKind} (hready : frameReady h s = true)
    (hbits : holdsBitsAt s 0 (encodeHeader h) = true) (hchan : h.chan = kind.chan) (hcf : h.cf = kind.cf) :
    admitFrame s (frameOfKind kind s).answer = (frameBody kind (headerState h s)).answer := by
  obtain ⟨hfault, hidle, hlegal, -⟩ := frameReady_iff.mp hready
  simp only [faultReady, Bool.and_eq_true, beq_iff_eq] at hfault
  have hkind : frameKind (headerState h s) = kind := by
    have hc : (headerState h s).fhChan = kind.chan := hchan
    have hf : (headerState h s).fhCf = kind.cf := hcf
    rw [frameKind, hc, hf]
    cases kind <;> rfl
  rw [admitFrame, if_neg (not_not.mpr hfault.1), hidle, if_neg Bool.false_ne_true, frameOfKind,
    frameHeader_of_bits hlegal hbits, Res.bind_ok, if_pos hkind]

/-- The body, the deinterlacing, the pack and the completion (R210, R228). -/
theorem frameBody_of_steps {kind : FrameKind} {s1 s2 s3 s4 : State} (hbody : kindBody kind s1 = .ok () s2)
    (hmix : deinterlace s2 = .ok () s3) (hpack : pack s3 = .ok () s4) :
    frameBody kind s1 = .ok () (completeFrame s4) := by
  rw [frameBody, hbody, Res.bind_ok, hmix, Res.bind_ok, hpack, Res.bind_ok]

end

/-! ## What the steps behind a frame's header leave as it was -/

/-- The state with the registers that the steps behind the header and the mix fields write blanked. -/
def State.outsideBody (s : State) : State :=
  { s with
    bcIdx := 0, bcAcc := 0, chA := ChanRegs.reset, chB := ChanRegs.reset, rsHistory := 0, rsSignMod := 0
    pcm := [], mixL := [], mixR := [] }

/-- Steps behind the header and the mix fields: channel headers, samples, mixes, packs. -/
def BodyStep (u t : State) : Prop := t.outsideBody = u.outsideBody

section
variable {s t u v : State} {h : HeaderFields}

theorem BodyStep.refl (u : State) : BodyStep u u := rfl

theorem BodyStep.trans (h : BodyStep u t) (h' : BodyStep t v) : BodyStep u v := Eq.trans h' h

/-- What does not read the registers of the body is the same before and after. -/
theorem BodyStep.same {β : Type} (h : BodyStep u t) (f : State → β) (hf : ∀ s, f s.outsideBody = f s) : f t = f u := by
  rw [← hf t, ← hf u, h]

theorem BodyStep.withChans (u : State) (p : Nat) (rA rB : ChanRegs) : BodyStep u (u.withChans p rA rB) := rfl

theorem BodyStep.setMix (u : State) (l r : File 32) : BodyStep u { u with mixL := l, mixR := r } := rfl

theorem BodyStep.setPcm (u : State) (m : Memory) : BodyStep u { u with pcm := m } := rfl

/-- A state from which the body of a frame of this header is read. -/
structure BodyStart (h : HeaderFields) (s u : State) : Prop where
  outside : u.outsideDecoder = s.outsideDecoder
  len : u.bcLen = s.bcLen
  chan : u.fhChan = h.chan
  count : u.fhN = headerCount h s

/-- Up to a frame's end, everything that is not the decoder's own stays as it was (R20). -/
theorem BodyStart.kept (hu : BodyStart h s u) (ht : BodyStep u t) :
    t.decKey = s.decKey ∧ t.mode = s.mode ∧ t.errCode = s.errCode ∧ t.errInfo = s.errInfo ∧ t.log = s.log ∧
      t.payload = s.payload ∧ t.resp = s.resp ∧ configSame s t ∧ sharedSame s t := by
  have houtside : t.outsideDecoder = s.outsideDecoder :=
    (ht.same State.outsideDecoder fun _ => rfl).trans hu.outside
  have same {β : Type} (f : State → β) : f t.outsideDecoder = f s.outsideDecoder := congrArg f houtside
  have hshared : t.sharedPart = s.sharedPart := same State.sharedPart
  exact ⟨same State.decKey, same State.mode, same State.errCode, same State.errInfo, same State.log,
    same State.payload, same State.resp, configSame_of_sharedPart hshared, sharedSame_of_sharedPart hshared⟩

/-- What reads the configuration alone has the value that it had before the frame. -/
theorem BodyStart.same {β : Type} (hu : BodyStart h s u) (ht : BodyStep u t) (f : State → β)
    (hf : ∀ s, f s.outsideDecoder = f s) (hf' : ∀ s, f s.outsideBody = f s) : f t = f s := by
  rw [ht.same f hf', ← hf u, hu.outside, hf s]

/-- The end of a frame (R226 to R228): its pack writes every byte of every sample, and its completion is
`frameDone`. -/
theorem BodyStart.pack (hu : BodyStart h s u) (ht : BodyStep u t) (hready : frameReady h s = true) :
    ∃ (pcm : Memory) (len : Word),
      pack t = .ok () { t with pcm := pcm } ∧
      completeFrame { t with pcm := pcm } = frameDone h s { t with pcm := pcm } len ∧
      ((headerCount h s).toNat * bytesPerFrame s < 2 ^ 32 →
        len.toNat = (headerCount h s).toNat * bytesPerFrame s) ∧
      ∀ i < (headerCount h s).toNat, ∀ x < h.chan.toNat + 1, ∀ j < bytesPerSample s,
        Memory.read pcm (i * bytesPerFrame s + x * bytesPerSample s + j) =
          some ((packedSample t i x >>> (8 * j)).setWidth 8) := by
  obtain ⟨-, -, hlegal, -⟩ := frameReady_iff.mp hready
  obtain ⟨hsize, hchan, hcfg, -⟩ := headerLegal_iff.mp hlegal
  have hn : t.fhN = headerCount h s := (ht.same State.fhN fun _ => rfl).trans hu.count
  have hc : t.fhChan = h.chan := (ht.same State.fhChan fun _ => rfl).trans hu.chan
  have hbuf : t.prm = s.prm := hu.same ht State.prm (fun _ => rfl) fun _ => rfl
  have hcc : t.cfgChannels = s.cfgChannels := hu.same ht State.cfgChannels (fun _ => rfl) fun _ => rfl
  have hok : sampleSizeOk t = sampleSizeOk s := hu.same ht sampleSizeOk (fun _ => rfl) fun _ => rfl
  have hbpf : bytesPerFrame t = bytesPerFrame s := hu.same ht bytesPerFrame (fun _ => rfl) fun _ => rfl
  have hbps : bytesPerSample t = bytesPerSample s := hu.same ht bytesPerSample (fun _ => rfl) fun _ => rfl
  obtain ⟨pcm, hrun, hbytes, -⟩ := pack_runs (s := t) (hok.trans hsize) (hc ▸ hchan) (by rw [hc, hcc]; exact hcfg)
    (by rw [hn, hbuf]; exact headerCount_le_bufSamples hready)
  rw [hn, hbpf, hbps, hcc, ← hcfg] at hbytes
  refine ⟨pcm, t.word32 ((headerCount h s).toNat * bytesPerFrame s), hrun, ?done, t.toNat_word32 _, hbytes⟩
  case done =>
    rw [← hn, ← hbpf, frameDone, ← hn, ← hbpf]
    rfl

end

/-! ## Fields that a bit string writes -/

section
variable {s : State} {bits : List Bool} {count w : Nat}

theorem holdsFields_of_bits (h : holdsBits s bits = true) (hlen : bits.length = count * w) :
    holdsFields s count w = true := by
  simp only [holdsBits, holdsBitsAt, Bool.and_eq_true, decide_eq_true_eq, beq_iff_eq] at h
  rw [holdsFields, ← hlen, h.2, Option.isSome_some, decide_eq_true h.1, Bool.and_self]

/-- A piece of a bit string that the payload holds. -/
theorem holdsBitsAt_slice {p a : Nat} (h : holdsBitsAt s p bits = true) (ha : a + w ≤ bits.length) :
    holdsBitsAt s (p + a) ((bits.drop a).take w) = true := by
  have hcut : bits = bits.take a ++ ((bits.drop a).take w ++ (bits.drop a).drop w) := by
    rw [List.take_append_drop, List.take_append_drop]
  have hskip : (bits.take a).length = a := List.length_take_of_le (by omega)
  rw [hcut, holdsBitsAt_append, holdsBitsAt_append, hskip] at h
  obtain ⟨-, hpiece, -⟩ := h
  exact hpiece

/-- Field j of a bit string that the payload holds (R9, R61). -/
theorem fieldAt_of_bits (h : holdsBits s bits = true) {j : Nat} (hj : j * w + w ≤ bits.length) :
    fieldAt s w j = some (BitVec.ofNat 32 (natOfBits ((bits.drop (j * w)).take w))) := by
  have hlen : ((bits.drop (j * w)).take w).length = w := List.length_take_of_le (by simp; omega)
  have hfield := holdsBitsAt_slice h hj
  simp only [holdsBitsAt, Bool.and_eq_true, beq_iff_eq, hlen] at hfield
  rw [fieldAt, memRead, hfield.2, Option.map_some]

end

/-- One of several blocks of the same length. -/
theorem take_drop_flatMap {α β : Type} {f : α → List β} {k : Nat} (hk : ∀ a, (f a).length = k) {l : List α} {x : Nat}
    {a : α} (ha : l[x]? = some a) : ((l.flatMap f).drop (x * k)).take k = f a := by
  apply List.ext_getElem?
  intro j
  rw [List.getElem?_take]
  split
  · rename_i hj
    rw [List.getElem?_drop, getElem?_flatMap_of_length f hk l x hj, ha, Option.bind_some]
  · rename_i hj
    rw [List.getElem?_eq_none (by rw [hk]; omega)]

/-- A block of a bit string that the payload holds. -/
theorem holdsBitsAt_block {α : Type} {f : α → List Bool} {k : Nat} (hk : ∀ a, (f a).length = k) {s : State} {p : Nat}
    {l : List α} (h : holdsBitsAt s p (l.flatMap f) = true) {x : Nat} {a : α} (ha : l[x]? = some a) :
    holdsBitsAt s (p + x * k) (f a) = true := by
  obtain ⟨hx, -⟩ := List.getElem?_eq_some_iff.mp ha
  have hend : x * k + k ≤ (l.flatMap f).length := by
    simp only [List.length_flatMap, hk, List.map_const', List.sum_replicate, smul_eq_mul, ← Nat.succ_mul]
    exact Nat.mul_le_mul_right k hx
  rw [← take_drop_flatMap hk ha]
  exact holdsBitsAt_slice h hend

/-! ## Bytes of samples -/

/-- Samples of k bytes, one after the other, are read back as their bytes (R64, R69). -/
theorem readBytes_of_samples {m : Memory} {xs : List Word} {k : Nat}
    (h : ∀ (e : Nat) (he : e < xs.length), ∀ j < k, m.read (e * k + j) = some ((xs[e] >>> (8 * j)).setWidth 8)) :
    Memory.readBytes m 0 (xs.length * k) = some (xs.flatMap (sampleBytes k)) := by
  have hlen : (xs.flatMap (sampleBytes k)).length = xs.length * k := by
    simp [List.length_flatMap]
  rw [← hlen]
  refine Memory.readBytes_eq m _ 0 fun i hi => ?_
  have hinside : i < xs.length * k := hlen ▸ hi
  have hk : 0 < k := Nat.pos_of_ne_zero fun h0 => by simp [h0] at hinside
  have he : i / k < xs.length := (Nat.div_lt_iff_lt_mul hk).mpr hinside
  have hj : i % k < k := Nat.mod_lt i hk
  have hbyte := getElem?_flatMap_of_length (sampleBytes k) (length_sampleBytes k) xs (i / k) hj
  rw [Nat.div_add_mod', List.getElem?_eq_getElem hi, List.getElem?_eq_getElem he, Option.bind_some] at hbyte
  have hread := h (i / k) he (i % k) hj
  rw [Nat.div_add_mod'] at hread
  rw [Nat.zero_add, hread, hbyte]
  simp [sampleBytes, hj]

/-- Sign extension keeps the bytes below its width (R10). -/
theorem byte_of_sext {w j : Nat} (hw : w ≤ 32) (hj : 8 * j + 8 ≤ w) (v : Word) :
    ((sext w v) >>> (8 * j)).setWidth 8 = (v >>> (8 * j)).setWidth 8 := by
  rw [sext_in w v ⟨by omega, hw⟩]
  apply BitVec.eq_of_getLsbD_eq
  intro i hi
  have h1 : 8 * j + i < 32 := by omega
  have h2 : 8 * j + i < w := by omega
  simp only [BitVec.getLsbD_setWidth, BitVec.getLsbD_ushiftRight, BitVec.getLsbD_signExtend, hi, h1, h2, decide_true,
    Bool.true_and, if_true]

/-- The sign extension of a field is that of the number written in it (R9, R68). -/
theorem sext_ofNat_mod {w : Nat} (hw : 1 ≤ w ∧ w ≤ 32) (x : Word) :
    sext w (BitVec.ofNat 32 (x.toNat % 2 ^ w)) = sext w x := by
  have hlow : (BitVec.ofNat 32 (x.toNat % 2 ^ w)).setWidth w = x.setWidth w := by
    apply BitVec.eq_of_toNat_eq
    have hlt : x.toNat % 2 ^ w < 2 ^ 32 := (Nat.mod_le ..).trans_lt x.isLt
    rw [BitVec.toNat_setWidth, BitVec.toNat_ofNat, Nat.mod_eq_of_lt hlt, Nat.mod_mod, BitVec.toNat_setWidth]
  rw [sext_in _ _ hw, sext_in _ _ hw, hlow]

end Sys2Proof.Machine

/-! SUPPORT. For O27: uncompressed frames (R223, R232, R234). -/

namespace Sys2Proof.Machine

/-- Where LEFTWEIGHT is 0, the output channels are those of OUT (R225, R230). -/
theorem deinterlace_direct {s : State} (hweight : s.fhLeftWeight = 0) (hbuf : s.fhN.toNat ≤ s.prm.bufSamples) :
    ∃ l r : File 32, deinterlace s = .ok () { s with mixL := l, mixR := r } ∧
      ∀ i < s.fhN.toNat, ∀ x < outputCount s,
        outputSample { s with mixL := l, mixR := r } i x =
          File.read (if x = 0 then s.chA.out else s.chB.out) i := by
  by_cases hmono : s.fhChan = 0
  · refine ⟨s.mixL, s.mixR, if_pos hmono, fun i _ x hx => ?_⟩
    have hx0 : x = 0 := by rw [outputCount, if_pos hmono] at hx; omega
    rw [hx0, if_pos rfl]
    exact if_pos hmono
  · obtain ⟨l, r, hrun, hmixed, -⟩ := mixDirect_runs s.fhShift hmono hbuf
    refine ⟨l, r, by rw [deinterlace, if_neg hmono, if_pos hweight, hrun], fun i hi x _ => ?_⟩
    obtain ⟨hl, hr⟩ := hmixed i hi
    rw [outputSample, if_neg hmono]
    split
    · exact hl
    · exact hr

section
variable {h : HeaderFields} {s : State} {xs : List Word}

/-! ## The samples -/

/-- The state in which the samples of an uncompressed frame are read (R223). -/
def uncompressedState (h : HeaderFields) (s : State) : State :=
  { headerState h s with fhUb := 0, fhShift := 0, fhLeftWeight := 0, fhRss := s.cfgSampleSize.setWidth 6 }

theorem verbatimBody_headerState : verbatimBody (headerState h s) = verbatim (uncompressedState h s) := rfl

theorem pos_uncompressedState : (uncompressedState h s).pos = bodyStart h := pos_headerState (h := h) (s := s)

theorem holdsBits_uncompressedState {bits : List Bool} (hbits : holdsBitsAt s 0 (encodeHeader h ++ bits) = true) :
    holdsBits (uncompressedState h s) bits = true := by
  obtain ⟨-, hbody⟩ := holdsBitsAt_header_append hbits
  rw [holdsBits, pos_uncompressedState]
  exact holdsBitsAt_congr rfl rfl hbody

theorem length_flatMap_verbatimBits : (xs.flatMap (verbatimBits s)).length = xs.length * s.cfgSampleSize.toNat := by
  simp [List.length_flatMap, verbatimBits]

theorem sampleSize_range (hsize : sampleSizeOk s = true) : 1 ≤ s.cfgSampleSize.toNat ∧ s.cfgSampleSize.toNat ≤ 32 := by
  rcases sampleSizeOk_iff.mp hsize with h | h <;> rw [h] <;> decide

/-- Field e of the samples, sign-extended, is sample e (R68, R223). -/
theorem sext_fieldAt_verbatim (hsize : sampleSizeOk s = true)
    (hbits : holdsBits s (xs.flatMap (verbatimBits s)) = true) {e : Nat} (he : e < xs.length) :
    (fieldAt s s.cfgSampleSize.toNat e).map (sext s.cfgSampleSize.toNat) = some (sext s.cfgSampleSize.toNat xs[e]) := by
  have hend : e * s.cfgSampleSize.toNat + s.cfgSampleSize.toNat ≤ (xs.flatMap (verbatimBits s)).length := by
    rw [length_flatMap_verbatimBits, ← Nat.succ_mul]
    exact Nat.mul_le_mul_right _ he
  have hblock : ∀ x, (verbatimBits s x).length = s.cfgSampleSize.toNat := fun x => length_bitsOfNat ..
  rw [fieldAt_of_bits hbits hend, take_drop_flatMap hblock (List.getElem?_eq_getElem he), Option.map_some,
    verbatimBits, natOfBits_bitsOfNat, sext_ofNat_mod (sampleSize_range hsize)]

/-- The body of an uncompressed frame: every sample in its place of OUT, the cursor behind the last (R223). -/
theorem verbatimBody_of_bits (hready : frameReady h s = true)
    (hlen : xs.length = (headerCount h s).toNat * (h.chan.toNat + 1))
    (hbits : holdsBitsAt s 0 (encodeHeader h ++ xs.flatMap (verbatimBits s)) = true) :
    ∃ outA outB : File 32,
      verbatimBody (headerState h s) =
        .ok () ((uncompressedState h s).withChans (bodyStart h + xs.length * s.cfgSampleSize.toNat)
          { s.chA with out := outA } { s.chB with out := outB }) ∧
      ∀ i < (headerCount h s).toNat, ∀ x < h.chan.toNat + 1,
        some (File.read (if x = 0 then outA else outB) i) =
          xs[i * (h.chan.toNat + 1) + x]?.map (sext s.cfgSampleSize.toNat) := by
  obtain ⟨-, -, hlegal, -⟩ := frameReady_iff.mp hready
  obtain ⟨hsize, hchan, -, -⟩ := headerLegal_iff.mp hlegal
  have hnch : (channels (uncompressedState h s)).length = h.chan.toNat + 1 := channels_length hchan rfl
  have hheld : holdsBits (uncompressedState h s) (xs.flatMap (verbatimBits (uncompressedState h s))) = true :=
    holdsBits_uncompressedState hbits
  have hfields : holdsFields (uncompressedState h s)
      ((headerCount h s).toNat * (channels (uncompressedState h s)).length) s.cfgSampleSize.toNat = true := by
    rw [hnch, ← hlen]
    exact holdsFields_of_bits hheld length_flatMap_verbatimBits
  obtain ⟨outA, outB, hrun, hA, -, hB, -⟩ :=
    verbatim_runs (s := uncompressedState h s) hsize (headerCount_le_bufSamples hready) hfields
  refine ⟨outA, outB, ?run, fun i hi x hx => ?read⟩
  case run =>
    rw [hnch] at hrun
    rw [verbatimBody_headerState, hrun, pos_uncompressedState, hlen]
    rfl
  case read =>
    have he : i * (h.chan.toNat + 1) + x < xs.length := by
      rw [hlen]
      calc i * (h.chan.toNat + 1) + x < (i + 1) * (h.chan.toNat + 1) := by rw [Nat.succ_mul]; omega
        _ ≤ _ := Nat.mul_le_mul_right _ hi
    have hfield := sext_fieldAt_verbatim (s := uncompressedState h s) hsize hheld he
    rw [List.getElem?_eq_getElem he, Option.map_some]
    refine Eq.trans ?_ hfield
    by_cases hx0 : x = 0
    · subst hx0
      rw [if_pos rfl, hA i hi, hnch]
      rfl
    · have hstereo : (uncompressedState h s).fhChan ≠ 0 := by
        intro h0
        have h0' : h.chan.toNat = 0 := congrArg BitVec.toNat h0
        omega
      have hx1 : x = 1 := by omega
      subst hx1
      rw [if_neg hx0, hB hstereo i hi, hnch]

/-! ## The frame -/

/-- The kind of an uncompressed frame (R91, R95). -/
theorem uncompressed_kind (hchan : h.chan.toNat ≤ 1) (hcf : h.cf = 1) :
    ∃ kind : FrameKind, h.chan = kind.chan ∧ h.cf = kind.cf ∧ kindBody kind = verbatimBody ∧
      exec (if h.chan = 0 then .fdMonoU else .fdStereoU) s = admitFrame s (frameOfKind kind s).answer := by
  by_cases hmono : h.chan = 0
  · exact ⟨.monoU, hmono, hcf, rfl, by rw [if_pos hmono]; rfl⟩
  · have hne : h.chan.toNat ≠ 0 := fun h0 => hmono (BitVec.eq_of_toNat_eq h0)
    have hone : h.chan = 1 := BitVec.eq_of_toNat_eq (show h.chan.toNat = 1 by omega)
    exact ⟨.stereoU, hone, hcf, rfl, by rw [if_neg hmono]; rfl⟩

theorem bodyStart_uncompressedState : BodyStart h s (uncompressedState h s) := ⟨rfl, rfl, rfl, rfl⟩

/-- The samples are a whole number of bytes: BPS of them for each channel of each frame (R64). -/
theorem length_mul_bytesPerSample (hlegal : headerLegal h s = true)
    (hlen : xs.length = (headerCount h s).toNat * (h.chan.toNat + 1)) :
    xs.length * bytesPerSample s = (headerCount h s).toNat * bytesPerFrame s := by
  obtain ⟨hsize, -, hcfg, -⟩ := headerLegal_iff.mp hlegal
  rw [bytesPerFrame_eq hsize, ← hcfg, hlen, Nat.mul_assoc]

/-- A frame whose output channels are the samples, sign-extended, has their bytes as its PCM (R66, R226, R227). -/
theorem readBytes_of_outputs (hlegal : headerLegal h s = true)
    (hlen : xs.length = (headerCount h s).toNat * (h.chan.toNat + 1)) {m : Memory} {y : Nat → Nat → Word}
    (hy : ∀ i < (headerCount h s).toNat, ∀ x < h.chan.toNat + 1,
      some (y i x) = xs[i * (h.chan.toNat + 1) + x]?.map (sext s.cfgSampleSize.toNat))
    (hm : ∀ i < (headerCount h s).toNat, ∀ x < h.chan.toNat + 1, ∀ j < bytesPerSample s,
      Memory.read m (i * bytesPerFrame s + x * bytesPerSample s + j) = some ((y i x >>> (8 * j)).setWidth 8)) :
    Memory.readBytes m 0 ((headerCount h s).toNat * bytesPerFrame s) = some (xs.flatMap (pcmSample s)) := by
  obtain ⟨hsize, -, hcfg, -⟩ := headerLegal_iff.mp hlegal
  rw [← length_mul_bytesPerSample hlegal hlen]
  refine readBytes_of_samples fun e he j hj => ?_
  have hi : e / (h.chan.toNat + 1) < (headerCount h s).toNat :=
    (Nat.div_lt_iff_lt_mul (Nat.succ_pos _)).mpr (hlen ▸ he)
  have hx : e % (h.chan.toNat + 1) < h.chan.toNat + 1 := Nat.mod_lt _ (Nat.succ_pos _)
  have haddr : e / (h.chan.toNat + 1) * bytesPerFrame s + e % (h.chan.toNat + 1) * bytesPerSample s =
      e * bytesPerSample s := by
    rw [bytesPerFrame_eq hsize, ← hcfg, ← Nat.mul_assoc, ← Nat.add_mul, Nat.div_add_mod']
  have hsample := hy _ hi _ hx
  rw [Nat.div_add_mod', List.getElem?_eq_getElem he, Option.map_some, Option.some.injEq] at hsample
  have hwidth : 8 * j + 8 ≤ s.cfgSampleSize.toNat := by
    rw [bytesPerSample] at hj
    omega
  rw [← haddr, hm _ hi _ hx j hj, hsample, byte_of_sext (sampleSize_range hsize).2 hwidth]

end

/-! ## The obligation -/

/-- Settles O27: the samples stand in OUT sign-extended, which keeps their bytes; the pack puts these in order. -/
theorem uncompressedFrames : Obligations.UncompressedFrames := by
  intro h xs s hready hcf hlen hbits
  obtain ⟨-, -, hlegal, -⟩ := frameReady_iff.mp hready
  obtain ⟨-, hchan, -, -⟩ := headerLegal_iff.mp hlegal
  obtain ⟨hheader, hsamples⟩ := holdsBitsAt_header_append hbits
  obtain ⟨kind, hkchan, hkcf, hkbody, hexec⟩ := uncompressed_kind (s := s) hchan hcf
  obtain ⟨outA, outB, hbody, hout⟩ := verbatimBody_of_bits hready hlen hbits
  let s1 := (uncompressedState h s).withChans (bodyStart h + xs.length * s.cfgSampleSize.toNat)
    { s.chA with out := outA } { s.chB with out := outB }
  obtain ⟨l, r, hmix, hmixed⟩ := deinterlace_direct (s := s1) rfl (headerCount_le_bufSamples hready)
  let s2 : State := { s1 with mixL := l, mixR := r }
  have hstart := bodyStart_uncompressedState (h := h) (s := s)
  have hstep : BodyStep (uncompressedState h s) s2 := rfl
  have hkept := hstart.kept hstep
  obtain ⟨pcm, len, hpack, hdone, hpcmLen, hbytes⟩ := hstart.pack hstep hready
  have hrun := frameBody_of_steps (kind := kind) (by rw [hkbody]; exact hbody) hmix hpack
  refine ⟨frameDone h s { s2 with pcm := pcm } len, ?exec, rfl, hpcmLen, ?bytes, ?pos, rfl, rfl, rfl, rfl, hkept⟩
  case exec => rw [hexec, admitFrame_of_header hready hheader hkchan hkcf, hrun, Res.answer_ok, hdone]
  case pos =>
    have hend : bodyStart h + xs.length * s.cfgSampleSize.toNat ≤ 8 * s.bcLen.toNat := by
      simp only [holdsBitsAt, Bool.and_eq_true, decide_eq_true_eq, length_flatMap_verbatimBits] at hsamples
      exact hsamples.1
    have hpos : s1.pos = bodyStart h + xs.length * s.cfgSampleSize.toNat := State.withChans_pos _ _ _ _ hend
    exact hpos
  case bytes =>
    refine readBytes_of_outputs hlegal hlen hout fun i hi x hx j hj => ?_
    have hcount : outputCount s1 = h.chan.toNat + 1 := outputCount_of_chan hchan rfl
    have hpacked : packedSample s2 i x = File.read (if x = 0 then outA else outB) i :=
      (if_pos (.inl rfl)).trans (hmixed i hi x (hcount ▸ hx))
    rw [← hpacked]
    exact hbytes i hi x hx j hj

end Sys2Proof.Machine

/-! SUPPORT. For O21: FD.CHHDR (R98, R218, R324). -/

namespace Sys2Proof.Machine

theorem exec_fdChhdr (c : Chan) (s : State) : exec (.fdChhdr c) s = (channelHeader c s).answer := rfl

/-! ## The coefficient table (R106 (b), R218) -/

/-- A loop that writes the entries of a coefficient file from 0 on. -/
theorem coefGet_forN_coefSet (g : Nat → Word) (coef : Vector Word 31) {n : Nat} (hn : n ≤ 31) (k : Nat) :
    coefGet (forN n (fun j f => coefSet f j (g j)) coef) k = if k < n then g k else coefGet coef k := by
  induction n with
  | zero => rfl
  | succ n ih =>
    rw [forN_succ]
    by_cases hk : k = n
    · subst hk
      rw [coefGet_coefSet_same _ _ (by omega), if_pos k.lt_succ_self]
    · have hlt : k < n + 1 ↔ k < n := by omega
      rw [coefGet_coefSet_other _ _ hk, ih (by omega)]
      simp only [hlt]

section
variable {c : Chan} {s : State} {p : Nat} {r : ChanRegs} {coefs : List (BitVec 16)}

/-- A field is read past writes to a channel's registers (R131). -/
theorem readBits_field_setChan {w : Nat} {v : BitVec w} (h1 : 1 ≤ w) (h32 : w ≤ 32)
    (h : holdsBitsAt s p (bitsOfNat w v.toNat) = true) :
    readBits w ((s.setPos p).setChan c r) = .ok (v.setWidth 32) ((s.setPos (p + w)).setChan c r) := by
  have hend : p ≤ 8 * s.bcLen.toNat := by
    simp only [holdsBitsAt, Bool.and_eq_true, decide_eq_true_eq] at h
    omega
  have hread := readBits_field (s := (s.setPos p).setChan c r) h1 h32
    ((State.setChan_pos ..).trans (pos_setPos_of_le_end hend)) (holdsBitsAt_congr (by simp) (by simp) h)
  rwa [State.setPos_setChan, State.setPos_setPos] at hread

/-- Coefficient j of a table, sign-extended (R218). -/
def coefWord (coefs : List (BitVec 16)) (j : Nat) : Word := (coefs[j]?.getD 0).signExtend 32

/-- The coefficients of a table, one after the other. -/
theorem readCoefs_of_bits (hbits : holdsBitsAt s p (coefs.flatMap fun v => bitsOfNat 16 v.toNat) = true) {n : Nat}
    (hn : n ≤ coefs.length) :
    forRes n (readCoef c) ((s.setPos p).setChan c r) =
      .ok () ((s.setPos (p + n * 16)).setChan c
        { r with coef := forN n (fun j f => coefSet f j (coefWord coefs j)) r.coef }) := by
  induction n with
  | zero => simp
  | succ n ih =>
    have hget : coefs[n]? = some coefs[n] := List.getElem?_eq_getElem (by omega)
    have hfield : holdsBitsAt s (p + n * 16) (bitsOfNat 16 coefs[n].toNat) = true :=
      holdsBitsAt_block (fun _ => length_bitsOfNat ..) hbits hget
    have hvalue : sext 16 (coefs[n].setWidth 32) = coefWord coefs n := by
      rw [sext_in _ _ (by decide), setWidth_setWidth_32 (by decide), coefWord, hget, Option.getD_some]
    rw [forRes_succ, ih (by omega), Res.bind_ok, readCoef, readBits_field_setChan (by decide) (by decide) hfield,
      Res.bind_ok, hvalue, State.chan_setChan, State.setChan_setChan, forN_succ, Nat.succ_mul, Nat.add_assoc]

/-- QUANT, RICEMOD, ORDER and the coefficient table (R218). -/
theorem readTable_of_bits {quant : BitVec 4} {riceMod : BitVec 3} {order : BitVec 5}
    (hlen : coefs.length = order.toNat)
    (hbits : holdsBitsAt s p (bitsOfNat 4 quant.toNat ++ (bitsOfNat 3 riceMod.toNat ++ (bitsOfNat 5 order.toNat ++
      coefs.flatMap fun v => bitsOfNat 16 v.toNat))) = true) :
    readTable c ((s.setPos p).setChan c r) =
      .ok () ((s.setPos (p + 4 + 3 + 5 + order.toNat * 16)).setChan c
        { r with
          quant := quant, riceMod := riceMod, order := order
          coef := forN order.toNat (fun j f => coefSet f j (coefWord coefs j)) r.coef }) := by
  simp only [holdsBitsAt_append, length_bitsOfNat] at hbits
  obtain ⟨hquant, hriceMod, horder, hcoefs⟩ := hbits
  have hcount : (order.setWidth 32).toNat = order.toNat := BitVec.toNat_setWidth_of_le (by decide)
  rw [readTable, readBits_field_setChan (by decide) (by decide) hquant, Res.bind_ok, State.chan_setChan,
    State.setChan_setChan, readBits_field_setChan (by decide) (by decide) hriceMod, Res.bind_ok, State.chan_setChan,
    State.setChan_setChan, readBits_field_setChan (by decide) (by decide) horder, Res.bind_ok, State.chan_setChan,
    State.setChan_setChan, hcount, readCoefs_of_bits hcoefs hlen.ge]
  simp only [setWidth_setWidth_32 (by decide : 4 ≤ 32), setWidth_setWidth_32 (by decide : 3 ≤ 32),
    setWidth_setWidth_32 (by decide : 5 ≤ 32)]

/-! ## The header -/

/-- The first four bits are the type, whatever it is (R218). -/
theorem readType_of_bits {ptype : BitVec 4} (hbits : holdsBits s (bitsOfNat 4 ptype.toNat) = true) :
    channelHeader c s =
      if ptype.setWidth 32 ≠ (0 : Word) then
        raise .unsupportedPredictionType (ptype.setWidth 32)
          ((s.setPos (s.pos + 4)).setChan c { s.chan c with ptype := ptype })
      else readTable c ((s.setPos (s.pos + 4)).setChan c { s.chan c with ptype := ptype }) := by
  rw [channelHeader, readBits_field (v := ptype) (by decide) (by decide) rfl hbits, Res.bind_ok, State.chan_setPos]
  simp only [setWidth_setWidth_32 (by decide : 4 ≤ 32)]

/-- A channel header of type 0 with its coefficients (R218). -/
theorem channelHeader_of_bits {quant : BitVec 4} {riceMod : BitVec 3} {order : BitVec 5}
    (hlen : coefs.length = order.toNat) (hbits : holdsBits s (encodeChhdr 0 quant riceMod order coefs) = true) :
    channelHeader c s =
      .ok () ((s.setPos (s.pos + (16 + 16 * order.toNat))).setChan c
        { s.chan c with
          ptype := 0, quant := quant, riceMod := riceMod, order := order
          coef := forN order.toNat (fun j f => coefSet f j (coefWord coefs j)) (s.chan c).coef }) := by
  obtain ⟨htype, htable⟩ := holdsBitsAt_append.mp hbits
  rw [length_bitsOfNat] at htable
  have hend : s.pos + 4 + 4 + 3 + 5 + order.toNat * 16 = s.pos + (16 + 16 * order.toNat) := by omega
  rw [readType_of_bits (ptype := 0) htype, if_neg (by decide), readTable_of_bits hlen htable, hend]

end

/-! ## The obligation -/

/-- Settles O21: the type's four bits say whether the table is read; the table is read by `readTable_of_bits`. -/
theorem fdChhdrRule : Obligations.FdChhdrRule := by
  intro c s
  refine ⟨fun quant riceMod order coefs hlen hbits => ?header, fun ptype hready htype hbits => ?otherType,
    fun hready hend => ?truncated⟩
  case header =>
    have hmax : order.toNat ≤ 31 := Nat.le_of_lt_succ order.isLt
    refine ⟨_, by rw [exec_fdChhdr, channelHeader_of_bits hlen hbits, Res.answer_ok], fun j hj => ?read,
      fun j hj => ?kept⟩
    case read =>
      rw [coefGet_forN_coefSet _ _ hmax, if_pos (hlen ▸ hj), coefWord, List.getElem?_eq_getElem hj, Option.getD_some]
    case kept => rw [coefGet_forN_coefSet _ _ hmax, if_neg (by omega)]
  case otherType =>
    have hne : ptype.setWidth 32 ≠ (0 : Word) := fun h0 => htype (by
      rw [← setWidth_setWidth_32 (by decide : 4 ≤ 32) ptype, h0]
      rfl)
    rw [exec_fdChhdr, readType_of_bits hbits, if_pos hne, raise_faultReady _ _ _ (by cases c <;> exact hready)]
    rfl
  case truncated =>
    obtain ⟨info, hinfo, hread⟩ := readBits_truncated (n := 4) (by decide) (by decide) hready hend
    exact ⟨info, hinfo, by rw [exec_fdChhdr, channelHeader, hread]; rfl⟩

end Sys2Proof.Machine

/-! SUPPORT. For O28 to O30: compressed frames up to their mix fields (R217, R219), and where they raise. -/

namespace Sys2Proof.Machine

section
variable {h : HeaderFields} {s : State}

/-! ## UB and the read sample size (R217) -/

theorem ubLegal_iff : ubLegal h s = true ↔ h.ub = 0 ∨ (s.cfgSampleSize = 24 ∧ h.ub.toNat ≤ 2) := by
  simp only [ubLegal, Bool.or_eq_true, Bool.and_eq_true, beq_iff_eq, decide_eq_true_eq]

/-- The state after UB is tested (R217). -/
def rssState (h : HeaderFields) (s : State) : State :=
  { headerState h s with fhRss := BitVec.ofNat 6 (readSize h s) }

theorem checkUb_legal (hub : ubLegal h s = true) : checkUb (headerState h s) = .ok () (rssState h s) := by
  have hok : ¬ (h.ub ≠ 0 ∧ ¬ (s.cfgSampleSize = 24 ∧ h.ub.toNat ≤ 2)) := by
    rw [ubLegal_iff] at hub
    tauto
  exact if_neg hok

theorem checkUb_illegal (hready : faultReady s = true) (hub : ubLegal h s = false) :
    checkUb (headerState h s) = .raised (afterFault 5 2 (headerState h s)) := by
  have hbad : h.ub ≠ 0 ∧ ¬ (s.cfgSampleSize = 24 ∧ h.ub.toNat ≤ 2) := by
    rwa [← Bool.not_eq_true, ubLegal_iff, not_or] at hub
  exact (if_pos hbad).trans (raise_faultReady _ _ _ hready)

/-! ## The mix fields (R219) -/

theorem pos_rssState : (rssState h s).pos = bodyStart h := pos_headerState (h := h) (s := s)

theorem bodyStart_le : bodyStart h ≤ 55 := by
  unfold bodyStart
  split <;> decide

theorem bodyStart_add_lt {n : Nat} (hn : n ≤ 16) : bodyStart h + n < 2 ^ 32 := by
  have := bodyStart_le (h := h)
  omega

/-- The state after SHIFT (R219). -/
def shiftState (h : HeaderFields) (shift : BitVec 8) (s : State) : State :=
  { (rssState h s).setPos (bodyStart h + 8) with fhShift := shift }

theorem pos_shiftState (shift : BitVec 8) : (shiftState h shift s).pos = bodyStart h + 8 :=
  pos_eq_of_cursor ((bodyStart_add_lt (by decide)).trans (by decide)) rfl rfl

theorem pos_mixState (shift weight : BitVec 8) : (mixState h shift weight s).pos = bodyStart h + 16 :=
  pos_eq_of_cursor ((bodyStart_add_lt (by decide)).trans (by decide)) rfl rfl

theorem shiftState_payload (shift : BitVec 8) : (shiftState h shift s).payload = s.payload := by
  simp [shiftState, rssState, headerState]

theorem shiftState_bcLen (shift : BitVec 8) : (shiftState h shift s).bcLen = s.bcLen := by
  simp [shiftState, rssState, headerState]

theorem shiftState_faultReady (shift : BitVec 8) : faultReady (shiftState h shift s) = faultReady s := by
  simp [faultReady, shiftState, rssState, headerState]

theorem mixState_faultReady (shift weight : BitVec 8) : faultReady (mixState h shift weight s) = faultReady s := by
  simp [faultReady, mixState, headerState]

/-- The mix fields are read into the state that UB's test leaves (R219). -/
theorem mixState_eq (shift weight : BitVec 8) :
    { (rssState h s).setPos (bodyStart h + 16) with fhShift := shift, fhLeftWeight := weight } =
      mixState h shift weight s := by
  simp [mixState, rssState]

/-- The 16 ignored bits of a mono frame (R219). -/
theorem readMix_mono (hchan : h.chan = 0) {ignored : BitVec 16}
    (hbits : holdsBitsAt s (bodyStart h) (bitsOfNat 16 ignored.toNat) = true) :
    readMix (rssState h s) = .ok () (mixState h 0 0 s) := by
  have hmono : (rssState h s).fhChan = 0 := hchan
  rw [readMix, if_pos hmono, Config.monoMixRsvd, if_pos rfl,
    readBits_field (v := ignored) (by decide) (by decide) pos_rssState (holdsBitsAt_congr rfl rfl hbits), Res.bind_ok,
    ← mixState_eq]

theorem readMix_mono_truncated (hready : faultReady s = true) (hchan : h.chan = 0)
    (hend : 8 * s.bcLen.toNat < bodyStart h + 16) :
    readMix (rssState h s) = .raised (afterFault 1 (BitVec.ofNat 32 (bodyStart h)) (rssState h s)) := by
  have hmono : (rssState h s).fhChan = 0 := hchan
  rw [readMix, if_pos hmono, Config.monoMixRsvd, if_pos rfl,
    readBits_truncated_at (s := rssState h s) (n := 16) (by decide) (by decide) hready pos_rssState
      (bodyStart_add_lt (n := 0) (by decide)) hend]
  rfl

theorem rssState_fhChan_ne_zero (hchan : h.chan = 1) : (rssState h s).fhChan ≠ 0 := by
  have hone : (rssState h s).fhChan = 1 := hchan
  rw [hone]
  decide

/-- SHIFT of a stereo frame, and what comes after it (R219). -/
theorem readMix_of_shift (hchan : h.chan = 1) {shift : BitVec 8}
    (hbits : holdsBitsAt s (bodyStart h) (bitsOfNat 8 shift.toNat) = true) :
    readMix (rssState h s) =
      (readBits 8 (shiftState h shift s)).bind fun weight s2 =>
        if weight ≠ 0 ∧ 31 < shift.toNat then raiseMalformed .mixShift { s2 with fhLeftWeight := weight.setWidth 8 }
        else .ok () { s2 with fhLeftWeight := weight.setWidth 8 } := by
  have hvalue : (shift.setWidth 32).toNat = shift.toNat := BitVec.toNat_setWidth_of_le (by decide)
  rw [readMix, if_neg (rssState_fhChan_ne_zero hchan),
    readBits_field (v := shift) (by decide) (by decide) pos_rssState (holdsBitsAt_congr rfl rfl hbits), Res.bind_ok,
    setWidth_setWidth_32 (by decide)]
  simp only [hvalue]
  rfl

theorem readMix_stereo (hchan : h.chan = 1) {shift weight : BitVec 8}
    (hbits : holdsBitsAt s (bodyStart h) (bitsOfNat 8 shift.toNat ++ bitsOfNat 8 weight.toNat) = true) :
    readMix (rssState h s) =
      if weight ≠ 0 ∧ 31 < shift.toNat then raiseMalformed .mixShift (mixState h shift weight s)
      else .ok () (mixState h shift weight s) := by
  rw [holdsBitsAt_append, length_bitsOfNat] at hbits
  obtain ⟨hshift, hweight⟩ := hbits
  have hzero : weight.setWidth 32 ≠ (0 : Word) ↔ weight ≠ 0 := by
    refine not_congr ⟨fun h0 => ?_, fun h0 => by rw [h0]; rfl⟩
    rw [← setWidth_setWidth_32 (by decide : 8 ≤ 32) weight, h0]
    rfl
  rw [readMix_of_shift hchan hshift,
    readBits_field (v := weight) (s := shiftState h shift s) (by decide) (by decide) (pos_shiftState shift)
      (holdsBitsAt_congr (shiftState_payload shift) (shiftState_bcLen shift) hweight),
    Res.bind_ok, setWidth_setWidth_32 (by decide), ← mixState_eq]
  simp only [hzero]
  rfl

theorem readMix_shift_truncated (hready : faultReady s = true) (hchan : h.chan = 1)
    (hend : 8 * s.bcLen.toNat < bodyStart h + 8) :
    readMix (rssState h s) = .raised (afterFault 1 (BitVec.ofNat 32 (bodyStart h)) (rssState h s)) := by
  rw [readMix, if_neg (rssState_fhChan_ne_zero hchan), readBits_truncated_at (s := rssState h s) (n := 8) (by decide)
    (by decide) hready pos_rssState (bodyStart_add_lt (n := 0) (by decide)) hend, Res.bind_raised]

theorem readMix_weight_truncated (hready : faultReady s = true) (hchan : h.chan = 1) {shift : BitVec 8}
    (hbits : holdsBitsAt s (bodyStart h) (bitsOfNat 8 shift.toNat) = true)
    (hend : 8 * s.bcLen.toNat < bodyStart h + 16) :
    readMix (rssState h s) = .raised (afterFault 1 (BitVec.ofNat 32 (bodyStart h + 8)) (shiftState h shift s)) := by
  rw [readMix_of_shift hchan hbits, readBits_truncated_at (n := 8) (by decide) (by decide)
    ((shiftState_faultReady shift).trans hready) (pos_shiftState shift) (bodyStart_add_lt (by decide))
    (by rwa [shiftState_bcLen]), Res.bind_raised]

/-! ## The body up to the mix fields -/

/-- What follows the mix fields (R210, R218 to R222). -/
def channelsBody (s : State) : Res Unit :=
  (eachChan (channels s) channelHeader s).bind fun _ s1 =>
  (rawLow s1).bind fun _ s2 => eachChan (channels s2) decodeChannel s2

theorem compressedBody_eq (s : State) :
    compressedBody s = (checkUb s).bind fun _ s1 => (readMix s1).bind fun _ s2 => channelsBody s2 := rfl

theorem compressedBody_of_mix (hub : ubLegal h s = true) {t : State} (hmix : readMix (rssState h s) = .ok () t) :
    compressedBody (headerState h s) = channelsBody t := by
  rw [compressedBody_eq, checkUb_legal hub, Res.bind_ok, hmix, Res.bind_ok]

/-- A body that raises, raises for the whole frame. -/
theorem frameBody_of_raised {kind : FrameKind} {s1 t : State} (hbody : kindBody kind s1 = .raised t) :
    frameBody kind s1 = .raised t := by
  rw [frameBody, hbody, Res.bind_raised]

theorem compressedBody_of_mix_raised (hub : ubLegal h s = true) {t : State}
    (hmix : readMix (rssState h s) = .raised t) : compressedBody (headerState h s) = .raised t := by
  rw [compressedBody_eq, checkUb_legal hub, Res.bind_ok, hmix, Res.bind_raised]

theorem exec_fdMonoC (hready : frameReady h s = true) (hbits : holdsBitsAt s 0 (encodeHeader h) = true)
    (hchan : h.chan = 0) (hcf : h.cf = 0) :
    exec .fdMonoC s = (frameBody .monoC (headerState h s)).answer := admitFrame_of_header hready hbits hchan hcf

theorem exec_fdStereoC (hready : frameReady h s = true) (hbits : holdsBitsAt s 0 (encodeHeader h) = true)
    (hchan : h.chan = 1) (hcf : h.cf = 0) :
    exec .fdStereoC s = (frameBody .stereoC (headerState h s)).answer := admitFrame_of_header hready hbits hchan hcf

section
variable {t : State} (hready : frameReady h s = true) (hbits : holdsBitsAt s 0 (encodeHeader h) = true)
  (hcf : h.cf = 0) (hbody : compressedBody (headerState h s) = .raised t)
include hready hbits hcf hbody

theorem exec_fdMonoC_of_raised (hchan : h.chan = 0) : exec .fdMonoC s = .next t := by
  rw [exec_fdMonoC hready hbits hchan hcf, frameBody_of_raised (kind := .monoC) hbody, Res.answer_raised]

theorem exec_fdStereoC_of_raised (hchan : h.chan = 1) : exec .fdStereoC s = .next t := by
  rw [exec_fdStereoC hready hbits hchan hcf, frameBody_of_raised (kind := .stereoC) hbody, Res.answer_raised]

end

theorem chan_zero_or_one (hlegal : headerLegal h s = true) : h.chan = 0 ∨ h.chan = 1 := by
  obtain ⟨-, hchan, -, -⟩ := headerLegal_iff.mp hlegal
  rcases Nat.le_one_iff_eq_zero_or_eq_one.mp hchan with h0 | h1
  · exact .inl (BitVec.eq_of_toNat_eq h0)
  · exact .inr (BitVec.eq_of_toNat_eq h1)

end

/-! ## The obligation -/

/-- Settles O30: the header is read, then UB or a mix field raises. -/
theorem compressedFrameTraps : Obligations.CompressedFrameTraps := by
  intro h s hready hcf read
  obtain ⟨hfault, -, hlegal, -⟩ := frameReady_iff.mp hready
  refine ⟨fun hub hbits => ?badUb, fun hub hbits hchan hend => ?mono, fun hub hbits hchan hend => ?shift,
    fun shift hub hbits hchan hend => ?weight, fun shift weight hub hchan hshift hweight hbits => ?badShift⟩
  case badUb =>
    have hbody : compressedBody (headerState h s) = .raised (afterFault 5 2 (headerState h s)) := by
      rw [compressedBody_eq, checkUb_illegal hfault hub, Res.bind_raised]
    rcases chan_zero_or_one hlegal with hchan | hchan
    · rw [if_pos hchan, exec_fdMonoC_of_raised hready hbits hcf hbody hchan]
    · rw [if_neg (by rw [hchan]; decide), exec_fdStereoC_of_raised hready hbits hcf hbody hchan]
  case mono =>
    exact exec_fdMonoC_of_raised hready hbits hcf
      (compressedBody_of_mix_raised hub (readMix_mono_truncated hfault hchan hend)) hchan
  case shift =>
    exact exec_fdStereoC_of_raised hready hbits hcf
      (compressedBody_of_mix_raised hub (readMix_shift_truncated hfault hchan hend)) hchan
  case weight =>
    obtain ⟨hheader, hshift⟩ := holdsBitsAt_header_append hbits
    exact exec_fdStereoC_of_raised hready hheader hcf
      (compressedBody_of_mix_raised hub (readMix_weight_truncated hfault hchan hshift hend)) hchan
  case badShift =>
    obtain ⟨hheader, hfields⟩ := holdsBitsAt_header_append hbits
    have hmix : readMix (rssState h s) = .raised (afterFault 5 5 (mixState h shift weight s)) := by
      rw [readMix_stereo hchan hfields, if_pos ⟨hweight, hshift⟩]
      exact raise_faultReady _ _ _ ((mixState_faultReady shift weight).trans hfault)
    exact exec_fdStereoC_of_raised hready hheader hcf (compressedBody_of_mix_raised hub hmix) hchan

end Sys2Proof.Machine

/-! SUPPORT. For O28 and O29: the stages of a compressed frame behind its mix fields (R218 to R222). -/

namespace Sys2Proof.Machine

/-! ## A stream depends on the payload, its length and the profile alone -/

section
variable {s t : State}

theorem streamFrom_congr (hprm : t.prm = s.prm) (hbytes : t.payload = s.payload) (hlen : t.bcLen = s.bcLen)
    (o : RiceOperands) (items : List StreamItem) (i : Nat) (h : Word) (carry : BitVec 1) (p : Nat) :
    streamFrom t o items i h carry p = streamFrom s o items i h carry p := by
  have hword (p n : Nat) (k : Int) (word : CodeWord) : holdsWord t p n k word = holdsWord s p n k word := by
    simp only [holdsWord, holdsBitsAt, hprm, hbytes, hlen]
  induction items generalizing i h carry p with
  | nil => rfl
  | cons item rest ih =>
    obtain ⟨word, run⟩ := item
    cases run <;> simp only [streamFrom, hword, hprm, ih]

/-- Where a stream ends, POS is a 35-bit quantity (R24). -/
theorem streamFrom_pos_lt {o : RiceOperands} {items : List StreamItem} {i p : Nat} {h : Word} {carry : BitVec 1}
    {r : StreamEnd} (hp : p < 2 ^ 35) (hr : streamFrom s o items i h carry p = some r) : r.pos < 2 ^ 35 := by
  induction items generalizing i h carry p r with
  | nil =>
    obtain ⟨-, rfl⟩ := streamFrom_nil hr
    exact hp
  | cons item rest ih =>
    obtain ⟨word, run⟩ := item
    cases run with
    | none =>
      obtain ⟨-, hword, -, r', hr', rfl⟩ := streamFrom_sample hr
      have hend := ih (end_lt_of_holdsWord hword) hr'
      exact hend
    | some runWord =>
      obtain ⟨-, -, -, -, -, hrunWord, r', hr', rfl⟩ := streamFrom_run hr
      have hend := ih (end_lt_of_holdsWord hrunWord) hr'
      exact hend

end

/-! ## The stream and the predictor of a channel (R221, R222) -/

section
variable {c : Chan} {s t : State} {o : RiceOperands} {order : BitVec 5} {items : List StreamItem} {r : StreamEnd}

/-- RD.STREAM over the items that the payload holds (R161). -/
theorem riceStream_of_streamFrom (hbuf : o.count ≤ s.prm.bufSamples) (hw : 1 ≤ o.width ∧ o.width ≤ 32)
    (hr : streamFrom s o items 0 o.initHist 0 s.pos = some r) :
    ∃ resid : File 32, riceStream c o s = .ok () (riceState c s r.pos resid r.carry r.history) ∧
      ∀ i < o.count, some (File.read resid i) = r.resid[i]? := by
  obtain ⟨g, hloop, hlen, hplaces⟩ := riceLoop_of_streamFrom (c := c) (f := (s.chan c).resid) (fuel := o.count) hbuf
    hw (by omega) s.pos_lt hr
  refine ⟨g, by rw [riceStream_eq, hloop], fun i hi => ?_⟩
  have hi' : i < r.resid.length := by omega
  rw [hplaces i, if_pos i.zero_le, Nat.sub_zero, List.getElem?_eq_getElem hi', Option.getD_some]

/-- The predictor that ORDER selects is LP.FIR's pseudocode with that order (R180, R189). -/
theorem exec_predictorOp (c : Chan) (order : BitVec 5) (s : State) :
    exec (predictorOp c order) s = (lpFir c order s).answer := by
  unfold predictorOp lpFir
  by_cases h0 : order = 0
  · rw [if_pos h0, if_pos h0, exec_lpCopy]
  · by_cases h31 : order = 31
    · rw [if_neg h0, if_neg h0, if_pos h31, if_pos h31, exec_lpDiff]
    · rw [if_neg h0, if_neg h0, if_neg h31, if_neg h31, exec_lpFir, lpFir, if_neg h0, if_neg h31]

/-- Each predictor writes the samples and the coefficients of its channel; that of ORDER 0 copies (R182). -/
theorem lpFir_runs (c : Chan) (order : BitVec 5) (hbuf : s.fhN.toNat ≤ s.prm.bufSamples) :
    ∃ (out : File 32) (coef : Vector Word 31),
      lpFir c order s = .ok () (s.setChan c { s.chan c with out := out, coef := coef }) ∧
      (order = 0 → ∀ i < s.fhN.toNat, File.read out i = File.read (s.chan c).resid i) := by
  rcases lpFir_cases c order s with ⟨-, hmode⟩ | ⟨rfl, hmode⟩ | ⟨hne, -, hmode⟩
  · refine ⟨_, (s.chan c).coef, by rw [hmode, lpCopy, withinBuffers_of_le _ hbuf, predictCopy], fun _ i hi => ?_⟩
    rw [read_forN_write_zero, if_pos hi]
  · refine ⟨(predictDiff s.fhN.toNat s.fhRss.toNat (s.chan c)).out, (s.chan c).coef, ?_, fun h => absurd h (by decide)⟩
    rw [hmode, lpDiff, withinBuffers_of_le _ hbuf, predictDiff]
    split <;> rfl
  · refine ⟨(predictFir s.prm.profile.coefW s.fhN.toNat s.fhRss.toNat order.toNat (s.chan c).quant.toNat
      (s.chan c)).out, (predictFir s.prm.profile.coefW s.fhN.toNat s.fhRss.toNat order.toNat (s.chan c).quant.toNat
      (s.chan c)).coef, ?_, fun h => absurd h hne⟩
    rw [hmode, withinBuffers_of_le _ hbuf, predictFir]
    split <;> rfl

theorem BodyStep.setChan (s : State) (c : Chan) (r : ChanRegs) : BodyStep s (s.setChan c r) := by
  cases c <;> rfl

theorem BodyStep.riceState (c : Chan) (s : State) (p : Nat) (f : File 32) (carry : BitVec 1) (h : Word) :
    BodyStep s (riceState c s p f carry h) := by
  cases c <;> rfl

theorem chan_riceState (c d : Chan) (s : State) (p : Nat) (f : File 32) (carry : BitVec 1) (h : Word) :
    (riceState c s p f carry h).chan d = ((s.setPos p).setChan c { s.chan c with resid := f }).chan d := by
  cases d <;> rfl

/-- What the stream and the predictor of channel c leave. -/
structure ChannelDecoded (c : Chan) (order : BitVec 5) (count : Nat) (r : StreamEnd) (s t : State) : Prop where
  step : BodyStep s t
  pos : t.pos = r.pos
  resid : ∀ i < count, some (File.read (t.chan c).resid i) = r.resid[i]?
  copied : order = 0 → ∀ i < count, File.read (t.chan c).out i = File.read (t.chan c).resid i
  raw : (t.chan c).raw = (s.chan c).raw
  other : ∀ d, d ≠ c → t.chan d = s.chan d

/-- The stream and the predictor of channel c, each as the operation that it is (R221, R222). -/
theorem decodeChannel_of_streamFrom (hoperands : riceOperands s c = o) (horder : (s.chan c).order = order)
    (hbuf : s.fhN.toNat ≤ s.prm.bufSamples) (hw : 1 ≤ o.width ∧ o.width ≤ 32)
    (hr : streamFrom s o items 0 o.initHist 0 s.pos = some r) :
    ∃ s1 s2 : State, exec (.rdStream c o) s = .next s1 ∧ exec (predictorOp c order) s1 = .next s2 ∧
      decodeChannel c s = .ok () s2 ∧ ChannelDecoded c order s.fhN.toNat r s s2 := by
  have hcount : o.count = s.fhN.toNat := by rw [← hoperands, riceOperands]
  obtain ⟨resid, hstream, hresid⟩ := riceStream_of_streamFrom (c := c) (hcount ▸ hbuf) hw hr
  rw [hcount] at hresid
  generalize hs1 : riceState c s r.pos resid r.carry r.history = s1 at hstream
  have hstep : BodyStep s s1 := hs1 ▸ .riceState c s _ _ _ _
  have hchan : s1.chan c = { s.chan c with resid := resid } := by rw [← hs1, chan_riceState, State.chan_setChan]
  have hother : ∀ d, d ≠ c → s1.chan d = s.chan d := fun d hd => by
    rw [← hs1, chan_riceState, State.chan_setChan_other _ _ _ _ hd, State.chan_setPos]
  have hpos : s1.pos = r.pos := hs1 ▸ riceState_pos c s _ _ _ _ (streamFrom_pos_lt s.pos_lt hr)
  have hn : s1.fhN = s.fhN := hstep.same State.fhN fun _ => rfl
  have hprm : s1.prm = s.prm := hstep.same State.prm fun _ => rfl
  obtain ⟨out, coef, hpredict, hcopied⟩ := lpFir_runs (s := s1) c order (by rw [hn, hprm]; exact hbuf)
  rw [hn, hchan] at hcopied
  refine ⟨s1, _, by rw [exec_rdStream, hstream, Res.answer_ok], by rw [exec_predictorOp, hpredict, Res.answer_ok],
    ?decode, ?step, ?pos, ?resid, ?copied, ?raw, ?other⟩
  case decode =>
    have hsame : (s1.chan c).order = order := by rw [hchan]; exact horder
    rw [decodeChannel, hoperands, hstream, Res.bind_ok, predict, hsame, hpredict]
  case step => exact hstep.trans (.setChan s1 c _)
  case pos => rw [State.setChan_pos, hpos]
  case resid => simpa only [State.chan_setChan, hchan] using hresid
  case copied => simpa only [State.chan_setChan, hchan] using hcopied
  case raw => rw [State.chan_setChan, hchan]
  case other => exact fun d hd => (s1.chan_setChan_other c d _ hd).trans (hother d hd)

end

/-! ## The raw low bytes (R220) -/

/-- A number below 2^24 passes through a raw entry. -/
theorem setWidth_24_setWidth_32 {v : Word} (h : v.toNat < 2 ^ 24) : (v.setWidth 24).setWidth 32 = v := by
  apply BitVec.eq_of_toNat_eq
  rw [BitVec.toNat_setWidth, BitVec.toNat_setWidth, Nat.mod_eq_of_lt h, Nat.mod_eq_of_lt v.isLt]

theorem toNat_rawField_lt (raw : List Bool) (ub : BitVec 2) (e : Nat) : (rawField raw ub e).toNat < 2 ^ 24 := by
  have hlt := natOfBits_lt ((raw.drop (e * (8 * ub.toNat))).take (8 * ub.toNat))
  have hub := ub.isLt
  have hlen : ((raw.drop (e * (8 * ub.toNat))).take (8 * ub.toNat)).length ≤ 24 :=
    (List.length_take_le ..).trans (by omega)
  rw [rawField, BitVec.toNat_ofNat]
  exact (Nat.mod_le ..).trans_lt (hlt.trans_le (Nat.pow_le_pow_right (by decide) hlen))

/-- FD.RAWLOW over the raw bits that the payload holds, whatever UB is. -/
theorem rawLow_of_bits {t : State} {raw : List Bool} (hbuf : t.fhN.toNat ≤ t.prm.bufSamples)
    (hlen : raw.length = t.fhN.toNat * (channels t).length * (8 * t.fhUb.toNat)) (hbits : holdsBits t raw = true) :
    ∃ rawA rawB : File 24,
      rawLow t = .ok () (t.withChans (t.pos + raw.length) { t.chA with raw := rawA } { t.chB with raw := rawB }) ∧
      (t.fhChan = 0 → rawB = t.chB.raw) ∧
      (t.fhUb ≠ 0 → ∀ i < t.fhN.toNat, ∀ x < (channels t).length,
        (File.read (if x = 0 then rawA else rawB) i).setWidth 32 =
          rawField raw t.fhUb (i * (channels t).length + x)) := by
  by_cases hub : t.fhUb = 0
  · have hnone : raw.length = 0 := by rw [hlen, hub]; exact Nat.mul_zero _
    refine ⟨t.chA.raw, t.chB.raw, ?_, fun _ => rfl, fun hne => absurd hub hne⟩
    rw [rawLow_of_ub_zero hub, hnone, Nat.add_zero]
    exact congrArg (Res.ok ()) (State.withChans_self t).symm
  · obtain ⟨rawA, rawB, hrun, hA, hmono, hB, -⟩ := rawLow_runs hub hbuf (holdsFields_of_bits hbits hlen)
    refine ⟨rawA, rawB, by rw [hrun, hlen], hmono, fun _ i hi x hx => ?_⟩
    have hend : (i * (channels t).length + x) * (8 * t.fhUb.toNat) + 8 * t.fhUb.toNat ≤ raw.length := by
      rw [hlen, ← Nat.succ_mul]
      exact Nat.mul_le_mul_right _ (field_lt_of_lt hi hx)
    have hfield : fieldAt t (8 * t.fhUb.toNat) (i * (channels t).length + x) =
        some (rawField raw t.fhUb (i * (channels t).length + x)) := fieldAt_of_bits hbits hend
    have hread : some (File.read (if x = 0 then rawA else rawB) i) =
        (fieldAt t (8 * t.fhUb.toNat) (i * (channels t).length + x)).map (·.setWidth 24) := by
      by_cases hx0 : x = 0
      · subst hx0
        exact hA i hi
      · have hstereo : t.fhChan ≠ 0 := by
          intro h0
          rw [channels, if_pos h0, List.length_singleton] at hx
          omega
        have hx1 : x = 1 := by
          rw [channels_of_ne_zero hstereo] at hx
          simp only [List.length_cons, List.length_nil] at hx
          omega
        subst hx1
        exact hB hstereo i hi
    rw [hfield, Option.map_some, Option.some.injEq] at hread
    rw [hread, setWidth_24_setWidth_32 (toNat_rawField_lt ..)]

end Sys2Proof.Machine

/-! SUPPORT. For O28 and O29: the stages of a compressed frame, one after the other (R210, R231, R233). -/

namespace Sys2Proof.Machine

/-! ## The state after the mix fields -/

/-- A state from which the channel headers of a compressed frame are read. -/
structure CompressedStart (h : HeaderFields) (shift weight : BitVec 8) (s u : State) : Prop
    extends BodyStart h s u where
  ub : u.fhUb = h.ub
  rss : u.fhRss = BitVec.ofNat 6 (readSize h s)
  shift : u.fhShift = shift
  weight : u.fhLeftWeight = weight
  pos : u.pos = bodyStart h + 16
  chB : u.chB = s.chB

theorem compressedStart_mixState (h : HeaderFields) (shift weight : BitVec 8) (s : State) :
    CompressedStart h shift weight s (mixState h shift weight s) where
  outside := by simp [State.outsideDecoder, mixState, headerState]
  len := by simp [mixState, headerState]
  chan := by simp [mixState, headerState]
  count := by simp [mixState, headerState]
  ub := by simp [mixState, headerState]
  rss := rfl
  shift := rfl
  weight := rfl
  pos := pos_mixState shift weight
  chB := by simp [mixState, headerState]

theorem readSize_range {h : HeaderFields} {s : State} (hlegal : headerLegal h s = true) (hub : ubLegal h s = true) :
    1 ≤ readSize h s ∧ readSize h s ≤ 32 := by
  obtain ⟨hsize, hchan, -, -⟩ := headerLegal_iff.mp hlegal
  have hbytes : 8 * h.ub.toNat + 8 ≤ s.cfgSampleSize.toNat ∧ s.cfgSampleSize.toNat ≤ 24 := by
    rcases ubLegal_iff.mp hub with h0 | ⟨h24, h2⟩
    · rcases sampleSizeOk_iff.mp hsize with h | h <;> rw [h0, h] <;> decide
    · rw [h24]
      exact ⟨show _ ≤ 24 by omega, le_refl 24⟩
  unfold readSize
  omega

/-- The run mask of R221 is R103's 2^k - 1, at 32 bits. -/
theorem one_shiftLeft_sub_one (k : Nat) : (1 <<< k : Word) - 1 = BitVec.ofNat 32 (2 ^ k - 1) := by
  have hm := riceM_eq k (BitVec.allOnes 32)
  rwa [riceM, Int.toNat_natCast, BitVec.and_allOnes, BitVec.and_allOnes] at hm

section
variable {h : HeaderFields} {shift weight : BitVec 8} {s u t : State}

/-- R221's operands in a compressed frame are those of its header. -/
theorem CompressedStart.riceOperands (hu : CompressedStart h shift weight s u) (ht : BodyStep u t)
    (hlegal : headerLegal h s = true) (hub : ubLegal h s = true) {c : Chan} {riceMod : BitVec 3}
    (hrice : (t.chan c).riceMod = riceMod) : riceOperands t c = streamOperands h riceMod s := by
  have hn : t.fhN = headerCount h s := (ht.same State.fhN fun _ => rfl).trans hu.count
  have hrss : t.fhRss = BitVec.ofNat 6 (readSize h s) := (ht.same State.fhRss fun _ => rfl).trans hu.rss
  have hinit : t.cfgInitHistory = s.cfgInitHistory := hu.same ht State.cfgInitHistory (fun _ => rfl) fun _ => rfl
  have hkmod : t.cfgKModifier = s.cfgKModifier := hu.same ht State.cfgKModifier (fun _ => rfl) fun _ => rfl
  have hmult : t.cfgHistoryMult = s.cfgHistoryMult := hu.same ht State.cfgHistoryMult (fun _ => rfl) fun _ => rfl
  have hwidth : (BitVec.ofNat 6 (readSize h s)).toNat = readSize h s := by
    have := readSize_range hlegal hub
    rw [BitVec.toNat_ofNat, Nat.mod_eq_of_lt (by omega)]
  have hword : s.cfgInitHistory.setWidth 32 = BitVec.ofNat 32 s.cfgInitHistory.toNat := by simp
  rw [Machine.riceOperands, streamOperands, historyMultiplier, hn, hrss, hinit, hkmod, hmult, hrice, hwidth, hword,
    one_shiftLeft_sub_one]

/-- The bits that the frame holds at a stage's POS. -/
theorem BodyStart.holdsBits (hu : BodyStart h s u) (ht : BodyStep u t) {p : Nat} (hpos : t.pos = p) {bits : List Bool}
    (hbits : holdsBitsAt s p bits = true) : holdsBits t bits = true := by
  have hlen : t.bcLen = s.bcLen := (ht.same State.bcLen fun _ => rfl).trans hu.len
  have hbytes : t.payload = s.payload := hu.same ht State.payload (fun _ => rfl) fun _ => rfl
  rw [Machine.holdsBits, hpos]
  exact holdsBitsAt_congr hbytes hlen hbits

/-- The stream that the frame holds at a stage's POS. -/
theorem BodyStart.streamFrom (hu : BodyStart h s u) (ht : BodyStep u t) {p : Nat} (hpos : t.pos = p)
    {o : RiceOperands} {items : List StreamItem} {r : StreamEnd}
    (hr : streamFrom s o items 0 o.initHist 0 p = some r) : streamFrom t o items 0 o.initHist 0 t.pos = some r := by
  have hlen : t.bcLen = s.bcLen := (ht.same State.bcLen fun _ => rfl).trans hu.len
  have hbytes : t.payload = s.payload := hu.same ht State.payload (fun _ => rfl) fun _ => rfl
  have hprm : t.prm = s.prm := hu.same ht State.prm (fun _ => rfl) fun _ => rfl
  rw [hpos, streamFrom_congr hprm hbytes hlen, hr]

/-! ## The channel headers -/

/-- What FD.CHHDR leaves of channel c (R218). -/
structure HeaderRead (c : Chan) (riceMod : BitVec 3) (order : BitVec 5) (p : Nat) (t t' : State) : Prop where
  step : BodyStep t t'
  pos : t'.pos = p
  riceMod : (t'.chan c).riceMod = riceMod
  order : (t'.chan c).order = order
  other : ∀ d, d ≠ c → t'.chan d = t.chan d

theorem length_encodeChhdr {ptype quant : BitVec 4} {riceMod : BitVec 3} {order : BitVec 5}
    {coefs : List (BitVec 16)} (hlen : coefs.length = order.toNat) :
    (encodeChhdr ptype quant riceMod order coefs).length = 16 + 16 * order.toNat := by
  simp [encodeChhdr, List.length_flatMap, hlen]
  omega

theorem BodyStart.channelHeader (hu : BodyStart h s u) (ht : BodyStep u t) (c : Chan) {p : Nat} (hpos : t.pos = p)
    {quant : BitVec 4} {riceMod : BitVec 3} {order : BitVec 5} {coefs : List (BitVec 16)}
    (hlen : coefs.length = order.toNat)
    (hbits : holdsBitsAt s p (encodeChhdr 0 quant riceMod order coefs) = true) :
    ∃ t', exec (.fdChhdr c) t = .next t' ∧ channelHeader c t = .ok () t' ∧
      HeaderRead c riceMod order (p + (encodeChhdr 0 quant riceMod order coefs).length) t t' := by
  subst hpos
  have hheld : Machine.holdsBits t (encodeChhdr 0 quant riceMod order coefs) = true := hu.holdsBits ht rfl hbits
  have hrun := channelHeader_of_bits (c := c) hlen hheld
  have hend := pos_after_bits (length_encodeChhdr hlen) hheld
  refine ⟨_, by rw [exec_fdChhdr, hrun, Res.answer_ok], hrun, ?step, ?pos, ?riceMod, ?order, fun d hd => ?other⟩
  case step => cases c <;> rfl
  case pos => rw [State.setChan_pos, hend, length_encodeChhdr hlen]
  case riceMod => rw [State.chan_setChan]
  case order => rw [State.chan_setChan]
  case other => rw [State.chan_setChan_other _ _ _ _ hd, State.chan_setPos]

/-! ## The raw low bytes -/

/-- What FD.RAWLOW leaves (R220). -/
structure RawRead (h : HeaderFields) (count : Nat) (raw : List Bool) (p : Nat) (t t' : State) : Prop where
  step : BodyStep t t'
  pos : t'.pos = p
  riceMod : ∀ c, (t'.chan c).riceMod = (t.chan c).riceMod
  order : ∀ c, (t'.chan c).order = (t.chan c).order
  chB : h.chan = 0 → t'.chB = t.chB
  raw : h.ub ≠ 0 → ∀ i < count, ∀ x < h.chan.toNat + 1,
    (File.read (if x = 0 then t'.chA.raw else t'.chB.raw) i).setWidth 32 =
      rawField raw h.ub (i * (h.chan.toNat + 1) + x)

theorem CompressedStart.rawLow (hu : CompressedStart h shift weight s u) (ht : BodyStep u t)
    (hready : frameReady h s = true) {p : Nat} (hpos : t.pos = p) {raw : List Bool}
    (hlen : raw.length = (headerCount h s).toNat * (h.chan.toNat + 1) * (8 * h.ub.toNat))
    (hbits : holdsBitsAt s p raw = true) :
    ∃ t', exec .fdRawlow t = .next t' ∧ rawLow t = .ok () t' ∧
      RawRead h (headerCount h s).toNat raw (p + raw.length) t t' := by
  subst hpos
  obtain ⟨-, -, hlegal, -⟩ := frameReady_iff.mp hready
  obtain ⟨-, hchan, -, -⟩ := headerLegal_iff.mp hlegal
  have hn : t.fhN = headerCount h s := (ht.same State.fhN fun _ => rfl).trans hu.count
  have hub : t.fhUb = h.ub := (ht.same State.fhUb fun _ => rfl).trans hu.ub
  have hc : t.fhChan = h.chan := (ht.same State.fhChan fun _ => rfl).trans hu.chan
  have hprm : t.prm = s.prm := hu.same ht State.prm (fun _ => rfl) fun _ => rfl
  have hnch : (channels t).length = h.chan.toNat + 1 := channels_length hchan hc
  have hheld : Machine.holdsBits t raw = true := hu.holdsBits ht rfl hbits
  obtain ⟨rawA, rawB, hrun, hmono, hraw⟩ := rawLow_of_bits (t := t) (raw := raw)
    (by rw [hn, hprm]; exact headerCount_le_bufSamples hready) (by rw [hn, hub, hnch, hlen]) hheld
  rw [hn, hub, hnch] at hraw
  refine ⟨_, by rw [exec_fdRawlow, hrun, Res.answer_ok], hrun, .withChans .., ?pos, fun c => ?riceMod,
    fun c => ?order, fun hchan0 => ?chB, hraw⟩
  case pos => exact pos_after_bits rfl hheld
  case riceMod => cases c <;> rfl
  case order => cases c <;> rfl
  case chB =>
    rw [hmono (hc.trans hchan0)]
    rfl

/-! ## A channel's stream and predictor -/

theorem CompressedStart.decodeChannel (hu : CompressedStart h shift weight s u) (ht : BodyStep u t)
    (hready : frameReady h s = true) (hub : ubLegal h s = true) {c : Chan} {riceMod : BitVec 3} {order : BitVec 5}
    (hrice : (t.chan c).riceMod = riceMod) (horder : (t.chan c).order = order) {p : Nat} (hpos : t.pos = p)
    {items : List StreamItem} {r : StreamEnd}
    (hr : Machine.streamFrom s (streamOperands h riceMod s) items 0 (streamOperands h riceMod s).initHist 0 p =
      some r) :
    ∃ t1 t2 : State, exec (.rdStream c (streamOperands h riceMod s)) t = .next t1 ∧
      exec (predictorOp c order) t1 = .next t2 ∧ decodeChannel c t = .ok () t2 ∧
      ChannelDecoded c order (headerCount h s).toNat r t t2 := by
  obtain ⟨-, -, hlegal, -⟩ := frameReady_iff.mp hready
  have hn : t.fhN = headerCount h s := (ht.same State.fhN fun _ => rfl).trans hu.count
  have hprm : t.prm = s.prm := hu.same ht State.prm (fun _ => rfl) fun _ => rfl
  have hdecoded := decodeChannel_of_streamFrom (hu.riceOperands ht hlegal hub hrice) horder
    (by rw [hn, hprm]; exact headerCount_le_bufSamples hready) (readSize_range hlegal hub)
    (hu.streamFrom ht hpos hr)
  rwa [hn] at hdecoded

/-! ## The pack's samples -/

/-- A packed sample is the output sample with its raw bytes below it (R227); with a 16-bit sample UB is 0. -/
theorem CompressedStart.packedSample (hu : CompressedStart h shift weight s u) (ht : BodyStep u t)
    (hub : ubLegal h s = true) {raw : List Bool} {i x e : Nat}
    (hraw : h.ub ≠ 0 → (outputRaw t i x).setWidth 32 = rawField raw h.ub e) :
    packedSample t i x = withRaw raw h.ub e (outputSample t i x) := by
  have hub' : t.fhUb = h.ub := (ht.same State.fhUb fun _ => rfl).trans hu.ub
  have hsize : t.cfgSampleSize = s.cfgSampleSize := hu.same ht State.cfgSampleSize (fun _ => rfl) fun _ => rfl
  rw [Machine.packedSample, withRaw, hub', hsize]
  by_cases h0 : h.ub = 0
  · rw [if_pos (.inl h0), if_pos h0]
  · have h24 : s.cfgSampleSize = 24 := ((ubLegal_iff.mp hub).resolve_left h0).1
    have h16 : s.cfgSampleSize ≠ 16 := by rw [h24]; decide
    rw [if_neg (not_or.mpr ⟨h0, h16⟩), if_neg h0, hraw h0]

/-! ## The whole frame -/

/-- The pack that the sample size selects, as the operation that it is. -/
theorem BodyStart.exec_packOp {t' : State} (hu : BodyStart h s u) (ht : BodyStep u t)
    (hpack : Machine.pack t = .ok () t') : exec (packOp s) t = .next t' := by
  have hop : packOp t = packOp s := hu.same ht packOp (fun _ => rfl) fun _ => rfl
  rw [← hop, exec_packOp_eq_pack, hpack, Res.answer_ok]

/-- A compressed frame from the steps of its body on (R210). -/
theorem frameBody_of_compressed {kind : FrameKind} (hkind : kindBody kind = compressedBody)
    (hub : ubLegal h s = true) {s1 s2 s3 : State} (hread : readMix (rssState h s) = .ok () u)
    (hbody : channelsBody u = .ok () s1) (hmix : Machine.deinterlace s1 = .ok () s2)
    (hpack : Machine.pack s2 = .ok () s3) :
    frameBody kind (headerState h s) = .ok () (completeFrame s3) :=
  frameBody_of_steps (by rw [hkind, compressedBody_of_mix hub hread, hbody]) hmix hpack

/-- The raw bytes that stand in the channels' buffers are those below the pack's samples (R220, R227). -/
theorem outputRaw_eq {t' : State} (hA : t'.chA.raw = t.chA.raw) (hB : t'.chB.raw = t.chB.raw) (i x : Nat) :
    outputRaw t' i x = File.read (if x = 0 then t.chA.raw else t.chB.raw) i := by
  rw [outputRaw, hA, hB]
  split <;> rfl

end

end Sys2Proof.Machine

/-! SUPPORT. For O28: a whole mono compressed frame (R231). -/

namespace Sys2Proof.Machine

section
variable {s u s3 s4 s6 : State}

/-- Behind the mix fields of a mono frame: one channel header, the raw bytes, one channel (R231). -/
theorem channelsBody_mono (hmono : u.fhChan = 0) (h3 : channelHeader .a u = .ok () s3) (h4 : rawLow s3 = .ok () s4)
    (hstep : BodyStep u s4) (h6 : decodeChannel .a s4 = .ok () s6) : channelsBody u = .ok () s6 := by
  have hu : channels u = [.a] := if_pos hmono
  have hs4 : channels s4 = [.a] := (hstep.same channels fun _ => rfl).trans hu
  rw [channelsBody, hu, eachChan_cons, h3, Res.bind_ok, eachChan_nil, Res.bind_ok, h4, Res.bind_ok, hs4, eachChan_cons,
    h6, Res.bind_ok, eachChan_nil]

/-- A mono frame is packed as it was decoded (R230). -/
theorem CompressedStart.deinterlace_mono {h : HeaderFields} {shift weight : BitVec 8} {t : State}
    (hu : CompressedStart h shift weight s u) (ht : BodyStep u t) (hchan : h.chan = 0) :
    deinterlace t = .ok () t ∧ ∀ i, outputSample t i 0 = File.read t.chA.out i := by
  have hmono : t.fhChan = 0 := (ht.same State.fhChan fun _ => rfl).trans (hu.chan.trans hchan)
  exact ⟨if_pos hmono, fun i => if_pos hmono⟩

end

/-! ## The obligation -/

/-- Settles O28: the stages one after the other, each from the state that the one before leaves. -/
theorem monoCompressedFrames : Obligations.MonoCompressedFrames := by
  intro h ignored quant riceMod order coefs raw items r s hready hcf hchan hub hcoefs n o before hraw hbits hr
  obtain ⟨-, -, hlegal, -⟩ := frameReady_iff.mp hready
  have hchan0 : h.chan.toNat = 0 := by rw [hchan]; rfl
  obtain ⟨hbefore, hrawBits⟩ := holdsBitsAt_append.mp hbits
  obtain ⟨hheader, hbody⟩ := holdsBitsAt_header_append hbefore
  obtain ⟨hmixBits, hchhdr⟩ := holdsBitsAt_append.mp hbody
  rw [length_bitsOfNat] at hchhdr
  have hend : bodyStart h + 16 + (encodeChhdr 0 quant riceMod order coefs).length = 0 + before.length := by
    simp only [before, List.length_append, length_encodeHeader, length_bitsOfNat]
    omega
  have hu := compressedStart_mixState h 0 0 s
  obtain ⟨s3, hx3, hr3, h3⟩ := hu.channelHeader (.refl _) .a hu.pos hcoefs hchhdr
  obtain ⟨s4, hx4, hr4, h4⟩ := hu.rawLow h3.step hready (h3.pos.trans hend)
    (by rw [hraw, hchan0, Nat.zero_add, Nat.mul_one]) hrawBits
  have hstep4 := h3.step.trans h4.step
  obtain ⟨s5, s6, hx5, hx6, hr6, h6⟩ := hu.decodeChannel (c := .a) hstep4 hready hub
    ((h4.riceMod .a).trans h3.riceMod) ((h4.order .a).trans h3.order) h4.pos
    (by rw [Nat.zero_add, ← List.length_append]; exact hr)
  have hstep6 := hstep4.trans h6.step
  obtain ⟨hmix, hout⟩ := hu.deinterlace_mono hstep6 hchan
  have hchB : s6.chB = s4.chB := h6.other .b (by decide)
  obtain ⟨pcm, len, hpack, hdone, hlen, hbytes⟩ := hu.pack hstep6 hready
  refine ⟨s3, s4, s5, s6, { s6 with pcm := pcm }, len, ?header, hx3, hx4, hx5, hx6, hu.exec_packOp hstep6 hpack, ?frame,
    hlen, h6.pos, fun i hi => ⟨h6.resid i hi, fun h0 => h6.copied h0 i hi⟩, fun i hi j hj => ?byte, ?chB,
    hu.kept (hstep6.trans (.setPcm ..))⟩
  case header => rw [exec_fdHeader, frameHeader_of_bits hlegal hheader, Res.answer_ok]
  case frame =>
    have hbody := channelsBody_mono (hu.chan.trans hchan) hr3 hr4 hstep4 hr6
    rw [exec_fdMonoC hready hheader hchan hcf,
      frameBody_of_compressed (kind := .monoC) rfl hub (readMix_mono hchan hmixBits) hbody hmix hpack, Res.answer_ok,
      hdone]
  case chB =>
    have hB : s6.chB = s.chB :=
      hchB.trans ((h4.chB hchan).trans ((h3.other .b (by decide)).trans hu.chB))
    exact hB
  case byte =>
    have hraw' : h.ub ≠ 0 → (outputRaw s6 i 0).setWidth 32 = rawField raw h.ub i := by
      intro hne
      have hfield := h4.raw hne i hi 0 (Nat.succ_pos _)
      rw [hchan0, Nat.zero_add, Nat.mul_one, Nat.add_zero] at hfield
      rw [outputRaw_eq h6.raw (congrArg ChanRegs.raw hchB), hfield]
    have hbyte := hbytes i hi 0 (Nat.succ_pos _) j hj
    rw [Nat.zero_mul, Nat.add_zero, hu.packedSample hstep6 hub hraw', hout] at hbyte
    exact hbyte

end Sys2Proof.Machine

/-! SUPPORT. For O29: a whole stereo compressed frame (R233). -/

namespace Sys2Proof.Machine

/-! ## The mix that LEFTWEIGHT selects (R224, R225) -/

/-- The right sample of a stereo frame. -/
def rightSample (shift weight : BitVec 8) (mid diff : Word) : Word :=
  if weight = 0 then diff else mid - (diff * weight.setWidth 32).sshiftRight shift.toNat

/-- The left sample of a stereo frame. -/
def leftSample (shift weight : BitVec 8) (mid diff : Word) : Word :=
  if weight = 0 then mid else rightSample shift weight mid diff + diff

/-- What the mix of a stereo frame leaves. -/
structure Mixed (shift weight : BitVec 8) (count : Nat) (s t : State) : Prop where
  step : BodyStep s t
  pos : t.pos = s.pos
  chA : t.chA = s.chA
  chB : t.chB = s.chB
  output : ∀ i < count, ∀ x, outputSample t i x =
    if x = 0 then leftSample shift weight (File.read s.chA.out i) (File.read s.chB.out i)
    else rightSample shift weight (File.read s.chA.out i) (File.read s.chB.out i)

section
variable {shift weight : BitVec 8} {s : State}

/-- The mix of a stereo frame (R224, R225). -/
theorem deinterlace_eq (hstereo : s.fhChan ≠ 0) (hs : s.fhShift = shift) (hw : s.fhLeftWeight = weight) :
    deinterlace s = if weight = 0 then mixDirect shift s else mixWeighted shift weight s := by
  rw [deinterlace, if_neg hstereo, hs, hw]

/-- It is the operation that LEFTWEIGHT selects. -/
theorem exec_mixOp (hstereo : s.fhChan ≠ 0) (hs : s.fhShift = shift) (hw : s.fhLeftWeight = weight) :
    exec (mixOp shift weight) s = (deinterlace s).answer := by
  rw [deinterlace_eq hstereo hs hw, mixOp]
  split
  · exact exec_fdMixDirect s shift
  · exact exec_fdMixWeighted s shift weight

/-- The samples of a mix by its two files. -/
theorem Mixed.of_files {l r : File 32} (hstereo : s.fhChan ≠ 0)
    (hl : ∀ i < s.fhN.toNat, File.read l i =
      leftSample shift weight (File.read s.chA.out i) (File.read s.chB.out i))
    (hr : ∀ i < s.fhN.toNat, File.read r i =
      rightSample shift weight (File.read s.chA.out i) (File.read s.chB.out i)) :
    Mixed shift weight s.fhN.toNat s { s with mixL := l, mixR := r } := by
  refine ⟨.setMix s l r, rfl, rfl, rfl, fun i hi x => ?_⟩
  rw [outputSample, if_neg hstereo]
  split
  · exact hl i hi
  · exact hr i hi

theorem deinterlace_stereo (hstereo : s.fhChan ≠ 0) (hbuf : s.fhN.toNat ≤ s.prm.bufSamples) (hs : s.fhShift = shift)
    (hw : s.fhLeftWeight = weight) (hshift : weight ≠ 0 → shift.toNat ≤ 31) :
    ∃ t, deinterlace s = .ok () t ∧ Mixed shift weight s.fhN.toNat s t := by
  rw [deinterlace_eq hstereo hs hw]
  by_cases h0 : weight = 0
  · obtain ⟨l, r, hrun, hmixed, -⟩ := mixDirect_runs shift hstereo hbuf
    refine ⟨_, (if_pos h0).trans hrun, .of_files hstereo (fun i hi => ?left) fun i hi => ?right⟩
    case left => rw [leftSample, if_pos h0, (hmixed i hi).1]
    case right => rw [rightSample, if_pos h0, (hmixed i hi).2]
  · obtain ⟨l, r, hrun, hmixed, -⟩ := mixWeighted_runs shift weight hstereo hbuf
    have hright : ∀ i < s.fhN.toNat, File.read r i =
        rightSample shift weight (File.read s.chA.out i) (File.read s.chB.out i) := by
      intro i hi
      rw [rightSample, if_neg h0, (hmixed i hi).1, mixRight, asr_in _ _ (hshift h0)]
    refine ⟨_, (if_neg h0).trans hrun, .of_files hstereo (fun i hi => ?_) hright⟩
    rw [leftSample, if_neg h0, (hmixed i hi).2, hright i hi]

end

/-! ## The frame -/

section
variable {s u s3 s4 s5 s7 s9 : State}

/-- Behind the mix fields of a stereo frame: both channel headers, the raw bytes, both channels (R233). -/
theorem channelsBody_stereo (hstereo : u.fhChan ≠ 0) (h3 : channelHeader .a u = .ok () s3)
    (h4 : channelHeader .b s3 = .ok () s4) (h5 : rawLow s4 = .ok () s5) (hstep : BodyStep u s5)
    (h7 : decodeChannel .a s5 = .ok () s7) (h9 : decodeChannel .b s7 = .ok () s9) :
    channelsBody u = .ok () s9 := by
  have hu : channels u = [.a, .b] := channels_of_ne_zero hstereo
  have hs5 : channels s5 = [.a, .b] := (hstep.same channels fun _ => rfl).trans hu
  rw [channelsBody, hu, eachChan_cons, h3, Res.bind_ok, eachChan_cons, h4, Res.bind_ok, eachChan_nil, Res.bind_ok, h5,
    Res.bind_ok, hs5, eachChan_cons, h7, Res.bind_ok, eachChan_cons, h9, Res.bind_ok, eachChan_nil]

/-- The mix of a stereo frame, as the operation that LEFTWEIGHT selects. -/
theorem CompressedStart.deinterlace_stereo {h : HeaderFields} {shift weight : BitVec 8} {t : State}
    (hu : CompressedStart h shift weight s u) (ht : BodyStep u t) (hready : frameReady h s = true) (hchan : h.chan = 1)
    (hshift : weight ≠ 0 → shift.toNat ≤ 31) :
    ∃ t', deinterlace t = .ok () t' ∧ exec (mixOp shift weight) t = .next t' ∧
      Mixed shift weight (headerCount h s).toNat t t' := by
  have hstereo : t.fhChan ≠ 0 := by
    rw [ht.same State.fhChan fun _ => rfl, hu.chan, hchan]
    decide
  have hs : t.fhShift = shift := (ht.same State.fhShift fun _ => rfl).trans hu.shift
  have hw : t.fhLeftWeight = weight := (ht.same State.fhLeftWeight fun _ => rfl).trans hu.weight
  have hn : t.fhN = headerCount h s := (ht.same State.fhN fun _ => rfl).trans hu.count
  have hprm : t.prm = s.prm := hu.same ht State.prm (fun _ => rfl) fun _ => rfl
  obtain ⟨t', hrun, hmixed⟩ := Machine.deinterlace_stereo hstereo
    (by rw [hn, hprm]; exact headerCount_le_bufSamples hready) hs hw hshift
  rw [hn] at hmixed
  exact ⟨t', hrun, by rw [exec_mixOp hstereo hs hw, hrun, Res.answer_ok], hmixed⟩

end

/-! ## The obligation -/

/-- Settles O29: the stages one after the other, each from the state that the one before leaves. -/
theorem stereoCompressedFrames : Obligations.StereoCompressedFrames := by
  intro h shift weight quantA quantB riceModA riceModB orderA orderB coefsA coefsB raw itemsA itemsB ra rb s hready hcf
    hchan hub hshift hcoefsA hcoefsB n oa ob before hraw hbits hra hrb
  obtain ⟨-, -, hlegal, -⟩ := frameReady_iff.mp hready
  have hchan1 : h.chan.toNat = 1 := by rw [hchan]; rfl
  obtain ⟨hbefore, hrawBits⟩ := holdsBitsAt_append.mp hbits
  obtain ⟨hheader, hbody⟩ := holdsBitsAt_header_append hbefore
  rw [← List.append_assoc, holdsBitsAt_append, holdsBitsAt_append (x := encodeChhdr ..)] at hbody
  obtain ⟨hmixBits, hchhdrA, hchhdrB⟩ := hbody
  rw [List.length_append, length_bitsOfNat, length_bitsOfNat] at hchhdrA hchhdrB
  have hend : bodyStart h + 16 + (encodeChhdr 0 quantA riceModA orderA coefsA).length +
      (encodeChhdr 0 quantB riceModB orderB coefsB).length = 0 + before.length := by
    simp only [before, List.length_append, length_encodeHeader, length_bitsOfNat]
    omega
  have hu := compressedStart_mixState h shift weight s
  obtain ⟨s3, hx3, hr3, h3⟩ := hu.channelHeader (.refl _) .a hu.pos hcoefsA hchhdrA
  obtain ⟨s4, hx4, hr4, h4⟩ := hu.channelHeader h3.step .b h3.pos hcoefsB hchhdrB
  have hstep4 := h3.step.trans h4.step
  have hA4 : s4.chan .a = s3.chan .a := h4.other .a (by decide)
  obtain ⟨s5, hx5, hr5, h5⟩ := hu.rawLow hstep4 hready (h4.pos.trans hend) (by rw [hraw, hchan1]) hrawBits
  have hstep5 := hstep4.trans h5.step
  obtain ⟨s6, s7, hx6, hx7, hr7, h7⟩ := hu.decodeChannel (c := .a) hstep5 hready hub
    ((h5.riceMod .a).trans (by rw [hA4, h3.riceMod])) ((h5.order .a).trans (by rw [hA4, h3.order])) h5.pos
    (by rw [Nat.zero_add, ← List.length_append]; exact hra)
  have hstep7 := hstep5.trans h7.step
  have hB7 : s7.chan .b = s5.chan .b := h7.other .b (by decide)
  obtain ⟨s8, s9, hx8, hx9, hr9, h9⟩ := hu.decodeChannel (c := .b) hstep7 hready hub
    (by rw [hB7, h5.riceMod, h4.riceMod]) (by rw [hB7, h5.order, h4.order]) h7.pos hrb
  have hstep9 := hstep7.trans h9.step
  have hA9 : s9.chan .a = s7.chan .a := h9.other .a (by decide)
  obtain ⟨s10, hmix, hx10, h10⟩ := hu.deinterlace_stereo hstep9 hready hchan hshift
  have hstep10 := hstep9.trans h10.step
  obtain ⟨pcm, len, hpack, hdone, hlen, hbytes⟩ := hu.pack hstep10 hready
  refine ⟨s3, s4, s5, s6, s7, s8, s9, s10, { s10 with pcm := pcm }, len, ?header, hx3, hx4, hx5, hx6, hx7, hx8, hx9,
    hx10, hu.exec_packOp hstep10 hpack, ?frame, hlen, h10.pos.trans h9.pos, fun i hi => ⟨?residA, h9.resid i hi, ?copyA,
    fun h0 => h9.copied h0 i hi⟩, fun i hi x hx j hj => ?byte, hu.kept (hstep10.trans (.setPcm ..))⟩
  case header => rw [exec_fdHeader, frameHeader_of_bits hlegal hheader, Res.answer_ok]
  case frame =>
    have hread : readMix (rssState h s) = .ok () (mixState h shift weight s) := by
      rw [readMix_stereo hchan hmixBits, if_neg (fun hbad => absurd (hshift hbad.1) (Nat.not_le.mpr hbad.2))]
    have hbody := channelsBody_stereo (by rw [hu.chan, hchan]; decide) hr3 hr4 hr5 hstep5 hr7 hr9
    rw [exec_fdStereoC hready hheader hchan hcf,
      frameBody_of_compressed (kind := .stereoC) rfl hub hread hbody hmix hpack, Res.answer_ok, hdone]
  case residA =>
    have hresid := h7.resid i hi
    rw [← hA9] at hresid
    exact hresid
  case copyA =>
    have hcopied := fun h0 => h7.copied h0 i hi
    rw [← hA9] at hcopied
    exact hcopied
  case byte =>
    have hx' : x < h.chan.toNat + 1 := by omega
    have hrawA : s10.chA.raw = s5.chA.raw := by
      rw [h10.chA]
      exact (congrArg ChanRegs.raw hA9).trans h7.raw
    have hrawB : s10.chB.raw = s5.chB.raw := by
      rw [h10.chB]
      exact h9.raw.trans (congrArg ChanRegs.raw hB7)
    have hraw' : h.ub ≠ 0 → (outputRaw s10 i x).setWidth 32 = rawField raw h.ub (2 * i + x) := by
      intro hne
      rw [outputRaw_eq hrawA hrawB, h5.raw hne i hi x hx', hchan1, Nat.mul_comm]
    have hbyte := hbytes i hi x hx' j hj
    rw [hu.packedSample hstep10 hub hraw', h10.output i hi] at hbyte
    exact hbyte

end Sys2Proof.Machine

/-! SUPPORT. For O32 to O36 and O55: the times of unit JB where 64 bits hold them (R261), and which drain step the state
selects (R270). -/

namespace Sys2Proof.Machine

/-! ## Times (R261) -/

section
variable {s : State} {key : Time} {n : Nat}

/-- A 64-bit time is in range, so it stands for itself. -/
@[simp] theorem State.time_toInt (s : State) (x : Time) : s.time x.toInt = x := by
  rw [State.time, if_pos ⟨x.le_toInt, x.toInt_lt⟩, BitVec.ofInt_toInt]

/-- The line moved on by n frames (R275). -/
theorem State.time_add_natCast {x : Time} (h : timeFits (x.toInt + n)) :
    s.time (x.toInt + n) = x + BitVec.ofNat 64 n := by
  rw [State.time, if_pos h, BitVec.ofInt_add, BitVec.ofInt_toInt, BitVec.ofInt_natCast]

theorem toInt_fromRemote (h : timeFits (lineTime s key)) : (fromRemote s key).toInt = lineTime s key :=
  s.time_fits _ h

theorem toInt_entryEnd (h : timesFit s key n) : (entryEnd s key n).toInt = lineTime s key + n := by
  obtain ⟨hline, hend, -⟩ := h
  rw [entryEnd, toInt_fromRemote hline, State.time_fits _ _ hend]

theorem toInt_entryLead (h : timesFit s key n) :
    (entryLead s key n).toInt = lineTime s key + n - s.jbWritten.toInt := by
  have ⟨_, _, hlead, _⟩ := h
  rw [entryLead, toInt_entryEnd h, State.time_fits _ _ hlead]

theorem toInt_drainGap (hline : timeFits (lineTime s key)) (hgap : timeFits (lineTime s key - s.jbWritten.toInt)) :
    (drainGap s key).toInt = lineTime s key - s.jbWritten.toInt := by
  rw [drainGap, toInt_fromRemote hline, State.time_fits _ _ hgap]

end

/-! ## Frames of bytes (R33, R264) -/

/-- Checked bytes are a positive whole number of frames, at most a quantum of them. -/
theorem enqueueBytesOk_frames {s : State} {bytes : List Byte} (h : enqueueBytesOk s bytes = true) :
    0 < bytesPerFrame s ∧ framesOf s bytes * bytesPerFrame s = bytes.length ∧ 0 < framesOf s bytes ∧
      framesOf s bytes ≤ quantum s := by
  simp only [enqueueBytesOk, Bool.and_eq_true, bne_iff_ne, beq_iff_eq, decide_eq_true_eq] at h
  obtain ⟨⟨⟨⟨-, hsome⟩, hsize⟩, hwhole⟩, hquantum⟩ := h
  have hdvd : bytesPerFrame s ∣ bytes.length := Nat.dvd_of_mod_eq_zero hwhole
  have hpos : 0 < bytesPerFrame s := Nat.pos_of_ne_zero hsize
  exact ⟨hpos, Nat.div_mul_cancel hdvd, Nat.div_pos (Nat.le_of_dvd (Nat.pos_of_ne_zero hsome) hdvd) hpos, hquantum⟩

/-! ## The step that DRAIN takes (R270) -/

theorem drainEnabled_iff {s : State} :
    drainEnabled s = true ↔ s.jbOffsetValid = true ∧ s.jbClosing = false ∧ s.sinkReady = true ∧
      (s.cfgSampleSize = 16 ∨ s.cfgSampleSize = 24) := by
  simp only [drainEnabled, Bool.and_eq_true, Bool.not_eq_true', sampleSizeOk_iff, and_assoc]

theorem drainStep_empty {s : State} (hq : s.jbQueue = []) : drainStep s = .jbDrainIdle := by
  rw [drainStep, hq]

/-- The step for a first entry, by the exact gap. -/
theorem drainStep_entry {s : State} {key : Time} {bytes : List Byte} {rest : List QueueEntry}
    (hq : s.jbQueue = (key, bytes) :: rest) (hline : timeFits (lineTime s key))
    (hgap : timeFits (lineTime s key - s.jbWritten.toInt)) :
    drainStep s =
      if 0 < lineTime s key - s.jbWritten.toInt then .jbDrainGap
      else if lineTime s key - s.jbWritten.toInt = 0 then .jbDrainEmit
      else if -(framesOf s bytes : Int) < lineTime s key - s.jbWritten.toInt then .jbDrainTrunc
      else .jbDrainSkip := by
  rw [drainStep, hq, ← toInt_drainGap hline hgap]

section
variable {s : State} {op : Instr}

theorem drainAs_selected (go : State) (hlock : s.lock = false) (henabled : drainEnabled s = true)
    (hstep : drainStep s = op) : drainAs op s go = .next go := by
  simp [drainAs, hlock, henabled, hstep]

theorem drainAs_notSelected (go : State) (hlock : s.lock = false)
    (h : drainEnabled s = false ∨ drainStep s ≠ op) : drainAs op s go = .fault .notSelected := by
  rcases h with h | h <;> simp [drainAs, hlock, h]

/-- A drain step that answers a next state waited, or ran as the step selected. -/
theorem drainAs_eq_next {t go : State} (h : drainAs op s go = .next t) :
    t = s ∨ (drainEnabled s = true ∧ drainStep s = op ∧ t = go) := by
  rcases underLock_eq_next.mp h with ⟨-, rfl⟩ | ⟨-, h⟩
  · exact .inl rfl
  · split at h <;> cases h
    rename_i hsel
    rw [Bool.and_eq_true, beq_iff_eq] at hsel
    exact .inr ⟨hsel.1, hsel.2, rfl⟩

theorem exec_jbDrainIdle : exec .jbDrainIdle s = drainAs .jbDrainIdle s (drainIdle s) := rfl

theorem exec_jbDrainGap : exec .jbDrainGap s = drainAs .jbDrainGap s (drainGapStep s) := rfl

theorem exec_jbDrainEmit : exec .jbDrainEmit s = drainAs .jbDrainEmit s (drainEmit s) := rfl

theorem exec_jbDrainTrunc : exec .jbDrainTrunc s = drainAs .jbDrainTrunc s (drainTrunc s) := rfl

theorem exec_jbDrainSkip : exec .jbDrainSkip s = drainAs .jbDrainSkip s (drainSkip s) := rfl

end

end Sys2Proof.Machine

/-! SUPPORT. For O55: what an operation may do to the sink and the line (R260, R275). It leaves both as they
are or emits whole frames; only CONFIGURE sets the line back, and only RESET empties the sink. -/

namespace Sys2Proof.Machine

/-! ## Effects on the line -/

/-- What `SinkCounts` speaks of: the sink, the line and the bytes per frame. -/
def State.line (s : State) : List Byte × Time × Nat := (s.sink, s.jbWritten, bytesPerFrame s)

theorem SinkCounts.of_line {s t : State} (h : SinkCounts s) (hline : t.line = s.line) : SinkCounts t := by
  simp only [State.line, Prod.mk.injEq] at hline
  obtain ⟨hsink, hwritten, hsize⟩ := hline
  rw [SinkCounts, hsink, hwritten, hsize]
  exact h

/-- What an operation other than CONFIGURE and RESET does to the sink and the line. -/
inductive LineEffect (s t : State) : Prop
  | kept : t.line = s.line → LineEffect s t
  /-- Whole frames, at most a quantum of them (R271 to R274). -/
  | emitted (bytes : List Byte) : bytesPerFrame s ∣ bytes.length → framesOf s bytes ≤ quantum s →
      t.line = (emit bytes s).line → LineEffect s t

section
variable {s t : State}

theorem LineEffect.sink_prefix (h : LineEffect s t) : s.sink <+: t.sink := by
  cases h with
  | kept h =>
    have hsink : t.sink = s.sink := congrArg Prod.fst h
    rw [hsink]
  | emitted bytes _ _ h =>
    have hsink : t.sink = s.sink ++ bytes := congrArg Prod.fst h
    rw [hsink]
    exact List.prefix_append ..

/-- The line moves by as many frames as the bytes hold, where 64 bits hold its next position (R275). -/
theorem SinkCounts.emit {bytes : List Byte} (h : SinkCounts s) (hwhole : bytesPerFrame s ∣ bytes.length)
    (hfit : timeFits (s.jbWritten.toInt + framesOf s bytes)) : SinkCounts (emit bytes s) := by
  have hbytes : framesOf s bytes * bytesPerFrame s = bytes.length := Nat.div_mul_cancel hwhole
  unfold SinkCounts at h ⊢
  calc ((s.sink ++ bytes).length : Int)
      = s.sink.length + (framesOf s bytes * bytesPerFrame s : Nat) := by
        rw [List.length_append, hbytes, Nat.cast_add]
    _ = (s.jbWritten.toInt + framesOf s bytes - Config.lineStart.toInt) * bytesPerFrame s := by
        rw [h]; push_cast; ring
    _ = ((Machine.emit bytes s).jbWritten.toInt - Config.lineStart.toInt) * bytesPerFrame s := by
        rw [emit_jbWritten, State.time_fits _ _ hfit]

/-- A quantum is less than 2^32 frames, so the line stays in range. -/
theorem LineEffect.sinkCounts (h : LineEffect s t) (hs : SinkCounts s)
    (hroom : s.jbWritten.toInt + 2 ^ 32 < 2 ^ 63) : SinkCounts t := by
  cases h with
  | kept h => exact hs.of_line h
  | emitted bytes hwhole hquantum h =>
    have hword : quantum s < 2 ^ 32 := s.cfgMaxSamples.isLt
    have hlow := s.jbWritten.le_toInt
    exact (hs.emit hwhole ⟨by omega, by omega⟩).of_line h

/-! ## The drain steps -/

/-- Silence of at most a quantum (R271, R272). -/
theorem LineEffect.emitSilence {frames : Nat} (h : frames ≤ quantum s) : LineEffect s (emitSilence frames s) := by
  refine .emitted (List.replicate (frames * bytesPerFrame s) 0) ?_ ?_ rfl
  · rw [List.length_replicate]
    exact Nat.dvd_mul_left ..
  · rw [framesOf, List.length_replicate]
    exact (Nat.div_le_of_le_mul (Nat.mul_comm .. ▸ Nat.le_refl _)).trans h

theorem LineEffect.drainGapStep (s : State) : LineEffect s (drainGapStep s) := by
  unfold Machine.drainGapStep
  split
  · exact .kept rfl
  · cases LineEffect.emitSilence (s := s) (Nat.min_le_right _ _) with
    | kept h => exact .kept h
    | emitted bytes hwhole hquantum h => exact .emitted bytes hwhole hquantum h

/-- A step that takes the first entry, which is whole frames, at most a quantum of them (R33). -/
theorem LineEffect.withHead {go : QueueEntry → State → State} (hinv : Inv s)
    (h : ∀ (head : QueueEntry) (rest : List QueueEntry), enqueueBytesOk s head.2 = true →
      LineEffect s (go head { s with jbQueue := rest })) : LineEffect s (withHead s go) := by
  unfold Machine.withHead
  split
  · exact .kept rfl
  · rename_i head rest hq
    exact h head rest (hinv.entries head (by rw [hq]; exact List.mem_cons_self ..))

theorem LineEffect.drainEmit (hinv : Inv s) : LineEffect s (drainEmit s) := by
  refine .withHead hinv fun head rest hok => ?_
  obtain ⟨-, hwhole, -, hquantum⟩ := enqueueBytesOk_frames hok
  exact .emitted head.2 (Dvd.intro_left _ hwhole) hquantum rfl

/-- The last frames of an entry are whole frames, no more than it has (R274). -/
theorem LineEffect.drainTrunc (hinv : Inv s) : LineEffect s (drainTrunc s) := by
  refine .withHead hinv fun head rest hok => ?_
  obtain ⟨-, hwhole, -, hquantum⟩ := enqueueBytesOk_frames hok
  refine .emitted _ ?whole (Nat.le_trans (Nat.div_le_div_right ?fewer) hquantum) rfl
  case whole =>
    rw [List.length_drop, List.length_take, hwhole, Nat.min_self, ← hwhole]
    exact Nat.dvd_sub (Nat.dvd_mul_left ..) (Nat.dvd_mul_left ..)
  case fewer =>
    rw [List.length_drop, List.length_take]
    exact (Nat.sub_le ..).trans (Nat.min_le_right ..)

theorem LineEffect.drainSkip (hinv : Inv s) : LineEffect s (drainSkip s) :=
  .withHead hinv fun _ _ _ => .kept rfl

theorem drainAs_lineEffect {op : Instr} {u : State} (h : drainAs op s u = .next t) (hu : LineEffect s u) :
    LineEffect s t := by
  rcases drainAs_eq_next h with rfl | ⟨-, -, rfl⟩
  · exact .kept rfl
  · exact hu

/-! ## The other operations -/

/-- An operation of the decoder touches nothing of the line (R20). -/
theorem exec_decoder_line {i : Instr} (h : exec i s = .next t) (hi : takesLock i = false) : t.line = s.line := by
  obtain ⟨hkept, -⟩ := unitsKeepApart i s t h
  obtain ⟨⟨-, hsize, -, -, -, hchannels, -⟩, -, -, -, -, hwritten, -, -, -, hsink, -⟩ := hkept hi
  rw [State.line, bytesPerFrame, hsize, hchannels, hwritten, hsink]
  rfl

theorem line_enqueue (key : Time) (bytes : List Byte) (s : State) : (enqueue key bytes s).line = s.line := by
  rcases enqueue_cases key bytes s with ⟨-, h⟩ | ⟨-, -, -, h⟩ | ⟨-, -, -, h⟩ | ⟨-, h⟩ <;> rw [h]
  · rfl
  · rfl
  · rfl
  · rcases admit_cases key bytes s with ⟨_, -, h⟩ | ⟨-, -, h⟩ | ⟨-, -, h⟩ <;> rw [h] <;> rfl

theorem line_checkedEnqueue (key : Time) (bytes : List Byte) (s : State) :
    (checkedEnqueue key bytes s).line = s.line := by
  rcases checkedEnqueue_cases key bytes s with ⟨-, h⟩ | ⟨-, -, h⟩ | ⟨-, -, h⟩ <;> rw [h]
  · rfl
  · exact line_enqueue key bytes s
  · rfl

/-- A transition under the lock that keeps the line, or waits. -/
theorem underLock_line {go : Outcome} (h : underLock s go = .next t) (hgo : go = .next t → t.line = s.line) :
    LineEffect s t := by
  rcases underLock_eq_next.mp h with ⟨-, rfl⟩ | ⟨-, h⟩
  · exact .kept rfl
  · exact .kept (hgo h)

/-- Every operation but RESET and CONFIGURE. -/
theorem exec_lineEffect {i : Instr} (hinv : Inv s) (h : exec i s = .next t) (hreset : i ≠ .hReset)
    (hconf : ¬ ∃ m a b c d e r, i = .hConfigure m a b c d e r) : LineEffect s t := by
  cases i with
  | hReset => exact absurd rfl hreset
  | hConfigure m a b c d e r => exact absurd ⟨m, a, b, c, d, e, r, rfl⟩ hconf
  | jbDrainIdle => exact drainAs_lineEffect h (.emitSilence (Nat.le_refl _))
  | jbDrainGap => exact drainAs_lineEffect h (.drainGapStep s)
  | jbDrainEmit => exact drainAs_lineEffect h (.drainEmit hinv)
  | jbDrainTrunc => exact drainAs_lineEffect h (.drainTrunc hinv)
  | jbDrainSkip => exact drainAs_lineEffect h (.drainSkip hinv)
  | jbSync | jbClose | hClose | hStatus =>
    refine underLock_line h fun h => ?_
    cases h
    rfl
  | jbToRemote | jbFromRemote | hSync =>
    refine underLock_line h fun h => ?_
    split at h <;> cases h <;> rfl
  | jbEnq key bytes =>
    refine underLock_line h fun h => ?_
    cases h
    exact line_checkedEnqueue key bytes s
  | hEnqueue key bytes =>
    refine underLock_line h fun h => ?_
    split at h
    · cases h
      rfl
    · split at h <;> cases h
      · exact line_enqueue key bytes s
      · rfl
  | _ => exact .kept (exec_decoder_line h rfl)

/-- CONFIGURE leaves the sink, and the line as it is or set back (R301). -/
theorem exec_hConfigure_line {m r : BitVec 32} {a b c d e : BitVec 8}
    (h : exec (.hConfigure m a b c d e r) s = .next t) :
    t.line = s.line ∨ (t.sink = s.sink ∧ t.jbWritten = Config.lineStart) := by
  rcases underLock_eq_next.mp (show execHConfigure m a b c d e r s = .next t from h) with ⟨-, rfl⟩ | ⟨-, h⟩
  · exact .inl rfl
  · split at h
    · cases h
      exact .inl rfl
    · split at h <;> cases h
      · exact .inr ⟨rfl, rfl⟩
      · exact .inl rfl

/-- An empty sink and a line at its start. -/
theorem sinkCounts_of_empty (hsink : t.sink = []) (hwritten : t.jbWritten = Config.lineStart) : SinkCounts t := by
  rw [SinkCounts, hsink, hwritten, Int.sub_self, Int.zero_mul]
  rfl

/-- RESET empties the sink and sets the line back (R44, R360). -/
theorem exec_hReset_line (h : exec .hReset s = .next t) :
    t = s ∨ (t.sink = [] ∧ t.jbWritten = Config.lineStart) := by
  rcases underLock_eq_next.mp (show execHReset s = .next t from h) with ⟨-, rfl⟩ | ⟨-, h⟩
  · exact .inl rfl
  · split at h <;> cases h
    exact .inr ⟨rfl, rfl⟩

end

/-! ## The obligation -/

/-- Settles O55: RESET and CONFIGURE by what they set, every other operation by its effect on the line. -/
theorem sinkCountsFrames : Obligations.SinkCountsFrames := by
  intro i s t hinv h
  by_cases hreset : i = .hReset
  · subst hreset
    refine ⟨.inl rfl, fun hs _ _ => ?_⟩
    rcases exec_hReset_line h with rfl | ⟨hsink, hwritten⟩
    · exact hs
    · exact sinkCounts_of_empty hsink hwritten
  · by_cases hconf : ∃ m a b c d e r, i = .hConfigure m a b c d e r
    · have ⟨m, a, b, c, d, e, r, hi⟩ := hconf
      subst hi
      rcases exec_hConfigure_line h with hline | ⟨hsink, hwritten⟩
      · have hline : LineEffect s t := .kept hline
        exact ⟨.inr hline.sink_prefix, fun hs hroom _ => hline.sinkCounts hs hroom⟩
      · exact ⟨.inr (hsink ▸ List.prefix_rfl),
          fun _ _ hempty => sinkCounts_of_empty (hsink.trans (hempty hconf)) hwritten⟩
    · have hline := exec_lineEffect hinv h hreset hconf
      exact ⟨.inr hline.sink_prefix, fun hs hroom _ => hline.sinkCounts hs hroom⟩

end Sys2Proof.Machine

/-! SUPPORT. For O31, O32 and O37: the clock, the translations and CLOSE (R262, R263, R278). -/

namespace Sys2Proof.Machine

section
variable {s : State}

/-! ## What they run -/

theorem exec_jbSync (remote loc : Time) (hlock : s.lock = false) :
    exec (.jbSync remote loc) s = .next (syncClock remote loc s) :=
  underLock_free s _ hlock

theorem exec_hSync (remote loc : Time) (hlock : s.lock = false) :
    exec (.hSync remote loc) s =
      if s.mode = .ready ∨ s.mode = .faulted then .next (respond .ok (syncClock remote loc s))
      else .next (respond .badMode s) :=
  underLock_free s _ hlock

theorem exec_jbToRemote (x : Time) (hlock : s.lock = false) :
    exec (.jbToRemote x) s =
      if s.jbOffsetValid then .next { s with timeResult := toRemote s x } else .fault .offsetInvalid :=
  underLock_free s _ hlock

theorem exec_jbFromRemote (x : Time) (hlock : s.lock = false) :
    exec (.jbFromRemote x) s =
      if s.jbOffsetValid then .next { s with timeResult := fromRemote s x } else .fault .offsetInvalid :=
  underLock_free s _ hlock

theorem exec_jbClose (hlock : s.lock = false) : exec .jbClose s = .next (closeStream s) :=
  underLock_free s _ hlock

theorem exec_hClose (hlock : s.lock = false) : exec .hClose s = .next (respond .ok (closeStream s)) :=
  underLock_free s _ hlock

/-! ## The translations undo each other (R263) -/

theorem fromRemote_toRemote {x : Time} (h : timeFits (x.toInt + s.jbOffset.toInt)) :
    fromRemote s (toRemote s x) = x := by
  rw [fromRemote, toRemote, State.time_fits _ _ h, Int.add_sub_cancel, State.time_toInt]

theorem toRemote_fromRemote {x : Time} (h : timeFits (x.toInt - s.jbOffset.toInt)) :
    toRemote s (fromRemote s x) = x := by
  rw [toRemote, fromRemote, State.time_fits _ _ h, Int.sub_add_cancel, State.time_toInt]

theorem drainEnabled_closeStream (s : State) : drainEnabled (closeStream s) = false :=
  Bool.eq_false_iff.mpr fun h => Bool.noConfusion (drainEnabled_iff.mp h).2.1

end

/-! ## The obligations -/

/-- Settles O31: the offset is the model's time of remote - local; the mode decides whether H.SYNC is admitted. -/
theorem syncRule : Obligations.SyncRule := by
  intro remote loc s hlock
  refine ⟨s.time (remote.toInt - loc.toInt), s.time_fits _, exec_jbSync remote loc hlock, fun hmode => ?admitted,
    fun hmode => ?refused⟩
  case admitted =>
    rw [exec_hSync remote loc hlock, if_pos hmode]
    rfl
  case refused =>
    have hother : ¬ (s.mode = .ready ∨ s.mode = .faulted) := by
      rcases hmode with hmode | hmode <;> rw [hmode] <;> decide
    rw [exec_hSync remote loc hlock, if_neg hother]
    rfl

/-- Settles O32: where the first translation is exact, the second takes the offset away again. -/
theorem translationRule : Obligations.TranslationRule := by
  intro x s hlock
  refine ⟨fun hvalid => ?valid, fun hinvalid => ?invalid⟩
  case valid =>
    have hto : ∀ y, exec (.jbToRemote y) s = .next { s with timeResult := toRemote s y } := fun y =>
      (exec_jbToRemote y hlock).trans (if_pos hvalid)
    have hfrom : ∀ y, exec (.jbFromRemote y) s = .next { s with timeResult := fromRemote s y } := fun y =>
      (exec_jbFromRemote y hlock).trans (if_pos hvalid)
    refine ⟨fromRemote s x, toRemote s x, hto x, hfrom x, fun hfits => ⟨s.time_fits _ hfits, ?_⟩,
      fun hfits => ⟨s.time_fits _ hfits, ?_⟩⟩
    · rw [hfrom, fromRemote_toRemote hfits]
    · rw [hto, toRemote_fromRemote hfits]
  case invalid =>
    have hoff : ¬ s.jbOffsetValid = true := Bool.eq_false_iff.mp hinvalid
    exact ⟨(exec_jbToRemote x hlock).trans (if_neg hoff), (exec_jbFromRemote x hlock).trans (if_neg hoff)⟩

/-- Settles O37: both forms run `closeStream`, whose closing bit disables DRAIN (R270). -/
theorem closeRule : Obligations.CloseRule :=
  fun s hlock => ⟨exec_jbClose hlock, exec_hClose hlock, drainEnabled_closeStream s⟩

end Sys2Proof.Machine

/-! SUPPORT. For O33: JB.ENQ of checked bytes (R264 to R269). -/

namespace Sys2Proof.Machine

section
variable {s : State} {key : Time} {bytes : List Byte}

theorem exec_jbEnq (key : Time) (bytes : List Byte) (hlock : s.lock = false) :
    exec (.jbEnq key bytes) s = .next (checkedEnqueue key bytes s) :=
  underLock_free s _ hlock

theorem checkedEnqueue_closing (hclosing : s.jbClosing = true) : checkedEnqueue key bytes s = respond .badMode s := by
  rw [checkedEnqueue, enqueue, hclosing]
  rfl

/-- The two tests of R266 on exact times, then the insertion. -/
theorem checkedEnqueue_open (hclosing : s.jbClosing = false) (hok : enqueueBytesOk s bytes = true)
    (hfits : s.jbOffsetValid = true → timesFit s key (framesOf s bytes)) :
    checkedEnqueue key bytes s =
      if s.jbOffsetValid = true ∧ lineTime s key + framesOf s bytes ≤ s.jbWritten.toInt then
        respond .dropped (logEvent (.dropLate key) s)
      else if s.jbOffsetValid = true ∧
          (s.prm.jbHorizon : Int) < lineTime s key + framesOf s bytes - s.jbWritten.toInt then
        respond .dropped (logEvent (.dropEarly key) s)
      else admitEntry key bytes s := by
  rw [checkedEnqueue, hclosing, hok, Bool.or_true, if_pos rfl, enqueue, hclosing, if_neg Bool.false_ne_true]
  cases hvalid : s.jbOffsetValid with
  | false => simp
  | true => simp [toInt_entryEnd (hfits hvalid), toInt_entryLead (hfits hvalid)]

/-- A new key in a full queue (R268). -/
theorem admitEntry_full (hnew : ¬ (Queue.find s.jbQueue key).isSome = true)
    (hfull : s.jbQueue.length = s.prm.jbCapacity) :
    admitEntry key bytes s = respond .dropped (logEvent (.dropFull key) s) := by
  rw [admitEntry, Option.not_isSome_iff_eq_none.mp hnew]
  exact if_pos hfull

/-- A held key, or a new one where there is room (R267, R269). -/
theorem admitEntry_admitted
    (h : (Queue.find s.jbQueue key).isSome = true ∨ ¬ s.jbQueue.length = s.prm.jbCapacity) :
    admitEntry key bytes s =
      { s with
        resp := .status .ok
        jbQueue := Queue.put s.jbQueue key bytes
        log := if (Queue.find s.jbQueue key).isSome = true then s.log ++ [.replaced key] else s.log
        drainAwake := if (Queue.find s.jbQueue key).isSome = true then s.drainAwake else true } := by
  rcases admit_cases key bytes s with ⟨old, hheld, ha⟩ | ⟨hnew, hfull, -⟩ | ⟨hnew, -, ha⟩
  · rw [ha, hheld]
    rfl
  · rw [hnew] at h
    exact absurd hfull (h.resolve_left Bool.false_ne_true)
  · rw [ha, hnew]
    rfl

theorem Queue.length_put {q : List QueueEntry} (hq : Queue.wf q = true) (key : Time) (bytes : List Byte) :
    (Queue.put q key bytes).length = if (Queue.find q key).isSome = true then q.length else q.length + 1 := by
  by_cases hheld : (Queue.find q key).isSome = true
  · rw [if_pos hheld, Queue.length_put_held hq key bytes hheld]
  · rw [if_neg hheld, Queue.length_put_new q key bytes (Option.not_isSome_iff_eq_none.mp hheld)]

theorem Queue.find_put (q : List QueueEntry) (key : Time) (bytes : List Byte) (k : Time) :
    Queue.find (Queue.put q key bytes) k = if k = key then some bytes else Queue.find q k := by
  by_cases hk : k = key
  · rw [if_pos hk, hk, Queue.find_put_same]
  · rw [if_neg hk, Queue.find_put_other q key k bytes hk]

end

/-- Settles O33: the tests in R266's order, then the insertion by what the queue holds. -/
theorem enqueueRule : Obligations.EnqueueRule := by
  intro key bytes s hlock
  refine ⟨fun hclosing => ?closing, fun hok hqueue hfits => ?opened⟩
  case closing =>
    rw [exec_jbEnq key bytes hlock, checkedEnqueue_closing hclosing]
    rfl
  case opened =>
    intro ends late early held full
    have hrun : s.jbClosing = false → exec (.jbEnq key bytes) s =
        .next (if late then respond .dropped (logEvent (.dropLate key) s)
          else if early then respond .dropped (logEvent (.dropEarly key) s)
          else admitEntry key bytes s) := fun hopen => by
      rw [exec_jbEnq key bytes hlock, checkedEnqueue_open hopen hok hfits]
    refine ⟨fun hopen hlate => ?late, fun hopen hlate hearly => ?early,
      fun hopen hlate hearly hheld hfull => ?full, fun hopen hlate hearly hroom => ?admitted⟩
    case late =>
      rw [hrun hopen, if_pos hlate]
      rfl
    case early =>
      rw [hrun hopen, if_neg hlate, if_pos hearly]
      rfl
    case full =>
      rw [hrun hopen, if_neg hlate, if_neg hearly, admitEntry_full hheld hfull]
      rfl
    case admitted =>
      refine ⟨Queue.put s.jbQueue key bytes, ?_, Queue.wf_put hqueue key bytes, Queue.length_put hqueue key bytes,
        Queue.find_put s.jbQueue key bytes⟩
      rw [hrun hopen, if_neg hlate, if_neg hearly, admitEntry_admitted hroom]

end Sys2Proof.Machine

/-! SUPPORT. For O34, O35, O36 and O48: what the five drain steps do (R271 to R276), and the turns of the agents
that move by themselves (R270, R353). -/

namespace Sys2Proof.Machine

/-! ## The drain steps -/

section
variable {s : State} {key : Time} {bytes : List Byte} {rest : List QueueEntry}

/-- Whole frames are appended and the line moves by their number (R275). -/
theorem emit_eq {n : Nat} (hframes : framesOf s bytes = n) (hfits : timeFits (s.jbWritten.toInt + n)) :
    emit bytes s = { s with sink := s.sink ++ bytes, jbWritten := s.jbWritten + BitVec.ofNat 64 n } := by
  rw [emit, hframes, State.time_add_natCast hfits]

theorem emitSilence_frames {n : Nat} (hsize : 0 < bytesPerFrame s) (hfits : timeFits (s.jbWritten.toInt + n)) :
    emitSilence n s =
      { s with
        sink := s.sink ++ List.replicate (n * bytesPerFrame s) 0
        jbWritten := s.jbWritten + BitVec.ofNat 64 n } :=
  emit_eq (by rw [framesOf, List.length_replicate, Nat.mul_div_cancel n hsize]) hfits

theorem drainGapStep_entry (hq : s.jbQueue = (key, bytes) :: rest) :
    drainGapStep s = logEvent (.gap key) (emitSilence (min (drainGap s key).toInt.toNat (quantum s)) s) := by
  rw [drainGapStep, hq]

theorem drainEmit_entry (hq : s.jbQueue = (key, bytes) :: rest) :
    drainEmit s = { emit bytes s with jbQueue := rest } := by
  rw [drainEmit, withHead, hq]
  rfl

/-- Checked bytes have no part of a frame behind their whole frames. -/
theorem drainTrunc_entry (hq : s.jbQueue = (key, bytes) :: rest)
    (hwhole : framesOf s bytes * bytesPerFrame s = bytes.length) :
    drainTrunc s = logEvent (.truncated key)
      { emit (bytes.drop ((-(drainGap s key).toInt).toNat * bytesPerFrame s)) s with jbQueue := rest } := by
  have htake : bytes.take (framesOf s bytes * bytesPerFrame s) = bytes := by rw [hwhole, List.take_length]
  rw [drainTrunc, withHead, hq]
  dsimp only
  rw [htake]
  rfl

theorem drainSkip_entry (hq : s.jbQueue = (key, bytes) :: rest) :
    drainSkip s = logEvent (.skipped key) { s with jbQueue := rest } := by
  rw [drainSkip, withHead, hq]

/-- The last frames of an entry of whole frames (R274). -/
theorem framesOf_drop (hwhole : framesOf s bytes * bytesPerFrame s = bytes.length) (hsize : 0 < bytesPerFrame s)
    (d : Nat) : framesOf s (bytes.drop (d * bytesPerFrame s)) = framesOf s bytes - d := by
  rw [framesOf, List.length_drop, ← hwhole, ← Nat.sub_mul, Nat.mul_div_cancel _ hsize]

end

/-! ## The obligations of the drain -/

/-- Settles O34: each step is the selected one, and its silence fits the line. -/
theorem drainSilence : Obligations.DrainSilence := by
  intro s hlock henabled hsize
  refine ⟨fun hq hfits => ?idle, fun key bytes rest hq hfits => ?gap⟩
  case idle =>
    rw [exec_jbDrainIdle, drainAs_selected _ hlock henabled (drainStep_empty hq), drainIdle,
      emitSilence_frames hsize hfits]
  case gap =>
    intro gap silent hgap
    obtain ⟨hline, -, -, hgapFits, -⟩ := hfits
    have hstep : drainStep s = .jbDrainGap := (drainStep_entry hq hline hgapFits).trans (if_pos hgap)
    have hsilent : timeFits (s.jbWritten.toInt + silent) := by
      have hle : silent ≤ gap.toNat := Nat.min_le_left ..
      have hlow := s.jbWritten.le_toInt
      constructor <;> omega
    rw [exec_jbDrainGap, drainAs_selected _ hlock henabled hstep, drainGapStep_entry hq,
      toInt_drainGap hline hgapFits, emitSilence_frames hsize hsilent]
    rfl

/-- Settles O35: each step is the selected one, and takes the first entry. -/
theorem drainEntry : Obligations.DrainEntry := by
  intro key bytes rest s hlock henabled hq hok hfits n gap
  obtain ⟨hsize, hwhole, hsome, -⟩ := enqueueBytesOk_frames hok
  obtain ⟨hline, -, -, hgapFits, hend⟩ := hfits
  have hstep := drainStep_entry hq hline hgapFits
  have hdrainGap : (drainGap s key).toInt = gap := toInt_drainGap hline hgapFits
  refine ⟨fun hgap => ?emit, fun hlow hneg => ?trunc, fun hbehind => ?skip⟩
  case emit =>
    have hsel : drainStep s = .jbDrainEmit := by rw [hstep, if_neg (by omega), if_pos hgap]
    rw [exec_jbDrainEmit, drainAs_selected _ hlock henabled hsel, drainEmit_entry hq,
      emit_eq (n := n) rfl hend]
  case trunc =>
    have hsel : drainStep s = .jbDrainTrunc := by
      rw [hstep, if_neg (by omega), if_neg (by omega), if_pos hlow]
    have hbehind : (-gap).toNat = gap.natAbs := by omega
    have hframes : framesOf s (bytes.drop (gap.natAbs * bytesPerFrame s)) = n - gap.natAbs :=
      framesOf_drop hwhole hsize _
    have hfits : timeFits (s.jbWritten.toInt + (n - gap.natAbs : Nat)) := by
      have hstart := s.jbWritten.le_toInt
      constructor <;> omega
    rw [exec_jbDrainTrunc, drainAs_selected _ hlock henabled hsel, drainTrunc_entry hq hwhole, hdrainGap, hbehind,
      emit_eq hframes hfits]
    rfl
  case skip =>
    have hsel : drainStep s = .jbDrainSkip := by
      rw [hstep, if_neg (by omega), if_neg (by omega), if_neg (by omega)]
    rw [exec_jbDrainSkip, drainAs_selected _ hlock henabled hsel, drainSkip_entry hq]
    rfl

/-- Each of the five steps is guarded by being the selected one. -/
theorem exec_drainOp {op : Instr}
    (h : op ∈ [Instr.jbDrainIdle, .jbDrainGap, .jbDrainEmit, .jbDrainTrunc, .jbDrainSkip]) (s : State) :
    ∃ go, exec op s = drainAs op s go := by
  simp only [List.mem_cons, List.not_mem_nil, or_false] at h
  rcases h with rfl | rfl | rfl | rfl | rfl <;> exact ⟨_, rfl⟩

theorem drainStep_mem (s : State) :
    drainStep s ∈ [Instr.jbDrainIdle, .jbDrainGap, .jbDrainEmit, .jbDrainTrunc, .jbDrainSkip] := by
  rcases drainStep_cases s with ⟨-, h⟩ | ⟨-, -, -, -, h | h | h | h⟩ <;> rw [h] <;> decide

/-- Settles O36: of an enabled DRAIN the selected step runs alone, and the exact gap says which it is. -/
theorem drainExclusive : Obligations.DrainExclusive := by
  intro s hlock enabled steps only
  have honly : enabled → only (drainStep s) := fun hen => by
    refine ⟨?_, fun other hmem hne => ?_⟩
    · obtain ⟨go, hgo⟩ := exec_drainOp (drainStep_mem s) s
      exact ⟨go, hgo.trans (drainAs_selected go hlock (drainEnabled_iff.mpr hen) rfl)⟩
    · obtain ⟨go, hgo⟩ := exec_drainOp hmem s
      exact hgo.trans (drainAs_notSelected go hlock (.inr hne.symm))
  refine ⟨fun hen op hmem => ?disabled, fun hen => ⟨drainStep s, drainStep_mem s, honly hen⟩,
    fun hen hq => drainStep_empty hq ▸ honly hen, fun key bytes rest hen hq hsome hline hgapFits => ?entry⟩
  case disabled =>
    obtain ⟨go, hgo⟩ := exec_drainOp hmem s
    exact hgo.trans (drainAs_notSelected go hlock (.inl (Bool.eq_false_iff.mpr (hen ∘ drainEnabled_iff.mp))))
  case entry =>
    intro n gap
    have hstep := drainStep_entry hq hline hgapFits
    have hn : 0 < n := Int.natCast_pos.mpr hsome
    have hrun : ∀ {op}, drainStep s = op → only op := fun hop => hop ▸ honly hen
    refine ⟨fun hgap => hrun ?_, fun hgap => hrun ?_, fun hlow hneg => hrun ?_, fun hbehind => hrun ?_⟩
    · rw [hstep, if_pos hgap]
    · rw [hstep, if_neg (by omega), if_pos hgap]
    · rw [hstep, if_neg (by omega), if_neg (by omega), if_pos hlow]
    · rw [hstep, if_neg (by omega), if_neg (by omega), if_neg (by omega)]

/-! ## Turns -/

section
variable {s : State}

/-- With the lock free a fetched operation runs (R72). -/
theorem runFetched_run_free {u : State} (i : Instr) (hlock : u.lock = false) :
    runFetched s (.run i u) = exec i u := by
  rw [runFetched_run, hlock, Bool.and_false]
  rfl

theorem fetchDrain_moves (hawake : s.drainAwake = true) (henabled : drainEnabled s = true) :
    fetchDrain s = .run (drainStep s) s := by
  rw [fetchDrain, hawake, henabled]
  rfl

theorem fetchDrain_rests (h : s.drainAwake = false ∨ drainEnabled s = false) : fetchDrain s = .done (.next s) := by
  rcases h with h | h <;> simp [fetchDrain, h]

theorem fetchDec_pending {bytes : List Byte} (hpend : s.decPend = true)
    (hbytes : Memory.readBytes s.pcm 0 s.decLen = some bytes) :
    fetchDec s = .run (.jbEnq s.decKey bytes) { s with decPend := false } := by
  rw [fetchDec, if_pos hpend, hbytes]

theorem fetchDec_idle (hpend : s.decPend = false) : fetchDec s = .done (.next s) := by
  rw [fetchDec, hpend, if_neg Bool.false_ne_true]

/-- SINK_READY becoming 1 wakes DRAIN (R353). -/
theorem driveSink_eq (ready : Bool) (s : State) :
    driveSink ready s =
      { s with sinkReady := ready, drainAwake := s.drainAwake || (ready && !s.sinkReady) } := by
  rw [driveSink]
  cases ready <;> cases s.sinkReady <;> simp

end

/-- Settles O48: what each turn fetches, in the state with the turn taken. -/
theorem stepAgentTurns : Obligations.StepAgentTurns := by
  intro rest s hlock s1
  have hlock1 : s1.lock = false := hlock
  refine ⟨fun hturn hawake henabled => ?drain, fun hturn hrests => ?rests, fun hturn => ?sleep,
    fun ready hturn => ?sink, fun bytes hturn hpend hbytes => ?enqueue, fun hturn hpend => ?noEnqueue,
    fun hnone => ?noTurn⟩
  case drain =>
    have hfetch : fetchTurn s1 .drain = .run (drainStep s1) s1 := fetchDrain_moves hawake henabled
    rw [step_of_agenda hturn, hfetch, runFetched_run_free _ hlock1]
  case rests =>
    have hfetch : fetchTurn s1 .drain = .done (.next s1) := fetchDrain_rests hrests
    rw [step_of_agenda hturn, hfetch]
    rfl
  case sleep =>
    rw [step_of_agenda hturn]
    rfl
  case sink =>
    have hfetch : fetchTurn s1 (.sink ready) = .done (.next (driveSink ready s1)) := rfl
    rw [step_of_agenda hturn, hfetch, driveSink_eq]
    rfl
  case enqueue =>
    have hfetch : fetchTurn s1 .dec = .run (.jbEnq s.decKey bytes) { s1 with decPend := false } :=
      fetchDec_pending hpend hbytes
    rw [step_of_agenda hturn, hfetch]
    exact runFetched_run_free _ hlock
  case noEnqueue =>
    have hfetch : fetchTurn s1 .dec = .done (.next s1) := fetchDec_idle hpend
    rw [step_of_agenda hturn, hfetch]
    rfl
  case noTurn =>
    rw [step, fetch, hnone]
    rfl

end Sys2Proof.Machine

/-! SUPPORT. For O40: no step of a DECODE stops (R322 to R326). Where every byte that BC_LEN counts is there and
the mode is READY, each step raises or succeeds. -/

namespace Sys2Proof.Machine

/-! ## Steps that do not stop -/

/-- The steps do not stop: they raise, or they succeed in a state that has the property. -/
def Res.Completes {α : Type} (P : State → Prop) : Res α → Prop
  | .ok _ t => P t
  | .raised _ => True
  | .stuck _ => False

section
variable {α β : Type} {P Q : State → Prop} {r : Res α}

theorem Res.Completes.mono (hr : r.Completes P) (h : ∀ t, P t → Q t) : r.Completes Q := by
  cases r with
  | ok v t => exact h t hr
  | raised t => trivial
  | stuck f => exact hr

theorem Res.Completes.bind {k : α → State → Res β} (hr : r.Completes P) (hk : ∀ v t, P t → (k v t).Completes Q) :
    (r.bind k).Completes Q := by
  cases r with
  | ok v t => exact hk v t hr
  | raised t => trivial
  | stuck f => exact hr

theorem Res.Completes.ite {p : Prop} [Decidable p] {r' : Res α} (h : p → r.Completes P)
    (h' : ¬ p → r'.Completes P) : (if p then r else r').Completes P := by
  split
  · exact h ‹p›
  · exact h' ‹¬ p›

/-- A raise in READY is taken (R330, R333). -/
theorem Res.Completes.raise {s : State} (e : Cause) (info : Word) (hmode : s.mode = .ready) :
    (raise e info s : Res α).Completes P := by
  rw [Machine.raise, if_pos hmode]
  trivial

end

theorem Res.Completes.forRes {P : State → Prop} {body : Nat → State → Res Unit} (n : Nat)
    (h : ∀ i t, P t → (body i t).Completes P) {s : State} (hs : P s) : (forRes n body s).Completes P := by
  induction n with
  | zero => exact hs
  | succ n ih => exact ih.bind fun _ t ht => h n t ht

theorem Res.Completes.eachChan {P : State → Prop} {body : Chan → State → Res Unit} (cs : List Chan)
    (h : ∀ c t, P t → (body c t).Completes P) {s : State} (hs : P s) : (eachChan cs body s).Completes P := by
  induction cs generalizing s with
  | nil => exact hs
  | cons c cs ih => exact (h c s hs).bind fun _ t ht => ih ht

/-! ## The bit cursor -/

/-- Reads do not stop: a raise is taken (R21), and PAYLOAD has every bit that BC_LEN counts (R60, R131). -/
structure Readable (s : State) : Prop where
  mode : s.mode = .ready
  bits : ∀ p < 8 * s.bcLen.toNat, payloadBit s.payload p ≠ none

/-- A read of a legal width raises, or moves POS to a place that is not behind the payload's end. -/
theorem Readable.readBits_moves {s : State} (hs : Readable s) {n : Nat} (h1 : 1 ≤ n) (h32 : n ≤ 32) :
    (readBits n s).Completes fun t => t = s.setPos (s.pos + n) ∧ s.pos + n ≤ 8 * s.bcLen.toNat := by
  by_cases hend : s.pos + n ≤ 8 * s.bcLen.toNat
  · obtain ⟨v, -, -, hread⟩ := readBits_of_present h1 h32 hend fun i hi => hs.bits _ (by omega)
    rw [hread]
    exact ⟨rfl, hend⟩
  · rw [readBits_beyond h1 h32 (Nat.lt_of_not_le hend)]
    exact .raise _ _ hs.mode

theorem Readable.readBits {s : State} (hs : Readable s) {n : Nat} (h1 : 1 ≤ n := by decide)
    (h32 : n ≤ 32 := by decide) : (readBits n s).Completes Readable :=
  (hs.readBits_moves h1 h32).mono fun _ ⟨ht, _⟩ => ht ▸ { hs with }

/-! ## The header and the mix fields -/

/-- A state behind a frame's header: its samples fit the buffers and the stream's format has a pack. -/
structure BodyReady (s : State) : Prop extends Readable s where
  size : sampleSizeOk s = true
  channels : s.cfgChannels.toNat ≤ 2
  count : s.fhN.toNat ≤ s.prm.bufSamples

/-- A state behind the UB of a compressed frame: the raw bytes and an escape have a width to read (R217). -/
structure CompressedReady (s : State) : Prop extends BodyReady s where
  ub : s.fhUb.toNat ≤ 2
  rss : 1 ≤ s.fhRss.toNat ∧ s.fhRss.toNat ≤ 32

section
variable {s : State}

theorem Readable.readChan (hs : Readable s) : (readChan s).Completes Readable :=
  (hs.readBits (n := 3)).bind fun _ _ ht =>
    .ite (fun _ => .raise _ _ ht.mode) fun _ => .ite (fun _ => .raise _ _ ht.mode) fun _ => { ht with }

theorem Readable.readFlags (hs : Readable s) : (readFlags s).Completes Readable :=
  (hs.readBits (n := 16)).bind fun _ _ h1 =>
    (h1.readBits (n := 1)).bind fun hasSize s2 h2 =>
      have h2' : Readable { s2 with fhHasSize := hasSize.setWidth 1 } := { h2 with }
      (h2'.readBits (n := 2)).bind fun ub s3 h3 =>
        have h3' : Readable { s3 with fhUb := ub.setWidth 2 } := { h3 with }
        (h3'.readBits (n := 1)).bind fun _ _ h4 => { h4 with }

/-- The samples that a header counts are no more than the stream's (R216). -/
theorem Readable.checkCount (hs : Readable s) (n : Word) :
    (checkCount n s).Completes fun t => Readable t ∧ t.fhN.toNat ≤ t.cfgMaxSamples.toNat :=
  .ite (fun _ => .raise _ _ hs.mode) fun hle => ⟨{ hs with }, Nat.le_of_not_lt hle⟩

theorem Readable.readCount (hs : Readable s) :
    (readCount s).Completes fun t => Readable t ∧ t.fhN.toNat ≤ t.cfgMaxSamples.toNat :=
  .ite (fun _ => (hs.readBits (n := 32)).bind fun n _ ht => ht.checkCount n)
    fun _ => hs.checkCount _

/-- The ranges of R301. -/
theorem configOk_iff {m : BitVec 32} {kmod channels : BitVec 8} :
    configOk s m kmod channels = true ↔ 1 ≤ m.toNat ∧ m.toNat ≤ s.prm.bufSamples ∧
      (channels = 1 ∨ channels = 2) ∧ 1 ≤ kmod.toNat ∧ kmod.toNat ≤ 31 := by
  simp only [configOk, Bool.and_eq_true, Bool.or_eq_true, decide_eq_true_eq, beq_iff_eq, and_assoc]

/-- What a legal configuration bounds (R301). -/
theorem configLegal_bounds (h : configLegal s = true) :
    s.cfgMaxSamples.toNat ≤ s.prm.bufSamples ∧ s.cfgChannels.toNat ≤ 2 := by
  obtain ⟨-, hmax, hchannels, -⟩ := configOk_iff.mp h
  refine ⟨hmax, ?_⟩
  rcases hchannels with hc | hc <;> rw [hc] <;> decide

/-- A header is read, or raises (R211 to R216). -/
theorem Readable.frameHeader {len : Word} (hs : Readable (initCursor len s)) (hconf : configLegal s = true) :
    (frameHeader len s).Completes BodyReady := by
  have hsteps := Decodes.frameHeader len s
  have hcompletes : (Machine.frameHeader len s).Completes fun t =>
      (Readable t ∧ t.fhN.toNat ≤ t.cfgMaxSamples.toNat) ∧ sampleSizeOk s = true :=
    .ite (fun hsize => (hs.readChan.bind fun _ _ h1 => h1.readFlags.bind fun _ _ h2 => h2.readCount).mono
      fun _ ht => ⟨ht, hsize⟩) fun _ => .raise _ _ hs.mode
  cases hres : Machine.frameHeader len s with rw [hres] at hsteps hcompletes
  | ok v t =>
    obtain ⟨⟨hread, hcount⟩, hsize⟩ := hcompletes
    have same {β : Type} (f : State → β) : f t.outsideDecoder = f s.outsideDecoder := congrArg f hsteps.outside
    have hlegal : configLegal t = true := (same configLegal).trans hconf
    obtain ⟨hmax, hchannels⟩ := configLegal_bounds hlegal
    exact { hread with
      size := (same sampleSizeOk).trans hsize, channels := hchannels, count := hcount.trans hmax }
  | raised t => trivial
  | stuck f => exact hcompletes

/-- A legal UB leaves a byte of each sample at least, so RSS lies in 8 to 31 whatever the channel field is (R217). -/
theorem BodyReady.checkUb (hs : BodyReady s) : (checkUb s).Completes CompressedReady := by
  refine .ite (fun _ => .raise _ _ hs.mode) fun hub => ?_
  have hlegal : s.fhUb = 0 ∨ (s.cfgSampleSize = 24 ∧ s.fhUb.toNat ≤ 2) :=
    or_iff_not_imp_left.mpr fun h0 => not_not.mp fun h => hub ⟨h0, h⟩
  have hbounds : s.fhUb.toNat ≤ 2 ∧ 8 * s.fhUb.toNat + 8 ≤ s.cfgSampleSize.toNat ∧ s.cfgSampleSize.toNat ≤ 24 := by
    rcases hlegal with h0 | ⟨h24, hub2⟩
    · rcases sampleSizeOk_iff.mp hs.size with hsize | hsize <;> rw [h0, hsize] <;> decide
    · rw [h24, show (24 : BitVec 8).toNat = 24 from rfl]
      omega
  obtain ⟨hub2, hlow, hhigh⟩ := hbounds
  have hchan := s.fhChan.isLt
  have hrss : (BitVec.ofNat 6 (s.cfgSampleSize.toNat - 8 * s.fhUb.toNat + s.fhChan.toNat)).toNat =
      s.cfgSampleSize.toNat - 8 * s.fhUb.toNat + s.fhChan.toNat := by
    rw [BitVec.toNat_ofNat, Nat.mod_eq_of_lt (by omega)]
  exact { hs with ub := hub2, rss := by rw [hrss]; omega }

theorem CompressedReady.setPos (hs : CompressedReady s) (p : Nat) : CompressedReady (s.setPos p) := { hs with }

theorem CompressedReady.readBits (hs : CompressedReady s) {n : Nat} (h1 : 1 ≤ n := by decide)
    (h32 : n ≤ 32 := by decide) : (readBits n s).Completes CompressedReady :=
  (hs.readBits_moves h1 h32).mono fun _ ⟨ht, _⟩ => ht ▸ hs.setPos _

theorem CompressedReady.readMix (hs : CompressedReady s) : (readMix s).Completes CompressedReady :=
  .ite (fun _ => (hs.readBits (n := 16)).bind fun _ _ ht => { ht with }) fun _ =>
    (hs.readBits (n := 8)).bind fun shift s1 h1 =>
      have h1' : CompressedReady { s1 with fhShift := shift.setWidth 8 } := { h1 with }
      (h1'.readBits (n := 8)).bind fun _ _ h2 =>
        .ite (fun _ => .raise _ _ h2.mode) fun _ => { h2 with }

end

/-! ## Behind the header and the mix fields -/

section
variable {u t : State} {n : Nat}

/-- The body's steps leave what a read needs. -/
theorem Readable.bodyStep (hu : Readable u) (ht : BodyStep u t) : Readable t where
  mode := (ht.same State.mode fun _ => rfl).trans hu.mode
  bits := by
    rw [ht.same State.bcLen fun _ => rfl, ht.same State.payload fun _ => rfl]
    exact hu.bits

theorem BodyReady.bodyStep (hu : BodyReady u) (ht : BodyStep u t) : BodyReady t where
  toReadable := hu.toReadable.bodyStep ht
  size := (ht.same sampleSizeOk fun _ => rfl).trans hu.size
  channels := by rw [ht.same State.cfgChannels fun _ => rfl]; exact hu.channels
  count := by rw [ht.same State.fhN fun _ => rfl, ht.same State.prm fun _ => rfl]; exact hu.count

theorem CompressedReady.bodyStep (hu : CompressedReady u) (ht : BodyStep u t) : CompressedReady t where
  toBodyReady := hu.toBodyReady.bodyStep ht
  ub := by rw [ht.same State.fhUb fun _ => rfl]; exact hu.ub
  rss := by rw [ht.same State.fhRss fun _ => rfl]; exact hu.rss

theorem BodyStep.then_setPos (ht : BodyStep u t) (p : Nat) : BodyStep u (t.setPos p) := ht

theorem Readable.readBits_body (hu : Readable u) (ht : BodyStep u t) (h1 : 1 ≤ n := by decide)
    (h32 : n ≤ 32 := by decide) : (Machine.readBits n t).Completes (BodyStep u) :=
  ((hu.bodyStep ht).readBits_moves h1 h32).mono fun _ ⟨hmoved, _⟩ => hmoved ▸ ht.then_setPos _

theorem BodyStep.then_setChan (ht : BodyStep u t) (c : Chan) (r : ChanRegs) : BodyStep u (t.setChan c r) :=
  ht.trans (.setChan t c r)

/-! ### Channel headers and raw bytes -/

theorem Readable.readCoef (hu : Readable u) (c : Chan) (j : Nat) (t : State) (ht : BodyStep u t) :
    (readCoef c j t).Completes (BodyStep u) :=
  (hu.readBits_body ht (n := 16)).bind fun _ _ h => h.then_setChan c _

theorem Readable.readTable (hu : Readable u) (ht : BodyStep u t) (c : Chan) :
    (readTable c t).Completes (BodyStep u) :=
  (hu.readBits_body ht (n := 4)).bind fun _ _ h1 =>
    (hu.readBits_body (h1.then_setChan c _) (n := 3)).bind fun _ _ h2 =>
      (hu.readBits_body (h2.then_setChan c _) (n := 5)).bind fun _ _ h3 =>
        .forRes _ (hu.readCoef c) (h3.then_setChan c _)

theorem Readable.channelHeader (hu : Readable u) (c : Chan) (t : State) (ht : BodyStep u t) :
    (channelHeader c t).Completes (BodyStep u) :=
  (hu.readBits_body ht (n := 4)).bind fun _ _ h1 =>
    .ite (fun _ => .raise _ _ (hu.bodyStep (h1.then_setChan c _)).mode) fun _ => hu.readTable (h1.then_setChan c _) c

theorem Readable.readRaw (hu : Readable u) {ub : Nat} (hub : 1 ≤ ub ∧ ub ≤ 4) (i : Nat) (c : Chan) (t : State)
    (ht : BodyStep u t) : (readRaw ub i c t).Completes (BodyStep u) :=
  (hu.readBits_body ht (n := 8 * ub) (by omega) (by omega)).bind fun _ _ h => h.then_setChan c _

theorem CompressedReady.rawLow (hu : CompressedReady u) (ht : BodyStep u t) : (rawLow t).Completes (BodyStep u) := by
  refine .ite (fun _ => ht) fun hub => ?_
  have htr := hu.bodyStep ht
  have hub0 : t.fhUb.toNat ≠ 0 := fun h0 => hub (BitVec.eq_of_toNat_eq h0)
  have hub2 := htr.ub
  rw [withinBuffers_of_le _ htr.count]
  exact .forRes _ (fun i _ => .eachChan _ (hu.readRaw (by omega) i)) ht

/-! ### Rice streams and predictors -/

theorem Readable.ricePrefix (hu : Readable u) (room x : Nat) (ht : BodyStep u t) :
    (ricePrefix room x t).Completes (BodyStep u) := by
  induction room generalizing x t with
  | zero => exact ht
  | succ room ih =>
    exact (hu.readBits_body ht (n := 1)).bind fun _ _ h =>
      .ite (fun _ => ih (x + 1) h) fun _ => h

/-- The bit that a short word hands back is one that it has read (R154). -/
theorem Readable.riceExtra (hu : Readable u) (ht : BodyStep u t) {k : Int} (hk : 1 ≤ k ∧ k ≤ 31) (mask : Word)
    (x : Nat) : (riceExtra k mask x t).Completes (BodyStep u) := by
  refine ((hu.bodyStep ht).readBits_moves (n := k.toNat) (by omega) (by omega)).bind fun _ t' ⟨hmoved, hend⟩ => ?_
  have ht' : BodyStep u t' := hmoved ▸ ht.then_setPos _
  refine .ite (fun _ => ht') fun _ => ?_
  have hpos : 1 ≤ t'.pos := by
    rw [hmoved, pos_setPos_of_le_end hend]
    omega
  rcases unreadBits_cases 1 t' with ⟨-, hback⟩ | ⟨hlt, -⟩
  · rw [hback]
    exact ht'
  · omega

theorem Readable.decodeValue (hu : Readable u) (ht : BodyStep u t) (hn : 1 ≤ n ∧ n ≤ 32) (k : Int) (mask : Word) :
    (decodeValue n k mask t).Completes (BodyStep u) := by
  refine Res.Completes.bind (P := BodyStep u) ?_ fun _ _ h => h
  refine .ite (fun _ => .raise _ _ (hu.bodyStep ht).mode) fun hk => ?_
  exact (hu.ricePrefix _ 0 ht).bind fun x _ h =>
    .ite (fun _ => (hu.readBits_body h hn.1 hn.2).bind fun _ _ h' => h') fun _ =>
      .ite (fun _ => h) fun _ => hu.riceExtra h (by omega) mask x

variable {o : RiceOperands}

theorem BodyStep.storeSample (ht : BodyStep u t) (c : Chan) (i : Nat) (hm d : Word) :
    BodyStep u (storeSample c i hm d t) :=
  have hresid : BodyStep u (setResid c i (fold d) t) := ht.then_setChan c _
  hresid

theorem BodyStep.storeRun (ht : BodyStep u t) (c : Chan) (i : Nat) (b : Word) : BodyStep u (storeRun c i b t) := by
  have hzeroed : BodyStep u (if 0 < b.toInt then zeroResid c (i + 1) b.toNat t else t) := by
    split
    · exact ht.then_setChan c _
    · exact ht
  exact hzeroed

theorem Readable.riceSample (hu : Readable u) (ht : BodyStep u t) (c : Chan) {i : Nat}
    (hw : 1 ≤ o.width ∧ o.width ≤ 32) (hi : i < u.prm.bufSamples) : (riceSample c i o t).Completes (BodyStep u) := by
  have hprm : t.prm = u.prm := ht.same State.prm fun _ => rfl
  refine .ite (fun hfull => ?_) fun _ => (hu.decodeValue ht hw ..).bind fun _ _ h => h.storeSample ..
  rw [hprm] at hfull
  omega

/-- A run that ends within the stream's samples ends within the buffers (R160). -/
theorem Readable.riceRun (hu : Readable u) (ht : BodyStep u t) (c : Chan) (i : Nat)
    (hbuf : o.count ≤ u.prm.bufSamples) : (riceRun c i o t).Completes (BodyStep u) := by
  refine .ite (fun _ => .raise _ _ (hu.bodyStep ht).mode) fun _ => ?_
  have hcarry : BodyStep u { t with rsSignMod := 1 } := ht
  refine (hu.decodeValue hcarry (by decide) ..).bind fun b t' ht' => ?_
  have hprm : t'.prm = u.prm := ht'.same State.prm fun _ => rfl
  refine .ite (fun _ => .raise _ _ (hu.bodyStep ht').mode) fun hrun => .ite (fun hfull => ?_) fun _ => ht'.storeRun ..
  rw [hprm] at hfull
  omega

theorem Readable.riceLoop (hu : Readable u) (ht : BodyStep u t) (c : Chan) (hw : 1 ≤ o.width ∧ o.width ≤ 32)
    (hbuf : o.count ≤ u.prm.bufSamples) (fuel i : Nat) : (riceLoop c o fuel i t).Completes (BodyStep u) := by
  induction fuel generalizing i t with
  | zero => exact ht
  | succ fuel ih =>
    exact .ite (fun _ => ht) fun hi => (hu.riceSample ht c hw (by omega)).bind fun _ _ h =>
      .ite (fun _ => (hu.riceRun h c i hbuf).bind fun _ _ h' => ih h' _) fun _ => ih h _

theorem BodyReady.lpFir (hu : BodyReady u) (ht : BodyStep u t) (c : Chan) (order : BitVec 5) :
    (lpFir c order t).Completes (BodyStep u) := by
  obtain ⟨out, coef, hrun, -⟩ := lpFir_runs c order (hu.bodyStep ht).count
  rw [hrun]
  exact ht.then_setChan c _

theorem CompressedReady.decodeChannel (hu : CompressedReady u) (c : Chan) (t : State) (ht : BodyStep u t) :
    (decodeChannel c t).Completes (BodyStep u) := by
  have htr := hu.bodyStep ht
  have hbuf : (riceOperands t c).count ≤ u.prm.bufSamples := by
    rw [← ht.same State.prm fun _ => rfl]
    exact htr.count
  have hstart : BodyStep u { t with rsHistory := (riceOperands t c).initHist, rsSignMod := 0 } := ht
  exact (hu.riceLoop hstart c htr.rss hbuf _ 0).bind fun _ _ h => hu.lpFir h c _

/-! ### Whole bodies -/

theorem BodyReady.compressedBody (hu : BodyReady u) : (compressedBody u).Completes BodyReady :=
  hu.checkUb.bind fun _ _ h1 => h1.readMix.bind fun _ s2 h2 =>
    (Res.Completes.eachChan _ h2.channelHeader (BodyStep.refl s2)).bind fun _ _ h3 =>
      (h2.rawLow h3).bind fun _ _ h4 =>
        (Res.Completes.eachChan _ h2.decodeChannel h4).mono fun _ h5 => h2.toBodyReady.bodyStep h5

theorem BodyReady.readVerbatim (hu : BodyReady u) (size : BitVec 8) (i : Nat) (c : Chan) (t : State)
    (ht : BodyStep u t) : (readVerbatim size i c t).Completes (BodyStep u) :=
  .ite (fun _ => (hu.readBits_body ht (n := 16)).bind fun _ _ h => h.then_setChan c _) fun _ =>
    (hu.readBits_body ht (n := 16)).bind fun _ _ h =>
      (hu.readBits_body h (n := 8)).bind fun _ _ h' => h'.then_setChan c _

theorem BodyReady.verbatim (hu : BodyReady u) : (verbatim u).Completes BodyReady := by
  rw [Machine.verbatim, withinBuffers_of_le _ hu.count]
  exact (Res.Completes.forRes _ (fun i _ => .eachChan _ (hu.readVerbatim _ i)) (BodyStep.refl u)).mono
    fun _ h => hu.bodyStep h

theorem BodyReady.kindBody (hu : BodyReady u) (kind : FrameKind) : (kindBody kind u).Completes BodyReady := by
  have hverbatim : (verbatimBody u).Completes BodyReady := BodyReady.verbatim { hu with }
  cases kind with
  | monoC | stereoC => exact hu.compressedBody
  | monoU | stereoU => exact hverbatim

theorem BodyReady.deinterlace (hu : BodyReady u) : (deinterlace u).Completes BodyReady := by
  refine .ite (fun _ => hu) fun hstereo => .ite (fun _ => ?direct) fun _ => ?weighted
  case direct =>
    obtain ⟨l, r, hrun, -⟩ := mixDirect_runs u.fhShift hstereo hu.count
    rw [hrun]
    exact { hu with }
  case weighted =>
    obtain ⟨l, r, hrun, -⟩ := mixWeighted_runs u.fhShift u.fhLeftWeight hstereo hu.count
    rw [hrun]
    exact { hu with }

theorem BodyReady.pack (hu : BodyReady u) : (pack u).Completes BodyReady := by
  rw [pack_eq hu.size, packReady_of_fits _ hu.channels hu.count]
  exact { hu with }

end

/-! ## A whole frame -/

/-- A frame up to its completion (R210): the header, the body, the deinterlacing, the pack. -/
def packedFrame (len : Word) (s : State) : Res Unit :=
  (frameHeader len s).bind fun _ s1 =>
  (kindBody (frameKind s1) s1).bind fun _ s2 =>
  (deinterlace s2).bind fun _ s3 => pack s3

/-- The completion is the last step of a frame, and cannot raise (R228). -/
theorem decodeOneFrame_eq (len : Word) (s : State) :
    decodeOneFrame len s = (packedFrame len s).bind fun _ t => .ok () (completeFrame t) := by
  simp only [decodeOneFrame, frameBody, packedFrame, Res.bind_assoc]

theorem Decodes.packedFrame (len : Word) (s : State) : Decodes s (packedFrame len s) :=
  (Decodes.frameHeader len s).bind fun _ s1 =>
    (Decodes.kindBody _ s1).bind fun _ s2 => (Decodes.deinterlace s2).bind fun _ s3 => .pack s3

theorem Readable.packedFrame {len : Word} {s : State} (hs : Readable (initCursor len s))
    (hconf : configLegal s = true) : (packedFrame len s).Completes BodyReady :=
  (hs.frameHeader hconf).bind fun _ _ h1 =>
    (h1.kindBody _).bind fun _ _ h2 => h2.deinterlace.bind fun _ _ h3 => h3.pack

/-! ## The payload of a DECODE -/

theorem bitsOfBytes_eq_flatMap (bytes : List Byte) :
    bitsOfBytes bytes = bytes.flatMap fun b => bitsOfNat 8 b.toNat := by
  induction bytes with
  | nil => rfl
  | cons b rest ih => rw [bitsOfBytes, ih, List.flatMap_cons]

theorem length_bitsOfBytes (bytes : List Byte) : (bitsOfBytes bytes).length = bytes.length * 8 := by
  simp [bitsOfBytes_eq_flatMap, List.length_flatMap]

/-- Bit j of a field, its most significant bit being bit 0 (R9). -/
theorem getElem?_bitsOfNat {n v j : Nat} (hj : j < n) : (bitsOfNat n v)[j]? = some (v.testBit (n - 1 - j)) := by
  induction n generalizing j with
  | zero => omega
  | succ n ih =>
    rw [bitsOfNat]
    cases j with
    | zero => simp
    | succ j =>
      rw [List.getElem?_cons_succ, ih (by omega)]
      congr 2
      omega

/-- The bits of a loaded payload are those of its bytes, in order (R9, R60). -/
theorem payloadBit_loadPayload (key : Time) (payload : List Byte) (s : State) {p : Nat} (hp : p < payload.length * 8) :
    payloadBit (loadPayload key payload s).payload p = (bitsOfBytes payload)[p]? := by
  have hbyte : p / 8 < payload.length := by omega
  have hread : Memory.read (loadPayload key payload s).payload (p / 8) = some payload[p / 8] := by
    have hwritten := Memory.read_writeBytes s.payload 0 payload (p / 8)
    rwa [dif_pos (by omega)] at hwritten
  have hbit := getElem?_flatMap_of_length (fun b : Byte => bitsOfNat 8 b.toNat) (fun _ => length_bitsOfNat ..)
    payload (p / 8) (Nat.mod_lt p (by decide : 0 < 8))
  rw [Nat.div_add_mod', List.getElem?_eq_getElem hbyte, Option.bind_some, ← bitsOfBytes_eq_flatMap,
    getElem?_bitsOfNat (Nat.mod_lt p (by decide))] at hbit
  rw [hbit, payloadBit, hread, Option.map_some]

/-- BC_LEN counts no more bytes than the payload has, whatever it holds for a length of 2^32 or more (log 35). -/
theorem toNat_word32_le (s : State) (n : Nat) : (s.word32 n).toNat ≤ n := by
  by_cases hn : n < 2 ^ 32
  · rw [s.toNat_word32 n hn]
  · have := (s.word32 n).isLt
    omega

/-- The state from which a DECODE reads its frame: the payload loaded, BC_LEN its length, the cursor at bit 0. -/
def loadedState (key : Time) (payload : List Byte) (s : State) : State :=
  initCursor (s.word32 payload.length) (loadPayload key payload s)

/-- The payload of a DECODE in READY can be read to its end (R60, R302). -/
theorem readable_loadedState {s : State} (hmode : s.mode = .ready) (key : Time) (payload : List Byte) :
    Readable (loadedState key payload s) where
  mode := hmode
  bits := fun p hp => by
    have hlen := toNat_word32_le s payload.length
    rw [loadedState, initCursor_bcLen] at hp
    have hinside : p < payload.length * 8 := by omega
    rw [loadedState, initCursor_payload, payloadBit_loadPayload key payload s hinside,
      List.getElem?_eq_getElem (by rwa [length_bitsOfBytes])]
    exact Option.some_ne_none _

/-! ## The obligation -/

/-- A frame is admitted in READY while no hand-over is to come (R302). -/
theorem admitFrame_ready {s : State} (go : Outcome) (hmode : s.mode = .ready) (hidle : s.decPend = false) :
    admitFrame s go = go := by
  rw [admitFrame, if_neg (not_not.mpr hmode), hidle, if_neg Bool.false_ne_true]

theorem exec_hDecode_ready {s : State} (key : Time) (payload : List Byte) (hmode : s.mode = .ready)
    (hidle : s.decPend = false) :
    exec (.hDecode key payload) s =
      if s.prm.payloadMax < payload.length then .next (respond .badArgument s)
      else decodePayload key payload s :=
  admitFrame_ready _ hmode hidle

/-- Settles O40: no step up to the completion stops; one that raises leaves no hand-over. -/
theorem decodeAlwaysAnswers : Obligations.DecodeAlwaysAnswers := by
  intro key payload s hmode hidle hconf hfits
  let s0 := loadPayload key payload s
  have hcompletes : (packedFrame (s.word32 payload.length) s0).Completes BodyReady :=
    (readable_loadedState hmode key payload).packedFrame hconf
  have hsteps := Decodes.packedFrame (s.word32 payload.length) s0
  rw [exec_hDecode_ready key payload hmode hidle, if_neg (Nat.not_lt.mpr hfits), decodePayload, decodeOneFrame_eq]
  cases hres : packedFrame (s.word32 payload.length) s0 with rw [hres] at hcompletes hsteps
  | ok v t =>
    have hready : t.mode = .ready := hcompletes.mode
    refine ⟨decodeAnswer (completeFrame t), rfl, .inl ⟨hready, ?_⟩⟩
    cases hpend : (completeFrame t).decPend with
    | false => exact .inl ⟨by rw [decodeAnswer, hpend]; rfl, hpend⟩
    | true => exact .inr ⟨by rw [decodeAnswer, hpend]; rfl, hpend⟩
  | raised t =>
    obtain ⟨u, e, info, hu, -, rfl⟩ := hsteps
    have hkept : u.decPend = s0.decPend := congrArg (fun x => x.decPend) hu.outside
    exact ⟨respond .fault (faultEntry e info u), rfl, .inr ⟨rfl, rfl, hkept.trans hidle⟩⟩
  | stuck f => exact hcompletes.elim

end Sys2Proof.Machine

/-! SUPPORT. For O38, O39, O43 to O46 and O49: the host commands (`45_host.md`), what each answers with the lock
free, and what a refusal leaves as it was (R300, R327). -/

namespace Sys2Proof.Machine

section
variable {s t : State}

/-! ## What the commands run -/

theorem exec_hReset (hlock : s.lock = false) (hidle : s.decPend = false) :
    exec .hReset s = .next (respond .ok (resetState s)) :=
  (underLock_free s _ hlock).trans (by rw [hidle, if_neg Bool.false_ne_true])

theorem exec_hConfigure (m r : BitVec 32) (a b c d e : BitVec 8) (hlock : s.lock = false) :
    exec (.hConfigure m a b c d e r) s =
      if s.mode ≠ .unconfigured then .next (respond .badMode s)
      else if configOk s m d e then .next (respond .ok (configure m a b c d e r s))
      else .next (respond .configError s) :=
  underLock_free s _ hlock

theorem exec_hEnqueue (key : Time) (bytes : List Byte) (hlock : s.lock = false) :
    exec (.hEnqueue key bytes) s =
      if s.mode ≠ .ready then .next (respond .badMode s)
      else if enqueueBytesOk s bytes then .next (enqueue key bytes s)
      else .next (respond .badArgument s) :=
  underLock_free s _ hlock

theorem exec_hStatus (hlock : s.lock = false) :
    exec .hStatus s = .next { s with resp := .report .ok (statusReport s) } :=
  underLock_free s _ hlock

/-- No frame is decoded outside READY (R300, R332; log 39). -/
theorem admitFrame_not_ready (go : Outcome) (hmode : s.mode ≠ .ready) :
    admitFrame s go = .next (respond .badMode s) :=
  if_pos hmode

/-! ## The check of an enqueue's bytes -/

/-- Bytes that pass R303's check: those whose length is a whole number of frames that is not 0 leave BPF no
value 0. -/
theorem enqueueBytesOk_eq_true {bytes : List Byte} (hsize : sampleSizeOk s = true) (hsome : bytes.length ≠ 0)
    (hwhole : bytes.length % bytesPerFrame s = 0) (hquantum : bytes.length / bytesPerFrame s ≤ quantum s) :
    enqueueBytesOk s bytes = true := by
  have hframe : bytesPerFrame s ≠ 0 := fun h0 => hsome (by rwa [h0, Nat.mod_zero] at hwhole)
  simp only [enqueueBytesOk, framesOf, Bool.and_eq_true, bne_iff_ne, beq_iff_eq]
  exact ⟨⟨⟨⟨hsize, hsome⟩, hframe⟩, hwhole⟩, decide_eq_true hquantum⟩

/-! ## Refusals -/

/-- Where the state answers a status of code 1 to 4, it differs from the one before in that alone (R327). -/
def RefusalKeeps (s t : State) : Prop :=
  ∀ st : Status, t.resp = .status st → 1 ≤ st.code.toNat → st.code.toNat ≤ 4 → t = respond st s

theorem RefusalKeeps.refl (s : State) : RefusalKeeps s s := fun st hresp _ _ => by
  rw [respond, ← hresp]

theorem RefusalKeeps.respond (st : Status) (s : State) : RefusalKeeps s (respond st s) := fun st' hresp _ _ => by
  rw [respond_resp, Response.status.injEq] at hresp
  rw [hresp]

/-- A state that answers another status. -/
theorem RefusalKeeps.of_status {st : Status} (hresp : t.resp = .status st)
    (hst : st = .ok ∨ st = .dropped ∨ st = .fault) : RefusalKeeps s t := fun st' hresp' h1 h4 => by
  rw [hresp, Response.status.injEq] at hresp'
  subst hresp'
  rcases hst with rfl | rfl | rfl
  · exact absurd h1 (by decide)
  · exact absurd h4 (by decide)
  · exact absurd h4 (by decide)

/-- A state that answers no status. -/
theorem RefusalKeeps.of_no_status (hresp : ∀ st, t.resp ≠ .status st) : RefusalKeeps s t :=
  fun st h _ _ => absurd h (hresp st)

/-- An enqueue is refused while closing alone; a drop is no refusal (R264 to R269). -/
theorem RefusalKeeps.enqueue (key : Time) (bytes : List Byte) (s : State) :
    RefusalKeeps s (enqueue key bytes s) := by
  rcases enqueue_cases key bytes s with ⟨-, h⟩ | ⟨-, -, -, h⟩ | ⟨-, -, -, h⟩ | ⟨-, h⟩ <;> rw [h]
  · exact .respond .badMode s
  · exact .of_status rfl (.inr (.inl rfl))
  · exact .of_status rfl (.inr (.inl rfl))
  · rcases admit_cases key bytes s with ⟨_, -, ha⟩ | ⟨-, -, ha⟩ | ⟨-, -, ha⟩ <;> rw [ha]
    · exact .of_status rfl (.inl rfl)
    · exact .of_status rfl (.inr (.inl rfl))
    · exact .of_status rfl (.inl rfl)

/-- A DECODE that is decoded answers Ok or Fault, or nothing yet (R302). -/
theorem RefusalKeeps.decodePayload {key : Time} {payload : List Byte} (h : decodePayload key payload s = .next t) :
    RefusalKeeps s t := by
  unfold Machine.decodePayload at h
  split at h <;> cases h
  case h_1 u _ =>
    have hresp : (decodeAnswer u).resp = if u.decPend then .none else .status .ok := rfl
    cases hpend : u.decPend with rw [hpend] at hresp
    | false => exact .of_status hresp (.inl rfl)
    | true => exact .of_no_status fun st => by rw [hresp]; exact nofun
  case h_2 => exact .of_status rfl (.inr (.inr rfl))

/-- Under the lock, what is to be shown is to be shown of the transition. -/
theorem RefusalKeeps.underLock {go : Outcome} (h : underLock s go = .next t)
    (hgo : go = .next t → RefusalKeeps s t) : RefusalKeeps s t := by
  rcases underLock_eq_next.mp h with ⟨-, rfl⟩ | ⟨-, h⟩
  · exact .refl t
  · exact hgo h

/-- Every host command. -/
theorem exec_host_refusalKeeps {i : Instr} (hi : i.source = .host) (h : exec i s = .next t) : RefusalKeeps s t := by
  cases i with
  | hReset =>
    refine .underLock h fun h => ?_
    split at h <;> cases h
    exact .of_status rfl (.inl rfl)
  | hConfigure m a b c d e r =>
    refine .underLock h fun h => ?_
    split at h
    · cases h
      exact .respond .badMode s
    · split at h <;> cases h
      · exact .of_status rfl (.inl rfl)
      · exact .respond .configError s
  | hDecode key payload =>
    rcases admitFrame_eq_next h with rfl | h
    · exact .respond .badMode s
    · split at h
      · cases h
        exact .respond .badArgument s
      · exact .decodePayload h
  | hEnqueue key bytes =>
    refine .underLock h fun h => ?_
    split at h
    · cases h
      exact .respond .badMode s
    · split at h <;> cases h
      · exact .enqueue key bytes s
      · exact .respond .badArgument s
  | hSync remote loc =>
    refine .underLock h fun h => ?_
    split at h <;> cases h
    · exact .of_status rfl (.inl rfl)
    · exact .respond .badMode s
  | hClose =>
    refine .underLock h fun h => ?_
    cases h
    exact .of_status rfl (.inl rfl)
  | hStatus =>
    refine .underLock h fun h => ?_
    cases h
    exact .of_no_status nofun
  | _ => cases hi

end

/-! ## The obligations -/

/-- Settles O46: command by command, each refusal is a status written over the state before. -/
theorem refusedCommandsChangeNothing : Obligations.RefusedCommandsChangeNothing :=
  fun _ st _ _ hi h hresp h1 h4 => exec_host_refusalKeeps hi h st hresp h1 h4

/-- Settles O38: the state after RESET is `resetState`, whose registers are those of R44. -/
theorem resetRule : Obligations.ResetRule := by
  intro s hlock hidle
  exact ⟨_, exec_hReset hlock hidle, rfl, rfl, rfl, rfl, rfl, rfl, rfl, rfl, rfl, rfl, rfl, rfl, rfl, rfl, rfl⟩

/-- Settles O39: the mode is tested first, then the three ranges. -/
theorem configureRule : Obligations.ConfigureRule := by
  intro m rate size mult init kmod channels s hlock cmd legal
  have hrun := exec_hConfigure m rate size mult init kmod channels hlock
  refine ⟨fun hmode => ?mode, fun hmode hillegal => ?range, fun hmode hlegal => ?admitted⟩
  case mode =>
    rw [hrun, if_pos hmode]
    rfl
  case range =>
    rw [hrun, if_neg (not_not.mpr hmode), if_neg (hillegal ∘ configOk_iff.mp)]
    rfl
  case admitted =>
    rw [hrun, if_neg (not_not.mpr hmode), if_pos (configOk_iff.mpr hlegal)]
    rfl

/-- Settles O43: bytes that pass the command's check pass that of JB.ENQ, so both run the same enqueue. -/
theorem hostEnqueueRule : Obligations.HostEnqueueRule := by
  intro key bytes s hlock bad
  have hrun := exec_hEnqueue key bytes hlock
  refine ⟨fun hmode => ?mode, fun hmode hbad => ?argument, fun hmode hgood => ?admitted⟩
  case mode =>
    rw [hrun, if_pos hmode]
    rfl
  case argument =>
    rw [hrun, if_neg (not_not.mpr hmode), enqueueBytesOk_eq_false hbad, if_neg Bool.false_ne_true]
    rfl
  case admitted =>
    simp only [bad, not_or, not_and_or, not_not, Nat.not_lt] at hgood
    obtain ⟨hsize, hsome, hwhole, hquantum⟩ := hgood
    have hok : enqueueBytesOk s bytes = true :=
      enqueueBytesOk_eq_true (sampleSizeOk_iff.mpr hsize) hsome hwhole hquantum
    refine ⟨enqueue key bytes s, ?_, ?_⟩
    · rw [hrun, if_neg (not_not.mpr hmode), if_pos hok]
    · rw [exec_jbEnq key bytes hlock, checkedEnqueue, hok, Bool.or_true, if_pos rfl]

/-- Settles O44: the report is the seven values. -/
theorem statusRule : Obligations.StatusRule := fun _ hlock => exec_hStatus hlock

/-- Settles O45: row by row of R300's table, each refusal by the command's test of the mode. -/
theorem admissionTable : Obligations.AdmissionTable := by
  intro key loc bytes m rate a b c d e s hlock hidle refused
  have hconfigure : s.mode ≠ .unconfigured → refused (.hConfigure m a b c d e rate) := fun hmode =>
    (exec_hConfigure m rate a b c d e hlock).trans (if_pos hmode)
  have hframe : s.mode ≠ .ready → ∀ go, admitFrame s go = .next { s with resp := .status .badMode } :=
    fun hmode go => admitFrame_not_ready go hmode
  have hdecode : s.mode ≠ .ready → refused (.hDecode key bytes) := fun hmode => hframe hmode _
  have henqueue : s.mode ≠ .ready → refused (.hEnqueue key bytes) := fun hmode =>
    (exec_hEnqueue key bytes hlock).trans (if_pos hmode)
  have hsync : ¬ (s.mode = .ready ∨ s.mode = .faulted) → refused (.hSync key loc) := fun hmode =>
    (exec_hSync key loc hlock).trans (if_neg hmode)
  refine ⟨fun hmode => ?unconfigured, fun hmode => ?ready, fun hmode => ?faulted, fun hmode => ?closed,
    fun hmode => ⟨hframe hmode _, hframe hmode _, hframe hmode _, hframe hmode _⟩,
    fun hmode hlong => (exec_hDecode_ready key bytes hmode hidle).trans (if_pos hlong), ?always⟩
  case unconfigured =>
    have hne : s.mode ≠ .ready := by rw [hmode]; decide
    exact ⟨hdecode hne, henqueue hne, hsync (by rw [hmode]; decide)⟩
  case ready => exact hconfigure (by rw [hmode]; decide)
  case faulted =>
    have hne : s.mode ≠ .ready := by rw [hmode]; decide
    exact ⟨hconfigure (by rw [hmode]; decide), hdecode hne, henqueue hne⟩
  case closed =>
    have hne : s.mode ≠ .ready := by rw [hmode]; decide
    exact ⟨hconfigure (by rw [hmode]; decide), hdecode hne, henqueue hne, hsync (by rw [hmode]; decide)⟩
  case always => exact ⟨_, _, _, exec_hReset hlock hidle, exec_hClose hlock, exec_hStatus hlock⟩

/-- A code that names no command (R108). -/
theorem decodeCommand_reserved {code : Nat} (h7 : 7 ≤ code) (h15 : code ≤ 15) (operands : List Bool) :
    decodeCommand (bitsOfNat 4 code ++ operands) = .error (.reservedCode code) := by
  rw [decodeCommand, takeNat_bitsOfNat, Nat.mod_eq_of_lt (by omega)]
  match code, h7 with
  | _ + 7, _ => rfl

/-- Settles O49: the fetch answers a reserved code itself, with the turn taken. -/
theorem reservedCommandCodes : Obligations.ReservedCommandCodes := by
  intro code operands rest s h7 h15 hturn
  rw [step_of_agenda hturn, fetchTurn, fetchHost, decodeCommand_reserved h7 h15]
  rfl

end Sys2Proof.Machine

/-! SUPPORT. For O42: a DECODE of an uncompressed frame is that frame on its own, from the loaded payload (R302),
and its hand-over is the enqueue of a DEC turn (R228). -/

namespace Sys2Proof.Machine

section
variable {s t : State} {key : Time} {payload : List Byte}

/-! ## The decoding -/

/-- The payload of a DECODE holds the bits that its bytes begin with (R9, R60). -/
theorem holdsBitsAt_loadedState (hlen : payload.length < 2 ^ 32) {bits : List Bool}
    (hbits : bits <+: bitsOfBytes payload) : holdsBitsAt (loadedState key payload s) 0 bits = true := by
  have hle : bits.length ≤ payload.length * 8 := length_bitsOfBytes payload ▸ hbits.length_le
  have hword : (loadedState key payload s).bcLen.toNat = payload.length := s.toNat_word32 _ hlen
  have hheld : payloadBits (loadedState key payload s).payload 0 bits.length = some bits := by
    refine (payloadBits_eq_some_iff ..).mpr fun i hi => ?_
    rw [Nat.zero_add, loadedState, initCursor_payload, payloadBit_loadPayload key payload s (by omega)]
    exact List.prefix_iff_getElem?.mp hbits i hi
  rw [holdsBitsAt, hword, hheld, decide_eq_true (by omega), beq_self_eq_true, Bool.and_self]

/-- A frame kind that decodes its frame on its own, with the cursor at its start, is what a DECODE decodes
(R91, R302). -/
theorem decodeOneFrame_of_frameOfKind {len : Word} {kind : FrameKind} (hsize : sampleSizeOk s = true)
    (h : frameOfKind kind (initCursor len s) = .ok () t) : decodeOneFrame len s = .ok () t := by
  have hheader : frameHeader len (initCursor len s) = frameHeader len s :=
    (if_pos hsize).trans (if_pos hsize).symm
  rw [frameOfKind, initCursor_bcLen, hheader] at h
  obtain ⟨v, u, hread, hbody⟩ := Res.bind_eq_ok.mp h
  split at hbody
  case isTrue hkind =>
    rw [decodeOneFrame, hread, Res.bind_ok, hkind, hbody]
  case isFalse => cases hbody

/-- A frame on its own that leaves the mode READY was decoded: a raise leaves FAULTED (R330). -/
theorem frameOfKind_of_next {kind : FrameKind} (h : (frameOfKind kind s).answer = .next t) (hmode : t.mode = .ready) :
    frameOfKind kind s = .ok () t := by
  have halong := frameOfKind_along kind s
  rcases Res.outcome_eq_next.mp h with ⟨v, u, hok, rfl⟩ | hraised
  · exact hok
  · rw [hraised] at halong
    obtain ⟨u, e, info, -, -, rfl⟩ := halong
    cases hmode

/-- What H.DECODE answers for an uncompressed frame that its payload begins with: the frame's state, with
nothing returned as yet (R228, R302). -/
theorem exec_hDecode_uncompressed {h : HeaderFields} {xs : List Word} (hready : frameReady h s = true) (hcf : h.cf = 1)
    (hcount : headerCount h s ≠ 0) (hlen : xs.length = (headerCount h s).toNat * (h.chan.toNat + 1))
    (hfits : payload.length ≤ s.prm.payloadMax) (hlen32 : payload.length < 2 ^ 32)
    (hbits : (encodeHeader h ++ xs.flatMap (verbatimBits s)) <+: bitsOfBytes payload) :
    ∃ t : State, exec (.hDecode key payload) s = .next { t with resp := .none } ∧
      t.decPend = true ∧ t.decKey = key ∧ Memory.readBytes t.pcm 0 t.decLen = some (xs.flatMap (pcmSample s)) ∧
      t.mode = .ready ∧ t.log = s.log ∧ configSame s t ∧ sharedSame s t := by
  obtain ⟨hfault, hidle, hlegal, -⟩ := frameReady_iff.mp hready
  obtain ⟨hsize, hchan, -, -⟩ := headerLegal_iff.mp hlegal
  simp only [faultReady, Bool.and_eq_true, beq_iff_eq] at hfault
  obtain ⟨hmode, -⟩ := hfault
  obtain ⟨t, hexec, -, -, hpcm, -, -, -, -, hpend, hkey, htmode, -, -, hlog, -, -, hconf, hshared⟩ :=
    uncompressedFrames h xs (loadedState key payload s) hready hcf hlen (holdsBitsAt_loadedState hlen32 hbits)
  obtain ⟨kind, -, -, -, hkind⟩ := uncompressed_kind (s := loadedState key payload s) hchan hcf
  rw [hkind, admitFrame_ready (s := loadedState key payload s) _ hmode hidle] at hexec
  have hframe : decodeOneFrame (s.word32 payload.length) (loadPayload key payload s) = .ok () t :=
    decodeOneFrame_of_frameOfKind (s := loadPayload key payload s) hsize
      (frameOfKind_of_next hexec (htmode.trans hmode))
  have htpend : t.decPend = true := hpend.trans (bne_iff_ne.mpr hcount)
  refine ⟨t, ?_, htpend, hkey, hpcm, htmode.trans hmode, hlog, hconf, hshared⟩
  rw [exec_hDecode_ready key payload hmode hidle, if_neg (Nat.not_lt.mpr hfits), decodePayload, hframe]
  dsimp only
  rw [decodeAnswer, htpend, if_pos rfl]

/-! ## The enqueue -/

/-- The PCM of a frame of at least one sample passes the check of JB.ENQ (R228, R264). -/
theorem enqueueBytesOk_pcm {h : HeaderFields} {xs : List Word} (hlegal : headerLegal h s = true)
    (hcount : headerCount h s ≠ 0) (hlen : xs.length = (headerCount h s).toNat * (h.chan.toNat + 1)) :
    enqueueBytesOk s (xs.flatMap (pcmSample s)) = true := by
  obtain ⟨hsize, -, hchannels, hmax⟩ := headerLegal_iff.mp hlegal
  have hbytes : (xs.flatMap (pcmSample s)).length = (headerCount h s).toNat * bytesPerFrame s := by
    rw [← length_mul_bytesPerSample hlegal hlen]
    simp [List.length_flatMap, pcmSample, bytesPerSample]
  have hsample : 0 < bytesPerSample s := by
    rcases sampleSizeOk_iff.mp hsize with h | h <;> rw [bytesPerSample, h] <;> decide
  have hframe : 0 < bytesPerFrame s := by
    rw [bytesPerFrame_eq hsize]
    exact Nat.mul_pos (by omega) hsample
  have hsome : 0 < (headerCount h s).toNat := Nat.pos_of_ne_zero fun h0 => hcount (BitVec.eq_of_toNat_eq h0)
  refine enqueueBytesOk_eq_true hsize ?some ?whole ?quantum
  case some => rw [hbytes]; exact (Nat.mul_pos hsome hframe).ne'
  case whole => rw [hbytes, Nat.mul_mod_left]
  case quantum => rw [hbytes, Nat.mul_div_cancel _ hframe]; exact hmax

/-- The check reads the configuration alone. -/
theorem enqueueBytesOk_of_configSame (h : configSame s t) (bytes : List Byte) :
    enqueueBytesOk t bytes = enqueueBytesOk s bytes := by
  obtain ⟨hmax, hsize, -, -, -, hchannels, -⟩ := h
  rw [enqueueBytesOk, sampleSizeOk, framesOf, bytesPerFrame, quantum, hmax, hsize, hchannels]
  rfl

/-- Before the first SYNC a new key is inserted where there is room (R266, R269). -/
theorem exec_jbEnq_new {bytes : List Byte} (hlock : s.lock = false) (hopen : s.jbClosing = false)
    (hinvalid : s.jbOffsetValid = false) (hok : enqueueBytesOk s bytes = true) (hnew : Queue.find s.jbQueue key = none)
    (hroom : s.jbQueue.length < s.prm.jbCapacity) :
    exec (.jbEnq key bytes) s =
      .next { s with resp := .status .ok, jbQueue := Queue.put s.jbQueue key bytes, drainAwake := true } := by
  have hoff : ¬ s.jbOffsetValid = true := Bool.eq_false_iff.mp hinvalid
  rw [exec_jbEnq key bytes hlock, checkedEnqueue_open hopen hok (fun hvalid => absurd hvalid hoff),
    if_neg (hoff ∘ And.left), if_neg (hoff ∘ And.left), admitEntry_admitted (.inr hroom.ne), hnew]
  rfl

/-- The DEC turn that ends a DECODE, where its enqueue inserts a new entry (R228, R269). -/
theorem step_dec_new {bytes : List Byte} {rest : List Turn} (hturn : s.agenda = .dec :: rest) (hpend : s.decPend = true)
    (hbytes : Memory.readBytes s.pcm 0 s.decLen = some bytes) (hlock : s.lock = false) (hopen : s.jbClosing = false)
    (hinvalid : s.jbOffsetValid = false) (hok : enqueueBytesOk s bytes = true)
    (hnew : Queue.find s.jbQueue s.decKey = none) (hroom : s.jbQueue.length < s.prm.jbCapacity) :
    step s =
      .next { s with
        agenda := rest, tick := s.tick + 1, decPend := false, resp := .status .ok
        jbQueue := Queue.put s.jbQueue s.decKey bytes, drainAwake := true } := by
  obtain ⟨-, -, -, -, henqueue, -⟩ := stepAgentTurns rest s hlock
  rw [henqueue bytes hturn hpend hbytes]
  exact exec_jbEnq_new hlock hopen hinvalid hok hnew hroom

end

/-! ## The obligation -/

/-- Settles O42: the decoding leaves the queue and hands its PCM over; the DEC turn inserts it as a new entry. -/
theorem decodeThenEnqueue : Obligations.DecodeThenEnqueue := by
  intro h xs key payload rest s hready _ hcf hcount hlen hfits hlen32 hbits hlock hopen hinvalid hnew hroom hturn
  obtain ⟨-, -, hlegal, -⟩ := frameReady_iff.mp hready
  obtain ⟨t, hexec, hpend, hkey, hpcm, hmode, hlog, hconfSame, hprm, -, hvalid, hqueue, -, hclosing, htlock, -, hsink,
    -, hagenda, -⟩ := exec_hDecode_uncompressed (key := key) hready hcf hcount hlen hfits hlen32 hbits
  subst hkey
  have hok : enqueueBytesOk t (xs.flatMap (pcmSample s)) = true :=
    (enqueueBytesOk_of_configSame hconfSame _).trans (enqueueBytesOk_pcm hlegal hcount hlen)
  rw [← hqueue] at hnew hroom ⊢
  have hstep := step_dec_new (s := { t with resp := .none }) (hagenda.trans hturn) hpend hpcm (htlock.trans hlock)
    (hclosing.trans hopen) (hvalid.trans hinvalid) hok hnew (hprm ▸ hroom)
  exact ⟨{ t with resp := .none }, _, hexec, rfl, hmode, rfl, hstep, rfl, hmode, rfl, rfl, rfl, hlog, hsink,
    Queue.length_put_new _ _ _ hnew, Queue.find_put _ _ _⟩

end Sys2Proof.Machine

/-! SUPPORT. For O41: a DECODE that leaves READY is one that raised (R330, R331). -/

namespace Sys2Proof.Machine

/-- The codes of the causes are 1 to 5 (R321). -/
theorem Cause.code_range (e : Cause) : 1 ≤ e.code.toNat ∧ e.code.toNat ≤ 5 := by
  cases e <;> decide

/-- A DECODE in READY leaves the mode by a raise alone. The raise comes before the frame's completion, and
nothing follows it but the status. -/
theorem exec_hDecode_left_ready {key : Time} {payload : List Byte} {s t : State} (hmode : s.mode = .ready)
    (h : exec (.hDecode key payload) s = .next t) (hleft : t.mode ≠ .ready) :
    ∃ u e info, DecoderStep (loadPayload key payload s) u ∧ t = respond .fault (faultEntry e info u) := by
  rcases admitFrame_eq_next h with rfl | h
  · exact absurd hmode hleft
  · split at h
    · cases h
      exact absurd hmode hleft
    · have hsteps := Decodes.packedFrame (s.word32 payload.length) (loadPayload key payload s)
      rw [decodePayload, decodeOneFrame_eq] at h
      cases hres : packedFrame (s.word32 payload.length) (loadPayload key payload s) with rw [hres] at h hsteps
      | ok v u =>
        cases h
        exact absurd ((congrArg State.mode hsteps.outside).trans hmode) hleft
      | raised u =>
        obtain ⟨u, e, info, hu, -, rfl⟩ := hsteps
        cases h
        exact ⟨u, e, info, hu, rfl⟩
      | stuck f => cases h

/-! ## The obligation -/

/-- Settles O41: the steps up to the raise keep the record, the log and the hand-over; the fault entry writes
the rest. -/
theorem decodeFaultPrecise : Obligations.DecodeFaultPrecise := by
  intro key payload s t hmode hclear h hleft
  have hpart := exec_hDecode_sharedPart h
  obtain ⟨u, e, info, hu, rfl⟩ := exec_hDecode_left_ready hmode h hleft
  have kept {β : Type} (f : State → β) : f u.outsideDecoder = f (loadPayload key payload s).outsideDecoder :=
    congrArg f hu.outside
  have herr : u.errCode = 0 := (kept State.errCode).trans hclear
  have hcode : (respond .fault (faultEntry e info u)).errCode = e.code := if_pos herr
  have hlog : u.log = s.log := kept State.log
  obtain ⟨hlow, hhigh⟩ := e.code_range
  rw [hcode]
  exact ⟨rfl, rfl, hlow, hhigh, congrArg (· ++ [LogRecord.fault e.code]) hlog, kept State.decPend,
    configSame_of_sharedPart hpart, sharedSame_of_sharedPart hpart⟩

end Sys2Proof.Machine

/-! SUPPORT. For O54: what an operation may do to the mode and to the error record (R21, R22, R341). -/

namespace Sys2Proof.Machine

/-- MODE and the error record (R21, R22). -/
def State.lifecycle (s : State) : Mode × BitVec 8 × BitVec 32 := (s.mode, s.errCode, s.errInfo)

/-- The ways in which an operation moves them (R341). -/
inductive LifecycleEffect (i : Instr) (s t : State) : Prop
  | kept : t.lifecycle = s.lifecycle → LifecycleEffect i s t
  | reset : i = .hReset → t.lifecycle = (.unconfigured, 0, 0) → LifecycleEffect i s t
  | configured : (∃ m a b c d e r, i = .hConfigure m a b c d e r) → s.mode = .unconfigured →
      t.lifecycle = (.ready, s.errCode, s.errInfo) → LifecycleEffect i s t
  /-- The record is written once (R22, R330). -/
  | faulted (e : Cause) (info : Word) : takesLock i = false → s.mode = .ready →
      t.lifecycle = (faultEntry e info s).lifecycle → LifecycleEffect i s t
  | closed : i = .jbClose ∨ i = .hClose → t.lifecycle = (.closed, s.errCode, s.errInfo) → LifecycleEffect i s t

section
variable {i : Instr} {s t : State}

/-! ## The decoder's operations -/

theorem DecoderStep.lifecycle (h : DecoderStep s t) : t.lifecycle = s.lifecycle :=
  show t.outsideDecoder.lifecycle = s.outsideDecoder.lifecycle by rw [h.outside]

theorem FrameStep.lifecycle (h : FrameStep s t) : t.lifecycle = s.lifecycle := by
  cases h with
  | within h => exact h.lifecycle
  | complete h => exact h.lifecycle

theorem lifecycle_faultEntry (e : Cause) (info : Word) (h : t.lifecycle = s.lifecycle) :
    (faultEntry e info t).lifecycle = (faultEntry e info s).lifecycle := by
  simp only [State.lifecycle, Prod.mk.injEq] at h
  obtain ⟨-, hcode, hinfo⟩ := h
  simp only [State.lifecycle, faultEntry_mode, faultEntry_errCode, faultEntry_errInfo, hcode, hinfo]

theorem DecoderEffect.lifecycle (h : DecoderEffect s t) : t.lifecycle = s.lifecycle ∨
    ∃ e info, s.mode = .ready ∧ t.lifecycle = (faultEntry e info s).lifecycle := by
  cases h with
  | ran v h => exact .inl h.lifecycle
  | raised e info h hmode =>
    exact .inr ⟨e, info, (congrArg Prod.fst h.lifecycle).symm.trans hmode, lifecycle_faultEntry e info h.lifecycle⟩
  | refused st => exact .inl rfl

theorem exec_decoder_lifecycle (hi : takesLock i = false) (h : exec i s = .next t) : LifecycleEffect i s t := by
  have heffect : t.lifecycle = s.lifecycle ∨
      ∃ e info, s.mode = .ready ∧ t.lifecycle = (faultEntry e info s).lifecycle := by
    by_cases hd : ∃ key payload, i = .hDecode key payload
    · obtain ⟨key, payload, rfl⟩ := hd
      rcases exec_hDecode h with ⟨st, rfl⟩ | ⟨u, r, hu, rfl⟩
      · exact .inl rfl
      · exact hu.lifecycle
    · exact (exec_decoder hi (fun key payload he => hd ⟨key, payload, he⟩) h).lifecycle
  rcases heffect with hkept | ⟨e, info, hmode, hfault⟩
  · exact .kept hkept
  · exact .faulted e info hi hmode hfault

/-! ## The operations under the stream lock -/

theorem lifecycle_enqueue (key : Time) (bytes : List Byte) (s : State) :
    (enqueue key bytes s).lifecycle = s.lifecycle := by
  rcases enqueue_cases key bytes s with ⟨-, h⟩ | ⟨-, -, -, h⟩ | ⟨-, -, -, h⟩ | ⟨-, h⟩ <;> rw [h]
  · rfl
  · rfl
  · rfl
  · rcases admit_cases key bytes s with ⟨_, -, h⟩ | ⟨-, -, h⟩ | ⟨-, -, h⟩ <;> rw [h] <;> rfl

theorem lifecycle_checkedEnqueue (key : Time) (bytes : List Byte) (s : State) :
    (checkedEnqueue key bytes s).lifecycle = s.lifecycle := by
  rcases checkedEnqueue_cases key bytes s with ⟨-, h⟩ | ⟨-, -, h⟩ | ⟨-, -, h⟩ <;> rw [h]
  · rfl
  · exact lifecycle_enqueue key bytes s
  · rfl

theorem DrainEffect.lifecycle (h : DrainEffect s t) : t.lifecycle = s.lifecycle := by
  rw [h.frame]
  rfl

theorem drainAs_lifecycle {op : Instr} {u : State} (h : drainAs op s u = .next t) (hu : DrainEffect s u) :
    LifecycleEffect i s t := by
  rcases drainAs_eq_next h with rfl | ⟨-, -, rfl⟩
  · exact .kept rfl
  · exact .kept hu.lifecycle

/-- Under the lock, what is to be shown is to be shown of the transition. -/
theorem underLock_lifecycle {go : Outcome} (h : underLock s go = .next t)
    (hgo : go = .next t → LifecycleEffect i s t) : LifecycleEffect i s t := by
  rcases underLock_eq_next.mp h with ⟨-, rfl⟩ | ⟨-, h⟩
  · exact .kept rfl
  · exact hgo h

/-! ## Every operation -/

theorem exec_lifecycle (h : exec i s = .next t) : LifecycleEffect i s t := by
  cases i with
  | hReset =>
    refine underLock_lifecycle h fun h => ?_
    split at h <;> cases h
    exact .reset rfl rfl
  | hConfigure m a b c d e r =>
    refine underLock_lifecycle h fun h => ?_
    split at h
    · cases h
      exact .kept rfl
    · rename_i hmode
      split at h <;> cases h
      · exact .configured ⟨m, a, b, c, d, e, r, rfl⟩ (not_not.mp hmode) rfl
      · exact .kept rfl
  | jbClose =>
    refine underLock_lifecycle h fun h => ?_
    cases h
    exact .closed (.inl rfl) rfl
  | hClose =>
    refine underLock_lifecycle h fun h => ?_
    cases h
    exact .closed (.inr rfl) rfl
  | jbDrainIdle => exact drainAs_lifecycle h (.idle s)
  | jbDrainGap => exact drainAs_lifecycle h (.gap s)
  | jbDrainEmit => exact drainAs_lifecycle h (.emit s)
  | jbDrainTrunc => exact drainAs_lifecycle h (.trunc s)
  | jbDrainSkip => exact drainAs_lifecycle h (.skip s)
  | jbSync | hStatus =>
    refine underLock_lifecycle h fun h => ?_
    cases h
    exact .kept rfl
  | jbToRemote | jbFromRemote | hSync =>
    refine underLock_lifecycle h fun h => ?_
    split at h <;> cases h <;> exact .kept rfl
  | jbEnq key bytes =>
    refine underLock_lifecycle h fun h => ?_
    cases h
    exact .kept (lifecycle_checkedEnqueue key bytes s)
  | hEnqueue key bytes =>
    refine underLock_lifecycle h fun h => ?_
    split at h
    · cases h
      exact .kept rfl
    · split at h <;> cases h
      · exact .kept (lifecycle_enqueue key bytes s)
      · exact .kept rfl
  | _ => exact exec_decoder_lifecycle rfl h

end

end Sys2Proof.Machine

/-! SUPPORT. For O54: the hand-over that is to come (R228, R302). A frame alone sets it up, and a frame is decoded
in READY only (R331, R332). -/

namespace Sys2Proof.Machine

/-- The hand-over of a frame to JB.ENQ: whether one is to come, its key and its length (R228). -/
def State.handOver (s : State) : Bool × Time × Nat := (s.decPend, s.decKey, s.decLen)

section
variable {i : Instr} {s t : State}

theorem DecoderStep.handOver (h : DecoderStep s t) : t.handOver = s.handOver :=
  show t.outsideDecoder.handOver = s.outsideDecoder.handOver by rw [h.outside]

/-- Steps of the decoder, a raise among them, keep the hand-over. -/
theorem Decodes.handOver {α : Type} {r : Res α} {done : α → State → State} (hr : Decodes s r)
    (h : r.outcome done = .next t) (hdone : ∀ v u, (done v u).handOver = u.handOver := by exact fun _ _ => rfl) :
    t.handOver = s.handOver := by
  rcases Res.outcome_eq_next.mp h with ⟨v, u, rfl, rfl⟩ | rfl
  · exact (hdone v u).trans (DecoderStep.handOver hr)
  · obtain ⟨u, e, info, hu, -, rfl⟩ := hr
    exact hu.handOver

/-- The operations of the decoder outside READY: a frame is refused, and what is not a frame completes none. -/
theorem exec_decoder_handOver (hi : takesLock i = false) (hmode : s.mode ≠ .ready) (h : exec i s = .next t) :
    t.handOver = s.handOver := by
  cases i with
  | hDecode | fdMonoC | fdMonoU | fdStereoC | fdStereoU =>
    cases (admitFrame_not_ready _ hmode).symm.trans h
    rfl
  | bcInit | bcClz =>
    cases h
    rfl
  | bcRead n => exact (Decodes.readBits n s).handOver h
  | bcUnread n => exact (Decodes.unreadBits n s).handOver h
  | rdValueEsc n k mask => exact (Decodes.riceWordAs .esc n k mask s).handOver h
  | rdValueUnary n k mask => exact (Decodes.riceWordAs .unary n k mask s).handOver h
  | rdValueShort n k mask => exact (Decodes.riceWordAs .short n k mask s).handOver h
  | rdValueLong n k mask => exact (Decodes.riceWordAs .long n k mask s).handOver h
  | rdStream c o => exact (Decodes.riceStream c o s).handOver h
  | rdSample c j o => exact (Decodes.riceSample c j o s).handOver h
  | rdRun c j o =>
    replace h : execRdRun c j o s = .next t := h
    unfold execRdRun at h
    split at h
    · exact (Decodes.riceRun c j o s).handOver h
    · cases h
  | lpCopy c => exact (Decodes.lpCopy c s).handOver h
  | lpDiff c => exact (Decodes.lpDiff c s).handOver h
  | lpFir c order => exact (Decodes.lpFir c order s).handOver h
  | fdHeader => exact (Decodes.frameHeader s.bcLen s).handOver h
  | fdChhdr c => exact (Decodes.channelHeader c s).handOver h
  | fdRawlow => exact (Decodes.rawLow s).handOver h
  | fdVerbatim =>
    rw [exec_fdVerbatim] at h
    split at h
    · exact (Decodes.verbatim s).handOver h
    · cases h
  | fdMixWeighted shift weight => exact (Decodes.mixWeighted shift weight s).handOver h
  | fdMixDirect shift => exact (Decodes.mixDirect shift s).handOver h
  | fdPack16 => exact (Decodes.pack16 s).handOver h
  | fdPack24 => exact (Decodes.pack24 s).handOver h
  | _ => cases hi

/-- RESET waits, or drops the hand-over (R44, R360). -/
theorem exec_hReset_handOver (h : exec .hReset s = .next t) : t = s ∨ t.decPend = false := by
  rcases underLock_eq_next.mp (show execHReset s = .next t from h) with ⟨-, rfl⟩ | ⟨-, h⟩
  · exact .inl rfl
  · split at h <;> cases h
    exact .inr rfl

/-- Outside READY a hand-over that is to come was to come before. -/
theorem exec_handOver (hmode : s.mode ≠ .ready) (hpend : t.decPend = true) (h : exec i s = .next t) :
    t.handOver = s.handOver := by
  cases hi : takesLock i with
  | false => exact exec_decoder_handOver hi hmode h
  | true =>
    by_cases hreset : i = .hReset
    · subst hreset
      rcases exec_hReset_handOver h with rfl | hnone
      · rfl
      · exact absurd hpend (Bool.eq_false_iff.mp hnone)
    · have hpart := (exec_locked hi hreset h).decoderPart
      change t.decoderPart.handOver = s.decoderPart.handOver
      rw [hpart]

end

/-! ## The obligation -/

/-- Settles O54: the mode and the record by the operation's effect on the lifecycle; the hand-over on its own. -/
theorem modeTransitions : Obligations.ModeTransitions := by
  intro i s t h
  rw [← and_assoc]
  refine ⟨?lifecycle, fun hmode hpend => ?handOver⟩
  case lifecycle =>
    have kept {m : Mode} {c : BitVec 8} {x : BitVec 32} (h : t.lifecycle = (m, c, x)) :
        t.mode = m ∧ t.errCode = c ∧ t.errInfo = x := by
      simpa only [State.lifecycle, Prod.mk.injEq] using h
    cases exec_lifecycle h with
    | kept h =>
      obtain ⟨hm, hrecord⟩ := kept h
      exact ⟨.inl hm, .inl hrecord⟩
    | reset hi h =>
      obtain ⟨hm, hrecord⟩ := kept h
      exact ⟨.inr (.inl ⟨hi, hm⟩), .inr (.inl ⟨hi, hrecord⟩)⟩
    | configured hi hfrom h =>
      obtain ⟨hm, hrecord⟩ := kept h
      exact ⟨.inr (.inr (.inl ⟨hi, hfrom, hm⟩)), .inl hrecord⟩
    | faulted e info hi hfrom h =>
      obtain ⟨hm, hcode, hinfo⟩ := kept h
      refine ⟨.inr (.inr (.inr (.inl ⟨hi, hfrom, hm⟩))), ?_⟩
      by_cases hclear : s.errCode = 0
      · exact .inr (.inr ⟨hi, hfrom, hm, hclear⟩)
      · exact .inl ⟨hcode.trans (if_neg hclear), hinfo.trans (if_neg hclear)⟩
    | closed hi h =>
      obtain ⟨hm, hrecord⟩ := kept h
      exact ⟨.inr (.inr (.inr (.inr ⟨hi, hm⟩))), .inl hrecord⟩
  case handOver =>
    have hkept := exec_handOver hmode hpend h
    simp only [State.handOver, Prod.mk.injEq] at hkept
    obtain ⟨hbefore, hkey, hlen⟩ := hkept
    exact ⟨hbefore.symm.trans hpend, hkey, hlen⟩

end Sys2Proof.Machine

/-! SUPPORT. For O56 and O60: the configuration is written by CONFIGURE in UNCONFIGURED and by RESET alone (R365),
and what is refused while a hand-over is to come (R372, U10). -/

namespace Sys2Proof.Machine

/-- The CFG registers (R30). -/
def State.config (s : State) :
    BitVec 32 × BitVec 8 × BitVec 8 × BitVec 8 × BitVec 8 × BitVec 8 × BitVec 32 :=
  (s.cfgMaxSamples, s.cfgSampleSize, s.cfgHistoryMult, s.cfgInitHistory, s.cfgKModifier, s.cfgChannels,
    s.cfgSampleRate)

section
variable {i : Instr} {s t : State}

/-! ## The configuration -/

theorem configSame_iff : configSame s t ↔ t.config = s.config := by
  simp only [configSame, State.config, Prod.mk.injEq]

/-- An enqueue writes the queue, the wake flag, the log and the response (R264 to R269). -/
theorem checkedEnqueue_frame (key : Time) (bytes : List Byte) (s : State) :
    ∃ queue awake log resp, checkedEnqueue key bytes s =
      { s with jbQueue := queue, drainAwake := awake, log := log, resp := resp } := by
  rcases checkedEnqueue_cases key bytes s with ⟨-, h⟩ | ⟨-, -, h⟩ | ⟨-, -, h⟩ <;> rw [h]
  · exact ⟨_, _, _, _, rfl⟩
  · rcases enqueue_cases key bytes s with ⟨-, h⟩ | ⟨-, -, -, h⟩ | ⟨-, -, -, h⟩ | ⟨-, h⟩ <;> rw [h]
    · exact ⟨_, _, _, _, rfl⟩
    · exact ⟨_, _, _, _, rfl⟩
    · exact ⟨_, _, _, _, rfl⟩
    · rcases admit_cases key bytes s with ⟨_, -, h⟩ | ⟨-, -, h⟩ | ⟨-, -, h⟩ <;> exact ⟨_, _, _, _, h⟩
  · exact ⟨_, _, _, _, rfl⟩

theorem LockedEffect.config (h : LockedEffect s t) (hmode : s.mode ≠ .unconfigured) : t.config = s.config := by
  cases h with
  | configured _ _ _ _ _ _ _ hfrom _ => exact absurd hfrom hmode
  | enqueued key bytes =>
    obtain ⟨_, _, _, _, h⟩ := checkedEnqueue_frame key bytes s
    rw [h]
    rfl
  | drained h =>
    rw [h.frame]
    rfl
  | _ => rfl

theorem exec_configSame (h : exec i s = .next t) (hreset : i ≠ .hReset) (hmode : s.mode ≠ .unconfigured) :
    configSame s t := by
  cases hi : takesLock i with
  | false =>
    obtain ⟨hdecoder, -⟩ := unitsKeepApart i s t h
    obtain ⟨hconfig, -⟩ := hdecoder hi
    exact hconfig
  | true => exact configSame_iff.mpr ((exec_locked hi hreset h).config hmode)

/-! ## Overlapping commands -/

/-- No frame is decoded over one whose enqueue is still to come (R372, U10; log 9, log 38). -/
theorem admitFrame_overlapping (go : Outcome) (hmode : s.mode = .ready) (hpend : s.decPend = true) :
    admitFrame s go = .refused .overlappingDecode := by
  rw [admitFrame, if_neg (not_not.mpr hmode), if_pos hpend]

theorem exec_hReset_overlapping (hlock : s.lock = false) (hpend : s.decPend = true) :
    exec .hReset s = .refused .resetDuringDecode :=
  (underLock_free s _ hlock).trans (if_pos hpend)

end

/-! ## The obligations -/

/-- Settles O56: the decoder keeps what it shares, and of the effects under the lock only that of an admitted
CONFIGURE writes the configuration. -/
theorem configurationImmutable : Obligations.ConfigurationImmutable := by
  intro i s t h hreset hmode
  refine ⟨exec_configSame h hreset hmode, ?_⟩
  rintro ⟨m, a, b, c, d, e, r, rfl⟩ hlock
  rw [exec_hConfigure m r a b c d e hlock, if_pos hmode] at h
  cases h
  rfl

/-- Settles O60: DECODE and the frame kinds share one admission, which tests the mode first. -/
theorem overlapRefused : Obligations.OverlapRefused := by
  intro key payload s hpend
  have overlapping (hmode : s.mode = .ready) (go : Outcome) : admitFrame s go = .refused .overlappingDecode :=
    admitFrame_overlapping go hmode hpend
  have outside (hmode : s.mode ≠ .ready) (go : Outcome) :
      admitFrame s go = .next { s with resp := .status .badMode } :=
    admitFrame_not_ready go hmode
  exact ⟨fun hmode => overlapping hmode _, fun hlock => exec_hReset_overlapping hlock hpend,
    fun hmode => ⟨overlapping hmode _, overlapping hmode _, overlapping hmode _, overlapping hmode _⟩,
    fun hmode => ⟨outside hmode _, outside hmode _, outside hmode _, outside hmode _, outside hmode _⟩⟩

end Sys2Proof.Machine
